-- ==== Sys2Proof/Word.lean ====
section
/-! DEFINITION. The widths of the machine: bytes, words, physical addresses (`spec/00_scope.md` rules R7, R11, R12). -/

namespace Sys2Proof

/-- A byte, bits 7 to 0 (R11). -/
abbrev Byte := BitVec 8

/-- A 16-bit word, bits 15 to 0 (R11). -/
abbrev Word := BitVec 16

/-- A 20-bit physical address, A19 to A0 (R11, R50). -/
abbrev PhysAddr := BitVec 20

/-- The operand width that a `w` field selects: byte for `w = 0`, word for `w = 1` (R82). -/
inductive Width where
  | byte
  | word
  deriving DecidableEq, Repr

/-- The width in bits, the `n` of the instruction rules. -/
abbrev Width.bits : Width → Nat
  | .byte => 8
  | .word => 16

end Sys2Proof
end

