-- ==== Sys2Proof/Config.lean ====
section
/-! DEFINITION. What the spec leaves free (`UNDEF(n)` of `spec/00_scope.md` rule R17). A free value has no body: nothing
can be proved of what it is. -/

namespace Sys2Proof

/-- The places where the spec leaves a value undefined. Together with the draw number of `State` a site names one
draw, so that two draws are unrelated (R17; log 4). -/
inductive Site where
  /-- the undefined flag at this bit position of FLAGS (U1) -/
  | flag (bit : Nat)
  /-- the X bit at this position of a stored FLAGS image (U2) -/
  | xBit (bit : Nat)
  /-- AH where the ASCII adjust variants differ (U18) -/
  | adjustAH
  /-- AL where the decimal adjust variants differ (U18) -/
  | adjustAL
  /-- CF where the decimal adjust variants differ (U18) -/
  | adjustCF
  /-- the quotient register after a divide error (U8) -/
  | quotient
  /-- the remainder register after a divide error (U8) -/
  | remainder
  /-- a general register, by its field code, after a RESET event (U14) -/
  | resetReg (code : Nat)
  /-- the choice old or new for the queued byte at this distance (U9) -/
  | queued (slot : Nat)
  /-- the spare status bit S7 (U21) -/
  | s7
  /-- whether INTA floats in hold acknowledge, which is not settled (R356) -/
  | intaFloats
  deriving DecidableEq, Repr

/-- A free bit for a draw number and a site. -/
opaque Config.undefBit : Nat → Site → Bool

/-- A free byte for a draw number and a site. -/
opaque Config.undefByte : Nat → Site → Byte

/-- A free word for a draw number and a site. -/
opaque Config.undefWord : Nat → Site → Word

/-- What a read, with this draw number, of a byte of memory that nothing has written gives (D2, D21; log 3). -/
opaque Config.unwrittenByte : Nat → PhysAddr → Byte

/-- What a device answers, for this draw number, at this port when no input is listed (D2; log 8). -/
opaque Config.portByte : Nat → Word → Byte

/-- What a device in memory answers, for this draw number, at this address when no input is listed (D2; log 28). -/
opaque Config.deviceByte : Nat → PhysAddr → Byte

/-- What a read of an address where nothing answers gives, for this draw number (D2, U15; log 28). -/
opaque Config.nothingByte : Nat → PhysAddr → Byte

end Sys2Proof
end

