-- ==== Sys2Proof/Syntax.lean ====
section
/-! DEFINITION. The instructions of DS Table 2, one constructor per row of `spec/opcode_table.json`, in the table's
order, with their operands (`spec/30_encoding.md`). The three prefix rows are instructions of their own (log 1). -/

namespace Sys2Proof

/-- A 3-bit register field, named by its 16-bit column (R86): code 000 is `ax` up to code 111 `di`. Under `w = 0`
the same codes name AL CL DL BL AH CH DH BH in that order. -/
inductive RegField where
  | ax | cx | dx | bx | sp | bp | si | di
  deriving DecidableEq, Repr

/-- A 2-bit segment register field (R87): 00 ES, 01 CS, 10 SS, 11 DS. -/
inductive SReg where
  | es | cs | ss | ds
  deriving DecidableEq, Repr

/-- The register part of an effective address, in the order of the `r/m` codes 000 to 111 (R89). -/
inductive Base where
  | bxSi | bxDi | bpSi | bpDi | si | di | bp | bx
  deriving DecidableEq, Repr

/-- A memory operand, `mod` other than 11 (R88, R89). -/
inductive MemOp where
  /-- `mod = 00`, `r/m = 110`: the two bytes after the second byte are the effective address -/
  | direct (addr : Word)
  /-- `mod = 00`, no displacement; `r/m = 110` is not one of these -/
  | ind (b : Base)
  /-- `mod = 01`, a sign-extended byte -/
  | disp8 (b : Base) (d : Byte)
  /-- `mod = 10`, a word -/
  | disp16 (b : Base) (d : Word)
  deriving DecidableEq, Repr

/-- A register or memory operand, the `mod` and `r/m` fields with their displacement (R88). -/
inductive RM where
  | reg (r : RegField)
  | mem (m : MemOp)
  deriving DecidableEq, Repr

/-- The `d` field: 0 from REG, 1 to REG (R83). -/
inductive Dir where
  | fromReg | toReg
  deriving DecidableEq, Repr

/-- The `v` field: a count of one, or the count in CL (R85). -/
inductive ShiftCount where
  | one | cl
  deriving DecidableEq, Repr

/-- The immediate of `100000sw` with its `s:w` pair (R84): 00 and 10 a byte, 01 a word, 11 a byte sign-extended to
a word. -/
inductive GrpImm where
  | byte (s : Bool) (d : Byte)
  | word (d : Word)
  | wordSx (d : Byte)
  deriving DecidableEq, Repr

/-- One constructor per row of the opcode table. -/
inductive Instr where
  -- Data transfer
  | movRmReg (d : Dir) (w : Width) (reg : RegField) (rm : RM)
  | movRmImm (w : Width) (rm : RM) (imm : BitVec w.bits)
  | movRegImm (w : Width) (reg : RegField) (imm : BitVec w.bits)
  | movAccMem (w : Width) (addr : Word)
  | movMemAcc (w : Width) (addr : Word)
  | movSregRm (sr : SReg) (rm : RM)
  | movRmSreg (sr : SReg) (rm : RM)
  | pushRm (rm : RM)
  | pushReg (reg : RegField)
  | pushSreg (sr : SReg)
  | popRm (rm : RM)
  | popReg (reg : RegField)
  | popSreg (sr : SReg)
  | xchgRmReg (w : Width) (reg : RegField) (rm : RM)
  | xchgAcc (reg : RegField)
  | inFixed (w : Width) (port : Byte)
  | inVar (w : Width)
  | outFixed (w : Width) (port : Byte)
  | outVar (w : Width)
  | xlat
  | lea (reg : RegField) (m : MemOp)
  | lds (reg : RegField) (m : MemOp)
  | les (reg : RegField) (m : MemOp)
  | lahf
  | sahf
  | pushf
  | popf
  -- Arithmetic
  | addRmReg (d : Dir) (w : Width) (reg : RegField) (rm : RM)
  | addRmImm (g : GrpImm) (rm : RM)
  | addAccImm (w : Width) (imm : BitVec w.bits)
  | adcRmReg (d : Dir) (w : Width) (reg : RegField) (rm : RM)
  | adcRmImm (g : GrpImm) (rm : RM)
  | adcAccImm (w : Width) (imm : BitVec w.bits)
  | incRm (w : Width) (rm : RM)
  | incReg (reg : RegField)
  | aaa
  | daa
  | subRmReg (d : Dir) (w : Width) (reg : RegField) (rm : RM)
  | subRmImm (g : GrpImm) (rm : RM)
  | subAccImm (w : Width) (imm : BitVec w.bits)
  | sbbRmReg (d : Dir) (w : Width) (reg : RegField) (rm : RM)
  | sbbRmImm (g : GrpImm) (rm : RM)
  | sbbAccImm (w : Width) (imm : BitVec w.bits)
  | decRm (w : Width) (rm : RM)
  | decReg (reg : RegField)
  | negRm (w : Width) (rm : RM)
  | cmpRmReg (d : Dir) (w : Width) (reg : RegField) (rm : RM)
  | cmpRmImm (g : GrpImm) (rm : RM)
  | cmpAccImm (w : Width) (imm : BitVec w.bits)
  | aas
  | das
  | mulRm (w : Width) (rm : RM)
  | imulRm (w : Width) (rm : RM)
  | aam
  | divRm (w : Width) (rm : RM)
  | idivRm (w : Width) (rm : RM)
  | aad
  | cbw
  | cwd
  -- Logic
  | notRm (w : Width) (rm : RM)
  | shlRm (c : ShiftCount) (w : Width) (rm : RM)
  | shrRm (c : ShiftCount) (w : Width) (rm : RM)
  | sarRm (c : ShiftCount) (w : Width) (rm : RM)
  | rolRm (c : ShiftCount) (w : Width) (rm : RM)
  | rorRm (c : ShiftCount) (w : Width) (rm : RM)
  | rclRm (c : ShiftCount) (w : Width) (rm : RM)
  | rcrRm (c : ShiftCount) (w : Width) (rm : RM)
  | andRmReg (d : Dir) (w : Width) (reg : RegField) (rm : RM)
  | andRmImm (w : Width) (rm : RM) (imm : BitVec w.bits)
  | andAccImm (w : Width) (imm : BitVec w.bits)
  | testRmReg (w : Width) (reg : RegField) (rm : RM)
  | testRmImm (w : Width) (rm : RM) (imm : BitVec w.bits)
  | testAccImm (w : Width) (imm : BitVec w.bits)
  | orRmReg (d : Dir) (w : Width) (reg : RegField) (rm : RM)
  | orRmImm (w : Width) (rm : RM) (imm : BitVec w.bits)
  | orAccImm (w : Width) (imm : BitVec w.bits)
  | xorRmReg (d : Dir) (w : Width) (reg : RegField) (rm : RM)
  | xorRmImm (w : Width) (rm : RM) (imm : BitVec w.bits)
  | xorAccImm (w : Width) (imm : BitVec w.bits)
  -- String manipulation
  | rep (z : Bool)
  | movs (w : Width)
  | cmps (w : Width)
  | scas (w : Width)
  | lods (w : Width)
  | stos (w : Width)
  -- Control transfer
  | callNear (disp : Word)
  | callRm (rm : RM)
  | callFar (off seg : Word)
  | callFarMem (m : MemOp)
  | jmpNear (disp : Word)
  | jmpShort (disp : Byte)
  | jmpRm (rm : RM)
  | jmpFar (off seg : Word)
  | jmpFarMem (m : MemOp)
  | ret
  | retImm (k : Word)
  | retf
  | retfImm (k : Word)
  | je (disp : Byte)
  | jl (disp : Byte)
  | jle (disp : Byte)
  | jb (disp : Byte)
  | jbe (disp : Byte)
  | jp (disp : Byte)
  | jo (disp : Byte)
  | js (disp : Byte)
  | jne (disp : Byte)
  | jnl (disp : Byte)
  | jnle (disp : Byte)
  | jnb (disp : Byte)
  | jnbe (disp : Byte)
  | jnp (disp : Byte)
  | jno (disp : Byte)
  | jns (disp : Byte)
  | loop (disp : Byte)
  | loopz (disp : Byte)
  | loopnz (disp : Byte)
  | jcxz (disp : Byte)
  | intType (t : Byte)
  | int3
  | into
  | iret
  -- Processor control
  | clc
  | cmc
  | stc
  | cld
  | std
  | cli
  | sti
  | hlt
  | wait
  | esc (hi lo : BitVec 3) (rm : RM)
  | lock
  | segOverride (sr : SReg)
  deriving DecidableEq, Repr

end Sys2Proof
end

