-- ==== Sys2Proof/WellFormed.lean ====
section
/-! DEFINITION. Which instructions have an encoding the spec admits. Widths, field ranges and the memory-only operands
of R107 are carried by the types of `Instr`; three checks are left. -/

namespace Sys2Proof

/-- `mod = 00` with `r/m = 110` is the direct address, so `[BP]` without a displacement has no encoding (R88). -/
def MemOp.wf : MemOp → Bool
  | .ind .bp => false
  | .ind _ => true
  | .direct _ => true
  | .disp8 _ _ => true
  | .disp16 _ _ => true

/-- A register operand always has an encoding; a memory operand as `MemOp.wf` says. -/
def RM.wf : RM → Bool
  | .reg _ => true
  | .mem m => m.wf

/-- The instruction has an encoding: its memory operand has one, and CS is no destination of MOV or POP (R106). -/
def Instr.wf : Instr → Bool
  | .movRmReg _ _ _ rm => rm.wf
  | .movRmImm _ rm _ => rm.wf
  | .movRegImm _ _ _ => true
  | .movAccMem _ _ => true
  | .movMemAcc _ _ => true
  | .movSregRm sr rm => sr != .cs && rm.wf
  | .movRmSreg _ rm => rm.wf
  | .pushRm rm => rm.wf
  | .pushReg _ => true
  | .pushSreg _ => true
  | .popRm rm => rm.wf
  | .popReg _ => true
  | .popSreg sr => sr != .cs
  | .xchgRmReg _ _ rm => rm.wf
  | .xchgAcc _ => true
  | .inFixed _ _ => true
  | .inVar _ => true
  | .outFixed _ _ => true
  | .outVar _ => true
  | .xlat => true
  | .lea _ m => m.wf
  | .lds _ m => m.wf
  | .les _ m => m.wf
  | .lahf => true
  | .sahf => true
  | .pushf => true
  | .popf => true
  | .addRmReg _ _ _ rm => rm.wf
  | .addRmImm _ rm => rm.wf
  | .addAccImm _ _ => true
  | .adcRmReg _ _ _ rm => rm.wf
  | .adcRmImm _ rm => rm.wf
  | .adcAccImm _ _ => true
  | .incRm _ rm => rm.wf
  | .incReg _ => true
  | .aaa => true
  | .daa => true
  | .subRmReg _ _ _ rm => rm.wf
  | .subRmImm _ rm => rm.wf
  | .subAccImm _ _ => true
  | .sbbRmReg _ _ _ rm => rm.wf
  | .sbbRmImm _ rm => rm.wf
  | .sbbAccImm _ _ => true
  | .decRm _ rm => rm.wf
  | .decReg _ => true
  | .negRm _ rm => rm.wf
  | .cmpRmReg _ _ _ rm => rm.wf
  | .cmpRmImm _ rm => rm.wf
  | .cmpAccImm _ _ => true
  | .aas => true
  | .das => true
  | .mulRm _ rm => rm.wf
  | .imulRm _ rm => rm.wf
  | .aam => true
  | .divRm _ rm => rm.wf
  | .idivRm _ rm => rm.wf
  | .aad => true
  | .cbw => true
  | .cwd => true
  | .notRm _ rm => rm.wf
  | .shlRm _ _ rm => rm.wf
  | .shrRm _ _ rm => rm.wf
  | .sarRm _ _ rm => rm.wf
  | .rolRm _ _ rm => rm.wf
  | .rorRm _ _ rm => rm.wf
  | .rclRm _ _ rm => rm.wf
  | .rcrRm _ _ rm => rm.wf
  | .andRmReg _ _ _ rm => rm.wf
  | .andRmImm _ rm _ => rm.wf
  | .andAccImm _ _ => true
  | .testRmReg _ _ rm => rm.wf
  | .testRmImm _ rm _ => rm.wf
  | .testAccImm _ _ => true
  | .orRmReg _ _ _ rm => rm.wf
  | .orRmImm _ rm _ => rm.wf
  | .orAccImm _ _ => true
  | .xorRmReg _ _ _ rm => rm.wf
  | .xorRmImm _ rm _ => rm.wf
  | .xorAccImm _ _ => true
  | .rep _ => true
  | .movs _ => true
  | .cmps _ => true
  | .scas _ => true
  | .lods _ => true
  | .stos _ => true
  | .callNear _ => true
  | .callRm rm => rm.wf
  | .callFar _ _ => true
  | .callFarMem m => m.wf
  | .jmpNear _ => true
  | .jmpShort _ => true
  | .jmpRm rm => rm.wf
  | .jmpFar _ _ => true
  | .jmpFarMem m => m.wf
  | .ret => true
  | .retImm _ => true
  | .retf => true
  | .retfImm _ => true
  | .je _ => true
  | .jl _ => true
  | .jle _ => true
  | .jb _ => true
  | .jbe _ => true
  | .jp _ => true
  | .jo _ => true
  | .js _ => true
  | .jne _ => true
  | .jnl _ => true
  | .jnle _ => true
  | .jnb _ => true
  | .jnbe _ => true
  | .jnp _ => true
  | .jno _ => true
  | .jns _ => true
  | .loop _ => true
  | .loopz _ => true
  | .loopnz _ => true
  | .jcxz _ => true
  | .intType _ => true
  | .int3 => true
  | .into => true
  | .iret => true
  | .clc => true
  | .cmc => true
  | .stc => true
  | .cld => true
  | .std => true
  | .cli => true
  | .sti => true
  | .hlt => true
  | .wait => true
  | .esc _ _ rm => rm.wf
  | .lock => true
  | .segOverride _ => true

end Sys2Proof
end

