-- ==== Sys2Proof/Decode.lean ====
section
/-! DEFINITION. The decoder, total on any bytes and rejecting by name (`spec/30_encoding.md` rules R80 to R108), and
after it the encoder, written from the same tables. The host's numbering of table words is at the end (log 17). -/

namespace Sys2Proof

/-- Why bytes are no instruction of DS Table 2. The spec refuses each of these (R108). -/
inductive DecodeError where
  /-- a first byte that Table 2 does not list (U3) -/
  | undocumentedOpcode (b0 : Byte)
  /-- a middle field of the second byte that Table 2 does not list for this first byte (U3) -/
  | undocumentedSubcode (b0 : Byte) (field : RegField)
  /-- MOV to CS or POP CS (R106, U4) -/
  | csDestination
  /-- `mod = 11` where the operand has to be in memory (R107, U5) -/
  | registerForm (b0 : Byte)
  /-- AAM or AAD with a second byte other than 0AH (R100, U6) -/
  | adjustByte (b1 : Byte)
  /-- the bytes end inside an instruction; six bytes never do (R81) -/
  | truncated
  deriving DecidableEq, Repr

/-! ## Fields -/

/-- The 16-bit value of two bytes, the low one first (R55, R91). -/
def leWord (lo hi : Byte) : Word := hi ++ lo

/-- Bits 7:0 of a word. -/
def wordLo (w : Word) : Byte := w.setWidth 8

/-- Bits 15:8 of a word. -/
def wordHi (w : Word) : Byte := (w >>> 8).setWidth 8

/-- The register field with this code (R86). -/
def RegField.ofCode (c : BitVec 3) : RegField :=
  match c.toNat with
  | 0 => .ax
  | 1 => .cx
  | 2 => .dx
  | 3 => .bx
  | 4 => .sp
  | 5 => .bp
  | 6 => .si
  | _ => .di

/-- The 3-bit code of a register field (R86). -/
def RegField.code : RegField → BitVec 3
  | .ax => 0
  | .cx => 1
  | .dx => 2
  | .bx => 3
  | .sp => 4
  | .bp => 5
  | .si => 6
  | .di => 7

/-- The segment register with this code (R87). -/
def SReg.ofCode (c : BitVec 2) : SReg :=
  match c.toNat with
  | 0 => .es
  | 1 => .cs
  | 2 => .ss
  | _ => .ds

/-- The 2-bit code of a segment register (R87). -/
def SReg.code : SReg → BitVec 2
  | .es => 0
  | .cs => 1
  | .ss => 2
  | .ds => 3

/-- The base with this `r/m` code (R89). -/
def Base.ofCode (c : BitVec 3) : Base :=
  match c.toNat with
  | 0 => .bxSi
  | 1 => .bxDi
  | 2 => .bpSi
  | 3 => .bpDi
  | 4 => .si
  | 5 => .di
  | 6 => .bp
  | _ => .bx

/-- The `r/m` code of a base (R89). -/
def Base.code : Base → BitVec 3
  | .bxSi => 0
  | .bxDi => 1
  | .bpSi => 2
  | .bpDi => 3
  | .si => 4
  | .di => 5
  | .bp => 6
  | .bx => 7

/-- The width a `w` bit selects (R82). -/
def Width.ofBit (b : Bool) : Width := if b then .word else .byte

/-- The `w` bit of a width (R82). -/
def Width.bit : Width → BitVec 1
  | .byte => 0
  | .word => 1

/-- The direction a `d` bit selects (R83). -/
def Dir.ofBit (b : Bool) : Dir := if b then .toReg else .fromReg

/-- The `d` bit of a direction (R83). -/
def Dir.bit : Dir → BitVec 1
  | .fromReg => 0
  | .toReg => 1

/-- The count a `v` bit selects (R85). -/
def ShiftCount.ofBit (b : Bool) : ShiftCount := if b then .cl else .one

/-- The `v` bit of a count (R85). -/
def ShiftCount.bit : ShiftCount → BitVec 1
  | .one => 0
  | .cl => 1

/-- Three bits of a byte as a register field, the lowest at `lo`. -/
def fieldAt (lo : Nat) (b : Byte) : RegField := RegField.ofCode (b.extractLsb' lo 3)

/-- Two bits of a byte as a segment register, the lower at `lo`. -/
def sregAt (lo : Nat) (b : Byte) : SReg := SReg.ofCode (b.extractLsb' lo 2)

/-- The `w` bit at bit 0. -/
def wAt (b : Byte) : Width := Width.ofBit (b.getLsbD 0)

/-- The `d` bit at bit 1. -/
def dAt (b : Byte) : Dir := Dir.ofBit (b.getLsbD 1)

/-! ## Taking bytes from the front -/

/-- An instruction and the bytes behind it, or the reason there is none. -/
abbrev Decoded := Except DecodeError (Instr × List Byte)

/-- Take one byte. -/
def withByte (bs : List Byte) (k : Byte → List Byte → Decoded) : Decoded :=
  match bs with
  | [] => .error .truncated
  | b :: r => k b r

/-- Take two bytes as a word, the low byte first (R91, R92). -/
def withWord (bs : List Byte) (k : Word → List Byte → Decoded) : Decoded :=
  withByte bs fun lo r => withByte r fun hi r => k (leWord lo hi) r

/-- Take an immediate of the operand width (R91). -/
def withImm (w : Width) (bs : List Byte) (k : BitVec w.bits → List Byte → Decoded) : Decoded :=
  match w, k with
  | .byte, k => withByte bs k
  | .word, k => withWord bs k

/-- Take the second byte and its displacement (R88, R89): the middle field, the operand, the bytes behind. -/
def withRM (bs : List Byte) (k : RegField → RM → List Byte → Decoded) : Decoded :=
  withByte bs fun b r =>
    let mid := fieldAt 3 b
    let base := Base.ofCode (b.extractLsb' 0 3)
    match (b.extractLsb' 6 2).toNat with
    | 0 => if base = .bp then withWord r fun a r => k mid (.mem (.direct a)) r else k mid (.mem (.ind base)) r
    | 1 => withByte r fun d r => k mid (.mem (.disp8 base d)) r
    | 2 => withWord r fun d r => k mid (.mem (.disp16 base d)) r
    | _ => k mid (.reg (fieldAt 0 b)) r

/-- As `withRM`, for an operand that has to be in memory (R107). -/
def withMem (b0 : Byte) (bs : List Byte) (k : RegField → MemOp → List Byte → Decoded) : Decoded :=
  withRM bs fun mid rm r =>
    match rm with
    | .reg _ => .error (.registerForm b0)
    | .mem m => k mid m r

/-- Take the immediate of `100000sw` (R84). -/
def withGrpImm (b0 : Byte) (bs : List Byte) (k : GrpImm → List Byte → Decoded) : Decoded :=
  match b0.getLsbD 1, b0.getLsbD 0 with
  | s, false => withByte bs fun d r => k (.byte s d) r
  | false, true => withWord bs fun d r => k (.word d) r
  | true, true => withByte bs fun d r => k (.wordSx d) r

/-- The instruction is complete. -/
def done (i : Instr) (r : List Byte) : Decoded := .ok (i, r)

/-! ## The opcode map (R96) -/

/-- Form A of the eight operations by their code `ooo` (R97, R160). -/
def aluRmRegOf : RegField → Dir → Width → RegField → RM → Instr
  | .ax => .addRmReg
  | .cx => .orRmReg
  | .dx => .adcRmReg
  | .bx => .sbbRmReg
  | .sp => .andRmReg
  | .bp => .subRmReg
  | .si => .xorRmReg
  | .di => .cmpRmReg

/-- Form C of the eight operations by their code `ooo` (R97, R160). -/
def aluAccImmOf : RegField → (w : Width) → BitVec w.bits → Instr
  | .ax => .addAccImm
  | .cx => .orAccImm
  | .dx => .adcAccImm
  | .bx => .sbbAccImm
  | .sp => .andAccImm
  | .bp => .subAccImm
  | .si => .xorAccImm
  | .di => .cmpAccImm

/-- First bytes 00 to 3F: `00 ooo` and three more bits. -/
def decodeAlu (b0 : Byte) (r : List Byte) : Decoded :=
  let ooo := fieldAt 3 b0
  match (b0.extractLsb' 0 3).toNat with
  | 4 => withImm .byte r fun imm r => done (aluAccImmOf ooo .byte imm) r
  | 5 => withImm .word r fun imm r => done (aluAccImmOf ooo .word imm) r
  | 6 => if b0.getLsbD 5 then done (.segOverride (sregAt 3 b0)) r else done (.pushSreg (sregAt 3 b0)) r
  | 7 =>
    match ooo with
    | .ax => done (.popSreg .es) r
    | .cx => .error .csDestination
    | .dx => done (.popSreg .ss) r
    | .bx => done (.popSreg .ds) r
    | .sp => done .daa r
    | .bp => done .das r
    | .si => done .aaa r
    | .di => done .aas r
  | _ => withRM r fun mid rm r => done (aluRmRegOf ooo (dAt b0) (wAt b0) mid rm) r

/-- First bytes 70 to 7F, the conditional jumps (R98). -/
def jccOf : Nat → Byte → Instr
  | 0 => .jo
  | 1 => .jno
  | 2 => .jb
  | 3 => .jnb
  | 4 => .je
  | 5 => .jne
  | 6 => .jbe
  | 7 => .jnbe
  | 8 => .js
  | 9 => .jns
  | 10 => .jp
  | 11 => .jnp
  | 12 => .jl
  | 13 => .jnl
  | 14 => .jle
  | _ => .jnle

/-- First bytes 80 to 83: the immediate group. The logic operations have no `s = 1` form (R84, R108). -/
def decodeGrpImm (b0 : Byte) (r : List Byte) : Decoded :=
  withRM r fun mid rm r =>
    match mid with
    | .ax => withGrpImm b0 r fun g r => done (.addRmImm g rm) r
    | .dx => withGrpImm b0 r fun g r => done (.adcRmImm g rm) r
    | .bx => withGrpImm b0 r fun g r => done (.sbbRmImm g rm) r
    | .bp => withGrpImm b0 r fun g r => done (.subRmImm g rm) r
    | .di => withGrpImm b0 r fun g r => done (.cmpRmImm g rm) r
    | .cx => if b0.getLsbD 1 then .error (.undocumentedSubcode b0 mid)
      else withImm (wAt b0) r fun imm r => done (.orRmImm (wAt b0) rm imm) r
    | .sp => if b0.getLsbD 1 then .error (.undocumentedSubcode b0 mid)
      else withImm (wAt b0) r fun imm r => done (.andRmImm (wAt b0) rm imm) r
    | .si => if b0.getLsbD 1 then .error (.undocumentedSubcode b0 mid)
      else withImm (wAt b0) r fun imm r => done (.xorRmImm (wAt b0) rm imm) r

/-- The segment register of the middle field `0 reg` (R87); codes 100 to 111 are not listed. -/
def sregOfField : RegField → Option SReg
  | .ax => some .es
  | .cx => some .cs
  | .dx => some .ss
  | .bx => some .ds
  | .sp => none
  | .bp => none
  | .si => none
  | .di => none

/-- First bytes 80 to 8F, by the low half. -/
def decode8 (b0 : Byte) (r : List Byte) : Nat → Decoded
  | 0 => decodeGrpImm b0 r
  | 1 => decodeGrpImm b0 r
  | 2 => decodeGrpImm b0 r
  | 3 => decodeGrpImm b0 r
  | 4 => withRM r fun mid rm r => done (.testRmReg .byte mid rm) r
  | 5 => withRM r fun mid rm r => done (.testRmReg .word mid rm) r
  | 6 => withRM r fun mid rm r => done (.xchgRmReg .byte mid rm) r
  | 7 => withRM r fun mid rm r => done (.xchgRmReg .word mid rm) r
  | 12 => withRM r fun mid rm r =>
    match sregOfField mid with
    | some sr => done (.movRmSreg sr rm) r
    | none => .error (.undocumentedSubcode b0 mid)
  | 13 => withMem b0 r fun mid m r => done (.lea mid m) r
  | 14 => withRM r fun mid rm r =>
    match sregOfField mid with
    | some .cs => .error .csDestination
    | some sr => done (.movSregRm sr rm) r
    | none => .error (.undocumentedSubcode b0 mid)
  | 15 => withRM r fun mid rm r =>
    if mid = .ax then done (.popRm rm) r else .error (.undocumentedSubcode b0 mid)
  | _ => withRM r fun mid rm r => done (.movRmReg (dAt b0) (wAt b0) mid rm) r

/-- First bytes 90 to 9F, by the low half. -/
def decode9 (b0 : Byte) (r : List Byte) : Nat → Decoded
  | 8 => done .cbw r
  | 9 => done .cwd r
  | 10 => withWord r fun o r => withWord r fun s r => done (.callFar o s) r
  | 11 => done .wait r
  | 12 => done .pushf r
  | 13 => done .popf r
  | 14 => done .sahf r
  | 15 => done .lahf r
  | _ => done (.xchgAcc (fieldAt 0 b0)) r

/-- First bytes A0 to AF, by the low half. -/
def decodeA (b0 : Byte) (r : List Byte) : Nat → Decoded
  | 0 => withWord r fun a r => done (.movAccMem .byte a) r
  | 1 => withWord r fun a r => done (.movAccMem .word a) r
  | 2 => withWord r fun a r => done (.movMemAcc .byte a) r
  | 3 => withWord r fun a r => done (.movMemAcc .word a) r
  | 4 => done (.movs .byte) r
  | 5 => done (.movs .word) r
  | 6 => done (.cmps .byte) r
  | 7 => done (.cmps .word) r
  | 8 => withImm .byte r fun imm r => done (.testAccImm .byte imm) r
  | 9 => withImm .word r fun imm r => done (.testAccImm .word imm) r
  | 10 => done (.stos .byte) r
  | 11 => done (.stos .word) r
  | 12 => done (.lods .byte) r
  | 13 => done (.lods .word) r
  | 14 => done (.scas .byte) r
  | 15 => done (.scas .word) r
  | _ => .error (.undocumentedOpcode b0)

/-- First bytes C0 to CF, by the low half. -/
def decodeC (b0 : Byte) (r : List Byte) : Nat → Decoded
  | 2 => withWord r fun k r => done (.retImm k) r
  | 3 => done .ret r
  | 4 => withMem b0 r fun mid m r => done (.les mid m) r
  | 5 => withMem b0 r fun mid m r => done (.lds mid m) r
  | 6 => withRM r fun mid rm r =>
    if mid = .ax then withImm .byte r fun imm r => done (.movRmImm .byte rm imm) r
    else .error (.undocumentedSubcode b0 mid)
  | 7 => withRM r fun mid rm r =>
    if mid = .ax then withImm .word r fun imm r => done (.movRmImm .word rm imm) r
    else .error (.undocumentedSubcode b0 mid)
  | 10 => withWord r fun k r => done (.retfImm k) r
  | 11 => done .retf r
  | 12 => done .int3 r
  | 13 => withByte r fun t r => done (.intType t) r
  | 14 => done .into r
  | 15 => done .iret r
  | _ => .error (.undocumentedOpcode b0)

/-- First bytes D0 to D3: shifts and rotates by the middle field; 110 is not listed (R201). -/
def decodeShift (b0 : Byte) (r : List Byte) : Decoded :=
  let c := ShiftCount.ofBit (b0.getLsbD 1)
  withRM r fun mid rm r =>
    match mid with
    | .ax => done (.rolRm c (wAt b0) rm) r
    | .cx => done (.rorRm c (wAt b0) rm) r
    | .dx => done (.rclRm c (wAt b0) rm) r
    | .bx => done (.rcrRm c (wAt b0) rm) r
    | .sp => done (.shlRm c (wAt b0) rm) r
    | .bp => done (.shrRm c (wAt b0) rm) r
    | .si => .error (.undocumentedSubcode b0 mid)
    | .di => done (.sarRm c (wAt b0) rm) r

/-- AAM and AAD: the second byte is 0AH (R100). -/
def decodeAdjust (i : Instr) (r : List Byte) : Decoded :=
  withByte r fun b1 r => if b1 = 0x0A#8 then done i r else .error (.adjustByte b1)

/-- First bytes D0 to DF, by the low half. -/
def decodeD (b0 : Byte) (r : List Byte) : Nat → Decoded
  | 0 => decodeShift b0 r
  | 1 => decodeShift b0 r
  | 2 => decodeShift b0 r
  | 3 => decodeShift b0 r
  | 4 => decodeAdjust .aam r
  | 5 => decodeAdjust .aad r
  | 6 => .error (.undocumentedOpcode b0)
  | 7 => done .xlat r
  | _ => withRM r fun mid rm r => done (.esc (b0.extractLsb' 0 3) mid.code rm) r

/-- First bytes E0 to EF, by the low half. -/
def decodeE (b0 : Byte) (r : List Byte) : Nat → Decoded
  | 0 => withByte r fun d r => done (.loopnz d) r
  | 1 => withByte r fun d r => done (.loopz d) r
  | 2 => withByte r fun d r => done (.loop d) r
  | 3 => withByte r fun d r => done (.jcxz d) r
  | 4 => withByte r fun p r => done (.inFixed .byte p) r
  | 5 => withByte r fun p r => done (.inFixed .word p) r
  | 6 => withByte r fun p r => done (.outFixed .byte p) r
  | 7 => withByte r fun p r => done (.outFixed .word p) r
  | 8 => withWord r fun d r => done (.callNear d) r
  | 9 => withWord r fun d r => done (.jmpNear d) r
  | 10 => withWord r fun o r => withWord r fun s r => done (.jmpFar o s) r
  | 11 => withByte r fun d r => done (.jmpShort d) r
  | 12 => done (.inVar .byte) r
  | 13 => done (.inVar .word) r
  | 14 => done (.outVar .byte) r
  | 15 => done (.outVar .word) r
  | _ => .error (.undocumentedOpcode b0)

/-- First bytes F6 and F7 by the middle field; only TEST has immediate data (R81, R215), 001 is not listed. -/
def decodeGrp3 (b0 : Byte) (r : List Byte) : Decoded :=
  withRM r fun mid rm r =>
    match mid with
    | .ax => withImm (wAt b0) r fun imm r => done (.testRmImm (wAt b0) rm imm) r
    | .cx => .error (.undocumentedSubcode b0 mid)
    | .dx => done (.notRm (wAt b0) rm) r
    | .bx => done (.negRm (wAt b0) rm) r
    | .sp => done (.mulRm (wAt b0) rm) r
    | .bp => done (.imulRm (wAt b0) rm) r
    | .si => done (.divRm (wAt b0) rm) r
    | .di => done (.idivRm (wAt b0) rm) r

/-- First byte FE by the middle field. -/
def decodeFE (b0 : Byte) (r : List Byte) : Decoded :=
  withRM r fun mid rm r =>
    match mid with
    | .ax => done (.incRm .byte rm) r
    | .cx => done (.decRm .byte rm) r
    | .dx | .bx | .sp | .bp | .si | .di => .error (.undocumentedSubcode b0 mid)

/-- First byte FF by the middle field; the intersegment forms have a memory operand only (R107). -/
def decodeFF (b0 : Byte) (r : List Byte) : Decoded :=
  withRM r fun mid rm r =>
    match mid with
    | .ax => done (.incRm .word rm) r
    | .cx => done (.decRm .word rm) r
    | .dx => done (.callRm rm) r
    | .bx =>
      match rm with
      | .reg _ => .error (.registerForm b0)
      | .mem m => done (.callFarMem m) r
    | .sp => done (.jmpRm rm) r
    | .bp =>
      match rm with
      | .reg _ => .error (.registerForm b0)
      | .mem m => done (.jmpFarMem m) r
    | .si => done (.pushRm rm) r
    | .di => .error (.undocumentedSubcode b0 mid)

/-- First bytes F0 to FF, by the low half. -/
def decodeF (b0 : Byte) (r : List Byte) : Nat → Decoded
  | 0 => done .lock r
  | 2 => done (.rep false) r
  | 3 => done (.rep true) r
  | 4 => done .hlt r
  | 5 => done .cmc r
  | 6 => decodeGrp3 b0 r
  | 7 => decodeGrp3 b0 r
  | 8 => done .clc r
  | 9 => done .stc r
  | 10 => done .cli r
  | 11 => done .sti r
  | 12 => done .cld r
  | 13 => done .std r
  | 14 => decodeFE b0 r
  | 15 => decodeFF b0 r
  | _ => .error (.undocumentedOpcode b0)

/-- The opcode map by first byte (R96): the high half selects the row of the map. -/
def decodeOp (b0 : Byte) (r : List Byte) : Decoded :=
  match (b0.extractLsb' 4 4).toNat with
  | 0 => decodeAlu b0 r
  | 1 => decodeAlu b0 r
  | 2 => decodeAlu b0 r
  | 3 => decodeAlu b0 r
  | 4 => if b0.getLsbD 3 then done (.decReg (fieldAt 0 b0)) r else done (.incReg (fieldAt 0 b0)) r
  | 5 => if b0.getLsbD 3 then done (.popReg (fieldAt 0 b0)) r else done (.pushReg (fieldAt 0 b0)) r
  | 6 => .error (.undocumentedOpcode b0)
  | 7 => withByte r fun d r => done (jccOf (b0.extractLsb' 0 4).toNat d) r
  | 8 => decode8 b0 r (b0.extractLsb' 0 4).toNat
  | 9 => decode9 b0 r (b0.extractLsb' 0 4).toNat
  | 10 => decodeA b0 r (b0.extractLsb' 0 4).toNat
  | 11 =>
    if b0.getLsbD 3 then withImm .word r fun imm r => done (.movRegImm .word (fieldAt 0 b0) imm) r
    else withImm .byte r fun imm r => done (.movRegImm .byte (fieldAt 0 b0) imm) r
  | 12 => decodeC b0 r (b0.extractLsb' 0 4).toNat
  | 13 => decodeD b0 r (b0.extractLsb' 0 4).toNat
  | 14 => decodeE b0 r (b0.extractLsb' 0 4).toNat
  | _ => decodeF b0 r (b0.extractLsb' 0 4).toNat

/-- Decode one instruction, or one prefix byte, from the front of the bytes at CS:IP (R104). -/
def decode (bs : List Byte) : Decoded := withByte bs decodeOp

/-! ## The encoder -/

/-- A word as two bytes, the low one first (R55). -/
def leBytes (w : Word) : List Byte := [wordLo w, wordHi w]

/-- The bytes of an immediate (R91). -/
def immBytes (w : Width) (imm : BitVec w.bits) : List Byte :=
  match w, imm with
  | .byte, imm => [imm]
  | .word, imm => leBytes imm

/-- A second byte from its fields (R88). -/
def modRM (md : BitVec 2) (mid rm : BitVec 3) : Byte := md ++ mid ++ rm

/-- The second byte and displacement of a memory operand (R88, R89). -/
def memBytes (mid : BitVec 3) : MemOp → List Byte
  | .direct a => modRM 0 mid 6 :: leBytes a
  | .ind b => [modRM 0 mid b.code]
  | .disp8 b d => [modRM 1 mid b.code, d]
  | .disp16 b d => modRM 2 mid b.code :: leBytes d

/-- The second byte and displacement of a register or memory operand (R88, R89). -/
def rmBytes (mid : BitVec 3) : RM → List Byte
  | .reg r => [modRM 3 mid r.code]
  | .mem m => memBytes mid m

/-- A first byte of five opcode bits and a register field. -/
def opReg (op : BitVec 5) (r : RegField) : Byte := op ++ r.code

/-- A first byte of seven opcode bits and `w`. -/
def opW (op : BitVec 7) (w : Width) : Byte := op ++ w.bit

/-- A first byte of six opcode bits, `d` (or `v`) and `w`. -/
def opDW (op : BitVec 6) (d : BitVec 1) (w : Width) : Byte := op ++ d ++ w.bit

/-- The first byte of `100000sw` (R84). -/
def GrpImm.op : GrpImm → Byte
  | .byte false _ => 0x80
  | .byte true _ => 0x82
  | .word _ => 0x81
  | .wordSx _ => 0x83

/-- The immediate bytes of `100000sw` (R84). -/
def GrpImm.bytes : GrpImm → List Byte
  | .byte _ d => [d]
  | .word d => leBytes d
  | .wordSx d => [d]

/-- Form A of R160: `00 ooo 0 d w`, second byte, displacement. -/
def encRmReg (op : BitVec 6) (d : Dir) (w : Width) (reg : RegField) (rm : RM) : List Byte :=
  opDW op d.bit w :: rmBytes reg.code rm

/-- Form B of R160: `100000 s w`, `ooo` in the second byte, displacement, data. -/
def encRmImm (ooo : BitVec 3) (g : GrpImm) (rm : RM) : List Byte := g.op :: (rmBytes ooo rm ++ g.bytes)

/-- An immediate to a register or memory operand with a plain `w` (R213, R122, R215). -/
def encGrp (op : BitVec 7) (ooo : BitVec 3) (w : Width) (rm : RM) (imm : BitVec w.bits) : List Byte :=
  opW op w :: (rmBytes ooo rm ++ immBytes w imm)

/-- Form C of R160: `00 ooo 1 0 w`, data. -/
def encAccImm (op : BitVec 7) (w : Width) (imm : BitVec w.bits) : List Byte := opW op w :: immBytes w imm

/-- A shift or rotate (R201). -/
def encShift (ooo : BitVec 3) (c : ShiftCount) (w : Width) (rm : RM) : List Byte :=
  opDW 0b110100 c.bit w :: rmBytes ooo rm

/-- The bytes of a well-formed instruction (DS Table 2, rules R121 to R311, column Source). -/
def encode : Instr → List Byte
  | .movRmReg d w reg rm => encRmReg 0b100010 d w reg rm
  | .movRmImm w rm imm => encGrp 0b1100011 0 w rm imm
  | .movRegImm w reg imm => ((0b1011#4 ++ w.bit) ++ reg.code : Byte) :: immBytes w imm
  | .movAccMem w addr => opW 0b1010000 w :: leBytes addr
  | .movMemAcc w addr => opW 0b1010001 w :: leBytes addr
  | .movSregRm sr rm => 0x8E :: rmBytes (0#1 ++ sr.code) rm
  | .movRmSreg sr rm => 0x8C :: rmBytes (0#1 ++ sr.code) rm
  | .pushRm rm => 0xFF :: rmBytes 6 rm
  | .pushReg reg => [opReg 0b01010 reg]
  | .pushSreg sr => [(0b000#3 ++ sr.code) ++ 0b110#3]
  | .popRm rm => 0x8F :: rmBytes 0 rm
  | .popReg reg => [opReg 0b01011 reg]
  | .popSreg sr => [(0b000#3 ++ sr.code) ++ 0b111#3]
  | .xchgRmReg w reg rm => opW 0b1000011 w :: rmBytes reg.code rm
  | .xchgAcc reg => [opReg 0b10010 reg]
  | .inFixed w port => [opW 0b1110010 w, port]
  | .inVar w => [opW 0b1110110 w]
  | .outFixed w port => [opW 0b1110011 w, port]
  | .outVar w => [opW 0b1110111 w]
  | .xlat => [0xD7]
  | .lea reg m => 0x8D :: memBytes reg.code m
  | .lds reg m => 0xC5 :: memBytes reg.code m
  | .les reg m => 0xC4 :: memBytes reg.code m
  | .lahf => [0x9F]
  | .sahf => [0x9E]
  | .pushf => [0x9C]
  | .popf => [0x9D]
  | .addRmReg d w reg rm => encRmReg 0b000000 d w reg rm
  | .addRmImm g rm => encRmImm 0 g rm
  | .addAccImm w imm => encAccImm 0b0000010 w imm
  | .adcRmReg d w reg rm => encRmReg 0b000100 d w reg rm
  | .adcRmImm g rm => encRmImm 2 g rm
  | .adcAccImm w imm => encAccImm 0b0001010 w imm
  | .incRm w rm => opW 0b1111111 w :: rmBytes 0 rm
  | .incReg reg => [opReg 0b01000 reg]
  | .aaa => [0x37]
  | .daa => [0x27]
  | .subRmReg d w reg rm => encRmReg 0b001010 d w reg rm
  | .subRmImm g rm => encRmImm 5 g rm
  | .subAccImm w imm => encAccImm 0b0010110 w imm
  | .sbbRmReg d w reg rm => encRmReg 0b000110 d w reg rm
  | .sbbRmImm g rm => encRmImm 3 g rm
  | .sbbAccImm w imm => encAccImm 0b0001110 w imm
  | .decRm w rm => opW 0b1111111 w :: rmBytes 1 rm
  | .decReg reg => [opReg 0b01001 reg]
  | .negRm w rm => opW 0b1111011 w :: rmBytes 3 rm
  | .cmpRmReg d w reg rm => encRmReg 0b001110 d w reg rm
  | .cmpRmImm g rm => encRmImm 7 g rm
  | .cmpAccImm w imm => encAccImm 0b0011110 w imm
  | .aas => [0x3F]
  | .das => [0x2F]
  | .mulRm w rm => opW 0b1111011 w :: rmBytes 4 rm
  | .imulRm w rm => opW 0b1111011 w :: rmBytes 5 rm
  | .aam => [0xD4, 0x0A]
  | .divRm w rm => opW 0b1111011 w :: rmBytes 6 rm
  | .idivRm w rm => opW 0b1111011 w :: rmBytes 7 rm
  | .aad => [0xD5, 0x0A]
  | .cbw => [0x98]
  | .cwd => [0x99]
  | .notRm w rm => opW 0b1111011 w :: rmBytes 2 rm
  | .shlRm c w rm => encShift 4 c w rm
  | .shrRm c w rm => encShift 5 c w rm
  | .sarRm c w rm => encShift 7 c w rm
  | .rolRm c w rm => encShift 0 c w rm
  | .rorRm c w rm => encShift 1 c w rm
  | .rclRm c w rm => encShift 2 c w rm
  | .rcrRm c w rm => encShift 3 c w rm
  | .andRmReg d w reg rm => encRmReg 0b001000 d w reg rm
  | .andRmImm w rm imm => encGrp 0b1000000 4 w rm imm
  | .andAccImm w imm => encAccImm 0b0010010 w imm
  | .testRmReg w reg rm => opW 0b1000010 w :: rmBytes reg.code rm
  | .testRmImm w rm imm => encGrp 0b1111011 0 w rm imm
  | .testAccImm w imm => encAccImm 0b1010100 w imm
  | .orRmReg d w reg rm => encRmReg 0b000010 d w reg rm
  | .orRmImm w rm imm => encGrp 0b1000000 1 w rm imm
  | .orAccImm w imm => encAccImm 0b0000110 w imm
  | .xorRmReg d w reg rm => encRmReg 0b001100 d w reg rm
  | .xorRmImm w rm imm => encGrp 0b1000000 6 w rm imm
  | .xorAccImm w imm => encAccImm 0b0011010 w imm
  | .rep z => [if z then 0xF3 else 0xF2]
  | .movs w => [opW 0b1010010 w]
  | .cmps w => [opW 0b1010011 w]
  | .scas w => [opW 0b1010111 w]
  | .lods w => [opW 0b1010110 w]
  | .stos w => [opW 0b1010101 w]
  | .callNear disp => 0xE8 :: leBytes disp
  | .callRm rm => 0xFF :: rmBytes 2 rm
  | .callFar off seg => 0x9A :: (leBytes off ++ leBytes seg)
  | .callFarMem m => 0xFF :: memBytes 3 m
  | .jmpNear disp => 0xE9 :: leBytes disp
  | .jmpShort disp => [0xEB, disp]
  | .jmpRm rm => 0xFF :: rmBytes 4 rm
  | .jmpFar off seg => 0xEA :: (leBytes off ++ leBytes seg)
  | .jmpFarMem m => 0xFF :: memBytes 5 m
  | .ret => [0xC3]
  | .retImm k => 0xC2 :: leBytes k
  | .retf => [0xCB]
  | .retfImm k => 0xCA :: leBytes k
  | .je disp => [0x74, disp]
  | .jl disp => [0x7C, disp]
  | .jle disp => [0x7E, disp]
  | .jb disp => [0x72, disp]
  | .jbe disp => [0x76, disp]
  | .jp disp => [0x7A, disp]
  | .jo disp => [0x70, disp]
  | .js disp => [0x78, disp]
  | .jne disp => [0x75, disp]
  | .jnl disp => [0x7D, disp]
  | .jnle disp => [0x7F, disp]
  | .jnb disp => [0x73, disp]
  | .jnbe disp => [0x77, disp]
  | .jnp disp => [0x7B, disp]
  | .jno disp => [0x71, disp]
  | .jns disp => [0x79, disp]
  | .loop disp => [0xE2, disp]
  | .loopz disp => [0xE1, disp]
  | .loopnz disp => [0xE0, disp]
  | .jcxz disp => [0xE3, disp]
  | .intType t => [0xCD, t]
  | .int3 => [0xCC]
  | .into => [0xCE]
  | .iret => [0xCF]
  | .clc => [0xF8]
  | .cmc => [0xF5]
  | .stc => [0xF9]
  | .cld => [0xFC]
  | .std => [0xFD]
  | .cli => [0xFA]
  | .sti => [0xFB]
  | .hlt => [0xF4]
  | .wait => [0x9B]
  | .esc hi lo rm => ((0b11011#5 ++ hi : Byte)) :: rmBytes lo rm
  | .lock => [0xF0]
  | .segOverride sr => [(0b001#3 ++ sr.code) ++ 0b110#3]

/-! ## Words of the opcode table -/

/-- The longest instruction without prefixes, in bytes (R81). -/
def maxBytes : Nat := 6

/-- The bytes of a table word, in the order of memory. `match` and `mask` of the table put the first byte b0 in bits
15 to 8 and the second byte in bits 7 to 0 of the first 16-bit word (R113); a longer word's later bytes count on from
bit 16 (log 17). -/
def tableByte (nbits w : Nat) (k : Nat) : Byte :=
  if nbits ≤ 8 then (if k = 0 then BitVec.ofNat 8 w else 0)
  else if k = 0 then BitVec.ofNat 8 (w / 2 ^ 8)
  else if k = 1 then BitVec.ofNat 8 w
  else BitVec.ofNat 8 (w / 2 ^ (8 * k))

/-- The table word as the bytes of the longest instruction, zero above `nbits`. -/
def tableBytes (nbits w : Nat) : List Byte :=
  (List.range maxBytes).map (tableByte nbits (w % 2 ^ nbits))

/-- The instruction the decoder reads from a word of the opcode table. -/
def decodeTableWord (nbits w : Nat) : Option Instr :=
  match decode (tableBytes nbits w) with
  | .ok (i, _) => some i
  | .error _ => none

end Sys2Proof
end

