-- ==== Sys2Proof/Machine/State.lean ====
section
/-! DEFINITION. Everything the spec gives the machine, as plain data (`spec/10_state.md`), the ways a step can stop, and
the state after reset. -/

namespace Sys2Proof.Machine

/-- The eight general registers (R21). The byte registers are their halves (R23), no storage of their own. -/
structure Regs where
  ax : Word
  cx : Word
  dx : Word
  bx : Word
  sp : Word
  bp : Word
  si : Word
  di : Word
  deriving DecidableEq, Repr

/-- The four segment registers (R25). -/
structure SRegs where
  es : Word
  cs : Word
  ss : Word
  ds : Word
  deriving DecidableEq, Repr

/-- The nine flags of FLAGS (R27 to R36). The X bits hold nothing (R37). -/
structure Flags where
  cf : Bool
  pf : Bool
  af : Bool
  zf : Bool
  sf : Bool
  tf : Bool
  /-- IF -/
  ifl : Bool
  df : Bool
  /-- OF -/
  ofl : Bool
  deriving DecidableEq, Repr

/-- The prefixes in force for the instruction that follows them (R42). -/
structure Pfx where
  /-- the overriding segment register -/
  seg : Option SReg
  /-- the repeat kind, its `z` bit -/
  rep : Option Bool
  /-- LOCK is active -/
  lock : Bool
  deriving DecidableEq, Repr

/-- The run state (R43); the last one is the model's own. Hold acknowledge is independent of it: `BusState.owner`. -/
inductive RunState where
  | running
  /-- after HLT -/
  | halted
  /-- executing WAIT with TEST HIGH -/
  | waiting
  /-- RESET is HIGH -/
  | heldInReset
  /-- behind RESET, while another master has the bus: an NMI edge of the internal reset sequence is to be entered before
  the first instruction (R445, D35; log 31) -/
  | restarting
  deriving DecidableEq, Repr

/-! ## The bus -/

/-- The eight kinds of bus cycle (R343). -/
inductive BusKind where
  | interruptAcknowledge | readIo | writeIo | halt | codeAccess | readMemory | writeMemory | passive
  deriving DecidableEq, Repr

/-- One bus cycle as the pins show it. A level or a byte is none where the spec gives none: the line floats, carries
nothing, or is not said. -/
structure BusCycle where
  kind : BusKind
  /-- A19 to A0 in T1 (R332, R333) -/
  addr : Option PhysAddr
  /-- the level of BHE in T1, true for HIGH (R334) -/
  bhe : Option Bool
  /-- S4 S3 (R333) -/
  seg : Option (BitVec 2)
  /-- the byte on D15 to D8 (R59) -/
  high : Option Byte
  /-- the byte on D7 to D0 (R59) -/
  low : Option Byte
  /-- LOCK is active in the cycle; in the second acknowledge cycle until T2 (R344, R353) -/
  lock : Bool
  deriving DecidableEq, Repr

/-- The queue operations that QS1 and QS0 report (R346). -/
inductive QueueOp where
  | noOperation | firstByte | empty | subsequentByte
  deriving DecidableEq, Repr

/-- Who has the local bus: the CPU, or in hold acknowledge the master behind HOLD or behind a request and grant pin
(R43, R345, R349). -/
inductive BusOwner where
  | cpu | hold | rq0 | rq1
  deriving DecidableEq, Repr

/-- The local bus, and what the present step has put out. -/
structure BusState where
  owner : BusOwner
  /-- a request on RQ/GT0 that is recorded and not yet granted (R71, R345) -/
  rq0 : Bool
  /-- the same on RQ/GT1 -/
  rq1 : Bool
  /-- the model's own: the bytes that devices in memory will answer (R8 `MEMMAP`; log 28) -/
  memIn : List Byte
  /-- the model's own: every byte written to a device in memory, in order (log 28) -/
  memOut : List Host.Cell
  /-- the bytes of the ports that hold RAM or ROM (R8 `IOMAP`; log 28) -/
  ioMem : List Host.Cell
  /-- the model's own: the bus cycles of the step just made (R46; log 20) -/
  cycles : List BusCycle
  /-- the model's own: the queue operations of the step just made; in the maximum mode they are put out (R46, R346,
  `State.queueStatus`; log 20) -/
  queueOps : List QueueOp
  deriving DecidableEq, Repr

/-! ## Parameters and environment -/

/-- The MN/MX strap (R8 `MODE`, R331, D1). -/
inductive Strap where
  | minimum | maximum
  deriving DecidableEq, Repr

/-- Which IP a divide error pushes (R8 `DIV_FAULT_RETURN`, D13). -/
inductive FaultReturn where
  /-- the instruction behind the DIV or IDIV -/
  | next
  /-- the DIV or IDIV itself -/
  | same
  deriving DecidableEq, Repr

/-- The most negative quotient IDIV accepts (R8 `IDIV_MIN_Q8`, `IDIV_MIN_Q16`, D14). -/
inductive LeastQuotient where
  /-- -127, or -32767 -/
  | symmetric
  /-- -128, or -32768 -/
  | full
  deriving DecidableEq, Repr

/-- What answers at a physical address or a port (R8 `MEMMAP`, `IOMAP`, D2). -/
inductive RegionKind where
  | ram
  /-- a write is ignored (R382) -/
  | rom
  /-- reads are inputs, writes are outputs -/
  | device
  /-- a write is ignored; a read gives this byte, or a free one -/
  | nothing (value : Option Byte)
  deriving DecidableEq, Repr

/-- A range of physical addresses or of ports, both ends included. -/
structure Region where
  first : Nat
  last : Nat
  kind : RegionKind
  deriving DecidableEq, Repr

/-- The parameters of R8 that the machine's behaviour depends on. No step changes them. -/
structure Params where
  strap : Strap
  divFaultReturn : FaultReturn
  idivMinQ8 : LeastQuotient
  idivMinQ16 : LeastQuotient
  /-- addresses in no region hold RAM -/
  memMap : List Region
  /-- ports in no region are devices -/
  ioMap : List Region
  deriving DecidableEq, Repr

/-- A byte that another master writes, to memory or to a port (R10, R50, R51). -/
inductive MasterWrite where
  | memory (addr : PhysAddr) (value : Byte)
  | port (addr : Word) (value : Byte)
  deriving DecidableEq, Repr

/-- What other masters write between two bus cycles of the CPU (R347, R62, U27). -/
structure Gap where
  /-- by a master that is granted the local bus there -/
  localWrites : List MasterWrite
  /-- by a master of the system bus -/
  systemWrites : List MasterWrite
  deriving DecidableEq, Repr

/-- What the environment gives one step (R8 `ENV`, R46, D20; log 7). -/
structure EnvInput where
  /-- RESET sampled HIGH at the beginning of the step -/
  reset : Bool
  /-- RESET goes HIGH in the step, behind this many of its bus cycles (R340, R430) -/
  resetAfter : Option Nat
  /-- HOLD HIGH at the beginning of the step (minimum mode, R349) -/
  hold : Bool
  /-- a pulse on RQ/GT0 (maximum mode): a request, or the end of a grant (R345) -/
  rq0 : Bool
  /-- a pulse on RQ/GT1 -/
  rq1 : Bool
  /-- a LOW-to-HIGH edge of NMI before the step's recognition point -/
  nmiEdge : Bool
  /-- an edge that arrives during the recognition point (R395), or during the internal reset sequence (R445) -/
  nmiLate : Bool
  /-- an NMI of the internal reset sequence is taken before the first instruction, not after it (R445, D35) -/
  nmiFirst : Bool
  /-- INTR HIGH at the recognition point -/
  intr : Bool
  /-- the byte of the second interrupt acknowledge cycle (R384, D25) -/
  inta : Byte
  /-- TEST HIGH (inactive) when WAIT examines it -/
  testHigh : Bool
  /-- what the master that holds the local bus writes in a step of hold acknowledge (R74) -/
  busWrites : List MasterWrite
  /-- what masters of the system bus write before the step (maximum mode, R62, R71) -/
  systemWrites : List MasterWrite
  /-- what other masters write before the first bus cycle of the step, before the second, and so on (R347) -/
  gaps : List Gap
  /-- how many bytes the queue holds when the bus is granted (R40; log 29) -/
  prefetched : Nat
  /-- the EU goes on in this step of hold acknowledge, as far as it needs no bus cycle (R43, R74; log 29) -/
  euGoes : Bool
  deriving DecidableEq, Repr

/-- The quiescent environment (D20). -/
def EnvInput.quiescent : EnvInput :=
  { reset := false, resetAfter := Option.none, hold := false, rq0 := false, rq1 := false, nmiEdge := false,
    nmiLate := false, nmiFirst := false, intr := false, inta := 0, testHigh := false, busWrites := [],
    systemWrites := [], gaps := [], prefetched := 0, euGoes := false }

/-- The CPU has the bus, nothing is recorded and nothing has been put out. -/
def BusState.idle : BusState :=
  { owner := .cpu, rq0 := false, rq1 := false, memIn := [], memOut := [], ioMem := [], cycles := [],
    queueOps := [] }

/-- The spec's own choices for a model with no platform given (D2, D13, D14); the strap is the model's (log 26). -/
def Params.decided : Params :=
  { strap := .minimum, divFaultReturn := .next, idivMinQ8 := .symmetric, idivMinQ16 := .symmetric, memMap := [],
    ioMap := [] }

/-- No prefix in force. -/
def Pfx.none : Pfx := { seg := Option.none, rep := Option.none, lock := false }

/-- The machine. -/
structure State where
  regs : Regs
  sregs : SRegs
  /-- the offset in CS of the next instruction byte the EU takes (R26) -/
  ip : Word
  flags : Flags
  /-- the bytes written so far; a byte not listed was never written (D2, D21; log 3) -/
  mem : List Host.Cell
  /-- the instruction stream as the queue holds it: the byte at this distance from the end of the instruction in
  progress if it may differ from memory, none where it is memory's (R40, R70; log 6) -/
  queue : List (Option Byte)
  /-- the NMI latch (R41) -/
  nmi : Bool
  /-- the prefix state (R42) -/
  pfx : Pfx
  run : RunState
  /-- no recognition at the next boundary (R44, R396) -/
  inhibit : Bool
  /-- the local bus (R43, R71, R345, R349), and the outputs of the step just made (R46) -/
  bus : BusState
  /-- the repeated string primitive, or the WAIT, that goes on at the next step; IP is at its opcode (R231, R308) -/
  cont : Option Instr
  /-- the parameters (R8) -/
  par : Params
  /-- the model's own: the inputs of the steps to come (log 7) -/
  env : List EnvInput
  /-- the model's own: the input of every step behind the end of `env` (log 7) -/
  rest : EnvInput
  /-- the model's own: the input of this step (log 7) -/
  input : EnvInput
  /-- the model's own: the bytes devices will answer (log 8) -/
  ioIn : List Byte
  /-- the model's own: every byte written to a port, in order (log 8) -/
  ioOut : List (Word × Byte)
  /-- the model's own: the draw number of the free values (log 4) -/
  draws : Nat
  deriving DecidableEq, Repr

/-- The 8086 has no fault: every event is an interrupt with an entry (R380, R382), so nothing raises one. -/
inductive Fault where
  deriving DecidableEq, Repr

/-- Where the spec says REFUSE (R17). Each one is safe: the model stops where the hardware goes on in a way no source
describes. -/
inductive Refusal where
  /-- raised by no meaning; the arm of an instruction without one; safe -/
  | notModelled (mnemonic : String)
  /-- raised by the fetch: bytes that DS Table 2 does not list (R108); safe -/
  | undecodable (why : DecodeError)
  /-- raised by MOV and POP to CS, which no bytes decode to (R106); safe -/
  | csDestination
  /-- raised by a second prefix of one kind (R103, D18); safe -/
  | duplicatePrefix
  /-- raised by a non-string instruction behind REP (R102, D18); safe -/
  | repBeforeNonString
  /-- raised by an interrupt through an element that was never written (R381); safe -/
  | vectorUnwritten (type : Byte)
  /-- raised by an interrupt whose pushed words overlap the element it reads (R386, D11); safe -/
  | vectorUnderStack (type : Byte)
  deriving DecidableEq, Repr

/-- The three outcomes of a step of this machine. -/
abbrev Out := Host.Outcome State Fault Refusal

/-- All nine flags 0 (R45). -/
def Flags.clear : Flags :=
  { cf := false, pf := false, af := false, zf := false, sf := false, tf := false, ifl := false, df := false,
    ofl := false }

/-- The machine right after reset (R45, R430). The general registers have no value there; 0000H is a DESIGN CHOICE
(log 2). -/
def State.reset : State :=
  { regs := { ax := 0, cx := 0, dx := 0, bx := 0, sp := 0, bp := 0, si := 0, di := 0 }
    sregs := { es := 0, cs := 0xFFFF, ss := 0, ds := 0 }
    ip := 0
    flags := Flags.clear
    mem := []
    queue := []
    nmi := false
    pfx := Pfx.none
    run := .running
    inhibit := false
    bus := BusState.idle
    cont := none
    par := Params.decided
    env := []
    rest := EnvInput.quiescent
    input := EnvInput.quiescent
    ioIn := []
    ioOut := []
    draws := 0 }

end Sys2Proof.Machine
end

