-- ==== Sys2Proof/Machine/Ops.lean ====
section
/-! DEFINITION. The named operations over memory, registers, stack, I/O space and interrupts (`spec/00_scope.md` rules
R13 to R17, `spec/20_memory.md`, `spec/60_exceptions.md`). They take memory as RAM that only the CPU uses; the memory map
and other masters come in with the bus cycles of an instruction (`Machine/Interleave.lean`). -/

namespace Sys2Proof.Machine

/-! ## Memory -/

/-- The byte listed at an address; none where nothing was written. -/
def Memory.get : List Host.Cell → Nat → Option Byte
  | [], _ => none
  | (x, y) :: r, a => if a = x then some y else Memory.get r a

/-- Write one byte, keeping the addresses strictly rising. -/
def Memory.set : List Host.Cell → Nat → Byte → List Host.Cell
  | [], a, b => [(a, b)]
  | (x, y) :: r, a, b =>
    if a < x then (a, b) :: (x, y) :: r
    else if a = x then (a, b) :: r
    else (x, y) :: Memory.set r a b

/-- Addresses rise strictly, from `lo` on, inside the 2^20 bytes of R50. -/
def Memory.wfFrom : Nat → List Host.Cell → Bool
  | _, [] => true
  | lo, (x, _) :: r => decide (lo ≤ x) && decide (x < 2 ^ 20) && Memory.wfFrom (x + 1) r

/-- The canonical form. An unlisted byte reads as no value, so no listed entry can equal it. -/
def Memory.wf (m : List Host.Cell) : Bool := Memory.wfFrom 0 m

/-- The physical address of offset `o` in the segment whose register holds `s` (R53). -/
def phys (s o : Word) : PhysAddr := s.setWidth 20 * 16 + o.setWidth 20

/-- The byte of memory at a physical address, none if it was never written. -/
def State.cell (s : State) (a : PhysAddr) : Option Byte := Memory.get s.mem a.toNat

/-- `MemRead(a, 1)` (R14). A byte never written reads as a free value (D2, D21; log 3). -/
def State.readByte (s : State) (a : PhysAddr) : Byte := (s.cell a).getD (Config.unwrittenByte s.draws a)

/-- `MemWrite(a, 1, v)` (R14). -/
def State.writeByte (s : State) (a : PhysAddr) (v : Byte) : State :=
  { s with mem := Memory.set s.mem a.toNat v }

/-- `LRead(seg, o, 1)` (R14). -/
def State.lreadByte (s : State) (seg o : Word) : Byte := s.readByte (phys seg o)

/-- `LRead(seg, o, 2)`: the second byte's offset wraps inside the segment (R14, R57). -/
def State.lreadWord (s : State) (seg o : Word) : Word := leWord (s.lreadByte seg o) (s.lreadByte seg (o + 1))

/-- `LWrite(seg, o, 1, v)` (R14). -/
def State.lwriteByte (s : State) (seg o : Word) (v : Byte) : State := s.writeByte (phys seg o) v

/-- `LWrite(seg, o, 2, v)`, the low byte first (R14, R55, R57, R60). -/
def State.lwriteWord (s : State) (seg o : Word) (v : Word) : State :=
  (s.lwriteByte seg o (wordLo v)).lwriteByte seg (o + 1) (wordHi v)

/-- `LRead(seg, o, W)`. -/
def State.lread (s : State) (w : Width) (seg o : Word) : BitVec w.bits :=
  match w with
  | .byte => s.lreadByte seg o
  | .word => s.lreadWord seg o

/-- `LWrite(seg, o, W, v)`. -/
def State.lwrite (s : State) (w : Width) (seg o : Word) (v : BitVec w.bits) : State :=
  match w, v with
  | .byte, v => s.lwriteByte seg o v
  | .word, v => s.lwriteWord seg o v

/-! ## Registers -/

/-- `r16[i]` (R21). -/
def Regs.get (g : Regs) : RegField → Word
  | .ax => g.ax
  | .cx => g.cx
  | .dx => g.dx
  | .bx => g.bx
  | .sp => g.sp
  | .bp => g.bp
  | .si => g.si
  | .di => g.di

/-- `r16[i] <- v` (R21). -/
def Regs.set (g : Regs) (r : RegField) (v : Word) : Regs :=
  match r with
  | .ax => { g with ax := v }
  | .cx => { g with cx := v }
  | .dx => { g with dx := v }
  | .bx => { g with bx := v }
  | .sp => { g with sp := v }
  | .bp => { g with bp := v }
  | .si => { g with si := v }
  | .di => { g with di := v }

/-- The word register that holds the byte register of this code: AL and AH are halves of AX, and so on (R22, R23). -/
def byteHome : RegField → RegField
  | .ax => .ax
  | .cx => .cx
  | .dx => .dx
  | .bx => .bx
  | .sp => .ax
  | .bp => .cx
  | .si => .dx
  | .di => .bx

/-- The byte register of this code is a high half: AH, CH, DH or BH (R22). -/
def byteIsHigh : RegField → Bool
  | .ax => false
  | .cx => false
  | .dx => false
  | .bx => false
  | .sp => true
  | .bp => true
  | .si => true
  | .di => true

/-- `r8[i]` (R22, R23). -/
def Regs.get8 (g : Regs) (r : RegField) : Byte :=
  if byteIsHigh r then wordHi (g.get (byteHome r)) else wordLo (g.get (byteHome r))

/-- `r8[i] <- v`: the other half stays (R23). -/
def Regs.set8 (g : Regs) (r : RegField) (v : Byte) : Regs :=
  g.set (byteHome r) (if byteIsHigh r then leWord (wordLo (g.get (byteHome r))) v else leWord v (wordHi (g.get (byteHome r))))

/-- `sr[i]` (R25). -/
def SRegs.get (g : SRegs) : SReg → Word
  | .es => g.es
  | .cs => g.cs
  | .ss => g.ss
  | .ds => g.ds

/-- `sr[i] <- v` (R25). -/
def SRegs.set (g : SRegs) (r : SReg) (v : Word) : SRegs :=
  match r with
  | .es => { g with es := v }
  | .cs => { g with cs := v }
  | .ss => { g with ss := v }
  | .ds => { g with ds := v }

/-- Read a register at an operand width. -/
def State.readReg (s : State) (w : Width) (r : RegField) : BitVec w.bits :=
  match w with
  | .byte => s.regs.get8 r
  | .word => s.regs.get r

/-- Write a register at an operand width. -/
def State.writeReg (s : State) (w : Width) (r : RegField) (v : BitVec w.bits) : State :=
  match w, v with
  | .byte, v => { s with regs := s.regs.set8 r v }
  | .word, v => { s with regs := s.regs.set r v }

/-! ## Stack -/

/-- `SP <- SP - 2` (R16). -/
def State.decSp (s : State) : State := { s with regs := s.regs.set .sp (s.regs.sp - 2) }

/-- `Push(v)` (R16). -/
def State.push (s : State) (v : Word) : State := s.decSp.lwriteWord s.sregs.ss (s.regs.sp - 2) v

/-- The word `Pop()` returns (R16). -/
def State.top (s : State) : Word := s.lreadWord s.sregs.ss s.regs.sp

/-- `SP <- SP + k` (R16 for k = 2). -/
def State.addSp (s : State) (k : Word) : State := { s with regs := s.regs.set .sp (s.regs.sp + k) }

/-! ## Draws and transfers -/

/-- The next draw number: what is drawn behind it is unrelated to what was drawn before (R17; log 23). -/
def State.tick (s : State) : State := { s with draws := s.draws + 1 }

/-- `UNDEF(1)` for the flag at this bit of FLAGS (U1). -/
def State.freeFlag (s : State) (bit : Nat) : Bool := Config.undefBit s.draws (.flag bit)

/-- A transfer of control inside the code segment: the queue is emptied (R40). -/
def State.jump (s : State) (o : Word) : State := { s with ip := o, queue := [] }

/-- A transfer of control to another segment: the queue is emptied (R40). -/
def State.jumpFar (s : State) (o seg : Word) : State :=
  { s with ip := o, sregs := s.sregs.set .cs seg, queue := [] }

/-- `sext_16` of a displacement byte (R93). -/
def sext16 (d : Byte) : Word := d.signExtend 16

/-! ## Interrupts -/

/-- The FLAGS word: the nine flags in their places, a free bit in each X place (R27, R37; log 5). -/
def State.flagsImage (s : State) : Word :=
  let x := fun i => BitVec.ofBool (Config.undefBit s.draws (.xBit i))
  let f := s.flags
  x 15 ++ x 14 ++ x 13 ++ x 12 ++ BitVec.ofBool f.ofl ++ BitVec.ofBool f.df ++ BitVec.ofBool f.ifl ++
    BitVec.ofBool f.tf ++ BitVec.ofBool f.sf ++ BitVec.ofBool f.zf ++ x 5 ++ BitVec.ofBool f.af ++ x 3 ++
    BitVec.ofBool f.pf ++ x 1 ++ BitVec.ofBool f.cf

/-- The nine flags of a FLAGS word; its X bits are ignored (R37, R153). -/
def Flags.ofImage (t : Word) : Flags :=
  { cf := t.getLsbD 0
    pf := t.getLsbD 2
    af := t.getLsbD 4
    zf := t.getLsbD 6
    sf := t.getLsbD 7
    tf := t.getLsbD 8
    ifl := t.getLsbD 9
    df := t.getLsbD 10
    ofl := t.getLsbD 11 }

/-- The physical address of a byte of the vector table element of a type (R381). -/
def vectorAddr (t : Byte) (k : Nat) : PhysAddr := BitVec.ofNat 20 (4 * t.toNat + k)

/-- One of the six bytes pushed from SS:SP lies in the element of the type (R386, D11). -/
def State.stackHitsVector (s : State) (t : Byte) : Bool :=
  [1, 2, 3, 4, 5, 6].any fun k => (phys s.sregs.ss (s.regs.sp - BitVec.ofNat 16 k)).toNat / 4 == t.toNat

/-- The four bytes of the element have been written (R381). -/
def State.vectorWritten (s : State) (t : Byte) : Bool :=
  [0, 1, 2, 3].all fun k => (s.cell (vectorAddr t k)).isSome

/-- The three pushes of the entry sequence, with IF and TF cleared behind the first (R386). -/
def State.pushFrame (s : State) : State :=
  let s1 := s.push s.flagsImage
  let s2 := { s1 with flags := { s1.flags with ifl := false, tf := false } }
  (s2.push s2.sregs.cs).push s2.ip

/-- The jump through the element of a type (R386). -/
def State.enterVector (s : State) (t : Byte) : State :=
  { s.jumpFar (leWord (s.readByte (vectorAddr t 0)) (s.readByte (vectorAddr t 1)))
      (leWord (s.readByte (vectorAddr t 2)) (s.readByte (vectorAddr t 3))) with run := .running }

/-- `Interrupt(t)` with the return offset in IP (R386). Each entry takes a draw number of its own. -/
def interrupt (t : Byte) (s : State) : Out :=
  if s.stackHitsVector t then .refused (.vectorUnderStack t)
  else if s.vectorWritten t then .next (s.tick.pushFrame.enterVector t)
  else .refused (.vectorUnwritten t)

/-- `IP <- Pop(); CS <- Pop()` (R261). -/
def State.returnFar (s : State) : State := ((s.addSp 2).addSp 2).jumpFar s.top (s.addSp 2).top

/-- The return from an interrupt: IP, CS and FLAGS are popped (R289, R390). -/
def State.returnInterrupt (s : State) : State :=
  let r := s.returnFar
  { r.addSp 2 with flags := Flags.ofImage r.top }

/-! ## I/O space -/

/-- The byte a device answers: the next input, or a free byte when none is listed (D2; log 8). -/
def State.portByte (s : State) (p : Word) : Byte := s.ioIn.headD (Config.portByte s.draws p)

/-- The input is used up by the read. -/
def State.portDone (s : State) : State := { s with ioIn := s.ioIn.tail }

/-- `IORead(p, W)` and the state behind it, the low port first (R15, R450, D19). -/
def State.portRead (s : State) (w : Width) (p : Word) : BitVec w.bits × State :=
  match w with
  | .byte => (s.portByte p, s.portDone)
  | .word => (leWord (s.portByte p) (s.portDone.portByte (p + 1)), s.portDone.portDone)

/-- `IOWrite(p, W, v)`, the low port first (R15, R450, D19). -/
def State.portWrite (s : State) (w : Width) (p : Word) (v : BitVec w.bits) : State :=
  match w, v with
  | .byte, v => { s with ioOut := s.ioOut ++ [(p, v)] }
  | .word, v => { s with ioOut := s.ioOut ++ [(p, wordLo v), (p + 1, wordHi v)] }

end Sys2Proof.Machine
end

