-- ==== Sys2Proof/Machine/Flags.lean ====
section
/-! DEFINITION. The flag computations (`spec/00_scope.md` rule R18) and the two-operand operations that share them
(R160, R213), then shifts and rotates (R201 to R208). -/

namespace Sys2Proof.Machine

/-! ## SZP and carries -/

/-- `PFof(r)`: the low byte has an even number of 1 bits (R18, R29). -/
def parityEven {n : Nat} (r : BitVec n) : Bool :=
  !(r.getLsbD 0 ^^ r.getLsbD 1 ^^ r.getLsbD 2 ^^ r.getLsbD 3 ^^ r.getLsbD 4 ^^ r.getLsbD 5 ^^ r.getLsbD 6 ^^
    r.getLsbD 7)

/-- `SetSZP(r)` (R18). -/
def Flags.setSZP {n : Nat} (f : Flags) (r : BitVec n) : Flags :=
  { f with sf := r.msb, zf := r == 0, pf := parityEven r }

/-- The result of `a + b + c` (R18). -/
def addResult {n : Nat} (a b : BitVec n) (c : Bool) : BitVec n := a + b + (BitVec.ofBool c).setWidth n

/-- The result of `a - b - c` (R18). -/
def subResult {n : Nat} (a b : BitVec n) (c : Bool) : BitVec n := a - b - (BitVec.ofBool c).setWidth n

/-- All six status flags of `a + b + c`: `CFadd`, `AFadd`, `OFadd` and `SetSZP` (R18). -/
def Flags.ofAdd {n : Nat} (f : Flags) (a b : BitVec n) (c : Bool) : Flags :=
  { f.setSZP (addResult a b c) with
    cf := decide (2 ^ n ≤ a.toNat + b.toNat + c.toNat)
    af := decide (16 ≤ a.toNat % 16 + b.toNat % 16 + c.toNat)
    ofl := a.msb == b.msb && (addResult a b c).msb != a.msb }

/-- All six status flags of `a - b - c`: `CFsub`, `AFsub`, `OFsub` and `SetSZP` (R18). -/
def Flags.ofSub {n : Nat} (f : Flags) (a b : BitVec n) (c : Bool) : Flags :=
  { f.setSZP (subResult a b c) with
    cf := decide (a.toNat < b.toNat + c.toNat)
    af := decide (a.toNat % 16 < b.toNat % 16 + c.toNat)
    ofl := a.msb != b.msb && (subResult a b c).msb != a.msb }

/-- The flags of a logic result: CF and OF cleared, SZP from it, AF free (R213). -/
def Flags.ofLogic {n : Nat} (f : Flags) (freeAf : Bool) (r : BitVec n) : Flags :=
  { f.setSZP r with cf := false, ofl := false, af := freeAf }

/-! ## Two-operand operations -/

/-- The operations of R160 and R213. -/
inductive AluOp where
  | add | adc | sub | sbb | cmp | and | or | xor | test
  deriving DecidableEq, Repr

/-- The destination is written: CMP and TEST write none (R173, R215). -/
def AluOp.writes : AluOp → Bool
  | .add => true
  | .adc => true
  | .sub => true
  | .sbb => true
  | .cmp => false
  | .and => true
  | .or => true
  | .xor => true
  | .test => false

/-- `f(dst, src)`, with CF where the operation reads it (R161 to R173, R214 to R217). -/
def AluOp.result {n : Nat} (op : AluOp) (cf : Bool) (a b : BitVec n) : BitVec n :=
  match op with
  | .add => addResult a b false
  | .adc => addResult a b cf
  | .sub => subResult a b false
  | .sbb => subResult a b cf
  | .cmp => subResult a b false
  | .and => a &&& b
  | .or => a ||| b
  | .xor => a ^^^ b
  | .test => a &&& b

/-- The flags behind the operation; AF of the logic operations is the free bit given (R161 to R173, R213). -/
def AluOp.flags {n : Nat} (op : AluOp) (freeAf : Bool) (f : Flags) (a b : BitVec n) : Flags :=
  match op with
  | .add => f.ofAdd a b false
  | .adc => f.ofAdd a b f.cf
  | .sub => f.ofSub a b false
  | .sbb => f.ofSub a b f.cf
  | .cmp => f.ofSub a b false
  | .and => f.ofLogic freeAf (a &&& b)
  | .or => f.ofLogic freeAf (a ||| b)
  | .xor => f.ofLogic freeAf (a ^^^ b)
  | .test => f.ofLogic freeAf (a &&& b)

/-- INC and DEC keep CF (R163, R171). -/
def Flags.keepCf (f old : Flags) : Flags := { f with cf := old.cf }

/-! ## Shifts and rotates -/

/-- The seven operations of R201. -/
inductive ShiftOp where
  | shl | shr | sar | rol | ror | rcl | rcr
  deriving DecidableEq, Repr

/-- The rotates change CF and OF only (R201). -/
def ShiftOp.isRotate : ShiftOp → Bool
  | .shl => false
  | .shr => false
  | .sar => false
  | .rol => true
  | .ror => true
  | .rcl => true
  | .rcr => true

/-- One bit, put in place `i` of an otherwise zero value. -/
def bitAt {n : Nat} (b : Bool) (i : Nat) : BitVec n := (BitVec.ofBool b).setWidth n <<< i

/-- The single-bit step on the operand and CF (R202 to R208). -/
def ShiftOp.step1 {n : Nat} (op : ShiftOp) (x : BitVec n) (cf : Bool) : BitVec n × Bool :=
  match op with
  | .shl => (x <<< 1, x.msb)
  | .shr => (x >>> 1, x.getLsbD 0)
  | .sar => (x >>> 1 ||| bitAt x.msb (n - 1), x.getLsbD 0)
  | .rol => (x <<< 1 ||| bitAt x.msb 0, x.msb)
  | .ror => (x >>> 1 ||| bitAt (x.getLsbD 0) (n - 1), x.getLsbD 0)
  | .rcl => (x <<< 1 ||| bitAt cf 0, x.msb)
  | .rcr => (x >>> 1 ||| bitAt cf (n - 1), x.getLsbD 0)

/-- The step applied `count` times (R201). -/
def ShiftOp.iter {n : Nat} (op : ShiftOp) : Nat → BitVec n → Bool → BitVec n × Bool
  | 0, x, cf => (x, cf)
  | k + 1, x, cf => op.iter k (op.step1 x cf).1 (op.step1 x cf).2

/-- OF behind a count of one: `x` is the original operand, `r` the result, `cf` the new CF (R202 to R208). -/
def ShiftOp.overflow {n : Nat} (op : ShiftOp) (x r : BitVec n) (cf : Bool) : Bool :=
  match op with
  | .shl => r.msb ^^ cf
  | .shr => x.msb
  | .sar => false
  | .rol => r.msb ^^ cf
  | .ror => r.getLsbD (n - 1) ^^ r.getLsbD (n - 2)
  | .rcl => r.msb ^^ cf
  | .rcr => r.getLsbD (n - 1) ^^ r.getLsbD (n - 2)

/-- The flags behind a count of at least one: OF defined for a count of one only, AF free behind a shift (R201). -/
def ShiftOp.flags {n : Nat} (op : ShiftOp) (freeOf freeAf : Bool) (f : Flags) (count : Nat) (x r : BitVec n)
    (cf : Bool) : Flags :=
  let g : Flags := { f with cf := cf, ofl := if count = 1 then op.overflow x r cf else freeOf }
  if op.isRotate then g else { g.setSZP r with af := freeAf }

end Sys2Proof.Machine
end

