-- ==== Sys2Proof/Machine/Operands.lean ====
section
/-! DEFINITION. The operand forms (`spec/30_encoding.md` rules R82 to R91) and the shared shapes of the instruction
families: two operands, one operand, shift, conditional jump. -/

namespace Sys2Proof.Machine

/-! ## Effective addresses -/

/-- The register part of an effective address (R89). -/
def Regs.base (g : Regs) : Base → Word
  | .bxSi => g.bx + g.si
  | .bxDi => g.bx + g.di
  | .bpSi => g.bp + g.si
  | .bpDi => g.bp + g.di
  | .si => g.si
  | .di => g.di
  | .bp => g.bp
  | .bx => g.bx

/-- The default segment of a base: SS when BP takes part, else DS (R54, R89). -/
def Base.segment : Base → SReg
  | .bxSi => .ds
  | .bxDi => .ds
  | .bpSi => .ss
  | .bpDi => .ss
  | .si => .ds
  | .di => .ds
  | .bp => .ss
  | .bx => .ds

/-- `EA` (R88, R89). -/
def State.ea (s : State) : MemOp → Word
  | .direct a => a
  | .ind b => s.regs.base b
  | .disp8 b d => s.regs.base b + sext16 d
  | .disp16 b d => s.regs.base b + d

/-- The segment of a memory operand without an override (R54, R89). -/
def MemOp.segment : MemOp → SReg
  | .direct _ => .ds
  | .ind b => Base.segment b
  | .disp8 b _ => Base.segment b
  | .disp16 b _ => Base.segment b

/-- The segment register's value for a reference whose default can be overridden (R90 `SEG`, R311). -/
def State.segOf (s : State) (dflt : SReg) : Word := s.sregs.get (s.pfx.seg.getD dflt)

/-- `SEG` of a memory operand (R90). -/
def State.memSeg (s : State) (m : MemOp) : Word := s.segOf (MemOp.segment m)

/-! ## Register or memory operands -/

/-- `RM` read (R90). -/
def State.readRM (s : State) (w : Width) : RM → BitVec w.bits
  | .reg r => s.readReg w r
  | .mem m => s.lread w (s.memSeg m) (s.ea m)

/-- `RM <- v` (R90). -/
def State.writeRM (s : State) (w : Width) (rm : RM) (v : BitVec w.bits) : State :=
  match rm with
  | .reg r => s.writeReg w r v
  | .mem m => s.lwrite w (s.memSeg m) (s.ea m) v

/-- The 32-bit pointer at a memory operand: the offset word, then the segment word (R55, R142, R253). -/
def State.readPointer (s : State) (m : MemOp) : Word × Word :=
  (s.lreadWord (s.memSeg m) (s.ea m), s.lreadWord (s.memSeg m) (s.ea m + 2))

/-- The two operands of `100000sw`, at the width its `s:w` gives: the value of RM and the immediate (R84, R160). -/
def GrpImm.width : GrpImm → Width
  | .byte _ _ => .byte
  | .word _ => .word
  | .wordSx _ => .word

/-- The immediate of `100000sw` at its operand width (R84). -/
def GrpImm.value : (g : GrpImm) → BitVec (GrpImm.width g).bits
  | .byte _ d => d
  | .word d => d
  | .wordSx d => sext16 d

/-! ## Two operands -/

/-- The operation on `dst` and `src`: flags, then the destination if the operation writes it (R160). -/
def aluApply (op : AluOp) (w : Width) (a b : BitVec w.bits) (write : State → BitVec w.bits → State) (s : State) :
    State :=
  let s1 : State := { s with flags := op.flags (s.freeFlag 4) s.flags a b }
  if op.writes then write s1 (op.result s.flags.cf a b) else s1

/-- Form A (R160). -/
def aluRmReg (op : AluOp) (d : Dir) (w : Width) (reg : RegField) (rm : RM) (s : State) : State :=
  match d with
  | .toReg => aluApply op w (s.readReg w reg) (s.readRM w rm) (fun s v => s.writeReg w reg v) s
  | .fromReg => aluApply op w (s.readRM w rm) (s.readReg w reg) (fun s v => s.writeRM w rm v) s

/-- Form B, and the immediate forms of the logic operations (R160, R213). -/
def aluRmImm (op : AluOp) (w : Width) (rm : RM) (imm : BitVec w.bits) (s : State) : State :=
  aluApply op w (s.readRM w rm) imm (fun s v => s.writeRM w rm v) s

/-- Form C: AL or AX (R160). -/
def aluAccImm (op : AluOp) (w : Width) (imm : BitVec w.bits) (s : State) : State :=
  aluApply op w (s.readReg w .ax) imm (fun s v => s.writeReg w .ax v) s

/-! ## One operand -/

/-- INC: the operand plus one, CF kept (R163). -/
def incRM (w : Width) (rm : RM) (s : State) : State :=
  let a := s.readRM w rm
  { s with flags := (s.flags.ofAdd a 1 false).keepCf s.flags }.writeRM w rm (addResult a 1 false)

/-- DEC: the operand minus one, CF kept (R171). -/
def decRM (w : Width) (rm : RM) (s : State) : State :=
  let a := s.readRM w rm
  { s with flags := (s.flags.ofSub a 1 false).keepCf s.flags }.writeRM w rm (subResult a 1 false)

/-- The count of a shift: one, or the whole of CL (R85, R201, D15). -/
def State.shiftCount (s : State) : ShiftCount → Nat
  | .one => 1
  | .cl => (s.regs.get8 .cx).toNat

/-- A shift or rotate; a count of zero changes nothing (R201). -/
def shiftRM (op : ShiftOp) (c : ShiftCount) (w : Width) (rm : RM) (s : State) : State :=
  let n := s.shiftCount c
  let x := s.readRM w rm
  let p := op.iter n x s.flags.cf
  if n = 0 then s
  else { s with flags := op.flags (s.freeFlag 11) (s.freeFlag 4) s.flags n x p.1 p.2 }.writeRM w rm p.1

/-! ## Conditional transfers -/

/-- A jump by a signed displacement byte from IP_next, taken on a condition (R263, R280 to R283). -/
def jumpIf (cond : Bool) (disp : Byte) (s : State) : State :=
  if cond then s.jump (s.ip + sext16 disp) else s

/-- `CX <- (CX - 1)`, no flag changed (R231, R280). -/
def State.decCx (s : State) : State := { s with regs := { s.regs with cx := s.regs.cx - 1 } }

end Sys2Proof.Machine
end

