-- ==== Sys2Proof/Machine/Arithmetic.lean ====
section
/-! DEFINITION. The arithmetic instructions (`spec/41_arithmetic.md`). -/

namespace Sys2Proof.Machine

/-! ## ADD, ADC, INC -/

/-- ADD, form A (R161). -/
def execAddRmReg (d : Dir) (w : Width) (reg : RegField) (rm : RM) (s : State) : Out :=
  .next (aluRmReg .add d w reg rm s)

/-- ADD, form B (R161). -/
def execAddRmImm (g : GrpImm) (rm : RM) (s : State) : Out :=
  .next (aluRmImm .add (GrpImm.width g) rm (GrpImm.value g) s)

/-- ADD, form C (R161). -/
def execAddAccImm (w : Width) (imm : BitVec w.bits) (s : State) : Out := .next (aluAccImm .add w imm s)

/-- ADC, form A (R162). -/
def execAdcRmReg (d : Dir) (w : Width) (reg : RegField) (rm : RM) (s : State) : Out :=
  .next (aluRmReg .adc d w reg rm s)

/-- ADC, form B (R162). -/
def execAdcRmImm (g : GrpImm) (rm : RM) (s : State) : Out :=
  .next (aluRmImm .adc (GrpImm.width g) rm (GrpImm.value g) s)

/-- ADC, form C (R162). -/
def execAdcAccImm (w : Width) (imm : BitVec w.bits) (s : State) : Out := .next (aluAccImm .adc w imm s)

/-- INC register/memory (R163). -/
def execIncRm (w : Width) (rm : RM) (s : State) : Out := .next (incRM w rm s)

/-- INC register (R163). -/
def execIncReg (reg : RegField) (s : State) : Out := .next (incRM .word (.reg reg) s)

/-! ## AAA, DAA, AAS, DAS -/

/-- The condition of the low-digit adjust, common to the four instructions (R164, R165, R174, R175). -/
def lowDigitAdjusts (al : Byte) (af : Bool) : Bool := decide (9 < al.toNat % 16) || af

/-- The flags behind AAA and AAS: AF and CF written, the others free (R164, R174). -/
def State.asciiFlags (s : State) (adj : Bool) : Flags :=
  { s.flags with
    cf := adj, af := adj, ofl := s.freeFlag 11, sf := s.freeFlag 7, zf := s.freeFlag 6, pf := s.freeFlag 2 }

/-- AAA (R164). In the adjust branch AH is free when AL is at least FAH, where the published algorithms differ (D31;
log 11). -/
def execAaa (s : State) : Out :=
  let al := s.regs.get8 .ax
  let ah := s.regs.get8 .sp
  let adj := lowDigitAdjusts al s.flags.af
  let al' := (if adj then al + 6 else al) &&& 0x0F
  let ah' := if adj then (if 0xFA ≤ al.toNat then Config.undefByte s.draws .adjustAH else ah + 1) else ah
  .next { s with regs := s.regs.set .ax (leWord al' ah'), flags := s.asciiFlags adj }

/-- AAS (R174). In the adjust branch AH is free when AL is below 6 (D31; log 11). -/
def execAas (s : State) : Out :=
  let al := s.regs.get8 .ax
  let ah := s.regs.get8 .sp
  let adj := lowDigitAdjusts al s.flags.af
  let al' := (if adj then al - 6 else al) &&& 0x0F
  let ah' := if adj then (if al.toNat < 6 then Config.undefByte s.draws .adjustAH else ah - 1) else ah
  .next { s with regs := s.regs.set .ax (leWord al' ah'), flags := s.asciiFlags adj }

/-- AL, CF and AF can come from ADD or ADC of two packed BCD bytes: the low digits add up to at most 19, the high digits
with the carry between them to at most 18 or 19 (R165). -/
def bcdSum (al : Byte) (cf af : Bool) : Bool :=
  let low := al.toNat % 16
  let high := al.toNat / 16 + 16 * cf.toNat
  (!af || decide (low ≤ 3)) && decide (af.toNat ≤ high) && decide (high ≤ 18 + af.toNat)

/-- AL, CF and AF can come from SUB or SBB of two packed BCD bytes (R175). -/
def bcdDifference (al : Byte) (cf af : Bool) : Bool :=
  let low := al.toNat % 16
  let high := al.toNat / 16
  (if af then decide (6 ≤ low) else decide (low ≤ 9)) &&
    (if cf then decide (7 ≤ high + af.toNat) else decide (high + af.toNat ≤ 9))

/-- The second adjust of DAA and DAS: `al1` is AL behind the first one, `al2` AL behind the second. The rule tests the
old AL against 99H, the oldest published algorithm tests `al1` against 9FH. The rule is exact for what comes from packed
BCD bytes (`bcd`); elsewhere, where the two tests disagree, AL and CF are free, and SZP come from the free AL (R165,
R175, D31; log 11). -/
def State.decimalSecond (s : State) (bcd : Bool) (al al1 al2 : Byte) (adj : Bool) : State :=
  let rule := decide (0x99 < al.toNat) || s.flags.cf
  let oldest := decide (0x9F < al1.toNat) || s.flags.cf
  let settled := bcd || rule == oldest
  let al' := if settled then (if rule then al2 else al1) else Config.undefByte s.draws .adjustAL
  let cf' := if settled then rule else Config.undefBit s.draws .adjustCF
  { s with
    regs := s.regs.set8 .ax al'
    flags := { s.flags.setSZP al' with cf := cf', af := adj, ofl := s.freeFlag 11 } }

/-- DAA (R165). -/
def execDaa (s : State) : Out :=
  let al := s.regs.get8 .ax
  let adj := lowDigitAdjusts al s.flags.af
  let al1 := if adj then al + 6 else al
  .next (s.decimalSecond (bcdSum al s.flags.cf s.flags.af) al al1 (al1 + 0x60) adj)

/-- DAS (R175). -/
def execDas (s : State) : Out :=
  let al := s.regs.get8 .ax
  let adj := lowDigitAdjusts al s.flags.af
  let al1 := if adj then al - 6 else al
  .next (s.decimalSecond (bcdDifference al s.flags.cf s.flags.af) al al1 (al1 - 0x60) adj)

/-! ## SUB, SBB, DEC, NEG, CMP -/

/-- SUB, form A (R166). -/
def execSubRmReg (d : Dir) (w : Width) (reg : RegField) (rm : RM) (s : State) : Out :=
  .next (aluRmReg .sub d w reg rm s)

/-- SUB, form B (R166). -/
def execSubRmImm (g : GrpImm) (rm : RM) (s : State) : Out :=
  .next (aluRmImm .sub (GrpImm.width g) rm (GrpImm.value g) s)

/-- SUB, form C (R166). -/
def execSubAccImm (w : Width) (imm : BitVec w.bits) (s : State) : Out := .next (aluAccImm .sub w imm s)

/-- SBB, form A (R167). -/
def execSbbRmReg (d : Dir) (w : Width) (reg : RegField) (rm : RM) (s : State) : Out :=
  .next (aluRmReg .sbb d w reg rm s)

/-- SBB, form B (R167). -/
def execSbbRmImm (g : GrpImm) (rm : RM) (s : State) : Out :=
  .next (aluRmImm .sbb (GrpImm.width g) rm (GrpImm.value g) s)

/-- SBB, form C (R167). -/
def execSbbAccImm (w : Width) (imm : BitVec w.bits) (s : State) : Out := .next (aluAccImm .sbb w imm s)

/-- DEC register/memory (R171). -/
def execDecRm (w : Width) (rm : RM) (s : State) : Out := .next (decRM w rm s)

/-- DEC register (R171). -/
def execDecReg (reg : RegField) (s : State) : Out := .next (decRM .word (.reg reg) s)

/-- NEG: the flags of the subtraction from zero (R172). -/
def execNegRm (w : Width) (rm : RM) (s : State) : Out :=
  let a := s.readRM w rm
  .next ({ s with flags := s.flags.ofSub 0 a false }.writeRM w rm (subResult 0 a false))

/-- CMP, form A (R173). -/
def execCmpRmReg (d : Dir) (w : Width) (reg : RegField) (rm : RM) (s : State) : Out :=
  .next (aluRmReg .cmp d w reg rm s)

/-- CMP, form B (R173). -/
def execCmpRmImm (g : GrpImm) (rm : RM) (s : State) : Out :=
  .next (aluRmImm .cmp (GrpImm.width g) rm (GrpImm.value g) s)

/-- CMP, form C (R173). -/
def execCmpAccImm (w : Width) (imm : BitVec w.bits) (s : State) : Out := .next (aluAccImm .cmp w imm s)

/-! ## MUL, IMUL -/

/-- The flags behind a multiply: CF and OF say whether the upper half carries information, the others are free (R176,
R177). -/
def State.multiplyFlags (s : State) (upper : Bool) : Flags :=
  { s.flags with
    cf := upper, ofl := upper, sf := s.freeFlag 7, zf := s.freeFlag 6, af := s.freeFlag 4, pf := s.freeFlag 2 }

/-- The product in AX, or in DX and AX (R176, R177). -/
def State.withProduct (s : State) (w : Width) (p : BitVec 32) (upper : Bool) : State :=
  let flags := s.multiplyFlags upper
  match w with
  | .byte => { s with regs := s.regs.set .ax (p.setWidth 16), flags := flags }
  | .word => { s with regs := (s.regs.set .dx ((p >>> 16).setWidth 16)).set .ax (p.setWidth 16), flags := flags }

/-- MUL (R176). -/
def execMulRm (w : Width) (rm : RM) (s : State) : Out :=
  let a := s.readReg w .ax
  let b := s.readRM w rm
  .next (s.withProduct w (a.setWidth 32 * b.setWidth 32) (decide (2 ^ w.bits ≤ a.toNat * b.toNat)))

/-- IMUL (R177). -/
def execImulRm (w : Width) (rm : RM) (s : State) : Out :=
  let a := s.readReg w .ax
  let b := s.readRM w rm
  let p := a.toInt * b.toInt
  .next (s.withProduct w (BitVec.ofInt 32 p) (p != ((BitVec.ofInt w.bits p).toInt)))

/-! ## DIV, IDIV -/

/-- All six status flags free, as DIV and IDIV leave them (R179, R180). -/
def State.freeStatus (s : State) : Flags :=
  { s.flags with
    cf := s.freeFlag 0, pf := s.freeFlag 2, af := s.freeFlag 4, zf := s.freeFlag 6, sf := s.freeFlag 7,
    ofl := s.freeFlag 11 }

/-- Quotient and remainder in AL and AH, or in AX and DX (R179, R180). -/
def State.withQuotient (s : State) (w : Width) (q r : BitVec w.bits) : State :=
  let flags := s.freeStatus
  match w, q, r with
  | .byte, q, r => { s with regs := s.regs.set .ax (leWord q r), flags := flags }
  | .word, q, r => { s with regs := (s.regs.set .ax q).set .dx r, flags := flags }

/-- The offset of the first byte of an instruction of `n` bytes whose execution has begun, its prefixes included (R80). -/
def State.instrStart (s : State) (n : Nat) : Word :=
  s.ip - BitVec.ofNat 16 (n + s.pfx.seg.isSome.toNat + s.pfx.rep.isSome.toNat + s.pfx.lock.toNat)

/-- The IP a divide error of an instruction of `n` bytes pushes (R387, D13; log 9). -/
def State.divideReturn (s : State) (n : Nat) : Word :=
  match s.par.divFaultReturn with
  | .next => s.ip
  | .same => s.instrStart n

/-- The machine when a divide error of an instruction of `n` bytes enters type 0: quotient, remainder and the status
flags are free (R179, R387, D13; logs 9 and 24). -/
def State.divideFaulted (s : State) (w : Width) (n : Nat) : State :=
  let q := Config.undefWord s.draws .quotient
  let r := Config.undefWord s.draws .remainder
  { s.withQuotient w (q.setWidth w.bits) (r.setWidth w.bits) with ip := s.divideReturn n }

/-- The dividend: AX, or DX above AX (R179). -/
def State.dividend (s : State) (w : Width) : BitVec 32 :=
  match w with
  | .byte => s.regs.ax.setWidth 32
  | .word => s.regs.dx ++ s.regs.ax

/-- The dividend as a signed number: AX, or DX above AX (R180). -/
def State.signedDividend (s : State) (w : Width) : Int :=
  match w with
  | .byte => s.regs.ax.toInt
  | .word => (s.regs.dx ++ s.regs.ax).toInt

/-- The least byte quotient (R180, D14). -/
def LeastQuotient.byte : LeastQuotient → Int
  | .symmetric => -127
  | .full => -128

/-- The least word quotient (R180, D14). -/
def LeastQuotient.word : LeastQuotient → Int
  | .symmetric => -32767
  | .full => -32768

/-- The least and the greatest quotient IDIV accepts (R180, D14; log 10). -/
def State.idivRange (s : State) : Width → Int × Int
  | .byte => (s.par.idivMinQ8.byte, 127)
  | .word => (s.par.idivMinQ16.word, 32767)

/-- DIV traps: the divisor is zero or the quotient out of range (R179). -/
def State.divTraps (s : State) (w : Width) (rm : RM) : Bool :=
  let n := (s.dividend w).toNat
  let d := (s.readRM w rm).toNat
  decide (d = 0 ∨ 2 ^ w.bits ≤ n / d)

/-- IDIV traps (R180). -/
def State.idivTraps (s : State) (w : Width) (rm : RM) : Bool :=
  let d := (s.readRM w rm).toInt
  let q := (s.signedDividend w).tdiv d
  decide (d = 0 ∨ q < (s.idivRange w).1 ∨ (s.idivRange w).2 < q)

/-- DIV (R179). -/
def execDivRm (w : Width) (rm : RM) (s : State) : Out :=
  let n := (s.dividend w).toNat
  let d := (s.readRM w rm).toNat
  if s.divTraps w rm then interrupt 0 (s.divideFaulted w (encode (.divRm w rm)).length)
  else .next (s.withQuotient w (BitVec.ofNat w.bits (n / d)) (BitVec.ofNat w.bits (n % d)))

/-- IDIV: the quotient is truncated toward zero (R180). -/
def execIdivRm (w : Width) (rm : RM) (s : State) : Out :=
  let n := s.signedDividend w
  let d := (s.readRM w rm).toInt
  if s.idivTraps w rm then interrupt 0 (s.divideFaulted w (encode (.idivRm w rm)).length)
  else .next (s.withQuotient w (BitVec.ofInt w.bits (n.tdiv d)) (BitVec.ofInt w.bits (n.tmod d)))

/-! ## AAM, AAD, CBW, CWD -/

/-- The flags behind AAM and AAD: SZP from AL, the others free (R178, R181). -/
def State.unpackedFlags (s : State) (al : Byte) : Flags :=
  { s.flags.setSZP al with ofl := s.freeFlag 11, af := s.freeFlag 4, cf := s.freeFlag 0 }

/-- AAM (R178). -/
def execAam (s : State) : Out :=
  let al := s.regs.get8 .ax
  .next { s with
    regs := s.regs.set .ax (leWord (BitVec.ofNat 8 (al.toNat % 10)) (BitVec.ofNat 8 (al.toNat / 10)))
    flags := s.unpackedFlags (BitVec.ofNat 8 (al.toNat % 10)) }

/-- AAD (R181). -/
def execAad (s : State) : Out :=
  let al := s.regs.get8 .sp * 10 + s.regs.get8 .ax
  .next { s with regs := s.regs.set .ax (leWord al 0), flags := s.unpackedFlags al }

/-- CBW (R182). -/
def execCbw (s : State) : Out := .next (s.writeReg .word .ax (sext16 (s.regs.get8 .ax)))

/-- CWD (R183). -/
def execCwd (s : State) : Out := .next (s.writeReg .word .dx (if s.regs.ax.msb then 0xFFFF else 0))

end Sys2Proof.Machine
end

