-- ==== Sys2Proof/Machine/Strings.lean ====
section
/-! DEFINITION. The string primitives and REP (`spec/43_string.md`). One iteration of a repeated primitive is one step
(D30; log 12). -/

namespace Sys2Proof.Machine

/-- `step`: the element size, negative when DF = 1 (R230, R35). -/
def State.stringStep (s : State) (w : Width) : Word :=
  match w, s.flags.df with
  | .byte, false => 1
  | .byte, true => -1
  | .word, false => 2
  | .word, true => -2

/-- `SI <- SI + step` (R230). -/
def State.advanceSi (s : State) (w : Width) : State :=
  { s with regs := { s.regs with si := s.regs.si + s.stringStep w } }

/-- `DI <- DI + step` (R230). -/
def State.advanceDi (s : State) (w : Width) : State :=
  { s with regs := { s.regs with di := s.regs.di + s.stringStep w } }

/-- The source element at SI, in DS unless overridden (R230). -/
def State.sourceElement (s : State) (w : Width) : BitVec w.bits := s.lread w (s.segOf .ds) s.regs.si

/-- The destination element at DI, always in ES (R230). -/
def State.destElement (s : State) (w : Width) : BitVec w.bits := s.lread w s.sregs.es s.regs.di

/-- MOVS once (R232). -/
def movsOnce (w : Width) (s : State) : State :=
  ((s.lwrite w s.sregs.es s.regs.di (s.sourceElement w)).advanceSi w).advanceDi w

/-- CMPS on two elements that were read: the source element is the minuend (R233). -/
def cmpsWith (w : Width) (a b : BitVec w.bits) (s : State) : State :=
  let s1 := s.tick
  ({ s1 with flags := s1.flags.ofSub a b false }.advanceSi w).advanceDi w

/-- CMPS once. The two reads have draw numbers of their own (log 23). -/
def cmpsOnce (w : Width) (s : State) : State := cmpsWith w (s.sourceElement w) (s.tick.destElement w) s

/-- SCAS once: AL or AX is the minuend (R234). -/
def scasOnce (w : Width) (s : State) : State :=
  { s with flags := s.flags.ofSub (s.readReg w .ax) (s.destElement w) false }.advanceDi w

/-- LODS once (R235). -/
def lodsOnce (w : Width) (s : State) : State := (s.writeReg w .ax (s.sourceElement w)).advanceSi w

/-- STOS once (R236). -/
def stosOnce (w : Width) (s : State) : State := (s.lwrite w s.sregs.es s.regs.di (s.readReg w .ax)).advanceDi w

/-- The primitive goes on at the next step; IP is back at its opcode (R231). -/
def State.repeatAgain (s : State) (i : Instr) : State := { s with ip := s.ip - 1, cont := some i }

/-- One pass of the loop of R231 around a primitive: without REP the primitive once; with REP nothing when CX is 0, else
the primitive, CX - 1, and another pass unless the primitive compares and ZF differs from `z`. -/
def repeated (compares : Bool) (i : Instr) (once : State → State) (s : State) : State :=
  match s.pfx.rep with
  | none => once s
  | some z =>
    if s.regs.cx = 0 then s
    else
      let s1 := (once s).decCx
      if compares && s1.flags.zf != z then s1 else s1.repeatAgain i

/-- REP as a step of its own: it is in force for the instruction behind it (R42, R231; log 1). A second REP is refused
(R103, D18). -/
def execRep (z : Bool) (s : State) : Out :=
  if s.pfx.rep.isSome then .refused .duplicatePrefix
  else .next { s with pfx := { s.pfx with rep := some z } }

/-- MOVS (R232). -/
def execMovs (w : Width) (s : State) : Out := .next (repeated false (.movs w) (movsOnce w) s)

/-- CMPS (R233). -/
def execCmps (w : Width) (s : State) : Out := .next (repeated true (.cmps w) (cmpsOnce w) s)

/-- SCAS (R234). -/
def execScas (w : Width) (s : State) : Out := .next (repeated true (.scas w) (scasOnce w) s)

/-- LODS (R235). -/
def execLods (w : Width) (s : State) : Out := .next (repeated false (.lods w) (lodsOnce w) s)

/-- STOS (R236). -/
def execStos (w : Width) (s : State) : Out := .next (repeated false (.stos w) (stosOnce w) s)

end Sys2Proof.Machine
end

