-- ==== Sys2Proof/Machine/Bus.lean ====
section
/-! DEFINITION. The bus cycles of each instruction, in order, and what the pins show of a cycle and of the state
(`spec/50_bus_interface.md`, `spec/20_memory.md` R59 to R61, R72; log 20). -/

namespace Sys2Proof.Machine

/-! ## Codes and strobes of a cycle

What a cycle asks for. The CPU puts it out itself on the pins that its mode has: `State.control`. -/

/-- S2 S1 S0 (R343). -/
def BusKind.status : BusKind → BitVec 3
  | .interruptAcknowledge => 0
  | .readIo => 1
  | .writeIo => 2
  | .halt => 3
  | .codeAccess => 4
  | .readMemory => 5
  | .writeMemory => 6
  | .passive => 7

/-- M/IO is HIGH: S2 (R348). -/
def BusKind.mio (k : BusKind) : Bool := k.status.getLsbD 2

/-- DT/R is HIGH: S1; indeterminate in the halt indication (R348, R376). -/
def BusKind.dtr (k : BusKind) : Option Bool := if k = .halt then none else some (k.status.getLsbD 1)

/-- RD is active in the cycle: memory, I/O and code reads (R335, R351). -/
def BusKind.rd : BusKind → Bool
  | .readIo => true
  | .codeAccess => true
  | .readMemory => true
  | .interruptAcknowledge => false
  | .writeIo => false
  | .halt => false
  | .writeMemory => false
  | .passive => false

/-- WR is active in the cycle (R348, R352). -/
def BusKind.wr : BusKind → Bool
  | .writeIo => true
  | .writeMemory => true
  | .interruptAcknowledge => false
  | .readIo => false
  | .halt => false
  | .codeAccess => false
  | .readMemory => false
  | .passive => false

/-- INTA is active in the cycle, in place of RD (R348, R353). -/
def BusKind.inta (k : BusKind) : Bool := k = .interruptAcknowledge

/-- DEN is active in the cycle: each access and each acknowledge cycle, not the halt indication (R348, R354). -/
def BusKind.den (k : BusKind) : Bool := k.rd || k.wr || k.inta

/-- One ALE pulse is put out: any bus cycle, and the halt indication (R348, R354). -/
def BusKind.ale (k : BusKind) : Bool := k ≠ .passive

/-- S4 S3: which segment register is used, none for I/O and vector accesses (R333). -/
def segmentStatus : Option SReg → BitVec 2
  | some .es => 0
  | some .ss => 1
  | some .cs => 2
  | some .ds => 3
  | none => 2

/-- QS1 QS0 (R346). -/
def QueueOp.status : QueueOp → BitVec 2
  | .noOperation => 0
  | .firstByte => 1
  | .empty => 2
  | .subsequentByte => 3

/-- A0 in T1 (R332). -/
def BusCycle.a0 (c : BusCycle) : Option Bool := c.addr.map fun a => a.getLsbD 0

/-- AD15 to AD0 float in the cycle: both acknowledge cycles (R332, R353, R376). -/
def BusCycle.adFloats (c : BusCycle) : Bool := c.kind.inta

/-! ## The accesses of an operand -/

/-- One bus cycle that an instruction asks for. -/
structure Access where
  kind : BusKind
  /-- the lower address of the cycle; not used by acknowledge cycles and the halt indication -/
  addr : PhysAddr
  /-- a whole word at an even address -/
  wide : Bool
  /-- the segment register of the address, none for I/O and vectors (R333) -/
  seg : Option SReg
  /-- the first byte of the cycle in its operand -/
  part : Nat
  /-- the local bus is not released between this cycle and the next (R347) -/
  tied : Bool
  deriving DecidableEq, Repr

/-- The addresses of the bytes of a cycle. -/
def Access.bytes (a : Access) : List PhysAddr := if a.wide then [a.addr, a.addr + 1] else [a.addr]

/-- The cycles of an operand whose bytes are at `a` and `a'`: one for a byte or an even word, two for an odd word, the
low byte first, not separated by a grant of the local bus (R60). -/
def operandAccesses (k : BusKind) (sr : Option SReg) (w : Width) (a a' : PhysAddr) : List Access :=
  let one : Access := { kind := k, addr := a, wide := false, seg := sr, part := 0, tied := false }
  match w with
  | .byte => [one]
  | .word =>
    if a.getLsbD 0 then [{ one with tied := true }, { one with addr := a', part := 1 }] else [{ one with wide := true }]

/-- The cycles of a memory operand in a segment (R60, R57). -/
def State.memoryAccesses (s : State) (k : BusKind) (w : Width) (sr : SReg) (o : Word) : List Access :=
  operandAccesses k (some sr) w (phys (s.sregs.get sr) o) (phys (s.sregs.get sr) (o + 1))

/-- The cycles of an I/O operand; A19 to A16 are zero (R51, R65). -/
def portAccesses (k : BusKind) (w : Width) (p : Word) : List Access :=
  operandAccesses k none w (p.setWidth 20) ((p + 1).setWidth 20)

/-- The segment register of a reference whose default can be overridden (R90 `SEG`, R311). -/
def State.segReg (s : State) (dflt : SReg) : SReg := s.pfx.seg.getD dflt

/-- The cycles that read or write a register or memory operand. -/
def State.rmAccesses (s : State) (k : BusKind) (w : Width) : RM → List Access
  | .reg _ => []
  | .mem m => s.memoryAccesses k w (s.segReg (MemOp.segment m)) (s.ea m)

/-- The cycles that read a register or memory operand (R90). -/
def State.rmRead (s : State) (w : Width) (rm : RM) : List Access := s.rmAccesses .readMemory w rm

/-- The cycles that write a register or memory operand (R90). -/
def State.rmWrite (s : State) (w : Width) (rm : RM) : List Access := s.rmAccesses .writeMemory w rm

/-- A read and then a write of the same operand (R72). -/
def State.rmModify (s : State) (w : Width) (rm : RM) : List Access := s.rmRead w rm ++ s.rmWrite w rm

/-- The two word reads of a pointer (R61). -/
def State.pointerRead (s : State) (m : MemOp) : List Access :=
  s.memoryAccesses .readMemory .word (s.segReg (MemOp.segment m)) (s.ea m) ++
    s.memoryAccesses .readMemory .word (s.segReg (MemOp.segment m)) (s.ea m + 2)

/-- The push of a word `k` bytes below SP (R16). -/
def State.pushAt (s : State) (k : Word) : List Access := s.memoryAccesses .writeMemory .word .ss (s.regs.sp - k)

/-- The pop of a word `k` bytes above SP (R16). -/
def State.popAt (s : State) (k : Word) : List Access := s.memoryAccesses .readMemory .word .ss (s.regs.sp + k)

/-- The source element of a string primitive (R230). -/
def State.sourceAccess (s : State) (w : Width) : List Access :=
  s.memoryAccesses .readMemory w (s.segReg .ds) s.regs.si

/-- The destination element of a string primitive (R230). -/
def State.destAccess (s : State) (k : BusKind) (w : Width) : List Access := s.memoryAccesses k w .es s.regs.di

/-- A repeated string primitive with CX = 0 makes no access (R231). -/
def State.unlessDone (s : State) (as : List Access) : List Access :=
  if s.pfx.rep.isSome && s.regs.cx == 0 then [] else as

/-- The operand of a two-operand instruction in form A; the destination is written if the operation writes it (R160). -/
def State.aluAccesses (s : State) (writes : Bool) (d : Dir) (w : Width) (rm : RM) : List Access :=
  match d with
  | .toReg => s.rmRead w rm
  | .fromReg => if writes then s.rmModify w rm else s.rmRead w rm

/-- The operand of a shift; behind a count of zero it is read and not written (R201; log 30). -/
def State.shiftAccesses (s : State) (c : ShiftCount) (w : Width) (rm : RM) : List Access :=
  if s.shiftCount c = 0 then s.rmRead w rm else s.rmModify w rm

/-- The two acknowledge cycles of INTR, which nothing comes between (R353). -/
def ackAccesses : List Access :=
  let one : Access :=
    { kind := .interruptAcknowledge, addr := 0, wide := false, seg := none, part := 0, tied := true }
  [one, { one with part := 1, tied := false }]

/-- The cycles of an interrupt entry: three pushes, then the two words of the element, which has no segment (R386,
R333). -/
def State.entryAccesses (s : State) (t : Byte) : List Access :=
  s.pushAt 2 ++ s.pushAt 4 ++ s.pushAt 6 ++
    operandAccesses .readMemory none .word (vectorAddr t 0) (vectorAddr t 1) ++
    operandAccesses .readMemory none .word (vectorAddr t 2) (vectorAddr t 3)

/-- The bus cycles that an instruction makes for its operands, in order (R72 and the rule of each instruction). The
cycles of an interrupt entry that it ends in are not among them: `pendingEntry`. -/
def State.accesses (s : State) : Instr → List Access
  | .movRmReg .fromReg w _ rm => s.rmWrite w rm
  | .movRmReg .toReg w _ rm => s.rmRead w rm
  | .movRmImm w rm _ => s.rmWrite w rm
  | .movRegImm _ _ _ => []
  | .movAccMem w a => s.memoryAccesses .readMemory w (s.segReg .ds) a
  | .movMemAcc w a => s.memoryAccesses .writeMemory w (s.segReg .ds) a
  | .movSregRm _ rm => s.rmRead .word rm
  | .movRmSreg _ rm => s.rmWrite .word rm
  | .pushRm rm => s.rmRead .word rm ++ s.pushAt 2
  | .pushReg _ => s.pushAt 2
  | .pushSreg _ => s.pushAt 2
  | .popRm rm => s.popAt 0 ++ s.rmWrite .word rm
  | .popReg _ => s.popAt 0
  | .popSreg _ => s.popAt 0
  | .xchgRmReg w _ rm => s.rmModify w rm
  | .xchgAcc _ => []
  | .inFixed w p => portAccesses .readIo w (p.setWidth 16)
  | .inVar w => portAccesses .readIo w s.regs.dx
  | .outFixed w p => portAccesses .writeIo w (p.setWidth 16)
  | .outVar w => portAccesses .writeIo w s.regs.dx
  | .xlat => s.memoryAccesses .readMemory .byte (s.segReg .ds) (s.regs.bx + (s.regs.get8 .ax).setWidth 16)
  | .lea _ _ => []
  | .lds _ m => s.pointerRead m
  | .les _ m => s.pointerRead m
  | .lahf => []
  | .sahf => []
  | .pushf => s.pushAt 2
  | .popf => s.popAt 0
  | .addRmReg d w _ rm => s.aluAccesses true d w rm
  | .addRmImm g rm => s.rmModify (GrpImm.width g) rm
  | .addAccImm _ _ => []
  | .adcRmReg d w _ rm => s.aluAccesses true d w rm
  | .adcRmImm g rm => s.rmModify (GrpImm.width g) rm
  | .adcAccImm _ _ => []
  | .incRm w rm => s.rmModify w rm
  | .incReg _ => []
  | .aaa => []
  | .daa => []
  | .subRmReg d w _ rm => s.aluAccesses true d w rm
  | .subRmImm g rm => s.rmModify (GrpImm.width g) rm
  | .subAccImm _ _ => []
  | .sbbRmReg d w _ rm => s.aluAccesses true d w rm
  | .sbbRmImm g rm => s.rmModify (GrpImm.width g) rm
  | .sbbAccImm _ _ => []
  | .decRm w rm => s.rmModify w rm
  | .decReg _ => []
  | .negRm w rm => s.rmModify w rm
  | .cmpRmReg d w _ rm => s.aluAccesses false d w rm
  | .cmpRmImm g rm => s.rmRead (GrpImm.width g) rm
  | .cmpAccImm _ _ => []
  | .aas => []
  | .das => []
  | .mulRm w rm => s.rmRead w rm
  | .imulRm w rm => s.rmRead w rm
  | .aam => []
  | .divRm w rm => s.rmRead w rm
  | .idivRm w rm => s.rmRead w rm
  | .aad => []
  | .cbw => []
  | .cwd => []
  | .notRm w rm => s.rmModify w rm
  | .shlRm c w rm => s.shiftAccesses c w rm
  | .shrRm c w rm => s.shiftAccesses c w rm
  | .sarRm c w rm => s.shiftAccesses c w rm
  | .rolRm c w rm => s.shiftAccesses c w rm
  | .rorRm c w rm => s.shiftAccesses c w rm
  | .rclRm c w rm => s.shiftAccesses c w rm
  | .rcrRm c w rm => s.shiftAccesses c w rm
  | .andRmReg d w _ rm => s.aluAccesses true d w rm
  | .andRmImm w rm _ => s.rmModify w rm
  | .andAccImm _ _ => []
  | .testRmReg w _ rm => s.rmRead w rm
  | .testRmImm w rm _ => s.rmRead w rm
  | .testAccImm _ _ => []
  | .orRmReg d w _ rm => s.aluAccesses true d w rm
  | .orRmImm w rm _ => s.rmModify w rm
  | .orAccImm _ _ => []
  | .xorRmReg d w _ rm => s.aluAccesses true d w rm
  | .xorRmImm w rm _ => s.rmModify w rm
  | .xorAccImm _ _ => []
  | .rep _ => []
  | .movs w => s.unlessDone (s.sourceAccess w ++ s.destAccess .writeMemory w)
  | .cmps w => s.unlessDone (s.sourceAccess w ++ s.destAccess .readMemory w)
  | .scas w => s.unlessDone (s.destAccess .readMemory w)
  | .lods w => s.unlessDone (s.sourceAccess w)
  | .stos w => s.unlessDone (s.destAccess .writeMemory w)
  | .callNear _ => s.pushAt 2
  | .callRm rm => s.rmRead .word rm ++ s.pushAt 2
  | .callFar _ _ => s.pushAt 2 ++ s.pushAt 4
  | .callFarMem m => s.pointerRead m ++ s.pushAt 2 ++ s.pushAt 4
  | .jmpNear _ => []
  | .jmpShort _ => []
  | .jmpRm rm => s.rmRead .word rm
  | .jmpFar _ _ => []
  | .jmpFarMem m => s.pointerRead m
  | .ret => s.popAt 0
  | .retImm _ => s.popAt 0
  | .retf => s.popAt 0 ++ s.popAt 2
  | .retfImm _ => s.popAt 0 ++ s.popAt 2
  | .je _ => []
  | .jl _ => []
  | .jle _ => []
  | .jb _ => []
  | .jbe _ => []
  | .jp _ => []
  | .jo _ => []
  | .js _ => []
  | .jne _ => []
  | .jnl _ => []
  | .jnle _ => []
  | .jnb _ => []
  | .jnbe _ => []
  | .jnp _ => []
  | .jno _ => []
  | .jns _ => []
  | .loop _ => []
  | .loopz _ => []
  | .loopnz _ => []
  | .jcxz _ => []
  | .intType _ => []
  | .int3 => []
  | .into => []
  | .iret => s.popAt 0 ++ s.popAt 2 ++ s.popAt 4
  | .clc => []
  | .cmc => []
  | .stc => []
  | .cld => []
  | .std => []
  | .cli => []
  | .sti => []
  | .hlt => [{ kind := .halt, addr := 0, wide := false, seg := none, part := 0, tied := false }]
  | .wait => []
  | .esc _ _ rm => s.rmRead .word rm
  | .lock => []
  | .segOverride _ => []

/-- The interrupt entry that an instruction ends in, with its type and the state it is entered from (R385 to R387). -/
def State.pendingEntry (s : State) : Instr → Option (Byte × State)
  | .intType n => some (n, s)
  | .int3 => some (3, s)
  | .into => if s.flags.ofl then some (4, s) else none
  | .divRm w rm =>
    if s.divTraps w rm then some (0, s.divideFaulted w (encode (.divRm w rm)).length) else none
  | .idivRm w rm =>
    if s.idivTraps w rm then some (0, s.divideFaulted w (encode (.idivRm w rm)).length) else none
  | _ => none

/-! ## What the pins show of a cycle -/

/-- The byte at position `k` of the operand of IN or OUT: AL, then AH (R65). -/
def State.portDatum (s : State) (k : Nat) : Byte := if k = 0 then s.regs.get8 .ax else s.regs.get8 .sp

/-- The byte that a cycle carries for its address `x`, `k` bytes into the cycle: what a read finds in `v`, what a write
leaves in `r`, and what an I/O instruction has in AL and AH (R351, R352). -/
def Access.datum (a : Access) (r v : State) (x : PhysAddr) (k : Nat) : Byte :=
  match a.kind with
  | .writeMemory => r.readByte x
  | .readIo => r.portDatum (a.part + k)
  | .writeIo => r.portDatum (a.part + k)
  | _ => v.readByte x

/-- LOCK is put out in a cycle: under the prefix, and by the CPU itself in the acknowledge cycles; a pin of the maximum
mode only (R344, R353). -/
def State.lockIn (s : State) (k : BusKind) : Bool := s.par.strap = .maximum && (s.pfx.lock || k.inta)

/-- A cycle on the pins: made from state `s`, reading in `v`, with `r` behind the instruction. In the second acknowledge
cycle the type byte is on D7 to D0; BHE is LOW in the first one, and nothing else is driven (R59, R334, R353; log 20).
-/
def Access.cycle (s r v : State) (a : Access) : BusCycle :=
  let c : BusCycle :=
    { kind := a.kind, addr := none, bhe := none, seg := none, high := none, low := none, lock := s.lockIn a.kind }
  match a.kind with
  | .interruptAcknowledge =>
    if a.tied then { c with bhe := some false } else { c with bhe := some true, low := some s.input.inta }
  | .halt => c
  | .passive => c
  | _ =>
    let c1 := { c with addr := some a.addr, seg := some (segmentStatus a.seg) }
    if a.wide then
      { c1 with
        bhe := some false, low := some (a.datum r v a.addr 0), high := some (a.datum r v (a.addr + 1) 1) }
    else if a.addr.getLsbD 0 then { c1 with bhe := some false, high := some (a.datum r v a.addr 0) }
    else { c1 with bhe := some true, low := some (a.datum r v a.addr 0) }

/-- The step has put out these cycles and queue operations. -/
def State.note (s : State) (cycles : List BusCycle) (ops : List QueueOp) : State :=
  { s with bus := { s.bus with cycles := s.bus.cycles ++ cycles, queueOps := s.bus.queueOps ++ ops } }

/-- The queue operations of taking the `n` bytes of an instruction; a prefix byte is a first byte too (R346). -/
def takeOps : Nat → List QueueOp
  | 0 => []
  | n + 1 => .firstByte :: List.replicate n .subsequentByte

/-- The queue operation behind an instruction: a transfer of control empties the queue (R40, R346). -/
def emptyOps (s : State) : List QueueOp := if s.queue.isEmpty then [.empty] else []

/-! ## What the pins show of the state -/

/-- S5 is the interrupt enable flag (R333, R34). -/
def State.s5 (s : State) : Bool := s.flags.ifl

/-- S6 is 0 (R333). -/
def State.s6 (_ : State) : Bool := false

/-- S7 is spare: any value (R333, R334, U21). -/
def State.s7 (s : State) : Bool := Config.undefBit s.draws .s7

/-- LOCK is active between the cycles of a step, while the prefix is in force (R310, R344); in the cycles themselves it
is `BusCycle.lock`. -/
def State.lockActive (s : State) : Bool := s.par.strap = .maximum && s.pfx.lock

/-- QS1 QS0 for each queue operation of the step just made, in the maximum mode; the minimum mode has no such pins
(R331, R346). -/
def State.queueStatus (s : State) : List (BitVec 2) :=
  if s.par.strap = .maximum then s.bus.queueOps.map QueueOp.status else []

/-- Hold acknowledge: another master has the local bus (R43). -/
def State.held (s : State) : Bool := s.bus.owner ≠ .cpu

/-- HLDA (R349). -/
def State.hlda (s : State) : Bool := s.bus.owner = .hold

/-- The output pins (R330). -/
inductive Pin where
  /-- AD15 to AD0 -/
  | ad
  /-- A19/S6 to A16/S3 -/
  | addressStatus
  | bhe | rd | status | lock | mio | wr | dtr | den | ale | inta | hlda | queueStatus
  deriving DecidableEq, Repr

/-- The mode that a pin belongs to, none where both have it (R330, R331). -/
def Pin.mode : Pin → Option Strap
  | .ad => none
  | .addressStatus => none
  | .bhe => none
  | .rd => none
  | .status => some .maximum
  | .lock => some .maximum
  | .mio => some .minimum
  | .wr => some .minimum
  | .dtr => some .minimum
  | .den => some .minimum
  | .ale => some .minimum
  | .inta => some .minimum
  | .hlda => some .minimum
  | .queueStatus => some .maximum

/-- The machine has this pin: it is one of both modes, or of the strapped one (R331). -/
def State.hasPin (s : State) (p : Pin) : Bool := p.mode.all fun m => m = s.par.strap

/-- S2 S1 S0 in a cycle; the minimum mode has no such pins (R331, R343). -/
def State.statusPins (s : State) (k : BusKind) : Option (BitVec 3) :=
  if s.hasPin .status then some k.status else none

/-- What the CPU itself puts out on a control pin in a cycle: RD, WR, INTA, DEN or ALE is active, M/IO or DT/R is HIGH.
None where the machine has no such pin, since in the maximum mode the 8288 makes the signal from the status lines (R331,
R348, R355), and where the level is indeterminate or is no control output of a cycle. -/
def State.control (s : State) (k : BusKind) (p : Pin) : Option Bool :=
  if s.hasPin p then
    match p with
    | .rd => some k.rd
    | .wr => some k.wr
    | .inta => some k.inta
    | .den => some k.den
    | .ale => some k.ale
    | .mio => some k.mio
    | .dtr => k.dtr
    | .ad => none
    | .addressStatus => none
    | .bhe => none
    | .status => none
    | .lock => none
    | .hlda => none
    | .queueStatus => none
  else none

/-- The pins whose description says that they float in hold acknowledge (R356). -/
def Pin.floatsInHold : Pin → Bool
  | .ad => true
  | .addressStatus => true
  | .bhe => true
  | .rd => true
  | .status => true
  | .lock => true
  | .mio => true
  | .wr => true
  | .dtr => true
  | .den => true
  | .ale => false
  | .inta => false
  | .hlda => false
  | .queueStatus => false

/-- A pin of the machine floats: the 3-state outputs in hold acknowledge and during RESET. ALE and HLDA are driven, LOW
during RESET. Whether INTA floats is not settled (R356; log 20). -/
def State.pinFloats (s : State) (p : Pin) : Bool :=
  s.hasPin p && (s.held || s.run == .heldInReset) &&
    (p.floatsInHold || (p == .inta && Config.undefBit s.draws .intaFloats))

/-- The code fetch at an offset: a word, or the single byte at an odd address (R61). -/
def State.codeAccess (s : State) (o : Word) : Access :=
  let a := phys s.sregs.cs o
  { kind := .codeAccess, addr := a, wide := !a.getLsbD 0, seg := some .cs, part := 0, tied := false }

end Sys2Proof.Machine
end

