-- ==== Sys2Proof/Machine/Control.lean ====
section
/-! DEFINITION. The control transfer instructions (`spec/44_control_transfer.md`). IP is IP_next when a meaning runs
(R26). -/

namespace Sys2Proof.Machine

/-- CALL direct within segment (R250). -/
def execCallNear (disp : Word) (s : State) : Out := .next ((s.push s.ip).jump (s.ip + disp))

/-- CALL indirect within segment: the operand is read before the push (R251). -/
def execCallRm (rm : RM) (s : State) : Out := .next ((s.push s.ip).jump (s.readRM .word rm))

/-- CALL direct intersegment: CS is pushed first (R252). -/
def execCallFar (off seg : Word) (s : State) : Out :=
  .next (((s.push s.sregs.cs).push s.ip).jumpFar off seg)

/-- CALL indirect intersegment (R253). -/
def execCallFarMem (m : MemOp) (s : State) : Out :=
  .next (((s.push s.sregs.cs).push s.ip).jumpFar (s.readPointer m).1 (s.readPointer m).2)

/-- JMP direct within segment (R254). -/
def execJmpNear (disp : Word) (s : State) : Out := .next (s.jump (s.ip + disp))

/-- JMP direct within segment, short (R255). -/
def execJmpShort (disp : Byte) (s : State) : Out := .next (s.jump (s.ip + sext16 disp))

/-- JMP indirect within segment (R256). -/
def execJmpRm (rm : RM) (s : State) : Out := .next (s.jump (s.readRM .word rm))

/-- JMP direct intersegment (R257). -/
def execJmpFar (off seg : Word) (s : State) : Out := .next (s.jumpFar off seg)

/-- JMP indirect intersegment (R258). -/
def execJmpFarMem (m : MemOp) (s : State) : Out := .next (s.jumpFar (s.readPointer m).1 (s.readPointer m).2)

/-- RET within segment (R259). -/
def execRet (s : State) : Out := .next ((s.addSp 2).jump s.top)

/-- RET within segment adding immediate to SP (R260). -/
def execRetImm (k : Word) (s : State) : Out := .next (((s.addSp 2).addSp k).jump s.top)

/-- RET intersegment (R261). -/
def execRetf (s : State) : Out := .next s.returnFar

/-- RET intersegment adding immediate to SP (R262). -/
def execRetfImm (k : Word) (s : State) : Out := .next (s.returnFar.addSp k)

/-- JE/JZ (R264). -/
def execJe (disp : Byte) (s : State) : Out := .next (jumpIf s.flags.zf disp s)

/-- JL/JNGE (R265). -/
def execJl (disp : Byte) (s : State) : Out := .next (jumpIf (s.flags.sf != s.flags.ofl) disp s)

/-- JLE/JNG (R266). -/
def execJle (disp : Byte) (s : State) : Out := .next (jumpIf (s.flags.zf || s.flags.sf != s.flags.ofl) disp s)

/-- JB/JNAE (R267). -/
def execJb (disp : Byte) (s : State) : Out := .next (jumpIf s.flags.cf disp s)

/-- JBE/JNA (R268). -/
def execJbe (disp : Byte) (s : State) : Out := .next (jumpIf (s.flags.cf || s.flags.zf) disp s)

/-- JP/JPE (R269). -/
def execJp (disp : Byte) (s : State) : Out := .next (jumpIf s.flags.pf disp s)

/-- JO (R270). -/
def execJo (disp : Byte) (s : State) : Out := .next (jumpIf s.flags.ofl disp s)

/-- JS (R271). -/
def execJs (disp : Byte) (s : State) : Out := .next (jumpIf s.flags.sf disp s)

/-- JNE/JNZ (R272). -/
def execJne (disp : Byte) (s : State) : Out := .next (jumpIf (!s.flags.zf) disp s)

/-- JNL/JGE (R273). -/
def execJnl (disp : Byte) (s : State) : Out := .next (jumpIf (s.flags.sf == s.flags.ofl) disp s)

/-- JNLE/JG (R274). -/
def execJnle (disp : Byte) (s : State) : Out := .next (jumpIf (!s.flags.zf && s.flags.sf == s.flags.ofl) disp s)

/-- JNB/JAE (R275). -/
def execJnb (disp : Byte) (s : State) : Out := .next (jumpIf (!s.flags.cf) disp s)

/-- JNBE/JA (R276). -/
def execJnbe (disp : Byte) (s : State) : Out := .next (jumpIf (!s.flags.cf && !s.flags.zf) disp s)

/-- JNP/JPO (R277). -/
def execJnp (disp : Byte) (s : State) : Out := .next (jumpIf (!s.flags.pf) disp s)

/-- JNO (R278). -/
def execJno (disp : Byte) (s : State) : Out := .next (jumpIf (!s.flags.ofl) disp s)

/-- JNS (R279). -/
def execJns (disp : Byte) (s : State) : Out := .next (jumpIf (!s.flags.sf) disp s)

/-- LOOP: CX is decremented without a flag (R280). -/
def execLoop (disp : Byte) (s : State) : Out :=
  .next (jumpIf (s.decCx.regs.cx != 0) disp s.decCx)

/-- LOOPZ/LOOPE (R281). -/
def execLoopz (disp : Byte) (s : State) : Out :=
  .next (jumpIf (s.decCx.regs.cx != 0 && s.flags.zf) disp s.decCx)

/-- LOOPNZ/LOOPNE (R282). -/
def execLoopnz (disp : Byte) (s : State) : Out :=
  .next (jumpIf (s.decCx.regs.cx != 0 && !s.flags.zf) disp s.decCx)

/-- JCXZ (R283). -/
def execJcxz (disp : Byte) (s : State) : Out := .next (jumpIf (s.regs.cx == 0) disp s)

/-- INT, type specified: the entry sequence, never masked (R286). -/
def execIntType (t : Byte) (s : State) : Out := interrupt t s

/-- INT, type 3 (R287). -/
def execInt3 (s : State) : Out := interrupt 3 s

/-- INTO: type 4 when OF = 1, else nothing (R288). -/
def execInto (s : State) : Out := if s.flags.ofl then interrupt 4 s else .next s

/-- IRET: no check of any kind (R289). -/
def execIret (s : State) : Out := .next s.returnInterrupt

end Sys2Proof.Machine
end

