-- ==== Sys2Proof/Machine/DataTransfer.lean ====
section
/-! DEFINITION. The data transfer instructions (`spec/40_data_transfer.md`). -/

namespace Sys2Proof.Machine

/-- MOV register/memory to/from register (R121). -/
def execMovRmReg (d : Dir) (w : Width) (reg : RegField) (rm : RM) (s : State) : Out :=
  match d with
  | .toReg => .next (s.writeReg w reg (s.readRM w rm))
  | .fromReg => .next (s.writeRM w rm (s.readReg w reg))

/-- MOV immediate to register/memory (R122). -/
def execMovRmImm (w : Width) (rm : RM) (imm : BitVec w.bits) (s : State) : Out := .next (s.writeRM w rm imm)

/-- MOV immediate to register (R123). -/
def execMovRegImm (w : Width) (reg : RegField) (imm : BitVec w.bits) (s : State) : Out :=
  .next (s.writeReg w reg imm)

/-- MOV memory to accumulator (R124). -/
def execMovAccMem (w : Width) (addr : Word) (s : State) : Out :=
  .next (s.writeReg w .ax (s.lread w (s.segOf .ds) addr))

/-- MOV accumulator to memory (R125). -/
def execMovMemAcc (w : Width) (addr : Word) (s : State) : Out :=
  .next (s.lwrite w (s.segOf .ds) addr (s.readReg w .ax))

/-- MOV register/memory to segment register; recognition is postponed by one boundary (R126, R396). CS is no
destination (R106). -/
def execMovSregRm (sr : SReg) (rm : RM) (s : State) : Out :=
  if sr = .cs then .refused .csDestination
  else .next { s with sregs := s.sregs.set sr (s.readRM .word rm), inhibit := true }

/-- MOV segment register to register/memory (R127). -/
def execMovRmSreg (sr : SReg) (rm : RM) (s : State) : Out := .next (s.writeRM .word rm (s.sregs.get sr))

/-- PUSH register/memory (R128). The operand SP is read behind the decrement; no other operand depends on SP. -/
def execPushRm (rm : RM) (s : State) : Out := .next (s.push (s.decSp.readRM .word rm))

/-- PUSH register, read behind the decrement: PUSH SP stores the new SP (R129, D16). -/
def execPushReg (reg : RegField) (s : State) : Out := .next (s.push (s.decSp.regs.get reg))

/-- PUSH segment register (R130). -/
def execPushSreg (sr : SReg) (s : State) : Out := .next (s.push (s.sregs.get sr))

/-- POP register/memory (R131). -/
def execPopRm (rm : RM) (s : State) : Out := .next ((s.addSp 2).writeRM .word rm s.top)

/-- POP register: SP is incremented first, so POP SP ends with the popped word (R132). -/
def execPopReg (reg : RegField) (s : State) : Out := .next ((s.addSp 2).writeReg .word reg s.top)

/-- POP segment register; recognition is postponed by one boundary (R133, R396). CS is no destination (R106). -/
def execPopSreg (sr : SReg) (s : State) : Out :=
  if sr = .cs then .refused .csDestination
  else .next { s.addSp 2 with sregs := s.sregs.set sr s.top, inhibit := true }

/-- XCHG register/memory with register: one read, then one write of the operand (R134). -/
def execXchgRmReg (w : Width) (reg : RegField) (rm : RM) (s : State) : Out :=
  .next ((s.writeRM w rm (s.readReg w reg)).writeReg w reg (s.readRM w rm))

/-- XCHG register with accumulator (R135). -/
def execXchgAcc (reg : RegField) (s : State) : Out :=
  .next ((s.writeReg .word .ax (s.regs.get reg)).writeReg .word reg s.regs.ax)

/-- IN from a fixed port, zero-extended (R136, R65). -/
def execInFixed (w : Width) (port : Byte) (s : State) : Out :=
  let r := s.portRead w (port.setWidth 16)
  .next (r.2.writeReg w .ax r.1)

/-- IN from the port in DX (R137). -/
def execInVar (w : Width) (s : State) : Out :=
  let r := s.portRead w s.regs.dx
  .next (r.2.writeReg w .ax r.1)

/-- OUT to a fixed port, zero-extended (R138, R65). -/
def execOutFixed (w : Width) (port : Byte) (s : State) : Out :=
  .next (s.portWrite w (port.setWidth 16) (s.readReg w .ax))

/-- OUT to the port in DX (R139). -/
def execOutVar (w : Width) (s : State) : Out := .next (s.portWrite w s.regs.dx (s.readReg w .ax))

/-- XLAT: AL is an unsigned index from BX (R140). -/
def execXlat (s : State) : Out :=
  .next (s.writeReg .byte .ax (s.lreadByte (s.segOf .ds) (s.regs.bx + (s.regs.get8 .ax).setWidth 16)))

/-- LEA: the offset, no access (R141). -/
def execLea (reg : RegField) (m : MemOp) (s : State) : Out := .next (s.writeReg .word reg (s.ea m))

/-- LDS: both reads use the segment in force before DS changes (R142). -/
def execLds (reg : RegField) (m : MemOp) (s : State) : Out :=
  .next { s.writeReg .word reg (s.readPointer m).1 with sregs := s.sregs.set .ds (s.readPointer m).2 }

/-- LES (R143). -/
def execLes (reg : RegField) (m : MemOp) (s : State) : Out :=
  .next { s.writeReg .word reg (s.readPointer m).1 with sregs := s.sregs.set .es (s.readPointer m).2 }

/-- LAHF: AH is the low byte of the FLAGS image (R150). -/
def execLahf (s : State) : Out := .next (s.writeReg .byte .sp (wordLo s.flagsImage))

/-- SAHF: SF, ZF, AF, PF, CF from AH (R151). -/
def execSahf (s : State) : Out :=
  let ah := s.regs.get8 .sp
  .next { s with flags := { s.flags with
    sf := ah.getLsbD 7, zf := ah.getLsbD 6, af := ah.getLsbD 4, pf := ah.getLsbD 2, cf := ah.getLsbD 0 } }

/-- PUSHF (R152). -/
def execPushf (s : State) : Out := .next (s.push s.flagsImage)

/-- POPF (R153). -/
def execPopf (s : State) : Out := .next { s.addSp 2 with flags := Flags.ofImage s.top }

end Sys2Proof.Machine
end

