-- ==== Sys2Proof/Machine/Logic.lean ====
section
/-! DEFINITION. The logic, shift and rotate instructions (`spec/42_logic.md`). -/

namespace Sys2Proof.Machine

/-- NOT: no flag changes (R200). -/
def execNotRm (w : Width) (rm : RM) (s : State) : Out := .next (s.writeRM w rm (~~~(s.readRM w rm)))

/-- SHL/SAL (R201, R202). -/
def execShlRm (c : ShiftCount) (w : Width) (rm : RM) (s : State) : Out := .next (shiftRM .shl c w rm s)

/-- SHR (R201, R203). -/
def execShrRm (c : ShiftCount) (w : Width) (rm : RM) (s : State) : Out := .next (shiftRM .shr c w rm s)

/-- SAR (R201, R204). -/
def execSarRm (c : ShiftCount) (w : Width) (rm : RM) (s : State) : Out := .next (shiftRM .sar c w rm s)

/-- ROL (R201, R205). -/
def execRolRm (c : ShiftCount) (w : Width) (rm : RM) (s : State) : Out := .next (shiftRM .rol c w rm s)

/-- ROR (R201, R206). -/
def execRorRm (c : ShiftCount) (w : Width) (rm : RM) (s : State) : Out := .next (shiftRM .ror c w rm s)

/-- RCL (R201, R207). -/
def execRclRm (c : ShiftCount) (w : Width) (rm : RM) (s : State) : Out := .next (shiftRM .rcl c w rm s)

/-- RCR (R201, R208). -/
def execRcrRm (c : ShiftCount) (w : Width) (rm : RM) (s : State) : Out := .next (shiftRM .rcr c w rm s)

/-- AND, form A (R214). -/
def execAndRmReg (d : Dir) (w : Width) (reg : RegField) (rm : RM) (s : State) : Out :=
  .next (aluRmReg .and d w reg rm s)

/-- AND, the immediate form with register/memory (R214). -/
def execAndRmImm (w : Width) (rm : RM) (imm : BitVec w.bits) (s : State) : Out := .next (aluRmImm .and w rm imm s)

/-- AND, the immediate form with the accumulator (R214). -/
def execAndAccImm (w : Width) (imm : BitVec w.bits) (s : State) : Out := .next (aluAccImm .and w imm s)

/-- TEST register/memory with register (R215). -/
def execTestRmReg (w : Width) (reg : RegField) (rm : RM) (s : State) : Out :=
  .next (aluRmReg .test .fromReg w reg rm s)

/-- TEST, the immediate form with register/memory (R215). -/
def execTestRmImm (w : Width) (rm : RM) (imm : BitVec w.bits) (s : State) : Out := .next (aluRmImm .test w rm imm s)

/-- TEST, the immediate form with the accumulator (R215). -/
def execTestAccImm (w : Width) (imm : BitVec w.bits) (s : State) : Out := .next (aluAccImm .test w imm s)

/-- OR, form A (R216). -/
def execOrRmReg (d : Dir) (w : Width) (reg : RegField) (rm : RM) (s : State) : Out :=
  .next (aluRmReg .or d w reg rm s)

/-- OR, the immediate form with register/memory (R216). -/
def execOrRmImm (w : Width) (rm : RM) (imm : BitVec w.bits) (s : State) : Out := .next (aluRmImm .or w rm imm s)

/-- OR, the immediate form with the accumulator (R216). -/
def execOrAccImm (w : Width) (imm : BitVec w.bits) (s : State) : Out := .next (aluAccImm .or w imm s)

/-- XOR, form A (R217). -/
def execXorRmReg (d : Dir) (w : Width) (reg : RegField) (rm : RM) (s : State) : Out :=
  .next (aluRmReg .xor d w reg rm s)

/-- XOR, the immediate form with register/memory (R217). -/
def execXorRmImm (w : Width) (rm : RM) (imm : BitVec w.bits) (s : State) : Out := .next (aluRmImm .xor w rm imm s)

/-- XOR, the immediate form with the accumulator (R217). -/
def execXorAccImm (w : Width) (imm : BitVec w.bits) (s : State) : Out := .next (aluAccImm .xor w imm s)

end Sys2Proof.Machine
end

