-- ==== Sys2Proof/Machine/Processor.lean ====
section
/-! DEFINITION. The processor control instructions and the LOCK and segment override prefixes
(`spec/45_processor_control.md`). -/

namespace Sys2Proof.Machine

/-- CLC (R300). -/
def execClc (s : State) : Out := .next { s with flags := { s.flags with cf := false } }

/-- CMC (R301). -/
def execCmc (s : State) : Out := .next { s with flags := { s.flags with cf := !s.flags.cf } }

/-- STC (R302). -/
def execStc (s : State) : Out := .next { s with flags := { s.flags with cf := true } }

/-- CLD (R303). -/
def execCld (s : State) : Out := .next { s with flags := { s.flags with df := false } }

/-- STD (R304). -/
def execStd (s : State) : Out := .next { s with flags := { s.flags with df := true } }

/-- CLI, at once (R305). -/
def execCli (s : State) : Out := .next { s with flags := { s.flags with ifl := false } }

/-- STI; recognition is postponed by one boundary (R306, R396). -/
def execSti (s : State) : Out := .next { s with flags := { s.flags with ifl := true }, inhibit := true }

/-- HLT (R307). -/
def execHlt (s : State) : Out := .next { s with run := .halted }

/-- WAIT: goes on when TEST is LOW, else waits, IP back at the WAIT, and is executed again at the next step (R308, R394,
D24; log 13). -/
def execWait (s : State) : Out :=
  if s.input.testHigh then .next { s with ip := s.ip - 1, run := .waiting, cont := some .wait }
  else .next { s with run := .running }

/-- ESC: a memory operand is read and discarded; no register, flag or byte of memory changes (R309, D23). -/
def execEsc (_hi _lo : BitVec 3) (rm : RM) (s : State) : Out :=
  match rm with
  | .reg _ => .next s
  | .mem m =>
    let _ := s.lreadWord (s.memSeg m) (s.ea m)
    .next s

/-- LOCK as a step of its own: it is in force for the instruction behind it (R42, R310; log 1). A second LOCK is refused
(R103, D18). -/
def execLock (s : State) : Out :=
  if s.pfx.lock then .refused .duplicatePrefix
  else .next { s with pfx := { s.pfx with lock := true } }

/-- The segment override prefix as a step of its own (R42, R311; log 1). A second one is refused (R103, D18). -/
def execSegOverride (sr : SReg) (s : State) : Out :=
  if s.pfx.seg.isSome then .refused .duplicatePrefix
  else .next { s with pfx := { s.pfx with seg := some sr } }

end Sys2Proof.Machine
end

