-- ==== Sys2Proof/Machine/Dispatch.lean ====
section
/-! DEFINITION. The meaning of each instruction, one arm per constructor. IP is past the instruction's bytes when a
meaning runs (R26). -/

namespace Sys2Proof.Machine

def exec (i : Instr) (s : State) : Host.Outcome State Fault Refusal :=
  match i with
  | .movRmReg d w reg rm => Sys2Proof.Machine.execMovRmReg d w reg rm s
  | .movRmImm w rm imm => Sys2Proof.Machine.execMovRmImm w rm imm s
  | .movRegImm w reg imm => Sys2Proof.Machine.execMovRegImm w reg imm s
  | .movAccMem w addr => Sys2Proof.Machine.execMovAccMem w addr s
  | .movMemAcc w addr => Sys2Proof.Machine.execMovMemAcc w addr s
  | .movSregRm sr rm => Sys2Proof.Machine.execMovSregRm sr rm s
  | .movRmSreg sr rm => Sys2Proof.Machine.execMovRmSreg sr rm s
  | .pushRm rm => Sys2Proof.Machine.execPushRm rm s
  | .pushReg reg => Sys2Proof.Machine.execPushReg reg s
  | .pushSreg sr => Sys2Proof.Machine.execPushSreg sr s
  | .popRm rm => Sys2Proof.Machine.execPopRm rm s
  | .popReg reg => Sys2Proof.Machine.execPopReg reg s
  | .popSreg sr => Sys2Proof.Machine.execPopSreg sr s
  | .xchgRmReg w reg rm => Sys2Proof.Machine.execXchgRmReg w reg rm s
  | .xchgAcc reg => Sys2Proof.Machine.execXchgAcc reg s
  | .inFixed w port => Sys2Proof.Machine.execInFixed w port s
  | .inVar w => Sys2Proof.Machine.execInVar w s
  | .outFixed w port => Sys2Proof.Machine.execOutFixed w port s
  | .outVar w => Sys2Proof.Machine.execOutVar w s
  | .xlat => Sys2Proof.Machine.execXlat s
  | .lea reg m => Sys2Proof.Machine.execLea reg m s
  | .lds reg m => Sys2Proof.Machine.execLds reg m s
  | .les reg m => Sys2Proof.Machine.execLes reg m s
  | .lahf => Sys2Proof.Machine.execLahf s
  | .sahf => Sys2Proof.Machine.execSahf s
  | .pushf => Sys2Proof.Machine.execPushf s
  | .popf => Sys2Proof.Machine.execPopf s
  | .addRmReg d w reg rm => Sys2Proof.Machine.execAddRmReg d w reg rm s
  | .addRmImm g rm => Sys2Proof.Machine.execAddRmImm g rm s
  | .addAccImm w imm => Sys2Proof.Machine.execAddAccImm w imm s
  | .adcRmReg d w reg rm => Sys2Proof.Machine.execAdcRmReg d w reg rm s
  | .adcRmImm g rm => Sys2Proof.Machine.execAdcRmImm g rm s
  | .adcAccImm w imm => Sys2Proof.Machine.execAdcAccImm w imm s
  | .incRm w rm => Sys2Proof.Machine.execIncRm w rm s
  | .incReg reg => Sys2Proof.Machine.execIncReg reg s
  | .aaa => Sys2Proof.Machine.execAaa s
  | .daa => Sys2Proof.Machine.execDaa s
  | .subRmReg d w reg rm => Sys2Proof.Machine.execSubRmReg d w reg rm s
  | .subRmImm g rm => Sys2Proof.Machine.execSubRmImm g rm s
  | .subAccImm w imm => Sys2Proof.Machine.execSubAccImm w imm s
  | .sbbRmReg d w reg rm => Sys2Proof.Machine.execSbbRmReg d w reg rm s
  | .sbbRmImm g rm => Sys2Proof.Machine.execSbbRmImm g rm s
  | .sbbAccImm w imm => Sys2Proof.Machine.execSbbAccImm w imm s
  | .decRm w rm => Sys2Proof.Machine.execDecRm w rm s
  | .decReg reg => Sys2Proof.Machine.execDecReg reg s
  | .negRm w rm => Sys2Proof.Machine.execNegRm w rm s
  | .cmpRmReg d w reg rm => Sys2Proof.Machine.execCmpRmReg d w reg rm s
  | .cmpRmImm g rm => Sys2Proof.Machine.execCmpRmImm g rm s
  | .cmpAccImm w imm => Sys2Proof.Machine.execCmpAccImm w imm s
  | .aas => Sys2Proof.Machine.execAas s
  | .das => Sys2Proof.Machine.execDas s
  | .mulRm w rm => Sys2Proof.Machine.execMulRm w rm s
  | .imulRm w rm => Sys2Proof.Machine.execImulRm w rm s
  | .aam => Sys2Proof.Machine.execAam s
  | .divRm w rm => Sys2Proof.Machine.execDivRm w rm s
  | .idivRm w rm => Sys2Proof.Machine.execIdivRm w rm s
  | .aad => Sys2Proof.Machine.execAad s
  | .cbw => Sys2Proof.Machine.execCbw s
  | .cwd => Sys2Proof.Machine.execCwd s
  | .notRm w rm => Sys2Proof.Machine.execNotRm w rm s
  | .shlRm c w rm => Sys2Proof.Machine.execShlRm c w rm s
  | .shrRm c w rm => Sys2Proof.Machine.execShrRm c w rm s
  | .sarRm c w rm => Sys2Proof.Machine.execSarRm c w rm s
  | .rolRm c w rm => Sys2Proof.Machine.execRolRm c w rm s
  | .rorRm c w rm => Sys2Proof.Machine.execRorRm c w rm s
  | .rclRm c w rm => Sys2Proof.Machine.execRclRm c w rm s
  | .rcrRm c w rm => Sys2Proof.Machine.execRcrRm c w rm s
  | .andRmReg d w reg rm => Sys2Proof.Machine.execAndRmReg d w reg rm s
  | .andRmImm w rm imm => Sys2Proof.Machine.execAndRmImm w rm imm s
  | .andAccImm w imm => Sys2Proof.Machine.execAndAccImm w imm s
  | .testRmReg w reg rm => Sys2Proof.Machine.execTestRmReg w reg rm s
  | .testRmImm w rm imm => Sys2Proof.Machine.execTestRmImm w rm imm s
  | .testAccImm w imm => Sys2Proof.Machine.execTestAccImm w imm s
  | .orRmReg d w reg rm => Sys2Proof.Machine.execOrRmReg d w reg rm s
  | .orRmImm w rm imm => Sys2Proof.Machine.execOrRmImm w rm imm s
  | .orAccImm w imm => Sys2Proof.Machine.execOrAccImm w imm s
  | .xorRmReg d w reg rm => Sys2Proof.Machine.execXorRmReg d w reg rm s
  | .xorRmImm w rm imm => Sys2Proof.Machine.execXorRmImm w rm imm s
  | .xorAccImm w imm => Sys2Proof.Machine.execXorAccImm w imm s
  | .rep z => Sys2Proof.Machine.execRep z s
  | .movs w => Sys2Proof.Machine.execMovs w s
  | .cmps w => Sys2Proof.Machine.execCmps w s
  | .scas w => Sys2Proof.Machine.execScas w s
  | .lods w => Sys2Proof.Machine.execLods w s
  | .stos w => Sys2Proof.Machine.execStos w s
  | .callNear disp => Sys2Proof.Machine.execCallNear disp s
  | .callRm rm => Sys2Proof.Machine.execCallRm rm s
  | .callFar off seg => Sys2Proof.Machine.execCallFar off seg s
  | .callFarMem m => Sys2Proof.Machine.execCallFarMem m s
  | .jmpNear disp => Sys2Proof.Machine.execJmpNear disp s
  | .jmpShort disp => Sys2Proof.Machine.execJmpShort disp s
  | .jmpRm rm => Sys2Proof.Machine.execJmpRm rm s
  | .jmpFar off seg => Sys2Proof.Machine.execJmpFar off seg s
  | .jmpFarMem m => Sys2Proof.Machine.execJmpFarMem m s
  | .ret => Sys2Proof.Machine.execRet s
  | .retImm k => Sys2Proof.Machine.execRetImm k s
  | .retf => Sys2Proof.Machine.execRetf s
  | .retfImm k => Sys2Proof.Machine.execRetfImm k s
  | .je disp => Sys2Proof.Machine.execJe disp s
  | .jl disp => Sys2Proof.Machine.execJl disp s
  | .jle disp => Sys2Proof.Machine.execJle disp s
  | .jb disp => Sys2Proof.Machine.execJb disp s
  | .jbe disp => Sys2Proof.Machine.execJbe disp s
  | .jp disp => Sys2Proof.Machine.execJp disp s
  | .jo disp => Sys2Proof.Machine.execJo disp s
  | .js disp => Sys2Proof.Machine.execJs disp s
  | .jne disp => Sys2Proof.Machine.execJne disp s
  | .jnl disp => Sys2Proof.Machine.execJnl disp s
  | .jnle disp => Sys2Proof.Machine.execJnle disp s
  | .jnb disp => Sys2Proof.Machine.execJnb disp s
  | .jnbe disp => Sys2Proof.Machine.execJnbe disp s
  | .jnp disp => Sys2Proof.Machine.execJnp disp s
  | .jno disp => Sys2Proof.Machine.execJno disp s
  | .jns disp => Sys2Proof.Machine.execJns disp s
  | .loop disp => Sys2Proof.Machine.execLoop disp s
  | .loopz disp => Sys2Proof.Machine.execLoopz disp s
  | .loopnz disp => Sys2Proof.Machine.execLoopnz disp s
  | .jcxz disp => Sys2Proof.Machine.execJcxz disp s
  | .intType t => Sys2Proof.Machine.execIntType t s
  | .int3 => Sys2Proof.Machine.execInt3 s
  | .into => Sys2Proof.Machine.execInto s
  | .iret => Sys2Proof.Machine.execIret s
  | .clc => Sys2Proof.Machine.execClc s
  | .cmc => Sys2Proof.Machine.execCmc s
  | .stc => Sys2Proof.Machine.execStc s
  | .cld => Sys2Proof.Machine.execCld s
  | .std => Sys2Proof.Machine.execStd s
  | .cli => Sys2Proof.Machine.execCli s
  | .sti => Sys2Proof.Machine.execSti s
  | .hlt => Sys2Proof.Machine.execHlt s
  | .wait => Sys2Proof.Machine.execWait s
  | .esc hi lo rm => Sys2Proof.Machine.execEsc hi lo rm s
  | .lock => Sys2Proof.Machine.execLock s
  | .segOverride sr => Sys2Proof.Machine.execSegOverride sr s

end Sys2Proof.Machine
end

