-- ==== Sys2Proof/Machine/Interleave.lean ====
section
/-! DEFINITION. An instruction and an interrupt entry as their bus cycles: the memory map, the writes of other masters
between two cycles, and a RESET that cuts the instruction off (`spec/20_memory.md` R62, R67, R71, R74,
`spec/50_bus_interface.md` R347, `spec/70_reset_and_hazards.md` R430; log 28). A meaning says what an instruction does to
what it reads; here it is given what its cycles read, and what it writes is written cycle by cycle. -/

namespace Sys2Proof.Machine

/-- Go on behind an outcome when it is a next state. -/
def andThen (o : Out) (f : State → Out) : Out :=
  match o with
  | .next s => f s
  | .fault r => .fault r
  | .refused r => .refused r

/-! ## The memory map -/

/-- What answers at an address or a port: the first region that holds it, else `other` (R8 `MEMMAP`, `IOMAP`, D2). -/
def regionAt (other : RegionKind) : List Region → Nat → RegionKind
  | [], _ => other
  | r :: l, a => if r.first ≤ a ∧ a ≤ r.last then r.kind else regionAt other l a

/-- What answers at an address of this machine: RAM where nothing else is said. -/
def State.region (s : State) (a : PhysAddr) : RegionKind := regionAt .ram s.par.memMap a.toNat

/-- What answers at a port of this machine, given as the address lines show it (R51): a device where nothing else is
said. -/
def State.portRegion (s : State) (x : PhysAddr) : RegionKind := regionAt .device s.par.ioMap x.toNat

/-- Memory without a byte. -/
def Memory.erase (m : List Host.Cell) (a : Nat) : List Host.Cell := m.filter fun c => c.1 != a

/-- A read cycle makes its byte at `a` known to the instruction: `cur` is the machine at the cycle, `v` what the
instruction has read so far. A device answers with the next input, and without one with a free byte (D2, U15). -/
def State.look (cur v : State) (a : PhysAddr) : State :=
  match cur.region a with
  | .ram => match cur.cell a with | some b => v.writeByte a b | none => v
  | .rom => match cur.cell a with | some b => v.writeByte a b | none => v
  | .device => v.writeByte a (cur.bus.memIn.headD (Config.deviceByte v.draws a))
  | .nothing (some b) => v.writeByte a b
  | .nothing none => { v with mem := Memory.erase v.mem a.toNat }

/-- A read of a device uses up its input. -/
def State.lookDone (cur : State) (a : PhysAddr) : State :=
  if cur.region a = .device then { cur with bus := { cur.bus with memIn := cur.bus.memIn.tail } } else cur

/-- A byte that the CPU writes (R8 `MEMMAP`, D2). -/
def State.busWrite (cur : State) (a : PhysAddr) (b : Byte) : State :=
  match cur.region a with
  | .ram => cur.writeByte a b
  | .rom => cur
  | .device => { cur with bus := { cur.bus with memOut := cur.bus.memOut ++ [(a.toNat, b)] } }
  | .nothing _ => cur

/-- The byte that a port of RAM or ROM holds, none where nothing has written it. -/
def State.portCell (s : State) (x : PhysAddr) : Option Byte := Memory.get s.bus.ioMem x.toNat

/-- The byte that a port answers, drawn with the number `draws` where it is free (R8 `IOMAP`, D2, U15). -/
def State.portAnswer (cur : State) (draws : Nat) (x : PhysAddr) : Byte :=
  let free := Config.portByte draws (x.setWidth 16)
  match cur.portRegion x with
  | .ram => (cur.portCell x).getD free
  | .rom => (cur.portCell x).getD free
  | .device => cur.ioIn.headD free
  | .nothing value => value.getD free

/-- A read of a device at a port uses up its input. -/
def State.portLookDone (cur : State) (x : PhysAddr) : State :=
  if cur.portRegion x = .device then { cur with ioIn := cur.ioIn.tail } else cur

/-- A read cycle at a port makes its byte known to the instruction, behind those of the ports before it. -/
def State.portLook (cur v : State) (x : PhysAddr) : State :=
  { v with ioIn := v.ioIn ++ [cur.portAnswer v.draws x] }

/-- A byte that the CPU writes to a port (R8 `IOMAP`, D2). -/
def State.portBusWrite (cur : State) (x : PhysAddr) (b : Byte) : State :=
  match cur.portRegion x with
  | .ram => { cur with bus := { cur.bus with ioMem := Memory.set cur.bus.ioMem x.toNat b } }
  | .rom => cur
  | .device => { cur with ioOut := cur.ioOut ++ [(x.setWidth 16, b)] }
  | .nothing _ => cur

/-- A byte that another master writes; what it does to a device is not the CPU's to see. -/
def State.foreignWrite (cur : State) (a : PhysAddr) (b : Byte) : State :=
  match cur.region a with
  | .ram => cur.writeByte a b
  | .rom => cur
  | .device => cur
  | .nothing _ => cur

/-- A byte that another master writes to a port. -/
def State.foreignPortWrite (cur : State) (x : PhysAddr) (b : Byte) : State :=
  match cur.portRegion x with
  | .ram => { cur with bus := { cur.bus with ioMem := Memory.set cur.bus.ioMem x.toNat b } }
  | .rom => cur
  | .device => cur
  | .nothing _ => cur

/-- One write of another master (R10, R74). -/
def State.masterWrite (cur : State) : MasterWrite → State
  | .memory a b => cur.foreignWrite a b
  | .port p b => cur.foreignPortWrite (p.setWidth 20) b

/-- The writes of another master. -/
def masterWrites : List MasterWrite → State → State
  | [], s => s
  | w :: r, s => masterWrites r (s.masterWrite w)

/-- A byte that the BIU fetches (R69). -/
def State.fetchByte (s : State) (a : PhysAddr) : Byte :=
  match s.region a with
  | .ram => s.readByte a
  | .rom => s.readByte a
  | .device => Config.deviceByte s.draws a
  | .nothing (some b) => b
  | .nothing none => Config.nothingByte s.draws a

/-! ## Gaps between cycles -/

/-- RESET has gone HIGH. -/
def State.cut (s : State) : Bool := s.input.resetAfter == some 0

/-- Another master of the local bus can come before the next cycle: not inside an instruction with LOCK, an odd word, or
the acknowledge pair (R347). -/
def State.localGap (s : State) (prev : Option Access) : Bool := !s.pfx.lock && !prev.any (·.tied)

/-- A master of the system bus can: not under a LOCK prefix or between the acknowledge cycles, and in the maximum mode
only (R62, R71, R310, R353). That a LOCK prefix which the EU has decoded in hold acknowledge, where the pin floats
(R344), keeps it off too is a DESIGN CHOICE (log 29). -/
def State.systemGap (s : State) (prev : Option Access) : Bool :=
  s.par.strap = .maximum && !s.pfx.lock && !prev.any fun a => a.tied && a.kind.inta

/-- What other masters write in a gap; what the rules do not let in has no effect. -/
def State.gapWrites (s : State) (prev : Option Access) (g : Gap) : List MasterWrite :=
  (if s.localGap prev then g.localWrites else []) ++ if s.systemGap prev then g.systemWrites else []

/-- The gap before the next cycle. -/
def State.passGap (s : State) (prev : Option Access) : State :=
  match s.input.gaps with
  | [] => s
  | g :: r => { masterWrites (s.gapWrites prev g) s with input := { s.input with gaps := r } }

/-! ## What the cycles read, and what they write -/

/-- The bytes of one read cycle, each read behind the ones before it. -/
def lookBytes (look : State → State → PhysAddr → State) (done : State → PhysAddr → State) :
    List PhysAddr → State → State → State
  | [], _, v => v
  | x :: l, cur, v => lookBytes look done l (done cur x) (look cur v x)

/-- What one read cycle makes known. -/
def Access.look (a : Access) (cur v : State) : State :=
  match a.kind with
  | .readMemory => lookBytes State.look State.lookDone a.bytes cur v
  | .readIo => lookBytes State.portLook State.portLookDone a.bytes cur v
  | _ => v

/-- The inputs of devices that one cycle uses up. -/
def Access.lookDone (a : Access) (cur : State) : State :=
  match a.kind with
  | .readMemory => a.bytes.foldl State.lookDone cur
  | .readIo => a.bytes.foldl State.portLookDone cur
  | _ => cur

/-- The bytes of a cycle that writes ports, the first one at position `k` of AX (R65). -/
def portWrites (r : State) : Nat → List PhysAddr → State → State
  | _, [], cur => cur
  | k, x :: l, cur => portWrites r (k + 1) l (cur.portBusWrite x (r.portDatum k))

/-- The machine `cur` with the gaps of the cycles behind it, and `v` with what the read cycles found. The instruction's
own writes are left out: no read of one entry or instruction is behind its own write of the same byte (R386). -/
def view : List Access → Option Access → State → State → State × State
  | [], _, cur, v => (cur, v)
  | a :: l, prev, cur, v =>
    let cur := cur.passGap prev
    view l (some a) (a.lookDone cur) (a.look cur v)

/-- What one cycle does: it writes what `r`, the machine behind the instruction, has at its addresses. -/
def Access.perform (a : Access) (r cur : State) : State :=
  match a.kind with
  | .writeMemory => a.bytes.foldl (fun cur x => cur.busWrite x (r.readByte x)) cur
  | .readMemory => a.lookDone cur
  | .readIo => a.lookDone cur
  | .writeIo => portWrites r a.part a.bytes cur
  | .interruptAcknowledge => cur
  | .halt => cur
  | .codeAccess => cur
  | .passive => cur

/-- One cycle less until RESET. -/
def State.countCycle (s : State) : State :=
  { s with input := { s.input with resetAfter := s.input.resetAfter.map (· - 1) } }

/-- The cycles one after another, until RESET goes HIGH; `s` is the machine they start from. -/
def replay (s r v : State) : List Access → Option Access → State → State
  | [], _, cur => cur
  | a :: l, prev, cur =>
    if cur.cut then cur
    else replay s r v l (some a) ((a.perform r (cur.passGap prev)).note [a.cycle s r v] []).countCycle

/-- RESET is HIGH: the present activity ends (R430). A recorded request for the bus ends with it, a DESIGN CHOICE (log
16). -/
def State.enterReset (s : State) : State :=
  { s with
    run := .heldInReset, queue := [], nmi := false, pfx := Pfx.none, inhibit := false, cont := none
    bus := { s.bus with owner := .cpu, rq0 := false, rq1 := false } }

/-- The outcome `o` of an activity from `s`, with its cycles made one after another. Cut off, it is not completed: the
writes of its first cycles are all there is of it (R430). A refusal stands though a RESET would have cut the activity
off before it, a DESIGN CHOICE (log 14). -/
def performAll (as : List Access) (v s : State) (o : Out) : Out :=
  andThen o fun r =>
    let cur := replay s r v as none s
    if cur.cut then .next cur.enterReset
    else .next { r with mem := cur.mem, ioIn := cur.ioIn, ioOut := cur.ioOut, input := cur.input, bus := cur.bus }

/-- The queue operations at the end of an activity; none where a RESET has cut it off, a DESIGN CHOICE (R346; log 20).
-/
def State.noteEnd (s : State) (ops : List QueueOp) : State := if s.cut then s else s.note [] ops

/-! ## Interrupt entries and instructions -/

/-- No other master comes between the cycles, no RESET cuts them off, and memory is RAM everywhere: the activity is its
meaning. -/
def State.calm (s : State) : Bool :=
  s.input.gaps.isEmpty && s.input.resetAfter.isNone && s.par.memMap.isEmpty

/-- The cycles of a hardware interrupt: behind INTR the two acknowledge cycles come first (R384). -/
def State.responseAccesses (s : State) (ack : Bool) (t : Byte) : List Access :=
  (if ack then ackAccesses else []) ++ s.entryAccesses t

/-- An interrupt entry that nothing disturbs. -/
def enterCalm (ack : Bool) (t : Byte) (s : State) : Out :=
  andThen (interrupt t s) fun r => .next (r.note ((s.responseAccesses ack t).map (Access.cycle s r s)) [.empty])

/-- An interrupt entry by its cycles. -/
def enterByCycles (ack : Bool) (t : Byte) (s : State) : Out :=
  let v := (view (s.responseAccesses ack t) none s s).2
  andThen (performAll (s.responseAccesses ack t) v s (interrupt t v)) fun r => .next (r.noteEnd [.empty])

/-- `Interrupt(t)` on the bus (R386, R353). -/
def enter (ack : Bool) (t : Byte) (s : State) : Out :=
  if s.calm then enterCalm ack t s else enterByCycles ack t s

/-- All the bus cycles of an instruction, those of the entry it ends in included. -/
def State.allAccesses (s : State) (i : Instr) : List Access :=
  s.accesses i ++ match s.pendingEntry i with | some (t, _) => s.entryAccesses t | none => []

/-- The cycles of an instruction that nothing disturbs, from `s` to `r`. The two reads of CMPS have draw numbers of
their own (log 23). -/
def State.calmCycles (s r : State) (i : Instr) : List BusCycle :=
  match i with
  | .cmps w =>
    (s.unlessDone (s.sourceAccess w)).map (Access.cycle s r s) ++
      (s.unlessDone (s.destAccess .readMemory w)).map (Access.cycle s r s.tick)
  | _ => (s.allAccesses i).map (Access.cycle s r s)

/-- An instruction that nothing disturbs. -/
def runCalm (i : Instr) (s : State) : Out :=
  andThen (exec i s) fun r => .next (r.note (s.calmCycles r i) (emptyOps r))

/-- CMPS by its cycles: its two elements may be the same byte, read twice (R233). -/
def cmpsByCycles (w : Width) (s : State) : Out :=
  let source := s.unlessDone (s.sourceAccess w)
  let v := (view source none s s).2
  andThen (performAll source v s (.next s)) fun u =>
    if u.cut then .next u else
      let dest := s.unlessDone (s.destAccess .readMemory w)
      let v' := (view dest none u u.tick).2
      performAll dest v' u
        (.next (repeated true (.cmps w) (cmpsWith w (v.sourceElement w) (v'.destElement w)) u))

/-- Any other instruction by its cycles; it finds what the ports answer at the head of the list of inputs. An entry that
it ends in comes behind its own cycles. -/
def instrByCycles (i : Instr) (s : State) : Out :=
  let v := (view (s.accesses i) none s { s with ioIn := [] }).2
  match v.pendingEntry i with
  | none => performAll (s.accesses i) v s (exec i v)
  | some (t, u) =>
    andThen (performAll (s.accesses i) v s (.next u)) fun u =>
      if u.cut then .next u else
        let v' := (view (u.entryAccesses t) none u u).2
        performAll (u.entryAccesses t) v' u (interrupt t v')

/-- An instruction by its cycles. -/
def runByCycles (i : Instr) (s : State) : Out :=
  andThen (match i with | .cmps w => cmpsByCycles w s | _ => instrByCycles i s) fun r => .next (r.noteEnd (emptyOps r))

/-- An instruction on the bus. -/
def runBus (i : Instr) (s : State) : Out := if s.calm && s.par.ioMap.isEmpty then runCalm i s else runByCycles i s

end Sys2Proof.Machine
end

