-- ==== Sys2Proof/Machine/Cycle.lean ====
section
/-! DEFINITION. What a step does around an instruction: its inputs, reset, bus requests, the fetch through the queue, the
prefixes, and the recognition point (`spec/60_exceptions.md` R391 to R396, `spec/70_reset_and_hazards.md`,
`spec/50_bus_interface.md` R345 to R349). -/

namespace Sys2Proof.Machine

/-! ## The instruction queue -/

/-- The queue as exactly `n` slots. -/
def padQueue : Nat → List (Option Byte) → List (Option Byte)
  | 0, _ => []
  | n + 1, [] => none :: padQueue n []
  | n + 1, x :: r => x :: padQueue n r

/-- The queue without the slots at its end that are memory's. -/
def trimQueue : List (Option Byte) → List (Option Byte)
  | [] => []
  | x :: r =>
    match x, trimQueue r with
    | none, [] => []
    | x, t => x :: t

/-- The offset of the first instruction byte behind the instruction in progress. -/
def State.streamIp (s : State) : Word := if s.cont.isSome then s.ip + 1 else s.ip

/-- The physical address of the instruction byte at distance `k` in the stream (R26, R54). -/
def State.streamAddr (s : State) (k : Nat) : PhysAddr := phys s.sregs.cs (s.streamIp + BitVec.ofNat 16 k)

/-- A slot behind an instruction that went from `old` to `new`: a byte that is already fixed stays, a byte that was
overwritten is the old one or the new one by a free choice (R440, D7; log 6). -/
def slotAfter (old new : State) (k : Nat) (slot : Option Byte) : Option Byte :=
  match slot with
  | some b => some b
  | none =>
    let a := new.streamAddr k
    if old.cell a = new.cell a then none
    else if Config.undefBit new.draws (.queued k) then some (old.readByte a)
    else none

/-- The slots from distance `k` on. -/
def slotsAfter (old new : State) : Nat → List (Option Byte) → List (Option Byte)
  | _, [] => []
  | k, x :: r => slotAfter old new k x :: slotsAfter old new (k + 1) r

/-- The queue behind an instruction; an empty one was emptied by a transfer of control and stays empty (R40, R70). -/
def settleQueue (old new : State) : State := { new with queue := trimQueue (slotsAfter old new 0 new.queue) }

/-- The instruction bytes from distance `k` on: the slot's byte where it has one, else memory's. -/
def State.windowBytes (s : State) : Nat → List (Option Byte) → List Byte
  | _, [] => []
  | k, x :: r => x.getD (s.fetchByte (s.streamAddr k)) :: s.windowBytes (k + 1) r

/-- The bytes of the longest instruction, from CS:IP (R81, R26). -/
def State.fetchWindow (s : State) : List Byte := s.windowBytes 0 (padQueue maxBytes s.queue)

/-! ## The recognition point -/

/-- The state in which an interrupt between iterations of a repeated string instruction, or in a WAIT, is entered: IP is
the offset of the prefix byte next to the opcode, or of the opcode when there is none, and the prefixes are lost (R391,
R394, R441). -/
def State.settle (s : State) : State :=
  if s.cont.isSome then
    { s with ip := if s.pfx = Pfx.none then s.ip else s.ip - 1, pfx := Pfx.none, cont := none }
  else s

/-- An NMI edge of the environment sets the latch (R41, R383). -/
def State.latch (s : State) (edge : Bool) : State := { s with nmi := s.nmi || edge }

/-- NMI goes before INTR (R383, R384, R389). -/
def recogniseExternal (s : State) : Out :=
  if s.nmi then enter false 2 { s.settle with nmi := false }
  else if s.input.intr && s.flags.ifl then enter true s.input.inta s.settle
  else .next s

/-- The single-step trap (R392). -/
def recogniseStep (stepTf : Bool) (s : State) : Out := if stepTf then enter false 1 s.settle else .next s

/-- An edge that arrived meanwhile (R395). -/
def recogniseLate (s : State) : Out :=
  let s1 := s.latch s.input.nmiLate
  if s1.nmi then enter false 2 { s1.settle with nmi := false } else .next s1

/-- Go on, unless RESET has cut the step off. -/
def unlessCut (f : State → Out) (s : State) : Out := if s.cut then .next s else f s

/-- `Boundary(step)` (R395, R396, D17). -/
def boundary (stepTf : Bool) (s : State) : Out :=
  if s.inhibit then .next ({ s with inhibit := false }.latch s.input.nmiLate)
  else andThen (andThen (recogniseExternal s) (unlessCut (recogniseStep stepTf))) (unlessCut recogniseLate)

/-! ## One instruction -/

/-- A prefix byte, behind which there is no boundary (R395, R396). -/
def isPrefixByte : Instr → Bool
  | .rep _ => true
  | .lock => true
  | .segOverride _ => true
  | _ => false

/-- A string primitive, the only instructions REP applies to (R102). -/
def isStringPrimitive : Instr → Bool
  | .movs _ => true
  | .cmps _ => true
  | .scas _ => true
  | .lods _ => true
  | .stos _ => true
  | _ => false

/-- The prefixes end with the instruction they precede, unless it goes on at the next step (R42, R102). -/
def State.endPrefixes (s : State) : State := if s.cont.isSome then s else { s with pfx := Pfx.none }

/-- Behind a meaning: nothing more for a prefix byte; else the prefixes end and the recognition point follows. A WAIT
that goes on waiting is not complete, so no single-step trap follows it. -/
def finish (i : Instr) (tf : Bool) (s : State) : Out :=
  if isPrefixByte i then .next (s.latch s.input.nmiLate)
  else boundary (tf && s.run != .waiting) s.endPrefixes

/-- Run a decoded instruction of which `n` bytes were taken, IP already behind it (R26). Its draws have a number of
their own, and the queue is held at its full length so that a transfer of control can be told by its emptiness. -/
def runInstr (i : Instr) (n : Nat) (s : State) : Out :=
  if s.pfx.rep.isSome && !isStringPrimitive i && !isPrefixByte i then .refused .repBeforeNonString
  else
    let s1 := { s.note [] (takeOps n) with queue := padQueue maxBytes s.queue }.tick
    andThen (runBus i s1) (unlessCut fun s2 => finish i s.flags.tf (settleQueue s1 s2))

/-- Take the instruction in progress again, or fetch and decode the next one (R104, R231, R308). An instruction taken
again takes no byte from the queue and reports no queue operation, a WAIT too: a DESIGN CHOICE (R346; log 20). -/
def instruction (s : State) : Out :=
  match s.cont with
  | some i => runInstr i 0 { s with ip := s.ip + 1, cont := none }
  | none =>
    match decode s.fetchWindow with
    | .error e => .refused (.undecodable e)
    | .ok (i, rest) =>
      let n := maxBytes - rest.length
      runInstr i n { s with ip := s.ip + BitVec.ofNat 16 n, queue := s.queue.drop n }

/-! ## Bus requests and hold acknowledge -/

/-- The input of this step; behind the end of the list, the input that goes on for ever (D20; log 7). Each step has a
draw number, and the outputs of the step before are gone. -/
def State.takeInput (s : State) : State :=
  let s1 := { s with bus := { s.bus with cycles := [], queueOps := [] } }.tick
  match s.env with
  | [] => { s1 with input := s.rest }
  | e :: r => { s1 with input := e, env := r }

/-- HOLD in the minimum mode: a level, acknowledged unless an instruction with LOCK is executing (R71, R349). -/
def State.arbitrateHold (s : State) : BusOwner := if s.input.hold && (s.held || !s.pfx.lock) then .hold else .cpu

/-- RQ/GT0 and RQ/GT1 in the maximum mode: a pulse from the master that has the bus gives it back, any other pulse is a
request. Requests are recorded, RQ/GT0 goes first, and none is granted under LOCK (R71, R345). -/
def State.arbitratePulses (s : State) : BusState :=
  let b := s.bus
  let back := (b.owner = .rq0 && s.input.rq0) || (b.owner = .rq1 && s.input.rq1) || b.owner = .hold
  let owner := if back then .cpu else b.owner
  let want0 := b.rq0 || (s.input.rq0 && b.owner ≠ .rq0)
  let want1 := b.rq1 || (s.input.rq1 && b.owner ≠ .rq1)
  if owner = .cpu && !s.pfx.lock then
    if want0 then { b with owner := .rq0, rq0 := false, rq1 := want1 }
    else if want1 then { b with owner := .rq1, rq0 := false, rq1 := false }
    else { b with owner := .cpu, rq0 := false, rq1 := false }
  else { b with owner := owner, rq0 := want0, rq1 := want1 }

/-- Who has the local bus in this step (R345, R349). -/
def State.arbitrate (s : State) : State :=
  match s.par.strap with
  | .minimum => { s with bus := { s.bus with owner := s.arbitrateHold, rq0 := false, rq1 := false } }
  | .maximum => { s with bus := s.arbitratePulses }

/-- The bytes at the front of the queue that are in it for certain. -/
def knownBytes : List (Option Byte) → List Byte
  | some b :: r => b :: knownBytes r
  | none :: _ => []
  | [] => []

/-- The queue when the bus is granted: it holds `n` bytes of the stream, or more where an earlier choice has put more
there (R40; log 29). Nothing is fetched until the CPU has the bus again. -/
def State.pinQueue (s : State) (n : Nat) : State :=
  { s with queue := (s.fetchWindow.take (max n s.queue.length)).map some }

/-- The EU can end the instruction `i` without a bus cycle, entries at the boundary behind it included (R43). -/
def needsNoBus (i : Instr) (tf : Bool) (s r : State) : Bool :=
  (s.allAccesses i).isEmpty &&
    (isPrefixByte i || r.inhibit ||
      !(r.nmi || (r.input.intr && r.flags.ifl) || (tf && r.run != .waiting) || r.input.nmiLate))

/-- The EU executes `i`, of which it takes `n` bytes, from `s` in a step of hold acknowledge, if it can; else the
machine is `stay` (R43, R74; log 29). -/
def runHeld (i : Instr) (n : Nat) (s stay : State) : Out :=
  if s.pfx.rep.isSome && !isStringPrimitive i && !isPrefixByte i then .next stay
  else
    match exec i { s with queue := padQueue maxBytes s.queue }.tick with
    | .next r =>
      if needsNoBus i s.flags.tf s r then
        finish i s.flags.tf ({ r with queue := trimQueue r.queue }.note [] (takeOps n ++ emptyOps r))
      else .next stay
    | .fault _ => .next stay
    | .refused _ => .next stay

/-- What the EU does in a step of hold acknowledge: the instruction in progress, or the next one if the queue holds all
its bytes (R43, R74). -/
def heldInstruction (s : State) : Out :=
  let stay := s.latch s.input.nmiLate
  match s.cont with
  | some i => runHeld i 0 { s with ip := s.ip + 1, cont := none } stay
  | none =>
    match decode (knownBytes s.queue) with
    | .error _ => .next stay
    | .ok (i, rest) =>
      let n := (knownBytes s.queue).length - rest.length
      runHeld i n { s with ip := s.ip + BitVec.ofNat 16 n, queue := s.queue.drop n } stay

/-- The EU has something to go on with: it is running or waiting (R43). -/
def State.executes (s : State) : Bool := s.run == .running || s.run == .waiting

/-- A step of hold acknowledge. Another master writes, which bytes in the queue do not see, and the EU goes on as far as
it needs no bus cycle, if the environment lets it in this step (R43, R70, R74; log 29). -/
def holdStep (s : State) : Out :=
  let s1 := masterWrites s.input.busWrites s
  if s.input.euGoes && s1.executes then heldInstruction s1 else .next (s1.latch s.input.nmiLate)

/-- A step in which the local bus is granted, or still is: the queue holds what it held at the grant. -/
def grantStep (n : Nat) (before : State) (s : State) : Out :=
  holdStep (if before.held then s else s.pinQueue n)

/-- The writes of masters of the system bus before the step; the bus is not theirs under LOCK (`State.systemGap`), and
bytes in the queue do not see them (R62, R70, R71). In hold acknowledge and during RESET the queue takes no byte. -/
def systemStep (s : State) : State :=
  if s.systemGap none && !s.input.systemWrites.isEmpty then
    if s.held || s.run == .heldInReset then masterWrites s.input.systemWrites s
    else
      let s1 := { s with queue := padQueue maxBytes s.queue }
      settleQueue s1 (masterWrites s.input.systemWrites s1)
  else s

/-- The halt indication (R354). -/
def haltCycle (s : State) : BusCycle :=
  { kind := .halt, addr := none, bhe := none, seg := none, high := none, low := none, lock := s.lockIn .halt }

/-- A halted machine: the halt indication is put out again when the bus comes back from another master (R307, R354; log
20). -/
def haltedStep (before : State) (s : State) : Out :=
  boundary false (if before.held then s.note [haltCycle s] [] else s)

/-! ## Reset -/

/-- A general register behind a RESET event: free (R430, U14; log 22). -/
def State.freeReg (s : State) (r : RegField) : Word := Config.undefWord s.draws (.resetReg r.code.toNat)

/-- RESET has returned LOW: the register values of R430. -/
def State.leaveReset (s : State) : State :=
  { s.enterReset with
    run := .running
    ip := 0
    sregs := State.reset.sregs
    flags := Flags.clear
    regs :=
      { ax := s.freeReg .ax, cx := s.freeReg .cx, dx := s.freeReg .dx, bx := s.freeReg .bx, sp := s.freeReg .sp,
        bp := s.freeReg .bp, si := s.freeReg .si, di := s.freeReg .di } }

/-- The end of the internal reset sequence. An NMI edge during it is taken before the first instruction or at the first
boundary behind it, as the environment chooses; an earlier edge is discarded (R445, D35). A bus request is honoured
before the first instruction fetch (R349, R431), and an NMI that is to come before the first instruction is entered when
the bus is back (log 31). -/
def endReset (s : State) : Out :=
  let s1 := s.leaveReset.arbitrate
  if s1.held then
    grantStep 0 s.leaveReset
      { s1 with run := if s.input.nmiLate && s.input.nmiFirst then .restarting else .running }
  else if s.input.nmiLate then
    if s.input.nmiFirst then enter false 2 s1 else .next { s1 with nmi := true }
  else .next s1

/-! ## A step -/

/-- One step behind its inputs: reset first, then bus requests, then the run state (R43, R307, R430). Masters of the
system bus write during RESET too, since LOCK is not active then (R10). -/
def stepInput (s : State) : Out :=
  if s.input.reset then .next (systemStep s.enterReset)
  else if s.run = .heldInReset then endReset (systemStep s.enterReset)
  else
    let s1 := systemStep (s.latch s.input.nmiEdge)
    let s2 := s1.arbitrate
    if s2.held then grantStep s2.input.prefetched s1 s2
    else if s2.run = .halted then haltedStep s1 s2
    else if s2.run = .restarting then boundary false { s2 with run := .running }
    else instruction s2

/-- A RESET that goes HIGH in the step has ended it (R340, R430). -/
def State.closeStep (s : State) : State := if s.input.resetAfter.isSome then s.enterReset else s

/-- One step. -/
def cycle (s : State) : Out := andThen (stepInput s.takeInput) fun t => .next t.closeStep

/-- The bytes of a table word stored from CS:IP on. -/
def storeCode : Nat → List Byte → State → State
  | _, [], s => s
  | k, b :: r, s => storeCode (k + 1) r (s.writeByte (phys s.sregs.cs (s.ip + BitVec.ofNat 16 k)) b)

/-- The machine with the instruction of a table word at CS:IP, running, with nothing in progress and an empty queue, so
that the next step fetches it (logs 17 and 18). -/
def placeWord (nbits w : Nat) (s : State) : State :=
  storeCode 0 (tableBytes nbits w) { s with queue := [], cont := none, run := .running }

end Sys2Proof.Machine
end

