-- ==== Sys2Proof/Machine/Step.lean ====
section
/-! DEFINITION. One step of the machine, and the placing of an instruction where a step fetches. -/

namespace Sys2Proof.Machine

/-- One step: the inputs, then reset, a bus grant, or one instruction with the recognition point behind it (D30). -/
def step (s : State) : Host.Outcome State Fault Refusal := cycle s

/-- The instruction of a table word placed where the next step fetches (logs 17 and 18). -/
def State.withFetchWord (s : State) (nbits w : Nat) : State := placeWord nbits w s

end Sys2Proof.Machine
end

