-- ==== Sys2Proof/Safety.lean ====
section
/-! DEFINITION. The terms the claims use: what a write of a destination leaves, what the flags say of a result in plain
numbers, runs, and the invariant of the machine. -/

namespace Sys2Proof.Machine

/-! ## Destinations and their frames -/

/-- The physical addresses of a byte or word at an offset of a segment (R57, R61). -/
def storedAt (w : Width) (seg off : Word) : List PhysAddr :=
  match w with
  | .byte => [phys seg off]
  | .word => [phys seg off, phys seg (off + 1)]

/-- Memory behind a store of `v` at `seg:off`: its bytes there, the low one first, and every other byte as before. -/
def Stored (w : Width) (seg off : Word) (v : BitVec w.bits) (s t : State) : Prop :=
  (∀ a, a ∉ storedAt w seg off → t.cell a = s.cell a) ∧
    match w, v with
    | .byte, v => t.cell (phys seg off) = some v
    | .word, v => t.cell (phys seg off) = some (wordLo v) ∧ t.cell (phys seg (off + 1)) = some (wordHi v)

/-- The general registers behind a write of `v` to one of them: no other register, and for a byte register no other
byte register, is changed (R21 to R23). -/
def RegWritten (w : Width) (r : RegField) (v : BitVec w.bits) (g g' : Regs) : Prop :=
  match w, v with
  | .byte, v =>
    g'.get8 r = v ∧ (∀ r', r' ≠ r → g'.get8 r' = g.get8 r') ∧
      g'.sp = g.sp ∧ g'.bp = g.bp ∧ g'.si = g.si ∧ g'.di = g.di
  | .word, v => g'.get r = v ∧ ∀ r', r' ≠ r → g'.get r' = g.get r'

/-- The machine behind a write of `v` to a register or memory operand: nothing else is changed, and the operand's
address is computed from the registers before the write (R90). -/
def DestWritten (w : Width) (rm : RM) (v : BitVec w.bits) (s t : State) : Prop :=
  match rm with
  | .reg r => RegWritten w r v s.regs t.regs ∧ t = { s with regs := t.regs }
  | .mem m => Stored w (s.memSeg m) (s.ea m) v s t ∧ t = { s with mem := t.mem }

/-- The machine behind a push of `v`: SP two lower, `v` stored there in SS, nothing else changed (R16). -/
def Pushed (v : Word) (s t : State) : Prop :=
  Stored .word s.sregs.ss (s.regs.sp - 2) v s t ∧ RegWritten .word .sp (s.regs.sp - 2) s.regs t.regs ∧
    t = { s with mem := t.mem, regs := t.regs }

/-! ## Flags as plain numbers -/

/-- SF, ZF and PF of an n-bit result (R18, R29, R31, R32). -/
def ResultFlags (n r : Nat) (f : Flags) : Prop :=
  f.zf = decide (r = 0) ∧ f.sf = decide (2 ^ (n - 1) ≤ r) ∧
    f.pf = decide (((List.range 8).countP fun i => r.testBit i) % 2 = 0)

/-- TF, IF and DF are as before. -/
def ControlKept (f f' : Flags) : Prop := f'.tf = f.tf ∧ f'.ifl = f.ifl ∧ f'.df = f.df

/-- A signed number that an n-bit register cannot hold. -/
def OutOfRange (n : Nat) (x : Int) : Prop := x < -2 ^ (n - 1) ∨ 2 ^ (n - 1) ≤ x

/-- The flags of `a + b + c` on n-bit operands, all but CF (R18, R30, R36). -/
def AddFlagsNoCarry {n : Nat} (a b : BitVec n) (c : Bool) (f f' : Flags) : Prop :=
  ResultFlags n ((a.toNat + b.toNat + c.toNat) % 2 ^ n) f' ∧
    (f'.ofl = true ↔ OutOfRange n (a.toInt + b.toInt + c.toNat)) ∧
    (f'.af = true ↔ 16 ≤ a.toNat % 16 + b.toNat % 16 + c.toNat) ∧ ControlKept f f'

/-- The flags of `a + b + c` (R18, R28). -/
def AddFlags {n : Nat} (a b : BitVec n) (c : Bool) (f f' : Flags) : Prop :=
  AddFlagsNoCarry a b c f f' ∧ (f'.cf = true ↔ 2 ^ n ≤ a.toNat + b.toNat + c.toNat)

/-- The flags of `a - b - c` on n-bit operands, all but CF (R18, R30, R36). -/
def SubFlagsNoCarry {n : Nat} (a b : BitVec n) (c : Bool) (f f' : Flags) : Prop :=
  ResultFlags n ((2 ^ n + 2 ^ n + a.toNat - b.toNat - c.toNat) % 2 ^ n) f' ∧
    (f'.ofl = true ↔ OutOfRange n (a.toInt - b.toInt - c.toNat)) ∧
    (f'.af = true ↔ a.toNat % 16 < b.toNat % 16 + c.toNat) ∧ ControlKept f f'

/-- The flags of `a - b - c` (R18, R28). -/
def SubFlags {n : Nat} (a b : BitVec n) (c : Bool) (f f' : Flags) : Prop :=
  SubFlagsNoCarry a b c f f' ∧ (f'.cf = true ↔ a.toNat < b.toNat + c.toNat)

/-- The flags of a logic result; AF may be anything (R213). -/
def LogicFlags {n : Nat} (r : BitVec n) (f f' : Flags) : Prop :=
  ResultFlags n r.toNat f' ∧ f'.cf = false ∧ f'.ofl = false ∧ ControlKept f f'

/-! ## Shapes of results -/

/-- The segment registers behind a write of `v` to one of them (R25). -/
def SRegWritten (r : SReg) (v : Word) (g g' : SRegs) : Prop := g'.get r = v ∧ ∀ r', r' ≠ r → g'.get r' = g.get r'

/-- The outcome is a next state in which `dst` holds `a + b + c`, the flags say so, and nothing else is changed. -/
def AddsTo (w : Width) (dst : RM) (a b : BitVec w.bits) (c : Bool) (s : State) (o : Out) : Prop :=
  ∃ t f v, o = .next t ∧ AddFlags a b c s.flags f ∧ v.toNat = (a.toNat + b.toNat + c.toNat) % 2 ^ w.bits ∧
    DestWritten w dst v { s with flags := f } t

/-- The outcome is a next state in which `dst` holds `a - b - c`, the flags say so, and nothing else is changed. -/
def SubsTo (w : Width) (dst : RM) (a b : BitVec w.bits) (c : Bool) (s : State) (o : Out) : Prop :=
  ∃ t f v, o = .next t ∧ SubFlags a b c s.flags f ∧
    (v.toNat : Int) = ((a.toNat : Int) - b.toNat - c.toNat) % 2 ^ w.bits ∧ DestWritten w dst v { s with flags := f } t

/-- The outcome is a next state whose flags are those of `a - b`, and nothing else is changed. -/
def Compares {n : Nat} (a b : BitVec n) (s : State) (o : Out) : Prop :=
  ∃ t, o = .next t ∧ SubFlags a b false s.flags t.flags ∧ t = { s with flags := t.flags }

/-- The outcome is a next state in which `dst` holds the logic result `v`, the flags say so, and nothing else is
changed; AF may be anything. -/
def LogicTo (w : Width) (dst : RM) (v : BitVec w.bits) (s : State) (o : Out) : Prop :=
  ∃ t f, o = .next t ∧ LogicFlags v s.flags f ∧ DestWritten w dst v { s with flags := f } t

/-- The outcome is a next state whose flags are those of the logic result `v`, and nothing else is changed. -/
def LogicTests {n : Nat} (v : BitVec n) (s : State) (o : Out) : Prop :=
  ∃ t, o = .next t ∧ LogicFlags v s.flags t.flags ∧ t = { s with flags := t.flags }

/-- The entry sequence of R386 from a state whose IP is the return offset: FLAGS, CS and IP are pushed in that order, IF
and TF are cleared behind the first push, and CS and IP are the words of the element. -/
def Entered (t : Byte) (s u : State) : Prop :=
  ∃ img u1 u2 u3 ip cs, Flags.ofImage img = s.flags ∧ Pushed img { s with draws := s.draws + 1 } u1 ∧
    Pushed s.sregs.cs { u1 with flags := { s.flags with ifl := false, tf := false } } u2 ∧ Pushed s.ip u2 u3 ∧
    s.cell (BitVec.ofNat 20 (4 * t.toNat)) = some (wordLo ip) ∧
    s.cell (BitVec.ofNat 20 (4 * t.toNat + 1)) = some (wordHi ip) ∧
    s.cell (BitVec.ofNat 20 (4 * t.toNat + 2)) = some (wordLo cs) ∧
    s.cell (BitVec.ofNat 20 (4 * t.toNat + 3)) = some (wordHi cs) ∧
    u = { u3 with ip := ip, sregs := { s.sregs with cs := cs }, queue := [], run := .running }

/-- The four bytes of the element of a type have been written (R381). -/
def VectorReady (t : Byte) (s : State) : Prop :=
  ∀ k, k < 4 → (s.cell (BitVec.ofNat 20 (4 * t.toNat + k))).isSome = true

/-- One of the six bytes below SS:SP lies in the element of a type (R386). -/
def StackOnVector (t : Byte) (s : State) : Prop :=
  ∃ k, 1 ≤ k ∧ k ≤ 6 ∧ ∃ j, j < 4 ∧
    (phys s.sregs.ss (s.regs.sp - BitVec.ofNat 16 k)).toNat = 4 * t.toNat + j

/-- The sum of the registers of an effective address (R89). -/
def baseSum (g : Regs) : Base → Nat
  | .bxSi => g.bx.toNat + g.si.toNat
  | .bxDi => g.bx.toNat + g.di.toNat
  | .bpSi => g.bp.toNat + g.si.toNat
  | .bpDi => g.bp.toNat + g.di.toNat
  | .si => g.si.toNat
  | .di => g.di.toNat
  | .bp => g.bp.toNat
  | .bx => g.bx.toNat

/-- BP takes part in the address, so SS is the default segment (R54, R89). -/
def UsesBp : MemOp → Prop
  | .direct _ => False
  | .ind b => b = .bpSi ∨ b = .bpDi ∨ b = .bp
  | .disp8 b _ => b = .bpSi ∨ b = .bpDi ∨ b = .bp
  | .disp16 b _ => b = .bpSi ∨ b = .bpDi ∨ b = .bp

/-- The first two bytes are an encoding that the spec refuses: the list of R108, CS as a destination (R106), and a
register where an address is needed (R107). -/
def refusedBytes (b0 b1 : Byte) : Bool :=
  let n0 := b0.toNat
  let field := b1.toNat / 8 % 8
  let isReg := decide (192 ≤ b1.toNat)
  decide (0x60 ≤ n0 ∧ n0 ≤ 0x6F) || [0x0F, 0xC0, 0xC1, 0xC8, 0xC9, 0xD6, 0xF1].contains n0 ||
    ([0x82, 0x83].contains n0 && [1, 4, 6].contains field) || (n0 == 0x8C && decide (4 ≤ field)) ||
    (n0 == 0x8E && (decide (4 ≤ field) || field == 1)) || (n0 == 0x8F && field != 0) ||
    ([0xC6, 0xC7].contains n0 && field != 0) || ([0xD0, 0xD1, 0xD2, 0xD3].contains n0 && field == 6) ||
    ([0xF6, 0xF7].contains n0 && field == 1) || (n0 == 0xFE && decide (2 ≤ field)) || (n0 == 0xFF && field == 7) ||
    ([0xD4, 0xD5].contains n0 && b1.toNat != 0x0A) || ([0x8D, 0xC4, 0xC5].contains n0 && isReg) ||
    (n0 == 0xFF && (field == 3 || field == 5) && isReg)

/-! ## Runs -/

/-- `t` is reached from `s` by steps that each answer a next state. -/
inductive Reaches : State → State → Prop where
  | refl (s : State) : Reaches s s
  | tail {s t u : State} : Reaches s t → step t = .next u → Reaches s u

/-- A run is safe when it never stops. -/
def SafeRun (s : State) : Prop := ∀ t, Reaches s t → ∃ u, step t = .next u

/-- The environment says `e`, now and for ever, nothing is pending, the CPU has the bus, memory is RAM everywhere,
and every port is a device (D2, D20). -/
def Forever (e : EnvInput) (s : State) : Prop :=
  s.env = [] ∧ s.rest = e ∧ s.nmi = false ∧ s.bus.owner = .cpu ∧ s.bus.rq0 = false ∧ s.bus.rq1 = false ∧
    s.par.memMap = [] ∧ s.par.ioMap = []

/-- The environment says nothing (D20). -/
def Quiet (s : State) : Prop := Forever EnvInput.quiescent s

/-- An input that asks for the bus neither for another master of the local bus nor for one of the system bus, lets none
come between bus cycles, and holds no RESET. -/
def EnvInput.Undisturbed (e : EnvInput) : Prop :=
  e.reset = false ∧ e.resetAfter = none ∧ e.hold = false ∧ e.rq0 = false ∧ e.rq1 = false ∧ e.systemWrites = [] ∧
    e.gaps = []

/-- No program, no access and no interrupt has moved the machine on: only time has passed. -/
def Unmoved (s t : State) : Prop :=
  t.regs = s.regs ∧ t.sregs = s.sregs ∧ t.ip = s.ip ∧ t.flags = s.flags ∧ t.pfx = s.pfx ∧ t.run = s.run ∧
    t.cont = s.cont ∧ t.inhibit = s.inhibit ∧ t.ioIn = s.ioIn ∧ t.ioOut = s.ioOut

/-- `u` is the machine behind a RESET event from `s`, but for the NMI latch, the general registers and who has the bus:
the registers of R430, an empty queue, nothing in progress, memory and ports as they were. -/
def RestartedFrom (s u : State) : Prop :=
  u.run = .running ∧ u.sregs = State.reset.sregs ∧ u.ip = 0 ∧ u.flags = Flags.clear ∧ u.queue = [] ∧
    u.pfx = Pfx.none ∧ u.inhibit = false ∧ u.cont = none ∧ u.mem = s.mem ∧ u.ioIn = s.ioIn ∧ u.ioOut = s.ioOut ∧
    u.bus.ioMem = s.bus.ioMem

/-- The outcome without what the step has put out on the pins (R46). -/
def silent (o : Out) : Out :=
  andThen o fun t => .next { t with bus := { t.bus with cycles := [], queueOps := [] } }

/-! ## The invariant -/

/-- An instruction is in progress between two steps only as R231 and R308 say. -/
def ProgressOk (s : State) : Prop :=
  s.cont = none ∨ (s.cont = some .wait ∧ s.run = .waiting) ∨
    ∃ i, s.cont = some i ∧ isStringPrimitive i = true ∧ s.run = .running ∧ s.pfx.rep.isSome = true

/-- Who can have the bus under a strap, and which requests can be recorded: HOLD is of the minimum mode, RQ/GT of the
maximum mode, and a master that has the bus has no request recorded (R345, R349). -/
def BusOk (strap : Strap) (b : BusState) : Prop :=
  match strap with
  | .minimum => (b.owner = .cpu ∨ b.owner = .hold) ∧ b.rq0 = false ∧ b.rq1 = false
  | .maximum => b.owner ≠ .hold ∧ (b.owner = .rq0 → b.rq0 = false) ∧ (b.owner = .rq1 → b.rq1 = false)

/-- What holds between any two steps of the machine. -/
structure Inv (s : State) : Prop where
  /-- memory is in canonical form, inside the 2^20 bytes of R50 -/
  memory : Memory.wf s.mem = true
  /-- the inhibit bit lasts one boundary (R396) -/
  inhibit : s.inhibit = false
  /-- the queue holds at most 6 bytes (R40) -/
  queue : s.queue.length ≤ maxBytes
  /-- the bytes of the ports too (R51) -/
  ports : Memory.wf s.bus.ioMem = true
  progress : ProgressOk s
  /-- waiting is executing WAIT (R43) -/
  waiting : s.run = .waiting → s.cont = some .wait
  /-- nothing is in progress and no prefix pends while halted, in reset or before the first instruction (R42, R43) -/
  asleep : s.run = .halted ∨ s.run = .heldInReset ∨ s.run = .restarting → s.cont = none ∧ s.pfx = Pfx.none
  /-- an NMI that is to be entered before the first instruction is latched (R445) -/
  restart : s.run = .restarting → s.nmi = true
  /-- what RESET clears stays clear while it is HIGH (R430) -/
  held : s.run = .heldInReset →
    s.queue = [] ∧ s.nmi = false ∧ s.bus.owner = .cpu ∧ s.bus.rq0 = false ∧ s.bus.rq1 = false
  /-- the bus belongs to a master of its mode (R345, R349) -/
  bus : BusOk s.par.strap s.bus

end Sys2Proof.Machine
end

