-- ==== Sys2Proof/Certificates/Slice0/Obligations.lean ====
section
/-! DEFINITION. The statements for the provers. A rule number in a docstring is the rule of spec/ that the statement
formalises; where a clause is the model's own choice the docstring names the log entry. -/

open Sys2Proof Sys2Proof.Machine

/-! ## Encoding -/

/-- Every well-formed instruction is read back from its encoding, whatever bytes follow it (R80 to R99). -/
def Obligations.DecodeOfEncode : Prop :=
  ∀ (i : Instr) (r : List Byte), i.wf = true → decode (encode i ++ r) = .ok (i, r)

/-- Decoding is one to one: the bytes an instruction was read from are its encoding, and it is well formed (R104). -/
def Obligations.EncodeOfDecode : Prop :=
  ∀ (bs : List Byte) (i : Instr) (r : List Byte), decode bs = .ok (i, r) → i.wf = true ∧ bs = encode i ++ r

/-- Exactly the encodings of the list of R108, with CS as a destination (R106) and the register forms of R107, are
refused, when six bytes are there. That they are refused is the spec's decisions D5, D27, D28 and D33 (log 21). -/
def Obligations.RefusedEncodings : Prop :=
  ∀ (b0 b1 b2 b3 b4 b5 : Byte) (r : List Byte),
    (∃ e, decode (b0 :: b1 :: b2 :: b3 :: b4 :: b5 :: r) = .error e) ↔ refusedBytes b0 b1 = true

/-- Words written out from the encodings of the spec decode to the instructions they stand for (R121, R160, R122, R88,
R202, R252, R87). -/
def Obligations.DecodedWords : Prop :=
  decode [0x89, 0xD8] = .ok (.movRmReg .fromReg .word .bx (.reg .ax), []) ∧
  decode [0x83, 0xC3, 0xFF] = .ok (.addRmImm (.wordSx 0xFF) (.reg .bx), []) ∧
  decode [0xC7, 0x85, 0x34, 0x12, 0xCD, 0xAB] =
    .ok (.movRmImm .word (.mem (.disp16 .di 0x1234)) 0xABCD, []) ∧
  decode [0x8B, 0x46, 0xFE] = .ok (.movRmReg .toReg .word .ax (.mem (.disp8 .bp 0xFE)), []) ∧
  decode [0xD3, 0xE0] = .ok (.shlRm .cl .word (.reg .ax), []) ∧
  decode [0xF3] = .ok (.rep true, []) ∧
  decode [0x9A, 0x34, 0x12, 0x00, 0x20] = .ok (.callFar 0x1234 0x2000, []) ∧
  decode [0x8E, 0xD8] = .ok (.movSregRm .ds (.reg .ax), [])

/-! ## Addresses, memory and registers -/

/-- The effective address of each memory operand is the sum of its registers and its displacement modulo 2^16, and its
segment register is the override's, or else SS when BP takes part and DS when not. The physical address is sixteen
times the segment register plus the offset, modulo 2^20 (R53, R54, R89, R90). The reductions modulo 2^16 and 2^20 are
the spec's decisions D8 and D9. -/
def Obligations.EffectiveAddress : Prop :=
  ∀ s : State,
    (∀ seg o : Word, (phys seg o).toNat = (seg.toNat * 16 + o.toNat) % 2 ^ 20) ∧
    (∀ a, s.ea (.direct a) = a) ∧
    (∀ b, (s.ea (.ind b)).toNat = baseSum s.regs b % 2 ^ 16) ∧
    (∀ b d, ((s.ea (.disp8 b d)).toNat : Int) = ((baseSum s.regs b : Int) + d.toInt) % 2 ^ 16) ∧
    (∀ b d, (s.ea (.disp16 b d)).toNat = (baseSum s.regs b + d.toNat) % 2 ^ 16) ∧
    (∀ m sr, s.pfx.seg = some sr → s.memSeg m = s.sregs.get sr) ∧
    (∀ m, s.pfx.seg = none → UsesBp m → s.memSeg m = s.sregs.ss) ∧
    (∀ m, s.pfx.seg = none → ¬ UsesBp m → s.memSeg m = s.sregs.ds)

/-- The byte registers are halves of AX, CX, DX and BX; a write to one leaves the other half and every other register,
and a write to a word register changes both halves (R23). The writes are those of MOV immediate to register (R123). -/
def Obligations.ByteRegisterAliasing : Prop :=
  (∀ g : Regs,
    g.ax = leWord (g.get8 .ax) (g.get8 .sp) ∧ g.cx = leWord (g.get8 .cx) (g.get8 .bp) ∧
    g.dx = leWord (g.get8 .dx) (g.get8 .si) ∧ g.bx = leWord (g.get8 .bx) (g.get8 .di)) ∧
  (∀ (lo hi : Byte), (leWord lo hi).toNat = hi.toNat * 256 + lo.toNat) ∧
  (∀ (r : RegField) (v : Byte) (s : State), ∃ t, exec (.movRegImm .byte r v) s = .next t ∧
    RegWritten .byte r v s.regs t.regs ∧ t = { s with regs := t.regs }) ∧
  (∀ (r : RegField) (v : Word) (s : State), ∃ t, exec (.movRegImm .word r v) s = .next t ∧
    RegWritten .word r v s.regs t.regs ∧ t = { s with regs := t.regs })

/-- A byte or word that MOV stores is what MOV loads from the same operand, also where the word's offset wraps or its
address is odd (R55 to R57, R121). Where the second byte of a word at offset FFFFH lies is the spec's decision D34. -/
def Obligations.StoredThenLoaded : Prop :=
  ∀ (w : Width) (r r' : RegField) (m : MemOp) (s t : State),
    exec (.movRmReg .fromReg w r (.mem m)) s = .next t →
    ∃ u, exec (.movRmReg .toReg w r' (.mem m)) t = .next u ∧ RegWritten w r' (s.readReg w r) s.regs u.regs

/-! ## Data transfer -/

/-- MOV between registers, memory and immediates: the destination holds the source and nothing else changes, the flags
included (R121 to R125, R127). -/
def Obligations.MovForms : Prop :=
  ∀ (w : Width) (reg : RegField) (rm : RM) (imm : BitVec w.bits) (addr : Word) (sr : SReg) (s : State),
    (∃ t, exec (.movRmReg .fromReg w reg rm) s = .next t ∧ DestWritten w rm (s.readReg w reg) s t) ∧
    (∃ t, exec (.movRmReg .toReg w reg rm) s = .next t ∧ DestWritten w (.reg reg) (s.readRM w rm) s t) ∧
    (∃ t, exec (.movRmImm w rm imm) s = .next t ∧ DestWritten w rm imm s t) ∧
    (∃ t, exec (.movRegImm w reg imm) s = .next t ∧ DestWritten w (.reg reg) imm s t) ∧
    (∃ t, exec (.movAccMem w addr) s = .next t ∧ DestWritten w (.reg .ax) (s.readRM w (.mem (.direct addr))) s t) ∧
    (∃ t, exec (.movMemAcc w addr) s = .next t ∧ DestWritten w (.mem (.direct addr)) (s.readReg w .ax) s t) ∧
    (∃ t, exec (.movRmSreg sr rm) s = .next t ∧ DestWritten .word rm (s.sregs.get sr) s t)

/-- The four loads of segment registers. MOV and POP set the inhibit bit, LDS and LES do not; MOV and POP to CS are
refused (R126, R133, R142, R143, R106). The refusals are the spec's decision D33, the inhibit bit its decision D17. -/
def Obligations.SegmentLoads : Prop :=
  ∀ (sr : SReg) (rm : RM) (reg : RegField) (m : MemOp) (s : State),
    (sr ≠ .cs → ∃ t, exec (.movSregRm sr rm) s = .next t ∧ SRegWritten sr (s.readRM .word rm) s.sregs t.sregs ∧
      t = { s with sregs := t.sregs, inhibit := true }) ∧
    (sr ≠ .cs → ∃ t, exec (.popSreg sr) s = .next t ∧
      SRegWritten sr (s.lreadWord s.sregs.ss s.regs.sp) s.sregs t.sregs ∧
      RegWritten .word .sp (s.regs.sp + 2) s.regs t.regs ∧
      t = { s with sregs := t.sregs, regs := t.regs, inhibit := true }) ∧
    (∃ t, exec (.lds reg m) s = .next t ∧ RegWritten .word reg (s.lreadWord (s.memSeg m) (s.ea m)) s.regs t.regs ∧
      SRegWritten .ds (s.lreadWord (s.memSeg m) (s.ea m + 2)) s.sregs t.sregs ∧
      t = { s with regs := t.regs, sregs := t.sregs }) ∧
    (∃ t, exec (.les reg m) s = .next t ∧ RegWritten .word reg (s.lreadWord (s.memSeg m) (s.ea m)) s.regs t.regs ∧
      SRegWritten .es (s.lreadWord (s.memSeg m) (s.ea m + 2)) s.sregs t.sregs ∧
      t = { s with regs := t.regs, sregs := t.sregs }) ∧
    exec (.movSregRm .cs rm) s = .refused .csDestination ∧ exec (.popSreg .cs) s = .refused .csDestination

/-- The four pushes: SP is two lower and the word is there in SS. PUSH SP stores the new SP; PUSHF stores an image
whose nine flag bits are the flags, for any value of the X bits (R128 to R130, R152). What PUSH SP stores is the
spec's decision D16. -/
def Obligations.PushForms : Prop :=
  ∀ (rm : RM) (reg : RegField) (sr : SReg) (s : State),
    (∃ t, exec (.pushRm rm) s = .next t ∧
      Pushed (if rm = .reg .sp then s.regs.sp - 2 else s.readRM .word rm) s t) ∧
    (∃ t, exec (.pushReg reg) s = .next t ∧ Pushed (if reg = .sp then s.regs.sp - 2 else s.regs.get reg) s t) ∧
    (∃ t, exec (.pushSreg sr) s = .next t ∧ Pushed (s.sregs.get sr) s t) ∧
    (∃ t img, exec .pushf s = .next t ∧ Pushed img s t ∧
      img.getLsbD 0 = s.flags.cf ∧ img.getLsbD 2 = s.flags.pf ∧ img.getLsbD 4 = s.flags.af ∧
      img.getLsbD 6 = s.flags.zf ∧ img.getLsbD 7 = s.flags.sf ∧ img.getLsbD 8 = s.flags.tf ∧
      img.getLsbD 9 = s.flags.ifl ∧ img.getLsbD 10 = s.flags.df ∧ img.getLsbD 11 = s.flags.ofl)

/-- The pops into a register or memory operand and into FLAGS: SP is two higher before the destination is written, so
POP SP ends with the popped word (R131, R132, R153). -/
def Obligations.PopForms : Prop :=
  ∀ (rm : RM) (reg : RegField) (s s' : State), s' = { s with regs := { s.regs with sp := s.regs.sp + 2 } } →
    (∃ t, exec (.popRm rm) s = .next t ∧ DestWritten .word rm (s.lreadWord s.sregs.ss s.regs.sp) s' t) ∧
    (∃ t, exec (.popReg reg) s = .next t ∧
      DestWritten .word (.reg reg) (s.lreadWord s.sregs.ss s.regs.sp) s' t) ∧
    (∃ t img, exec .popf s = .next t ∧ img = s.lreadWord s.sregs.ss s.regs.sp ∧ t = { s' with flags := t.flags } ∧
      t.flags.cf = img.getLsbD 0 ∧ t.flags.pf = img.getLsbD 2 ∧ t.flags.af = img.getLsbD 4 ∧
      t.flags.zf = img.getLsbD 6 ∧ t.flags.sf = img.getLsbD 7 ∧ t.flags.tf = img.getLsbD 8 ∧
      t.flags.ifl = img.getLsbD 9 ∧ t.flags.df = img.getLsbD 10 ∧ t.flags.ofl = img.getLsbD 11)

/-- A word that is pushed and popped comes back, with SP as before: PUSH then POP into another register, and PUSHF then
POPF, which restores the flags whatever the X bits are (R129, R132, R152, R153). -/
def Obligations.PushPopRoundTrip : Prop :=
  ∀ s t : State,
    (∀ r r' : RegField, r ≠ .sp → r' ≠ .sp → exec (.pushReg r) s = .next t →
      ∃ u, exec (.popReg r') t = .next u ∧ RegWritten .word r' (s.regs.get r) s.regs u.regs ∧ u.flags = s.flags) ∧
    (exec .pushf s = .next t →
      ∀ f, ∃ u, exec .popf { t with flags := f } = .next u ∧ u.flags = s.flags ∧ u.regs = s.regs)

/-- XCHG swaps its operands and changes no flag: with memory, with another register, with AX (R134, R135). -/
def Obligations.XchgForms : Prop :=
  ∀ (w : Width) (reg r : RegField) (m : MemOp) (s : State),
    (∃ t, exec (.xchgRmReg w reg (.mem m)) s = .next t ∧
      Stored w (s.memSeg m) (s.ea m) (s.readReg w reg) s t ∧
      RegWritten w reg (s.lread w (s.memSeg m) (s.ea m)) s.regs t.regs ∧
      t = { s with mem := t.mem, regs := t.regs }) ∧
    (∃ t g, exec (.xchgRmReg w reg (.reg r)) s = .next t ∧ RegWritten w r (s.readReg w reg) s.regs g ∧
      RegWritten w reg (s.readReg w r) g t.regs ∧ t = { s with regs := t.regs }) ∧
    (∃ t g, exec (.xchgAcc reg) s = .next t ∧ RegWritten .word .ax (s.regs.get reg) s.regs g ∧
      RegWritten .word reg s.regs.ax g t.regs ∧ t = { s with regs := t.regs })

/-- IN writes AL or AX with what the ports answer, the low port first, and changes no flag; what a port answers when
no input is listed is not stated. OUT appends what it writes, the low port first (R136 to R139, R65, R450). Where a
word at port FFFFH has its high byte is the spec's decision D19; the lists are the model's choice, log 8. -/
def Obligations.PortForms : Prop :=
  ∀ (w : Width) (port : Byte) (s : State),
    (∃ t v, exec (.inFixed w port) s = .next t ∧ RegWritten w .ax v s.regs t.regs ∧
      t = { s with regs := t.regs, ioIn := s.ioIn.drop (w.bits / 8) } ∧
      ∀ lo hi r, (w = .byte → s.ioIn = lo :: r → v.toNat = lo.toNat) ∧
        (w = .word → s.ioIn = lo :: hi :: r → v.toNat = lo.toNat + 256 * hi.toNat)) ∧
    (∃ t v, exec (.inVar w) s = .next t ∧ RegWritten w .ax v s.regs t.regs ∧
      t = { s with regs := t.regs, ioIn := s.ioIn.drop (w.bits / 8) } ∧
      ∀ lo hi r, (w = .byte → s.ioIn = lo :: r → v.toNat = lo.toNat) ∧
        (w = .word → s.ioIn = lo :: hi :: r → v.toNat = lo.toNat + 256 * hi.toNat)) ∧
    exec (.outFixed .byte port) s =
      .next { s with ioOut := s.ioOut ++ [(BitVec.ofNat 16 port.toNat, s.regs.get8 .ax)] } ∧
    exec (.outFixed .word port) s =
      .next { s with ioOut := s.ioOut ++ [(BitVec.ofNat 16 port.toNat, s.regs.get8 .ax),
        (BitVec.ofNat 16 (port.toNat + 1), s.regs.get8 .sp)] } ∧
    exec (.outVar .byte) s = .next { s with ioOut := s.ioOut ++ [(s.regs.dx, s.regs.get8 .ax)] } ∧
    exec (.outVar .word) s =
      .next { s with ioOut := s.ioOut ++ [(s.regs.dx, s.regs.get8 .ax), (s.regs.dx + 1, s.regs.get8 .sp)] }

/-- XLAT loads AL from the table at BX, LEA loads the offset without an access, LAHF and SAHF copy the low byte of
FLAGS without its X bits; nothing else changes (R140, R141, R150, R151). That an override reaches XLAT is the spec's
decision D29. -/
def Obligations.XlatLeaLahfSahf : Prop :=
  ∀ (reg : RegField) (m : MemOp) (s : State),
    (∃ t o, exec .xlat s = .next t ∧ o.toNat = (s.regs.bx.toNat + (s.regs.get8 .ax).toNat) % 2 ^ 16 ∧
      DestWritten .byte (.reg .ax) (s.readRM .byte (.mem (.direct o))) s t) ∧
    (∃ t, exec (.lea reg m) s = .next t ∧ DestWritten .word (.reg reg) (s.ea m) s t) ∧
    (∃ t ah, exec .lahf s = .next t ∧ DestWritten .byte (.reg .sp) ah s t ∧ ah.getLsbD 7 = s.flags.sf ∧
      ah.getLsbD 6 = s.flags.zf ∧ ah.getLsbD 4 = s.flags.af ∧ ah.getLsbD 2 = s.flags.pf ∧
      ah.getLsbD 0 = s.flags.cf) ∧
    (∃ f, exec .sahf s = .next { s with flags := f } ∧ f.sf = (s.regs.get8 .sp).getLsbD 7 ∧
      f.zf = (s.regs.get8 .sp).getLsbD 6 ∧ f.af = (s.regs.get8 .sp).getLsbD 4 ∧
      f.pf = (s.regs.get8 .sp).getLsbD 2 ∧ f.cf = (s.regs.get8 .sp).getLsbD 0 ∧ f.ofl = s.flags.ofl ∧
      ControlKept s.flags f)

/-! ## Arithmetic -/

/-- ADD and ADC in their three forms: the sum modulo 2^n, CF, AF, OF, SF, ZF and PF of it, nothing else (R160 to R162,
R18). -/
def Obligations.AddForms : Prop :=
  ∀ (w : Width) (reg : RegField) (rm : RM) (imm : BitVec w.bits) (d8 : Byte) (d16 : Word) (sx : Bool) (s : State),
    AddsTo w rm (s.readRM w rm) (s.readReg w reg) false s (exec (.addRmReg .fromReg w reg rm) s) ∧
    AddsTo w (.reg reg) (s.readReg w reg) (s.readRM w rm) false s (exec (.addRmReg .toReg w reg rm) s) ∧
    AddsTo .byte rm (s.readRM .byte rm) d8 false s (exec (.addRmImm (.byte sx d8) rm) s) ∧
    AddsTo .word rm (s.readRM .word rm) d16 false s (exec (.addRmImm (.word d16) rm) s) ∧
    AddsTo .word rm (s.readRM .word rm) (d8.signExtend 16) false s (exec (.addRmImm (.wordSx d8) rm) s) ∧
    AddsTo w (.reg .ax) (s.readReg w .ax) imm false s (exec (.addAccImm w imm) s) ∧
    AddsTo w rm (s.readRM w rm) (s.readReg w reg) s.flags.cf s (exec (.adcRmReg .fromReg w reg rm) s) ∧
    AddsTo w (.reg reg) (s.readReg w reg) (s.readRM w rm) s.flags.cf s (exec (.adcRmReg .toReg w reg rm) s) ∧
    AddsTo .byte rm (s.readRM .byte rm) d8 s.flags.cf s (exec (.adcRmImm (.byte sx d8) rm) s) ∧
    AddsTo .word rm (s.readRM .word rm) d16 s.flags.cf s (exec (.adcRmImm (.word d16) rm) s) ∧
    AddsTo .word rm (s.readRM .word rm) (d8.signExtend 16) s.flags.cf s (exec (.adcRmImm (.wordSx d8) rm) s) ∧
    AddsTo w (.reg .ax) (s.readReg w .ax) imm s.flags.cf s (exec (.adcAccImm w imm) s)

/-- SUB and SBB in their three forms: the difference modulo 2^n, CF, AF, OF, SF, ZF and PF of it, nothing else (R160,
R166, R167, R18). -/
def Obligations.SubForms : Prop :=
  ∀ (w : Width) (reg : RegField) (rm : RM) (imm : BitVec w.bits) (d8 : Byte) (d16 : Word) (sx : Bool) (s : State),
    SubsTo w rm (s.readRM w rm) (s.readReg w reg) false s (exec (.subRmReg .fromReg w reg rm) s) ∧
    SubsTo w (.reg reg) (s.readReg w reg) (s.readRM w rm) false s (exec (.subRmReg .toReg w reg rm) s) ∧
    SubsTo .byte rm (s.readRM .byte rm) d8 false s (exec (.subRmImm (.byte sx d8) rm) s) ∧
    SubsTo .word rm (s.readRM .word rm) d16 false s (exec (.subRmImm (.word d16) rm) s) ∧
    SubsTo .word rm (s.readRM .word rm) (d8.signExtend 16) false s (exec (.subRmImm (.wordSx d8) rm) s) ∧
    SubsTo w (.reg .ax) (s.readReg w .ax) imm false s (exec (.subAccImm w imm) s) ∧
    SubsTo w rm (s.readRM w rm) (s.readReg w reg) s.flags.cf s (exec (.sbbRmReg .fromReg w reg rm) s) ∧
    SubsTo w (.reg reg) (s.readReg w reg) (s.readRM w rm) s.flags.cf s (exec (.sbbRmReg .toReg w reg rm) s) ∧
    SubsTo .byte rm (s.readRM .byte rm) d8 s.flags.cf s (exec (.sbbRmImm (.byte sx d8) rm) s) ∧
    SubsTo .word rm (s.readRM .word rm) d16 s.flags.cf s (exec (.sbbRmImm (.word d16) rm) s) ∧
    SubsTo .word rm (s.readRM .word rm) (d8.signExtend 16) s.flags.cf s (exec (.sbbRmImm (.wordSx d8) rm) s) ∧
    SubsTo w (.reg .ax) (s.readReg w .ax) imm s.flags.cf s (exec (.sbbAccImm w imm) s)

/-- CMP in its three forms writes the flags of the difference and nothing else, no byte of memory either (R160, R173).
-/
def Obligations.CmpForms : Prop :=
  ∀ (w : Width) (reg : RegField) (rm : RM) (imm : BitVec w.bits) (d8 : Byte) (d16 : Word) (sx : Bool) (s : State),
    Compares (s.readRM w rm) (s.readReg w reg) s (exec (.cmpRmReg .fromReg w reg rm) s) ∧
    Compares (s.readReg w reg) (s.readRM w rm) s (exec (.cmpRmReg .toReg w reg rm) s) ∧
    Compares (s.readRM .byte rm) d8 s (exec (.cmpRmImm (.byte sx d8) rm) s) ∧
    Compares (s.readRM .word rm) d16 s (exec (.cmpRmImm (.word d16) rm) s) ∧
    Compares (s.readRM .word rm) (d8.signExtend 16) s (exec (.cmpRmImm (.wordSx d8) rm) s) ∧
    Compares (s.readReg w .ax) imm s (exec (.cmpAccImm w imm) s)

/-- INC and DEC add and subtract one and keep CF; NEG subtracts from zero (R163, R171, R172). -/
def Obligations.IncDecNegForms : Prop :=
  ∀ (w : Width) (reg : RegField) (rm : RM) (s : State),
    (∃ t f v, exec (.incRm w rm) s = .next t ∧ AddFlagsNoCarry (s.readRM w rm) 1 false s.flags f ∧
      f.cf = s.flags.cf ∧ v.toNat = ((s.readRM w rm).toNat + 1) % 2 ^ w.bits ∧
      DestWritten w rm v { s with flags := f } t) ∧
    (∃ t f v, exec (.incReg reg) s = .next t ∧ AddFlagsNoCarry (s.regs.get reg) 1 false s.flags f ∧
      f.cf = s.flags.cf ∧ v.toNat = ((s.regs.get reg).toNat + 1) % 2 ^ 16 ∧
      DestWritten .word (.reg reg) v { s with flags := f } t) ∧
    (∃ t f v, exec (.decRm w rm) s = .next t ∧ SubFlagsNoCarry (s.readRM w rm) 1 false s.flags f ∧
      f.cf = s.flags.cf ∧ (v.toNat : Int) = ((s.readRM w rm).toNat - 1 : Int) % 2 ^ w.bits ∧
      DestWritten w rm v { s with flags := f } t) ∧
    (∃ t f v, exec (.decReg reg) s = .next t ∧ SubFlagsNoCarry (s.regs.get reg) 1 false s.flags f ∧
      f.cf = s.flags.cf ∧ (v.toNat : Int) = ((s.regs.get reg).toNat - 1 : Int) % 2 ^ 16 ∧
      DestWritten .word (.reg reg) v { s with flags := f } t) ∧
    SubsTo w rm 0 (s.readRM w rm) false s (exec (.negRm w rm) s)

/-- MUL and IMUL: the whole product, unsigned or signed, in AX or in DX and AX; CF and OF say that the upper half
carries information; SF, ZF, AF and PF may be anything (R176, R177). -/
def Obligations.MulForms : Prop :=
  ∀ (rm : RM) (s : State),
    (∃ t, exec (.mulRm .byte rm) s = .next t ∧
      t.regs.ax.toNat = (s.regs.get8 .ax).toNat * (s.readRM .byte rm).toNat ∧
      (t.flags.cf = true ↔ 2 ^ 8 ≤ t.regs.ax.toNat) ∧ t.flags.ofl = t.flags.cf ∧ ControlKept s.flags t.flags ∧
      t = { s with regs := { s.regs with ax := t.regs.ax }, flags := t.flags }) ∧
    (∃ t, exec (.mulRm .word rm) s = .next t ∧
      t.regs.dx.toNat * 2 ^ 16 + t.regs.ax.toNat = s.regs.ax.toNat * (s.readRM .word rm).toNat ∧
      (t.flags.cf = true ↔ t.regs.dx ≠ 0) ∧ t.flags.ofl = t.flags.cf ∧ ControlKept s.flags t.flags ∧
      t = { s with regs := { s.regs with ax := t.regs.ax, dx := t.regs.dx }, flags := t.flags }) ∧
    (∃ t, exec (.imulRm .byte rm) s = .next t ∧
      t.regs.ax.toInt = (s.regs.get8 .ax).toInt * (s.readRM .byte rm).toInt ∧
      (t.flags.cf = true ↔ OutOfRange 8 t.regs.ax.toInt) ∧ t.flags.ofl = t.flags.cf ∧
      ControlKept s.flags t.flags ∧ t = { s with regs := { s.regs with ax := t.regs.ax }, flags := t.flags }) ∧
    (∃ t, exec (.imulRm .word rm) s = .next t ∧
      (t.regs.dx ++ t.regs.ax).toInt = s.regs.ax.toInt * (s.readRM .word rm).toInt ∧
      (t.flags.cf = true ↔ OutOfRange 16 (t.regs.dx ++ t.regs.ax).toInt) ∧ t.flags.ofl = t.flags.cf ∧
      ControlKept s.flags t.flags ∧
      t = { s with regs := { s.regs with ax := t.regs.ax, dx := t.regs.dx }, flags := t.flags })

/-- DIV and IDIV complete when the divisor is not zero and the quotient is in range: quotient and remainder make up the
dividend, the remainder is smaller than the divisor and has the sign of the dividend; the six status flags may be
anything (R179, R180). The least quotients are the parameters of the spec's decision D14: -127 or -128, and -32767 or
-32768 (log 10). -/
def Obligations.DivForms : Prop :=
  ∀ (rm : RM) (s : State),
    ((s.readRM .byte rm).toNat ≠ 0 → s.regs.ax.toNat / (s.readRM .byte rm).toNat ≤ 0xFF →
      ∃ t q r, exec (.divRm .byte rm) s = .next t ∧ t.regs = { s.regs with ax := leWord q r } ∧
        q.toNat * (s.readRM .byte rm).toNat + r.toNat = s.regs.ax.toNat ∧ r.toNat < (s.readRM .byte rm).toNat ∧
        ControlKept s.flags t.flags ∧ t = { s with regs := t.regs, flags := t.flags }) ∧
    ((s.readRM .word rm).toNat ≠ 0 → (s.regs.dx ++ s.regs.ax).toNat / (s.readRM .word rm).toNat ≤ 0xFFFF →
      ∃ t, exec (.divRm .word rm) s = .next t ∧
        t.regs.ax.toNat * (s.readRM .word rm).toNat + t.regs.dx.toNat = (s.regs.dx ++ s.regs.ax).toNat ∧
        t.regs.dx.toNat < (s.readRM .word rm).toNat ∧ ControlKept s.flags t.flags ∧
        t = { s with regs := { s.regs with ax := t.regs.ax, dx := t.regs.dx }, flags := t.flags }) ∧
    ((s.readRM .byte rm).toInt ≠ 0 →
      (if s.par.idivMinQ8 = .symmetric then -127 else -128) ≤ s.regs.ax.toInt.tdiv (s.readRM .byte rm).toInt →
      s.regs.ax.toInt.tdiv (s.readRM .byte rm).toInt ≤ 127 →
      ∃ t q r, exec (.idivRm .byte rm) s = .next t ∧ t.regs = { s.regs with ax := leWord q r } ∧
        q.toInt * (s.readRM .byte rm).toInt + r.toInt = s.regs.ax.toInt ∧
        r.toInt.natAbs < (s.readRM .byte rm).toInt.natAbs ∧ (r.toInt = 0 ∨ r.toInt.sign = s.regs.ax.toInt.sign) ∧
        ControlKept s.flags t.flags ∧ t = { s with regs := t.regs, flags := t.flags }) ∧
    ((s.readRM .word rm).toInt ≠ 0 →
      (if s.par.idivMinQ16 = .symmetric then -32767 else -32768) ≤
        (s.regs.dx ++ s.regs.ax).toInt.tdiv (s.readRM .word rm).toInt →
      (s.regs.dx ++ s.regs.ax).toInt.tdiv (s.readRM .word rm).toInt ≤ 32767 →
      ∃ t, exec (.idivRm .word rm) s = .next t ∧
        t.regs.ax.toInt * (s.readRM .word rm).toInt + t.regs.dx.toInt = (s.regs.dx ++ s.regs.ax).toInt ∧
        t.regs.dx.toInt.natAbs < (s.readRM .word rm).toInt.natAbs ∧
        (t.regs.dx.toInt = 0 ∨ t.regs.dx.toInt.sign = (s.regs.dx ++ s.regs.ax).toInt.sign) ∧
        ControlKept s.flags t.flags ∧
        t = { s with regs := { s.regs with ax := t.regs.ax, dx := t.regs.dx }, flags := t.flags })

/-- Where DIV and IDIV trap: on a zero divisor or a quotient out of range they do what INT 0 does from a state in
which the quotient and remainder registers and the six status flags may be anything and nothing else has changed but
IP, which is that of the next instruction, or of the first byte of this one with its prefixes, as the parameter of the
saved IP says (R179, R180, R387; the saved IP is decision D13, log 9, the least quotients are decision D14, log 10).
The flags before the push are the model's choice, log 24; type 0 is the spec's decision D12. -/
def Obligations.DivideError : Prop :=
  ∀ (rm : RM) (s : State) (ret : Nat → Word) (min8 min16 : Int),
    (∀ n, ret n = if s.par.divFaultReturn = .next then s.ip else
      s.ip - BitVec.ofNat 16 (n + s.pfx.seg.isSome.toNat + s.pfx.rep.isSome.toNat + s.pfx.lock.toNat)) →
    min8 = (if s.par.idivMinQ8 = .symmetric then -127 else -128) →
    min16 = (if s.par.idivMinQ16 = .symmetric then -32767 else -32768) →
    ((s.readRM .byte rm = 0 ∨ 0x100 ≤ s.regs.ax.toNat / (s.readRM .byte rm).toNat) →
      ∃ x f, ControlKept s.flags f ∧ exec (.divRm .byte rm) s =
        exec (.intType 0)
          { s with regs := { s.regs with ax := x }, flags := f, ip := ret (encode (.divRm .byte rm)).length }) ∧
    ((s.readRM .word rm = 0 ∨ 0x10000 ≤ (s.regs.dx ++ s.regs.ax).toNat / (s.readRM .word rm).toNat) →
      ∃ x y f, ControlKept s.flags f ∧ exec (.divRm .word rm) s =
        exec (.intType 0)
          { s with regs := { s.regs with ax := x, dx := y }, flags := f, ip := ret (encode (.divRm .word rm)).length }) ∧
    ((s.readRM .byte rm = 0 ∨ 127 < s.regs.ax.toInt.tdiv (s.readRM .byte rm).toInt ∨
        s.regs.ax.toInt.tdiv (s.readRM .byte rm).toInt < min8) →
      ∃ x f, ControlKept s.flags f ∧ exec (.idivRm .byte rm) s =
        exec (.intType 0)
          { s with regs := { s.regs with ax := x }, flags := f, ip := ret (encode (.idivRm .byte rm)).length }) ∧
    ((s.readRM .word rm = 0 ∨ 32767 < (s.regs.dx ++ s.regs.ax).toInt.tdiv (s.readRM .word rm).toInt ∨
        (s.regs.dx ++ s.regs.ax).toInt.tdiv (s.readRM .word rm).toInt < min16) →
      ∃ x y f, ControlKept s.flags f ∧ exec (.idivRm .word rm) s =
        exec (.intType 0)
          { s with regs := { s.regs with ax := x, dx := y }, flags := f, ip := ret (encode (.idivRm .word rm)).length })

/-- AAM and AAD: the digits of AL, and the number of the digits in AH and AL; SF, ZF and PF from AL, the other status
flags anything (R178, R181). -/
def Obligations.AamAadForms : Prop :=
  ∀ s : State,
    (∃ t q r, exec .aam s = .next t ∧ t.regs = { s.regs with ax := leWord r q } ∧
      q.toNat = (s.regs.get8 .ax).toNat / 10 ∧ r.toNat = (s.regs.get8 .ax).toNat % 10 ∧
      ResultFlags 8 r.toNat t.flags ∧ ControlKept s.flags t.flags ∧
      t = { s with regs := t.regs, flags := t.flags }) ∧
    (∃ t v, exec .aad s = .next t ∧ t.regs = { s.regs with ax := leWord v 0 } ∧
      v.toNat = ((s.regs.get8 .sp).toNat * 10 + (s.regs.get8 .ax).toNat) % 256 ∧
      ResultFlags 8 v.toNat t.flags ∧ ControlKept s.flags t.flags ∧
      t = { s with regs := t.regs, flags := t.flags })

/-- AAA and AAS: the low digit, the carry into AH, AF and CF; OF, SF, ZF and PF anything. AH may be anything where the
published algorithms differ: AL at least FAH for AAA, below 6 for AAS, in the adjust branch (R164, R174; the free AH is
decision D31, log 11). -/
def Obligations.AsciiAdjustForms : Prop :=
  ∀ (s : State) (adj : Bool), (adj = true ↔ 9 < (s.regs.get8 .ax).toNat % 16 ∨ s.flags.af = true) →
    (∃ t al ah, exec .aaa s = .next t ∧ t.regs = { s.regs with ax := leWord al ah } ∧
      al.toNat = ((s.regs.get8 .ax).toNat + 6 * adj.toNat) % 16 ∧
      ((s.regs.get8 .ax).toNat < 0xFA ∨ adj = false →
        ah.toNat = ((s.regs.get8 .sp).toNat + adj.toNat) % 256) ∧
      t.flags.af = adj ∧ t.flags.cf = adj ∧ ControlKept s.flags t.flags ∧
      t = { s with regs := t.regs, flags := t.flags }) ∧
    (∃ t al ah, exec .aas s = .next t ∧ t.regs = { s.regs with ax := leWord al ah } ∧
      al.toNat = ((s.regs.get8 .ax).toNat + 16 - 6 * adj.toNat) % 16 ∧
      (6 ≤ (s.regs.get8 .ax).toNat ∨ adj = false →
        ah.toNat = ((s.regs.get8 .sp).toNat + 256 - adj.toNat) % 256) ∧
      t.flags.af = adj ∧ t.flags.cf = adj ∧ ControlKept s.flags t.flags ∧
      t = { s with regs := t.regs, flags := t.flags })

/-- DAA and DAS complete in every state: only AL and the status flags change, AF says whether the low digit was
adjusted, and SF, ZF and PF are those of AL, also where AL is free. Where the test of the rule on AL, above 99H, and
that of the oldest published algorithm on AL behind the first adjust, above 9FH, agree, CF is that test and AL is
adjusted by 60H accordingly (R165, R175; that AL and CF are free where the algorithms differ is decision D31, log 11).
-/
def Obligations.DecimalAdjustForms : Prop :=
  ∀ (s : State) (adj : Bool) (al : Nat), al = (s.regs.get8 .ax).toNat →
    (adj = true ↔ 9 < al % 16 ∨ s.flags.af = true) →
    (∃ t v, exec .daa s = .next t ∧ RegWritten .byte .ax v s.regs t.regs ∧ ResultFlags 8 v.toNat t.flags ∧
      t.flags.af = adj ∧ ControlKept s.flags t.flags ∧ t = { s with regs := t.regs, flags := t.flags } ∧
      ∀ (al1 : Nat) (high : Bool), al1 = (al + 6 * adj.toNat) % 256 →
        (high = true ↔ 0x99 < al ∨ s.flags.cf = true) → (high = true ↔ 0x9F < al1 ∨ s.flags.cf = true) →
        t.flags.cf = high ∧ v.toNat = (al1 + 0x60 * high.toNat) % 256) ∧
    (∃ t v, exec .das s = .next t ∧ RegWritten .byte .ax v s.regs t.regs ∧ ResultFlags 8 v.toNat t.flags ∧
      t.flags.af = adj ∧ ControlKept s.flags t.flags ∧ t = { s with regs := t.regs, flags := t.flags } ∧
      ∀ (al1 : Nat) (high : Bool), al1 = (al + 256 - 6 * adj.toNat) % 256 →
        (high = true ↔ 0x99 < al ∨ s.flags.cf = true) → (high = true ↔ 0x9F < al1 ∨ s.flags.cf = true) →
        t.flags.cf = high ∧ v.toNat = (al1 + 256 - 0x60 * high.toNat) % 256)

/-- Two valid packed BCD bytes added by ADC and adjusted by DAA give their decimal sum in AL with CF as the hundred;
subtracted by SBB and adjusted by DAS they give their decimal difference with CF as the borrow (R165, R175). The
algorithms are the spec's decision D31 (log 11). -/
def Obligations.PackedBcd : Prop :=
  ∀ (s t : State) (b : Byte) (x y : Nat),
    (s.regs.get8 .ax).toNat = x / 10 * 16 + x % 10 → b.toNat = y / 10 * 16 + y % 10 → x < 100 → y < 100 →
    (exec (.adcAccImm .byte b) s = .next t → ∃ u z, exec .daa t = .next u ∧
      (u.regs.get8 .ax).toNat = z / 10 * 16 + z % 10 ∧ z < 100 ∧
      z + 100 * u.flags.cf.toNat = x + y + s.flags.cf.toNat) ∧
    (exec (.sbbAccImm .byte b) s = .next t → ∃ u z, exec .das t = .next u ∧
      (u.regs.get8 .ax).toNat = z / 10 * 16 + z % 10 ∧ z < 100 ∧
      x + 100 * u.flags.cf.toNat = z + y + s.flags.cf.toNat)

/-- CBW and CWD extend the sign of AL to AX and of AX to DX, and change nothing else (R182, R183). -/
def Obligations.SignExtension : Prop :=
  (∀ r, decode (0x98 :: r) = .ok (.cbw, r)) ∧ (∀ r, decode (0x99 :: r) = .ok (.cwd, r)) ∧
  ∀ s : State,
    (∃ x, exec .cbw s = .next { s with regs := { s.regs with ax := x } } ∧ x.toInt = (s.regs.get8 .ax).toInt) ∧
    exec .cwd s = .next { s with regs := { s.regs with dx := if s.regs.ax.msb then 0xFFFF else 0 } }

/-! ## Logic, shifts and rotates -/

/-- AND, OR and XOR in their three forms, NOT, and the three forms of TEST: the bitwise result, CF and OF cleared, SF,
ZF and PF from it, AF anything; NOT changes no flag; TEST writes no operand (R200, R213 to R217). -/
def Obligations.LogicForms : Prop :=
  ∀ (w : Width) (reg : RegField) (rm : RM) (imm : BitVec w.bits) (s : State),
    LogicTo w rm (s.readRM w rm &&& s.readReg w reg) s (exec (.andRmReg .fromReg w reg rm) s) ∧
    LogicTo w (.reg reg) (s.readReg w reg &&& s.readRM w rm) s (exec (.andRmReg .toReg w reg rm) s) ∧
    LogicTo w rm (s.readRM w rm &&& imm) s (exec (.andRmImm w rm imm) s) ∧
    LogicTo w (.reg .ax) (s.readReg w .ax &&& imm) s (exec (.andAccImm w imm) s) ∧
    LogicTo w rm (s.readRM w rm ||| s.readReg w reg) s (exec (.orRmReg .fromReg w reg rm) s) ∧
    LogicTo w (.reg reg) (s.readReg w reg ||| s.readRM w rm) s (exec (.orRmReg .toReg w reg rm) s) ∧
    LogicTo w rm (s.readRM w rm ||| imm) s (exec (.orRmImm w rm imm) s) ∧
    LogicTo w (.reg .ax) (s.readReg w .ax ||| imm) s (exec (.orAccImm w imm) s) ∧
    LogicTo w rm (s.readRM w rm ^^^ s.readReg w reg) s (exec (.xorRmReg .fromReg w reg rm) s) ∧
    LogicTo w (.reg reg) (s.readReg w reg ^^^ s.readRM w rm) s (exec (.xorRmReg .toReg w reg rm) s) ∧
    LogicTo w rm (s.readRM w rm ^^^ imm) s (exec (.xorRmImm w rm imm) s) ∧
    LogicTo w (.reg .ax) (s.readReg w .ax ^^^ imm) s (exec (.xorAccImm w imm) s) ∧
    LogicTests (s.readRM w rm &&& s.readReg w reg) s (exec (.testRmReg w reg rm) s) ∧
    LogicTests (s.readRM w rm &&& imm) s (exec (.testRmImm w rm imm) s) ∧
    LogicTests (s.readReg w .ax &&& imm) s (exec (.testAccImm w imm) s) ∧
    (∃ t v, exec (.notRm w rm) s = .next t ∧ v.toNat = 2 ^ w.bits - 1 - (s.readRM w rm).toNat ∧
      DestWritten w rm v s t)

/-- SHL, SHR and SAR by any count: multiplication and floor division by a power of two, CF the last bit shifted out, OF
for a count of one, SF, ZF and PF of the result; AF, and OF for a greater count, anything. A count of zero changes
nothing (R201 to R204; the whole of CL as the count is decision D15). -/
def Obligations.ShiftForms : Prop :=
  ∀ (c : ShiftCount) (w : Width) (rm : RM) (s : State) (k n : Nat) (x : BitVec w.bits),
    k = (match c with | .one => 1 | .cl => (s.regs.get8 .cx).toNat) → n = w.bits → x = s.readRM w rm →
    (k = 0 → exec (.shlRm c w rm) s = .next s ∧ exec (.shrRm c w rm) s = .next s ∧
      exec (.sarRm c w rm) s = .next s) ∧
    (1 ≤ k →
      (∃ t f v, exec (.shlRm c w rm) s = .next t ∧ v.toNat = x.toNat * 2 ^ k % 2 ^ n ∧
        f.cf = (decide (k ≤ n) && x.toNat.testBit (n - k)) ∧ (k = 1 → f.ofl = (v.msb != f.cf)) ∧
        ResultFlags n v.toNat f ∧ ControlKept s.flags f ∧ DestWritten w rm v { s with flags := f } t) ∧
      (∃ t f v, exec (.shrRm c w rm) s = .next t ∧ v.toNat = x.toNat / 2 ^ k ∧
        f.cf = x.toNat.testBit (k - 1) ∧ (k = 1 → f.ofl = x.msb) ∧
        ResultFlags n v.toNat f ∧ ControlKept s.flags f ∧ DestWritten w rm v { s with flags := f } t) ∧
      (∃ t f v, exec (.sarRm c w rm) s = .next t ∧ v.toInt = x.toInt / 2 ^ k ∧
        (f.cf = true ↔ x.toInt / 2 ^ (k - 1) % 2 = 1) ∧ (k = 1 → f.ofl = false) ∧
        ResultFlags n v.toNat f ∧ ControlKept s.flags f ∧ DestWritten w rm v { s with flags := f } t))

/-- ROL and ROR by any count are rotations of the operand, CF the bit last moved round, OF for a count of one; SF, ZF,
AF and PF are kept. A count of zero changes nothing (R201, R205, R206). The whole of CL as the count is the spec's
decision D15. -/
def Obligations.RotateForms : Prop :=
  ∀ (c : ShiftCount) (w : Width) (rm : RM) (s : State) (k n : Nat) (x : BitVec w.bits),
    k = (match c with | .one => 1 | .cl => (s.regs.get8 .cx).toNat) → n = w.bits → x = s.readRM w rm →
    (k = 0 → exec (.rolRm c w rm) s = .next s ∧ exec (.rorRm c w rm) s = .next s) ∧
    (1 ≤ k →
      (∃ t o, exec (.rolRm c w rm) s = .next t ∧ (k = 1 → o = ((x.rotateLeft k).msb != (x.rotateLeft k).getLsbD 0)) ∧
        DestWritten w rm (x.rotateLeft k)
          { s with flags := { s.flags with cf := (x.rotateLeft k).getLsbD 0, ofl := o } } t) ∧
      (∃ t o, exec (.rorRm c w rm) s = .next t ∧
        (k = 1 → o = ((x.rotateRight k).getLsbD (n - 1) != (x.rotateRight k).getLsbD (n - 2))) ∧
        DestWritten w rm (x.rotateRight k)
          { s with flags := { s.flags with cf := (x.rotateRight k).msb, ofl := o } } t))

/-- RCL and RCR by any count rotate the ring of CF above the operand, OF for a count of one; SF, ZF, AF and PF are
kept. A count of zero changes nothing (R201, R207, R208). The whole of CL as the count is the spec's decision D15. -/
def Obligations.RotateCarryForms : Prop :=
  ∀ (c : ShiftCount) (w : Width) (rm : RM) (s : State) (k n : Nat) (x : BitVec w.bits),
    k = (match c with | .one => 1 | .cl => (s.regs.get8 .cx).toNat) → n = w.bits → x = s.readRM w rm →
    (k = 0 → exec (.rclRm c w rm) s = .next s ∧ exec (.rcrRm c w rm) s = .next s) ∧
    (1 ≤ k →
      (∃ t o cf v, exec (.rclRm c w rm) s = .next t ∧
        BitVec.ofBool cf ++ v = (BitVec.ofBool s.flags.cf ++ x).rotateLeft k ∧ (k = 1 → o = (v.msb != cf)) ∧
        DestWritten w rm v { s with flags := { s.flags with cf := cf, ofl := o } } t) ∧
      (∃ t o cf v, exec (.rcrRm c w rm) s = .next t ∧
        BitVec.ofBool cf ++ v = (BitVec.ofBool s.flags.cf ++ x).rotateRight k ∧
        (k = 1 → o = (v.getLsbD (n - 1) != v.getLsbD (n - 2))) ∧
        DestWritten w rm v { s with flags := { s.flags with cf := cf, ofl := o } } t))

/-! ## Strings -/

/-- One string primitive without REP: the element is moved, compared, scanned, loaded or stored, SI and DI step by the
element size, up or down as DF says, and nothing else changes. `d` counts the draws of the free values, which is the
model's own field (R230, R232 to R236; log 4). What an override reaches is the spec's decision D29. -/
def Obligations.StringOnce : Prop :=
  ∀ (w : Width) (s : State) (sz : Word) (src : Word),
    s.pfx.rep = none → sz = (if s.flags.df then 0 - BitVec.ofNat 16 (w.bits / 8) else BitVec.ofNat 16 (w.bits / 8)) →
    src = (match s.pfx.seg with | some sr => s.sregs.get sr | none => s.sregs.ds) →
    (∃ t, exec (.movs w) s = .next t ∧ Stored w s.sregs.es s.regs.di (s.lread w src s.regs.si) s t ∧
      t = { s with mem := t.mem, regs := { s.regs with si := s.regs.si + sz, di := s.regs.di + sz } }) ∧
    (∃ t d b, exec (.cmps w) s = .next t ∧ b = { s with draws := d }.lread w s.sregs.es s.regs.di ∧
      SubFlags (s.lread w src s.regs.si) b false s.flags t.flags ∧
      t = { s with
        flags := t.flags, draws := d, regs := { s.regs with si := s.regs.si + sz, di := s.regs.di + sz } }) ∧
    (∃ t, exec (.scas w) s = .next t ∧
      SubFlags (s.readReg w .ax) (s.lread w s.sregs.es s.regs.di) false s.flags t.flags ∧
      t = { s with flags := t.flags, regs := { s.regs with di := s.regs.di + sz } }) ∧
    (∃ t g, exec (.lods w) s = .next t ∧ RegWritten w .ax (s.lread w src s.regs.si) s.regs g ∧
      t = { s with regs := { g with si := s.regs.si + sz } }) ∧
    (∃ t, exec (.stos w) s = .next t ∧ Stored w s.sregs.es s.regs.di (s.readReg w .ax) s t ∧
      t = { s with mem := t.mem, regs := { s.regs with di := s.regs.di + sz } })

/-- One pass of the loop of REP: nothing when CX is 0; else what the primitive does without REP, CX one lower, and the
loop goes on with IP back at the opcode, unless the primitive compares and ZF differs from z (R231). That each pass is
a step is the model's choice, log 12. -/
def Obligations.RepIteration : Prop :=
  ∀ (w : Width) (z : Bool) (s : State) (i : Instr), s.pfx.rep = some z →
    i = .movs w ∨ i = .cmps w ∨ i = .scas w ∨ i = .lods w ∨ i = .stos w →
    (s.regs.cx = 0 → exec i s = .next s) ∧
    (s.regs.cx ≠ 0 → ∃ u v, exec i { s with pfx := { s.pfx with rep := none } } = .next u ∧
      v = { u with pfx := s.pfx, regs := { u.regs with cx := s.regs.cx - 1 } } ∧
      ((i = .cmps w ∨ i = .scas w) ∧ u.flags.zf ≠ z → exec i s = .next v) ∧
      (¬ ((i = .cmps w ∨ i = .scas w) ∧ u.flags.zf ≠ z) →
        exec i s = .next { v with ip := s.ip - 1, cont := some i }))

/-- A REP STOSB in progress, with no event from outside, ends with CX = 0 after filling exactly the CX bytes from ES:DI
upward with AL, and goes on behind the instruction (R231, R236). No event from outside is decision D20 (log 7); that
each pass is a step is the model's choice, log 12. -/
def Obligations.RepStosbFills : Prop :=
  ∀ (s : State) (z : Bool), s.pfx.rep = some z → s.cont = some (.stos .byte) → s.run = .running → Quiet s →
    s.inhibit = false → s.flags.tf = false → s.flags.df = false →
    ∃ t, Reaches s t ∧ t.cont = none ∧ t.pfx = Pfx.none ∧ t.ip = s.ip + 1 ∧ t.flags = s.flags ∧
      t.regs = { s.regs with cx := 0, di := s.regs.di + s.regs.cx } ∧ t.sregs = s.sregs ∧
      (∀ k, k < s.regs.cx.toNat →
        t.cell (phys s.sregs.es (s.regs.di + BitVec.ofNat 16 k)) = some (s.regs.get8 .ax)) ∧
      (∀ a, (∀ k, k < s.regs.cx.toNat → a ≠ phys s.sregs.es (s.regs.di + BitVec.ofNat 16 k)) →
        t.cell a = s.cell a)

/-! ## Control transfer -/

/-- The five jumps write IP, or CS and IP, empty the queue and change nothing else (R254 to R258). -/
def Obligations.JumpForms : Prop :=
  ∀ (d : Word) (d8 : Byte) (rm : RM) (off seg : Word) (m : MemOp) (s : State),
    exec (.jmpNear d) s = .next { s with ip := s.ip + d, queue := [] } ∧
    exec (.jmpShort d8) s = .next { s with ip := s.ip + d8.signExtend 16, queue := [] } ∧
    exec (.jmpRm rm) s = .next { s with ip := s.readRM .word rm, queue := [] } ∧
    exec (.jmpFar off seg) s = .next { s with ip := off, sregs := { s.sregs with cs := seg }, queue := [] } ∧
    exec (.jmpFarMem m) s = .next { s with
      ip := s.lreadWord (s.memSeg m) (s.ea m)
      sregs := { s.sregs with cs := s.lreadWord (s.memSeg m) (s.ea m + 2) }
      queue := [] }

/-- The four calls push IP_next, the intersegment ones CS before it, read their operand before the push, and jump (R250
to R253). -/
def Obligations.CallForms : Prop :=
  ∀ (d : Word) (rm : RM) (off seg : Word) (m : MemOp) (s : State),
    (∃ u, exec (.callNear d) s = .next { u with ip := s.ip + d, queue := [] } ∧ Pushed s.ip s u) ∧
    (∃ u, exec (.callRm rm) s = .next { u with ip := s.readRM .word rm, queue := [] } ∧ Pushed s.ip s u) ∧
    (∃ u v, exec (.callFar off seg) s =
        .next { v with ip := off, sregs := { s.sregs with cs := seg }, queue := [] } ∧
      Pushed s.sregs.cs s u ∧ Pushed s.ip u v) ∧
    (∃ u v, exec (.callFarMem m) s = .next { v with
        ip := s.lreadWord (s.memSeg m) (s.ea m)
        sregs := { s.sregs with cs := s.lreadWord (s.memSeg m) (s.ea m + 2) }
        queue := [] } ∧
      Pushed s.sregs.cs s u ∧ Pushed s.ip u v)

/-- The four returns pop IP, the intersegment ones then CS, add their immediate to SP behind the pops, and change
nothing else (R259 to R262). -/
def Obligations.ReturnForms : Prop :=
  ∀ (k : Word) (s : State) (lo hi : Word), lo = s.lreadWord s.sregs.ss s.regs.sp →
    hi = s.lreadWord s.sregs.ss (s.regs.sp + 2) →
    exec .ret s = .next { s with ip := lo, regs := { s.regs with sp := s.regs.sp + 2 }, queue := [] } ∧
    exec (.retImm k) s =
      .next { s with ip := lo, regs := { s.regs with sp := s.regs.sp + 2 + k }, queue := [] } ∧
    exec .retf s = .next { s with
      ip := lo, sregs := { s.sregs with cs := hi }, regs := { s.regs with sp := s.regs.sp + 4 }, queue := [] } ∧
    exec (.retfImm k) s = .next { s with
      ip := lo, sregs := { s.sregs with cs := hi }, regs := { s.regs with sp := s.regs.sp + 4 + k }, queue := [] }

/-- A return undoes a call: IP, CS and every general register are as before, from any SP (R250, R252, R259, R261). -/
def Obligations.CallReturnRoundTrip : Prop :=
  ∀ (d off seg : Word) (s t : State),
    (exec (.callNear d) s = .next t →
      ∃ u, exec .ret t = .next u ∧ u.ip = s.ip ∧ u.regs = s.regs ∧ u.sregs = s.sregs ∧ u.flags = s.flags) ∧
    (exec (.callFar off seg) s = .next t →
      ∃ u, exec .retf t = .next u ∧ u.ip = s.ip ∧ u.regs = s.regs ∧ u.sregs = s.sregs ∧ u.flags = s.flags)

/-- The eight conditional jumps with an even opcode: taken as their condition says, IP moved by the signed displacement
from IP_next and the queue emptied; else nothing changes (R263 to R271). -/
def Obligations.ConditionalJumps : Prop :=
  ∀ (d : Byte) (r : List Byte) (s : State) (taken : Out),
    taken = .next { s with ip := s.ip + d.signExtend 16, queue := [] } →
    decode (0x74 :: d :: r) = .ok (.je d, r) ∧
    exec (.je d) s = (if s.flags.zf = true then taken else .next s) ∧
    decode (0x7C :: d :: r) = .ok (.jl d, r) ∧
    exec (.jl d) s = (if s.flags.sf ≠ s.flags.ofl then taken else .next s) ∧
    decode (0x7E :: d :: r) = .ok (.jle d, r) ∧
    exec (.jle d) s = (if s.flags.zf = true ∨ s.flags.sf ≠ s.flags.ofl then taken else .next s) ∧
    decode (0x72 :: d :: r) = .ok (.jb d, r) ∧
    exec (.jb d) s = (if s.flags.cf = true then taken else .next s) ∧
    decode (0x76 :: d :: r) = .ok (.jbe d, r) ∧
    exec (.jbe d) s = (if s.flags.cf = true ∨ s.flags.zf = true then taken else .next s) ∧
    decode (0x7A :: d :: r) = .ok (.jp d, r) ∧
    exec (.jp d) s = (if s.flags.pf = true then taken else .next s) ∧
    decode (0x70 :: d :: r) = .ok (.jo d, r) ∧
    exec (.jo d) s = (if s.flags.ofl = true then taken else .next s) ∧
    decode (0x78 :: d :: r) = .ok (.js d, r) ∧
    exec (.js d) s = (if s.flags.sf = true then taken else .next s)

/-- The eight conditional jumps with an odd opcode, on the negated conditions (R263, R272 to R279). -/
def Obligations.NegatedConditionalJumps : Prop :=
  ∀ (d : Byte) (r : List Byte) (s : State) (taken : Out),
    taken = .next { s with ip := s.ip + d.signExtend 16, queue := [] } →
    decode (0x75 :: d :: r) = .ok (.jne d, r) ∧
    exec (.jne d) s = (if s.flags.zf = false then taken else .next s) ∧
    decode (0x7D :: d :: r) = .ok (.jnl d, r) ∧
    exec (.jnl d) s = (if s.flags.sf = s.flags.ofl then taken else .next s) ∧
    decode (0x7F :: d :: r) = .ok (.jnle d, r) ∧
    exec (.jnle d) s = (if s.flags.zf = false ∧ s.flags.sf = s.flags.ofl then taken else .next s) ∧
    decode (0x73 :: d :: r) = .ok (.jnb d, r) ∧
    exec (.jnb d) s = (if s.flags.cf = false then taken else .next s) ∧
    decode (0x77 :: d :: r) = .ok (.jnbe d, r) ∧
    exec (.jnbe d) s = (if s.flags.cf = false ∧ s.flags.zf = false then taken else .next s) ∧
    decode (0x7B :: d :: r) = .ok (.jnp d, r) ∧
    exec (.jnp d) s = (if s.flags.pf = false then taken else .next s) ∧
    decode (0x71 :: d :: r) = .ok (.jno d, r) ∧
    exec (.jno d) s = (if s.flags.ofl = false then taken else .next s) ∧
    decode (0x79 :: d :: r) = .ok (.jns d, r) ∧
    exec (.jns d) s = (if s.flags.sf = false then taken else .next s)

/-- Behind CMP a, b the jumps read as their names say: equal, below and above for unsigned values, less and greater for
signed values (R263, R173). -/
def Obligations.CompareThenJump : Prop :=
  ∀ (w : Width) (reg : RegField) (rm : RM) (d : Byte) (s t : State) (a b : BitVec w.bits) (go : State),
    a = s.readRM w rm → b = s.readReg w reg → exec (.cmpRmReg .fromReg w reg rm) s = .next t →
    go = { t with ip := t.ip + d.signExtend 16, queue := [] } →
    exec (.je d) t = .next (if a = b then go else t) ∧
    exec (.jb d) t = .next (if a.toNat < b.toNat then go else t) ∧
    exec (.jbe d) t = .next (if a.toNat ≤ b.toNat then go else t) ∧
    exec (.jl d) t = .next (if a.toInt < b.toInt then go else t) ∧
    exec (.jle d) t = .next (if a.toInt ≤ b.toInt then go else t) ∧
    exec (.jne d) t = .next (if a ≠ b then go else t) ∧
    exec (.jnb d) t = .next (if b.toNat ≤ a.toNat then go else t) ∧
    exec (.jnbe d) t = .next (if b.toNat < a.toNat then go else t) ∧
    exec (.jnl d) t = .next (if b.toInt ≤ a.toInt then go else t) ∧
    exec (.jnle d) t = .next (if b.toInt < a.toInt then go else t)

/-- LOOP, LOOPZ and LOOPNZ count CX down without a flag and jump while it is not zero, with ZF for the latter two; JCXZ
tests CX only (R280 to R283). -/
def Obligations.LoopForms : Prop :=
  ∀ (d : Byte) (r : List Byte) (s u go : State), u = { s with regs := { s.regs with cx := s.regs.cx - 1 } } →
    go = { u with ip := s.ip + d.signExtend 16, queue := [] } →
    decode (0xE2 :: d :: r) = .ok (.loop d, r) ∧
    exec (.loop d) s = .next (if s.regs.cx ≠ 1 then go else u) ∧
    decode (0xE1 :: d :: r) = .ok (.loopz d, r) ∧
    exec (.loopz d) s = .next (if s.regs.cx ≠ 1 ∧ s.flags.zf = true then go else u) ∧
    decode (0xE0 :: d :: r) = .ok (.loopnz d, r) ∧
    exec (.loopnz d) s = .next (if s.regs.cx ≠ 1 ∧ s.flags.zf = false then go else u) ∧
    decode (0xE3 :: d :: r) = .ok (.jcxz d, r) ∧
    exec (.jcxz d) s =
      .next (if s.regs.cx = 0 then { s with ip := s.ip + d.signExtend 16, queue := [] } else s)

/-! ## Interrupts -/

/-- INT n, INT 3 and INTO with OF = 1 take the entry sequence of R386 when their element has been written and the
pushed words do not lie in it; INTO with OF = 0 does nothing (R286 to R288, R386). The sequence and the type numbers
are the spec's decisions D11 and D12. -/
def Obligations.InterruptEntry : Prop :=
  ∀ (n : Byte) (s : State),
    (VectorReady n s → ¬ StackOnVector n s → ∃ u, exec (.intType n) s = .next u ∧ Entered n s u) ∧
    (VectorReady 3 s → ¬ StackOnVector 3 s → ∃ u, exec .int3 s = .next u ∧ Entered 3 s u) ∧
    (s.flags.ofl = true → VectorReady 4 s → ¬ StackOnVector 4 s → ∃ u, exec .into s = .next u ∧ Entered 4 s u) ∧
    (s.flags.ofl = false → exec .into s = .next s)

/-- An interrupt through an element that was never written, or that its own pushes overlap, is refused (R381, R386).
The overlap is the spec's decision D11 (log 14). -/
def Obligations.InterruptRefusals : Prop :=
  ∀ (n : Byte) (s : State),
    (StackOnVector n s → exec (.intType n) s = .refused (.vectorUnderStack n)) ∧
    (¬ StackOnVector n s → ¬ VectorReady n s → exec (.intType n) s = .refused (.vectorUnwritten n))

/-- IRET pops IP, CS and FLAGS; behind an interrupt entry it restores CS:IP, all nine flags and every register,
whatever the X bits of the image are (R289, R390, R37). That the X bits are free is the spec's decision D4 (log 5). -/
def Obligations.InterruptReturn : Prop :=
  (∀ (s : State) (img : Word), img = s.lreadWord s.sregs.ss (s.regs.sp + 4) → ∃ u, exec .iret s = .next u ∧
    u = { s with
      ip := s.lreadWord s.sregs.ss s.regs.sp
      sregs := { s.sregs with cs := s.lreadWord s.sregs.ss (s.regs.sp + 2) }
      regs := { s.regs with sp := s.regs.sp + 6 }
      flags := u.flags
      queue := [] } ∧
    u.flags.cf = img.getLsbD 0 ∧ u.flags.pf = img.getLsbD 2 ∧ u.flags.af = img.getLsbD 4 ∧
    u.flags.zf = img.getLsbD 6 ∧ u.flags.sf = img.getLsbD 7 ∧ u.flags.tf = img.getLsbD 8 ∧
    u.flags.ifl = img.getLsbD 9 ∧ u.flags.df = img.getLsbD 10 ∧ u.flags.ofl = img.getLsbD 11) ∧
  (∀ (n : Byte) (s t : State), exec (.intType n) s = .next t →
    ∃ u, exec .iret t = .next u ∧ u.ip = s.ip ∧ u.sregs = s.sregs ∧ u.regs = s.regs ∧ u.flags = s.flags)

/-! ## Processor control -/

/-- The flag instructions write their one flag and nothing else, by their one-byte codes (R300 to R306). STI also sets
the inhibit bit, which is the spec's decision D17. -/
def Obligations.FlagInstructions : Prop :=
  ∀ (r : List Byte) (s : State),
    decode (0xF8 :: r) = .ok (.clc, r) ∧ exec .clc s = .next { s with flags := { s.flags with cf := false } } ∧
    decode (0xF5 :: r) = .ok (.cmc, r) ∧ exec .cmc s = .next { s with flags := { s.flags with cf := !s.flags.cf } } ∧
    decode (0xF9 :: r) = .ok (.stc, r) ∧ exec .stc s = .next { s with flags := { s.flags with cf := true } } ∧
    decode (0xFC :: r) = .ok (.cld, r) ∧ exec .cld s = .next { s with flags := { s.flags with df := false } } ∧
    decode (0xFD :: r) = .ok (.std, r) ∧ exec .std s = .next { s with flags := { s.flags with df := true } } ∧
    decode (0xFA :: r) = .ok (.cli, r) ∧ exec .cli s = .next { s with flags := { s.flags with ifl := false } } ∧
    decode (0xFB :: r) = .ok (.sti, r) ∧
    exec .sti s = .next { s with flags := { s.flags with ifl := true }, inhibit := true }

/-- HLT halts; WAIT goes on with TEST LOW and waits at its own opcode with TEST HIGH; ESC changes nothing (R307 to
R309). What ESC does is the spec's decision D23; how WAIT waits is the model's choice, log 13. -/
def Obligations.HaltWaitEscape : Prop :=
  ∀ (hi lo : BitVec 3) (rm : RM) (s : State),
    exec .hlt s = .next { s with run := .halted } ∧
    (s.input.testHigh = false → exec .wait s = .next { s with run := .running }) ∧
    (s.input.testHigh = true → exec .wait s = .next { s with ip := s.ip - 1, run := .waiting, cont := some .wait }) ∧
    exec (.esc hi lo rm) s = .next s

/-- A prefix byte is recorded for the instruction behind it; a second one of its kind is refused (R42, R101, R103,
R231, R310, R311; that a prefix byte is a step of its own is the model's choice, log 1). The refusals are the spec's
decision D18. -/
def Obligations.PrefixForms : Prop :=
  ∀ (z : Bool) (sr : SReg) (s : State),
    (s.pfx.rep = none → exec (.rep z) s = .next { s with pfx := { s.pfx with rep := some z } }) ∧
    (s.pfx.rep ≠ none → exec (.rep z) s = .refused .duplicatePrefix) ∧
    (s.pfx.lock = false → exec .lock s = .next { s with pfx := { s.pfx with lock := true } }) ∧
    (s.pfx.lock = true → exec .lock s = .refused .duplicatePrefix) ∧
    (s.pfx.seg = none → exec (.segOverride sr) s = .next { s with pfx := { s.pfx with seg := some sr } }) ∧
    (s.pfx.seg ≠ none → exec (.segOverride sr) s = .refused .duplicatePrefix)

/-! ## The machine -/

/-- A step runs the decoded instruction. With the CPU running, nothing in progress, no RESET, no other master, memory
RAM everywhere and every port a device, the fetch window decodes to `i` of `n` bytes; then the step is `exec i` with IP
and the queue behind the instruction and two draw numbers used, and behind it the queue is settled, the prefixes end,
and the recognition point follows; what the step puts out on the pins is not stated here. A REP prefix before a
non-string instruction is refused instead. With an empty queue the window is the six bytes at CS:IP (R26, R102, R104,
R395). The refusal is the spec's decision D18; the draw numbers are the model's choice, log 4. -/
def Obligations.StepRunsDecoded : Prop :=
  (∀ (s s1 : State) (i : Instr) (rest : List Byte),
    s.cont = none → s.run = .running → s.bus.owner = .cpu → s.bus.rq0 = false → s.bus.rq1 = false →
    s.par.memMap = [] → s.par.ioMap = [] → s1 = s.takeInput → s1.input.Undisturbed →
    decode s1.fetchWindow = .ok (i, rest) →
    silent (step s) =
      if s.pfx.rep.isSome && !isStringPrimitive i && !isPrefixByte i then .refused .repBeforeNonString
      else
        let n := 6 - rest.length
        let s2 : State := { s1 with
          ip := s.ip + BitVec.ofNat 16 n, draws := s.draws + 2, nmi := s.nmi || s1.input.nmiEdge
          queue := padQueue 6 (s.queue.drop n) }
        silent (andThen (exec i s2) fun t => finish i s.flags.tf (settleQueue s2 t))) ∧
  (∀ s : State, s.cont = none → s.queue = [] → s.par.memMap = [] →
    s.fetchWindow = (List.range 6).map fun k => s.readByte (phys s.sregs.cs (s.ip + BitVec.ofNat 16 k)))

/-- The invariant of the machine holds right after reset. -/
def Obligations.ResetMeetsInv : Prop := Inv State.reset

/-- Every step keeps the invariant: memory and ports stay in canonical form, the inhibit bit lasts one boundary, the
queue holds at most six bytes, an instruction is in progress between steps only as a repeated string primitive or a
WAIT, and the bus belongs to the CPU or to a master of the strapped mode (R396, R40, R50, R51, R231, R308, R43, R345,
R349). The step may be disturbed by other masters and by RESET in every way the model knows. -/
def Obligations.StepKeepsInv : Prop :=
  ∀ s t : State, Inv s → step s = .next t → Inv t

/-- State.reset and a RESET event. While RESET is HIGH the machine is dormant, and memory and ports hold what masters of
the system bus write and are otherwise as they were. The step after it has returned LOW leaves CS = FFFFH, IP = 0000H,
the other segment registers and the flags zero, nothing in progress or pending, memory and ports untouched, and
execution begins at FFFF0H; the general registers may be anything. An NMI edge during the internal reset sequence is
entered before the first instruction, or stays latched for the boundary behind it; a HOLD is granted before the first
fetch, and an NMI that is to come before the first instruction is then entered when the bus is back. A RESET inside an
instruction ends it at once: of a store of a word at an odd address only the low byte is made when RESET comes between
its two cycles, and nothing when it comes before them (R430, R45, R445, R340, R349, R10). The NMI cases are the spec's
decision D35; where RESET can act, the dropped requests for the bus, the free registers and the NMI behind a grant are
the model's choices, logs 16, 22 and 31. -/
def Obligations.ResetEvent : Prop :=
  (State.reset.sregs = { es := 0, cs := 0xFFFF, ss := 0, ds := 0 } ∧ State.reset.ip = 0 ∧
    State.reset.flags = Flags.clear ∧ State.reset.queue = [] ∧ State.reset.nmi = false ∧
    State.reset.pfx = Pfx.none ∧ State.reset.inhibit = false ∧ State.reset.run = .running ∧
    phys State.reset.sregs.cs State.reset.ip = 0xFFFF0) ∧
  (∀ s : State, s.takeInput.input.reset = true →
    ∃ t, step s = .next t ∧ t.run = .heldInReset ∧ t.bus.owner = .cpu ∧ t.bus.rq0 = false ∧ t.bus.rq1 = false ∧
      (∀ a : PhysAddr, (∀ b, .memory a b ∉ s.takeInput.input.systemWrites) → t.cell a = s.cell a) ∧
      (∀ a b, s.par.memMap = [] → s.par.strap = .maximum → s.takeInput.input.systemWrites = [.memory a b] →
        t.cell a = some b) ∧
      (∀ p : Word, (∀ b, .port p b ∉ s.takeInput.input.systemWrites) →
        t.portCell (p.setWidth 20) = s.portCell (p.setWidth 20)) ∧
      t.ioIn = s.ioIn ∧ t.ioOut = s.ioOut) ∧
  (∀ (s : State) (e : EnvInput), s.run = .heldInReset → e = s.takeInput.input → e.Undisturbed →
    (e.nmiLate = false → ∃ t, step s = .next t ∧ RestartedFrom s t ∧ t.nmi = false ∧ t.bus.owner = .cpu ∧
      t.bus.rq0 = false ∧ t.bus.rq1 = false ∧ phys t.sregs.cs t.ip = 0xFFFF0) ∧
    (e.nmiLate = true → e.nmiFirst = false → ∃ t, step s = .next t ∧ RestartedFrom s t ∧ t.nmi = true) ∧
    (e.nmiLate = true → e.nmiFirst = true → s.par.memMap = [] →
      ∃ u, RestartedFrom s u ∧ u.nmi = false ∧ silent (step s) = silent (exec (.intType 2) u))) ∧
  (∀ (s : State) (e : EnvInput), s.run = .heldInReset → e = s.takeInput.input → e.reset = false →
    e.resetAfter = none → e.hold = true → s.par.strap = .minimum → e.busWrites = [] →
    ∃ t, step s = .next t ∧ RestartedFrom s { t with run := .running } ∧ t.bus.owner = .hold ∧ t.nmi = e.nmiLate ∧
      t.run = if e.nmiLate && e.nmiFirst then .restarting else .running) ∧
  (∀ (s s1 : State), s.run = .restarting → s.nmi = true → s.inhibit = false → s.cont = none →
    s.par.strap = .minimum → s.bus.owner = .hold → s.par.memMap = [] → s1 = s.takeInput → s1.input.Undisturbed →
    s1.input.nmiLate = false →
    silent (step s) = silent (exec (.intType 2)
      { s1 with run := .running, nmi := false, bus := { s1.bus with owner := .cpu, rq0 := false, rq1 := false } })) ∧
  (∀ (s : State) (r : RegField) (m : MemOp) (a : PhysAddr) (k : Nat), a = phys (s.memSeg m) (s.ea m) →
    a.getLsbD 0 = true → s.input.gaps = [] → s.par.memMap = [] → s.input.resetAfter = some k → k < 2 →
    ∃ t, runBus (.movRmReg .fromReg .word r (.mem m)) s = .next t ∧ t.run = .heldInReset ∧
      (∀ x, x ≠ a → t.cell x = s.cell x) ∧
      t.cell a = if k = 0 then s.cell a else some (wordLo (s.regs.get r)))

/-- The recognition point behind an instruction that is complete: nothing while the inhibit bit is set, which it clears;
else NMI before INTR, INTR only with IF = 1, then the single-step trap when the instruction began with TF = 1, and last
an NMI edge that arrived during it. An entry behind another one is made from where that one went (R395, R396, R389,
R392). No other master comes between the cycles. The order is the spec's decision D17, the use of TF its decision D32.
-/
def Obligations.RecognitionPoint : Prop :=
  ∀ (tf : Bool) (s : State), s.calm = true → s.cont = none →
    (s.inhibit = true → boundary tf s = .next { s with inhibit := false, nmi := s.nmi || s.input.nmiLate }) ∧
    (s.inhibit = false → s.input.nmiLate = false →
      (s.nmi = true →
        silent (boundary false s) = silent (exec (.intType 2) { s with nmi := false }) ∧
        silent (boundary true s) =
          andThen (exec (.intType 2) { s with nmi := false }) fun u => silent (exec (.intType 1) u)) ∧
      (s.nmi = false → s.input.intr = true → s.flags.ifl = true →
        silent (boundary false s) = silent (exec (.intType s.input.inta) s) ∧
        silent (boundary true s) =
          andThen (exec (.intType s.input.inta) s) fun u => silent (exec (.intType 1) u)) ∧
      (s.nmi = false → (s.input.intr = false ∨ s.flags.ifl = false) →
        boundary false s = .next s ∧ silent (boundary true s) = silent (exec (.intType 1) s))) ∧
    (s.inhibit = false → s.input.nmiLate = true →
      silent (boundary tf s) =
        andThen (boundary tf { s with input := { s.input with nmiLate := false } }) fun u =>
          silent (exec (.intType 2) { u with input := s.input }))

/-- MOV to a segment register, POP of one, and STI: no interrupt is taken at the boundary behind them, whatever is
pending, NMI, INTR and single-step alike, and a pending NMI stays latched (R396, R44). The window is the spec's
decision D17. -/
def Obligations.InhibitWindow : Prop :=
  ∀ (i : Instr) (tf : Bool) (s t u : State),
    (∃ sr rm, i = .movSregRm sr rm) ∨ (∃ sr, i = .popSreg sr) ∨ i = .sti → exec i s = .next t → t.cont = none →
    u = { t with inhibit := false, nmi := t.nmi || t.input.nmiLate, pfx := Pfx.none } → finish i tf t = .next u

/-- A halted machine to which the environment says nothing more stays halted for ever with every register, flag and
byte of memory as it is. INTR with IF = 1, or an NMI, ends the halt with the offset behind the HLT as the return offset;
INTR with IF = 0 does not end it. A WAIT whose TEST is never LOW waits for ever (R307, R393, R308). The environment is
decision D20 (log 7); how WAIT waits is the model's choice, log 13. -/
def Obligations.HaltedState : Prop :=
  (∀ s : State, s.run = .halted → s.inhibit = false → Quiet s → ∀ t, Reaches s t →
    (∃ u, step t = .next u) ∧ t.run = .halted ∧ Unmoved s t ∧ t.mem = s.mem) ∧
  (∀ (s s1 : State), s.run = .halted → s.inhibit = false → s.cont = none → s.bus.owner = .cpu →
    s.bus.rq0 = false → s.bus.rq1 = false → s.par.memMap = [] → s1 = s.takeInput → s1.input.Undisturbed →
    s1.input.nmiLate = false →
    (s.nmi = true ∨ s1.input.nmiEdge = true → silent (step s) = silent (exec (.intType 2) { s1 with nmi := false })) ∧
    (s.nmi = false → s1.input.nmiEdge = false → s1.input.intr = true → s.flags.ifl = true →
      silent (step s) = silent (exec (.intType s1.input.inta) s1)) ∧
    (s.nmi = false → s1.input.nmiEdge = false → s1.input.intr = false ∨ s.flags.ifl = false →
      ∃ t, step s = .next t ∧ t.run = .halted ∧ Unmoved s t ∧ t.mem = s.mem)) ∧
  (∀ s : State, s.run = .waiting → s.cont = some .wait → s.inhibit = false → s.pfx.rep = none →
    Forever { EnvInput.quiescent with testHigh := true } s → ∀ t, Reaches s t →
    (∃ u, step t = .next u) ∧ t.run = .waiting ∧ Unmoved s t ∧ t.mem = s.mem)

/-- An interrupt between iterations of a repeated string instruction, NMI, INTR with IF = 1 or the single-step trap, is
entered with the offset of the prefix byte next to the opcode, and the other prefixes are lost; one that comes while a
WAIT without a prefix waits is entered with the offset of the WAIT (R391, R392, R441, R394, R308). No other master comes
between the cycles; how WAIT waits is the model's choice, log 13. -/
def Obligations.InterruptedRepeat : Prop :=
  ∀ (i : Instr) (s u : State), s.calm = true → s.cont = some i → s.inhibit = false → s.input.nmiLate = false →
    (i = .wait ∧ s.pfx = Pfx.none ∧ u = { s with cont := none }) ∨
      (isStringPrimitive i = true ∧ s.pfx.rep.isSome = true ∧
        u = { s with ip := s.ip - 1, pfx := Pfx.none, cont := none }) →
    (s.nmi = true → silent (boundary false s) = silent (exec (.intType 2) { u with nmi := false })) ∧
    (s.nmi = false → s.input.intr = true → s.flags.ifl = true →
      silent (boundary false s) = silent (exec (.intType s.input.inta) u)) ∧
    (s.nmi = false → (s.input.intr = false ∨ s.flags.ifl = false) →
      boundary false s = .next s ∧ silent (boundary true s) = silent (exec (.intType 1) u))

/-- HOLD in the minimum mode and RQ/GT in the maximum mode are granted at a step that carries no LOCK prefix: the
machine is unmoved, and memory and ports hold what other masters write and are otherwise as they were. A request
recorded before is granted with no new pulse, and RQ/GT0 goes first. Under LOCK nothing is granted; a pulse is recorded,
a level is not. A second pulse of the master gives the bus back. In hold acknowledge a queued instruction that needs no
bus cycle is executed, one that needs the bus waits. Between the read and the write of a memory operand another master
writes, but not under LOCK (R71, R74, R310, R345, R347, R349, R43, R446). What the EU does in hold acknowledge and where
a step can be interleaved are the model's choices, logs 15, 28 and 29. -/
def Obligations.BusRequests : Prop :=
  (∀ (s : State) (e : EnvInput), e = s.takeInput.input → e.reset = false → e.resetAfter = none →
    s.run ≠ .heldInReset → s.bus.owner = .cpu → s.pfx.lock = false → e.euGoes = false →
    (s.par.strap = .minimum ∧ e.hold = true ∨ s.par.strap = .maximum ∧
      (s.bus.rq0 = true ∨ e.rq0 = true ∨ s.bus.rq1 = true ∨ e.rq1 = true)) →
    ∃ t, step s = .next t ∧ Unmoved s t ∧
      t.bus.owner = (if s.par.strap = .minimum then .hold else if s.bus.rq0 || e.rq0 then .rq0 else .rq1) ∧
      t.bus.rq0 = false ∧
      t.bus.rq1 = (decide (s.par.strap = .maximum) && (s.bus.rq0 || e.rq0) && (s.bus.rq1 || e.rq1)) ∧
      (∀ a : PhysAddr, (∀ b, .memory a b ∉ e.busWrites ++ e.systemWrites) → t.cell a = s.cell a) ∧
      (∀ a b, s.par.memMap = [] → e.systemWrites = [] → e.busWrites = [.memory a b] →
        t.cell a = some b) ∧
      (∀ p : Word, (∀ b, .port p b ∉ e.busWrites ++ e.systemWrites) →
        t.portCell (p.setWidth 20) = s.portCell (p.setWidth 20)) ∧
      (∀ p b, s.portRegion (p.setWidth 20) = .ram → e.systemWrites = [] → e.busWrites = [.port p b] →
        t.portCell (p.setWidth 20) = some b)) ∧
  (∀ (s t : State) (e : EnvInput), e = s.takeInput.input → e.reset = false → e.resetAfter = none →
    s.run ≠ .heldInReset → s.bus.owner = .cpu → s.pfx.lock = true → step s = .next t →
    t.bus.owner = .cpu ∧ (s.par.strap = .minimum → t.bus.rq0 = false ∧ t.bus.rq1 = false) ∧
      (s.par.strap = .maximum → t.bus.rq0 = (s.bus.rq0 || e.rq0) ∧ t.bus.rq1 = (s.bus.rq1 || e.rq1))) ∧
  (∀ (s t : State) (e : EnvInput), e = s.takeInput.input → e.reset = false → e.resetAfter = none →
    s.run ≠ .heldInReset → s.par.strap = .maximum → s.bus.owner = .rq0 → e.rq0 = true → s.bus.rq0 = false →
    s.bus.rq1 = false → e.rq1 = false → step s = .next t → t.bus.owner = .cpu) ∧
  (∀ (s : State) (e : EnvInput) (r : RegField) (v : Word) (m : MemOp) (l : List Byte), e = s.takeInput.input →
    e.reset = false → e.resetAfter = none → s.run = .running → s.par.strap = .minimum → s.bus.owner = .hold →
    e.hold = true → e.euGoes = true → e.busWrites = [] → s.cont = none → s.pfx = Pfx.none → s.inhibit = false →
    s.nmi = false → e.nmiEdge = false → e.nmiLate = false → e.intr = false → s.flags.tf = false →
    s.queue.length ≤ 6 →
    (s.queue = (encode (.movRegImm .word r v) ++ l).map some → ∃ t, step s = .next t ∧ t.bus.owner = .hold ∧
      t.ip = s.ip + 3 ∧ t.queue = l.map some ∧ RegWritten .word r v s.regs t.regs ∧ t.mem = s.mem) ∧
    (decode (knownBytes s.queue) = .ok (.movRmReg .toReg .word r (.mem m), l) → ∃ t, step s = .next t ∧
      t.bus.owner = .hold ∧ Unmoved s t ∧ t.queue = s.queue ∧ t.mem = s.mem)) ∧
  (∀ (s : State) (m : MemOp) (a x : PhysAddr) (b v : Byte), a = phys (s.memSeg m) (s.ea m) → x ≠ a →
    s.cell a = some v → s.par.memMap = [] → s.input.resetAfter = none →
    s.input.gaps = [{ localWrites := [], systemWrites := [] }, { localWrites := [.memory x b], systemWrites := [] }] →
    ∃ t, runBus (.incRm .byte (.mem m)) s = .next t ∧ t.cell a = some (v + 1) ∧
      t.cell x = if s.pfx.lock then s.cell x else some b)

/-- Only these instructions write a segment register, TF, IF, DF, or use the I/O space; no other instruction does in any
state (R25, R33 to R35, R51). -/
def Obligations.OnlyTheseWrite : Prop :=
  ∀ (i : Instr) (s t : State), exec i s = .next t →
    (t.sregs ≠ s.sregs → (∃ sr rm, i = .movSregRm sr rm) ∨ (∃ sr, i = .popSreg sr) ∨ (∃ r m, i = .lds r m) ∨
      (∃ r m, i = .les r m) ∨ (∃ o g, i = .callFar o g) ∨ (∃ m, i = .callFarMem m) ∨ (∃ o g, i = .jmpFar o g) ∨
      (∃ m, i = .jmpFarMem m) ∨ i = .retf ∨ (∃ k, i = .retfImm k) ∨ (∃ n, i = .intType n) ∨ i = .int3 ∨ i = .into ∨
      i = .iret ∨ (∃ w rm, i = .divRm w rm) ∨ (∃ w rm, i = .idivRm w rm)) ∧
    (t.flags.tf ≠ s.flags.tf → i = .popf ∨ i = .iret ∨ (t.flags.tf = false ∧ ((∃ n, i = .intType n) ∨ i = .int3 ∨
      i = .into ∨ (∃ w rm, i = .divRm w rm) ∨ (∃ w rm, i = .idivRm w rm)))) ∧
    (t.flags.ifl ≠ s.flags.ifl → i = .popf ∨ i = .iret ∨ i = .sti ∨ (t.flags.ifl = false ∧ (i = .cli ∨
      (∃ n, i = .intType n) ∨ i = .int3 ∨ i = .into ∨ (∃ w rm, i = .divRm w rm) ∨ (∃ w rm, i = .idivRm w rm)))) ∧
    (t.flags.df ≠ s.flags.df → i = .popf ∨ i = .iret ∨ i = .cld ∨ i = .std) ∧
    (t.ioIn ≠ s.ioIn → (∃ w p, i = .inFixed w p) ∨ ∃ w, i = .inVar w) ∧
    (t.ioOut ≠ s.ioOut → (∃ w p, i = .outFixed w p) ∨ ∃ w, i = .outVar w)

/-- Self-modifying code. Behind an instruction that is not a transfer of control, each of the six bytes that follow it
is fetched as it was before the instruction or as it is now, and a byte the instruction did not write is fetched as it
is; behind a transfer of control all are fetched as they are (R70, R440; the free choice is decision D7, log 6). Memory
is RAM everywhere. -/
def Obligations.QueuedBytes : Prop :=
  (∀ (old new : State) (k : Nat) (b b' : Byte), k < 6 → new.par.memMap = [] → old.queue = List.replicate 6 none →
    new.queue = List.replicate 6 none → new.streamIp = old.streamIp → new.sregs.cs = old.sregs.cs →
    old.cell (old.streamAddr k) = some b → new.cell (new.streamAddr k) = some b' →
    (settleQueue old new).fetchWindow[k]? = some b ∨ (settleQueue old new).fetchWindow[k]? = some b') ∧
  (∀ (s : State) (k : Nat) (b : Byte), k < 6 → s.par.memMap = [] → s.queue = [] → s.cell (s.streamAddr k) = some b →
    s.fetchWindow[k]? = some b)

/-- The bus cycles of an operand: one for a byte or a word at an even address, two for a word at an odd one, the low
byte first; BHE and A0 say which half of the bus carries each byte. The acknowledge pair carries its type byte in the
second cycle, drives BHE LOW in the first and has LOCK put out by the CPU itself in the maximum mode. HLT makes the halt
indication. A word read of a device takes its two inputs in order, at even and odd addresses; a port of RAM answers what
was written to it and uses no input (R59, R60, R344, R353, R354, R8, R65). The maps are the parameters of decision D2
(log 28). That BHE is HIGH in the second acknowledge cycle is the model's reading, log 20. -/
def Obligations.BusCycles : Prop :=
  (∀ (s r v : State) (k : BusKind) (sr : SReg) (o : Word) (a : PhysAddr) (d : PhysAddr → Byte) (c : BusCycle),
    a = phys (s.sregs.get sr) o → k = .readMemory ∧ d = v.readByte ∨ k = .writeMemory ∧ d = r.readByte →
    c = { kind := k, addr := some a, bhe := some true, seg := some (segmentStatus (some sr)), high := none, low := none
          lock := decide (s.par.strap = .maximum) && s.pfx.lock } →
    (a.getLsbD 0 = false →
      (s.memoryAccesses k .byte sr o).map (Access.cycle s r v) = [{ c with low := some (d a) }] ∧
      (s.memoryAccesses k .word sr o).map (Access.cycle s r v) =
        [{ c with bhe := some false, low := some (d a), high := some (d (phys (s.sregs.get sr) (o + 1))) }]) ∧
    (a.getLsbD 0 = true →
      (s.memoryAccesses k .byte sr o).map (Access.cycle s r v) =
        [{ c with bhe := some false, high := some (d a) }] ∧
      (s.memoryAccesses k .word sr o).map (Access.cycle s r v) =
        [{ c with bhe := some false, high := some (d a) },
         { c with
           addr := some (phys (s.sregs.get sr) (o + 1)), low := some (d (phys (s.sregs.get sr) (o + 1))) }])) ∧
  (∀ (s r v : State) (c : BusCycle),
    c = { kind := .interruptAcknowledge, addr := none, bhe := some false, seg := none, high := none, low := none
          lock := decide (s.par.strap = .maximum) } →
    ackAccesses.map (Access.cycle s r v) = [c, { c with bhe := some true, low := some s.input.inta }]) ∧
  (∀ s : State, s.calm = true → ∃ t, runBus .hlt s = .next t ∧ t.run = .halted ∧
    t.bus.cycles.map BusCycle.kind = s.bus.cycles.map BusCycle.kind ++ [.halt]) ∧
  (∀ (s : State) (r : RegField) (m : MemOp) (lo hi : Byte) (l : List Byte), s.input.gaps = [] →
    s.input.resetAfter = none → s.region (phys (s.memSeg m) (s.ea m)) = .device →
    s.region (phys (s.memSeg m) (s.ea m + 1)) = .device → s.bus.memIn = lo :: hi :: l →
    ∃ t, runBus (.movRmReg .toReg .word r (.mem m)) s = .next t ∧ RegWritten .word r (leWord lo hi) s.regs t.regs ∧
      t.bus.memIn = l ∧ t.mem = s.mem) ∧
  (∀ (s t : State) (p : Byte) (g : Regs), s.input.gaps = [] → s.input.resetAfter = none →
    s.portRegion (p.setWidth 20) = .ram → runBus (.outFixed .byte p) s = .next t →
    ∃ u, runBus (.inFixed .byte p) { t with regs := g } = .next u ∧
      RegWritten .byte .ax (s.regs.get8 .ax) g u.regs ∧ u.ioIn = s.ioIn ∧ u.ioOut = s.ioOut ∧ u.mem = s.mem)
end

