-- ==== Sys2Proof/Laws/State.lean ====
section
/-! SUPPORT. What each field is behind each update of the state. -/

namespace Sys2Proof.Machine

@[simp] theorem State.tick_regs (s : State) : s.tick.regs = s.regs := rfl
@[simp] theorem State.tick_sregs (s : State) : s.tick.sregs = s.sregs := rfl
@[simp] theorem State.tick_ip (s : State) : s.tick.ip = s.ip := rfl
@[simp] theorem State.tick_flags (s : State) : s.tick.flags = s.flags := rfl
@[simp] theorem State.tick_mem (s : State) : s.tick.mem = s.mem := rfl
@[simp] theorem State.tick_queue (s : State) : s.tick.queue = s.queue := rfl
@[simp] theorem State.tick_nmi (s : State) : s.tick.nmi = s.nmi := rfl
@[simp] theorem State.tick_pfx (s : State) : s.tick.pfx = s.pfx := rfl
@[simp] theorem State.tick_run (s : State) : s.tick.run = s.run := rfl
@[simp] theorem State.tick_inhibit (s : State) : s.tick.inhibit = s.inhibit := rfl
@[simp] theorem State.tick_bus (s : State) : s.tick.bus = s.bus := rfl
@[simp] theorem State.tick_cont (s : State) : s.tick.cont = s.cont := rfl
@[simp] theorem State.tick_par (s : State) : s.tick.par = s.par := rfl
@[simp] theorem State.tick_env (s : State) : s.tick.env = s.env := rfl
@[simp] theorem State.tick_rest (s : State) : s.tick.rest = s.rest := rfl
@[simp] theorem State.tick_input (s : State) : s.tick.input = s.input := rfl
@[simp] theorem State.tick_ioIn (s : State) : s.tick.ioIn = s.ioIn := rfl
@[simp] theorem State.tick_ioOut (s : State) : s.tick.ioOut = s.ioOut := rfl
@[simp] theorem State.tick_draws (s : State) : s.tick.draws = s.draws + 1 := rfl

@[simp] theorem State.writeByte_regs (s : State) (a : PhysAddr) (v : Byte) : (s.writeByte a v).regs = s.regs := rfl
@[simp] theorem State.writeByte_sregs (s : State) (a : PhysAddr) (v : Byte) : (s.writeByte a v).sregs = s.sregs := rfl
@[simp] theorem State.writeByte_ip (s : State) (a : PhysAddr) (v : Byte) : (s.writeByte a v).ip = s.ip := rfl
@[simp] theorem State.writeByte_flags (s : State) (a : PhysAddr) (v : Byte) : (s.writeByte a v).flags = s.flags := rfl
@[simp] theorem State.writeByte_mem (s : State) (a : PhysAddr) (v : Byte) :
    (s.writeByte a v).mem = Memory.set s.mem a.toNat v := rfl
@[simp] theorem State.writeByte_queue (s : State) (a : PhysAddr) (v : Byte) : (s.writeByte a v).queue = s.queue := rfl
@[simp] theorem State.writeByte_nmi (s : State) (a : PhysAddr) (v : Byte) : (s.writeByte a v).nmi = s.nmi := rfl
@[simp] theorem State.writeByte_pfx (s : State) (a : PhysAddr) (v : Byte) : (s.writeByte a v).pfx = s.pfx := rfl
@[simp] theorem State.writeByte_run (s : State) (a : PhysAddr) (v : Byte) : (s.writeByte a v).run = s.run := rfl
@[simp] theorem State.writeByte_inhibit (s : State) (a : PhysAddr) (v : Byte) :
    (s.writeByte a v).inhibit = s.inhibit := rfl
@[simp] theorem State.writeByte_bus (s : State) (a : PhysAddr) (v : Byte) : (s.writeByte a v).bus = s.bus := rfl
@[simp] theorem State.writeByte_cont (s : State) (a : PhysAddr) (v : Byte) : (s.writeByte a v).cont = s.cont := rfl
@[simp] theorem State.writeByte_par (s : State) (a : PhysAddr) (v : Byte) : (s.writeByte a v).par = s.par := rfl
@[simp] theorem State.writeByte_env (s : State) (a : PhysAddr) (v : Byte) : (s.writeByte a v).env = s.env := rfl
@[simp] theorem State.writeByte_rest (s : State) (a : PhysAddr) (v : Byte) : (s.writeByte a v).rest = s.rest := rfl
@[simp] theorem State.writeByte_input (s : State) (a : PhysAddr) (v : Byte) : (s.writeByte a v).input = s.input := rfl
@[simp] theorem State.writeByte_ioIn (s : State) (a : PhysAddr) (v : Byte) : (s.writeByte a v).ioIn = s.ioIn := rfl
@[simp] theorem State.writeByte_ioOut (s : State) (a : PhysAddr) (v : Byte) : (s.writeByte a v).ioOut = s.ioOut := rfl
@[simp] theorem State.writeByte_draws (s : State) (a : PhysAddr) (v : Byte) : (s.writeByte a v).draws = s.draws := rfl

@[simp] theorem State.lwriteByte_regs (s : State) (seg o : Word) (v : Byte) : (s.lwriteByte seg o v).regs = s.regs := rfl
@[simp] theorem State.lwriteByte_sregs (s : State) (seg o : Word) (v : Byte) :
    (s.lwriteByte seg o v).sregs = s.sregs := rfl
@[simp] theorem State.lwriteByte_ip (s : State) (seg o : Word) (v : Byte) : (s.lwriteByte seg o v).ip = s.ip := rfl
@[simp] theorem State.lwriteByte_flags (s : State) (seg o : Word) (v : Byte) :
    (s.lwriteByte seg o v).flags = s.flags := rfl
@[simp] theorem State.lwriteByte_mem (s : State) (seg o : Word) (v : Byte) :
    (s.lwriteByte seg o v).mem = Memory.set s.mem (phys seg o).toNat v := rfl
@[simp] theorem State.lwriteByte_queue (s : State) (seg o : Word) (v : Byte) :
    (s.lwriteByte seg o v).queue = s.queue := rfl
@[simp] theorem State.lwriteByte_nmi (s : State) (seg o : Word) (v : Byte) : (s.lwriteByte seg o v).nmi = s.nmi := rfl
@[simp] theorem State.lwriteByte_pfx (s : State) (seg o : Word) (v : Byte) : (s.lwriteByte seg o v).pfx = s.pfx := rfl
@[simp] theorem State.lwriteByte_run (s : State) (seg o : Word) (v : Byte) : (s.lwriteByte seg o v).run = s.run := rfl
@[simp] theorem State.lwriteByte_inhibit (s : State) (seg o : Word) (v : Byte) :
    (s.lwriteByte seg o v).inhibit = s.inhibit := rfl
@[simp] theorem State.lwriteByte_bus (s : State) (seg o : Word) (v : Byte) : (s.lwriteByte seg o v).bus = s.bus := rfl
@[simp] theorem State.lwriteByte_cont (s : State) (seg o : Word) (v : Byte) : (s.lwriteByte seg o v).cont = s.cont := rfl
@[simp] theorem State.lwriteByte_par (s : State) (seg o : Word) (v : Byte) : (s.lwriteByte seg o v).par = s.par := rfl
@[simp] theorem State.lwriteByte_env (s : State) (seg o : Word) (v : Byte) : (s.lwriteByte seg o v).env = s.env := rfl
@[simp] theorem State.lwriteByte_rest (s : State) (seg o : Word) (v : Byte) : (s.lwriteByte seg o v).rest = s.rest := rfl
@[simp] theorem State.lwriteByte_input (s : State) (seg o : Word) (v : Byte) :
    (s.lwriteByte seg o v).input = s.input := rfl
@[simp] theorem State.lwriteByte_ioIn (s : State) (seg o : Word) (v : Byte) : (s.lwriteByte seg o v).ioIn = s.ioIn := rfl
@[simp] theorem State.lwriteByte_ioOut (s : State) (seg o : Word) (v : Byte) :
    (s.lwriteByte seg o v).ioOut = s.ioOut := rfl
@[simp] theorem State.lwriteByte_draws (s : State) (seg o : Word) (v : Byte) :
    (s.lwriteByte seg o v).draws = s.draws := rfl

@[simp] theorem State.lwriteWord_regs (s : State) (seg o v : Word) : (s.lwriteWord seg o v).regs = s.regs := rfl
@[simp] theorem State.lwriteWord_sregs (s : State) (seg o v : Word) : (s.lwriteWord seg o v).sregs = s.sregs := rfl
@[simp] theorem State.lwriteWord_ip (s : State) (seg o v : Word) : (s.lwriteWord seg o v).ip = s.ip := rfl
@[simp] theorem State.lwriteWord_flags (s : State) (seg o v : Word) : (s.lwriteWord seg o v).flags = s.flags := rfl
@[simp] theorem State.lwriteWord_mem (s : State) (seg o v : Word) :
    (s.lwriteWord seg o v).mem = Memory.set (Memory.set s.mem (phys seg o).toNat (wordLo v)) (phys seg (o + 1)).toNat (wordHi v) := rfl
@[simp] theorem State.lwriteWord_queue (s : State) (seg o v : Word) : (s.lwriteWord seg o v).queue = s.queue := rfl
@[simp] theorem State.lwriteWord_nmi (s : State) (seg o v : Word) : (s.lwriteWord seg o v).nmi = s.nmi := rfl
@[simp] theorem State.lwriteWord_pfx (s : State) (seg o v : Word) : (s.lwriteWord seg o v).pfx = s.pfx := rfl
@[simp] theorem State.lwriteWord_run (s : State) (seg o v : Word) : (s.lwriteWord seg o v).run = s.run := rfl
@[simp] theorem State.lwriteWord_inhibit (s : State) (seg o v : Word) : (s.lwriteWord seg o v).inhibit = s.inhibit := rfl
@[simp] theorem State.lwriteWord_bus (s : State) (seg o v : Word) : (s.lwriteWord seg o v).bus = s.bus := rfl
@[simp] theorem State.lwriteWord_cont (s : State) (seg o v : Word) : (s.lwriteWord seg o v).cont = s.cont := rfl
@[simp] theorem State.lwriteWord_par (s : State) (seg o v : Word) : (s.lwriteWord seg o v).par = s.par := rfl
@[simp] theorem State.lwriteWord_env (s : State) (seg o v : Word) : (s.lwriteWord seg o v).env = s.env := rfl
@[simp] theorem State.lwriteWord_rest (s : State) (seg o v : Word) : (s.lwriteWord seg o v).rest = s.rest := rfl
@[simp] theorem State.lwriteWord_input (s : State) (seg o v : Word) : (s.lwriteWord seg o v).input = s.input := rfl
@[simp] theorem State.lwriteWord_ioIn (s : State) (seg o v : Word) : (s.lwriteWord seg o v).ioIn = s.ioIn := rfl
@[simp] theorem State.lwriteWord_ioOut (s : State) (seg o v : Word) : (s.lwriteWord seg o v).ioOut = s.ioOut := rfl
@[simp] theorem State.lwriteWord_draws (s : State) (seg o v : Word) : (s.lwriteWord seg o v).draws = s.draws := rfl

@[simp] theorem State.lwrite_regs (s : State) (w : Width) (seg o : Word) (v : BitVec w.bits) :
    (s.lwrite w seg o v).regs = s.regs := by cases w <;> rfl
@[simp] theorem State.lwrite_sregs (s : State) (w : Width) (seg o : Word) (v : BitVec w.bits) :
    (s.lwrite w seg o v).sregs = s.sregs := by cases w <;> rfl
@[simp] theorem State.lwrite_ip (s : State) (w : Width) (seg o : Word) (v : BitVec w.bits) :
    (s.lwrite w seg o v).ip = s.ip := by cases w <;> rfl
@[simp] theorem State.lwrite_flags (s : State) (w : Width) (seg o : Word) (v : BitVec w.bits) :
    (s.lwrite w seg o v).flags = s.flags := by cases w <;> rfl
@[simp] theorem State.lwrite_queue (s : State) (w : Width) (seg o : Word) (v : BitVec w.bits) :
    (s.lwrite w seg o v).queue = s.queue := by cases w <;> rfl
@[simp] theorem State.lwrite_nmi (s : State) (w : Width) (seg o : Word) (v : BitVec w.bits) :
    (s.lwrite w seg o v).nmi = s.nmi := by cases w <;> rfl
@[simp] theorem State.lwrite_pfx (s : State) (w : Width) (seg o : Word) (v : BitVec w.bits) :
    (s.lwrite w seg o v).pfx = s.pfx := by cases w <;> rfl
@[simp] theorem State.lwrite_run (s : State) (w : Width) (seg o : Word) (v : BitVec w.bits) :
    (s.lwrite w seg o v).run = s.run := by cases w <;> rfl
@[simp] theorem State.lwrite_inhibit (s : State) (w : Width) (seg o : Word) (v : BitVec w.bits) :
    (s.lwrite w seg o v).inhibit = s.inhibit := by cases w <;> rfl
@[simp] theorem State.lwrite_bus (s : State) (w : Width) (seg o : Word) (v : BitVec w.bits) :
    (s.lwrite w seg o v).bus = s.bus := by cases w <;> rfl
@[simp] theorem State.lwrite_cont (s : State) (w : Width) (seg o : Word) (v : BitVec w.bits) :
    (s.lwrite w seg o v).cont = s.cont := by cases w <;> rfl
@[simp] theorem State.lwrite_par (s : State) (w : Width) (seg o : Word) (v : BitVec w.bits) :
    (s.lwrite w seg o v).par = s.par := by cases w <;> rfl
@[simp] theorem State.lwrite_env (s : State) (w : Width) (seg o : Word) (v : BitVec w.bits) :
    (s.lwrite w seg o v).env = s.env := by cases w <;> rfl
@[simp] theorem State.lwrite_rest (s : State) (w : Width) (seg o : Word) (v : BitVec w.bits) :
    (s.lwrite w seg o v).rest = s.rest := by cases w <;> rfl
@[simp] theorem State.lwrite_input (s : State) (w : Width) (seg o : Word) (v : BitVec w.bits) :
    (s.lwrite w seg o v).input = s.input := by cases w <;> rfl
@[simp] theorem State.lwrite_ioIn (s : State) (w : Width) (seg o : Word) (v : BitVec w.bits) :
    (s.lwrite w seg o v).ioIn = s.ioIn := by cases w <;> rfl
@[simp] theorem State.lwrite_ioOut (s : State) (w : Width) (seg o : Word) (v : BitVec w.bits) :
    (s.lwrite w seg o v).ioOut = s.ioOut := by cases w <;> rfl
@[simp] theorem State.lwrite_draws (s : State) (w : Width) (seg o : Word) (v : BitVec w.bits) :
    (s.lwrite w seg o v).draws = s.draws := by cases w <;> rfl

@[simp] theorem State.writeReg_sregs (s : State) (w : Width) (r : RegField) (v : BitVec w.bits) :
    (s.writeReg w r v).sregs = s.sregs := by cases w <;> rfl
@[simp] theorem State.writeReg_ip (s : State) (w : Width) (r : RegField) (v : BitVec w.bits) :
    (s.writeReg w r v).ip = s.ip := by cases w <;> rfl
@[simp] theorem State.writeReg_flags (s : State) (w : Width) (r : RegField) (v : BitVec w.bits) :
    (s.writeReg w r v).flags = s.flags := by cases w <;> rfl
@[simp] theorem State.writeReg_mem (s : State) (w : Width) (r : RegField) (v : BitVec w.bits) :
    (s.writeReg w r v).mem = s.mem := by cases w <;> rfl
@[simp] theorem State.writeReg_queue (s : State) (w : Width) (r : RegField) (v : BitVec w.bits) :
    (s.writeReg w r v).queue = s.queue := by cases w <;> rfl
@[simp] theorem State.writeReg_nmi (s : State) (w : Width) (r : RegField) (v : BitVec w.bits) :
    (s.writeReg w r v).nmi = s.nmi := by cases w <;> rfl
@[simp] theorem State.writeReg_pfx (s : State) (w : Width) (r : RegField) (v : BitVec w.bits) :
    (s.writeReg w r v).pfx = s.pfx := by cases w <;> rfl
@[simp] theorem State.writeReg_run (s : State) (w : Width) (r : RegField) (v : BitVec w.bits) :
    (s.writeReg w r v).run = s.run := by cases w <;> rfl
@[simp] theorem State.writeReg_inhibit (s : State) (w : Width) (r : RegField) (v : BitVec w.bits) :
    (s.writeReg w r v).inhibit = s.inhibit := by cases w <;> rfl
@[simp] theorem State.writeReg_bus (s : State) (w : Width) (r : RegField) (v : BitVec w.bits) :
    (s.writeReg w r v).bus = s.bus := by cases w <;> rfl
@[simp] theorem State.writeReg_cont (s : State) (w : Width) (r : RegField) (v : BitVec w.bits) :
    (s.writeReg w r v).cont = s.cont := by cases w <;> rfl
@[simp] theorem State.writeReg_par (s : State) (w : Width) (r : RegField) (v : BitVec w.bits) :
    (s.writeReg w r v).par = s.par := by cases w <;> rfl
@[simp] theorem State.writeReg_env (s : State) (w : Width) (r : RegField) (v : BitVec w.bits) :
    (s.writeReg w r v).env = s.env := by cases w <;> rfl
@[simp] theorem State.writeReg_rest (s : State) (w : Width) (r : RegField) (v : BitVec w.bits) :
    (s.writeReg w r v).rest = s.rest := by cases w <;> rfl
@[simp] theorem State.writeReg_input (s : State) (w : Width) (r : RegField) (v : BitVec w.bits) :
    (s.writeReg w r v).input = s.input := by cases w <;> rfl
@[simp] theorem State.writeReg_ioIn (s : State) (w : Width) (r : RegField) (v : BitVec w.bits) :
    (s.writeReg w r v).ioIn = s.ioIn := by cases w <;> rfl
@[simp] theorem State.writeReg_ioOut (s : State) (w : Width) (r : RegField) (v : BitVec w.bits) :
    (s.writeReg w r v).ioOut = s.ioOut := by cases w <;> rfl
@[simp] theorem State.writeReg_draws (s : State) (w : Width) (r : RegField) (v : BitVec w.bits) :
    (s.writeReg w r v).draws = s.draws := by cases w <;> rfl

@[simp] theorem State.decSp_regs (s : State) : s.decSp.regs = s.regs.set .sp (s.regs.sp - 2) := rfl
@[simp] theorem State.decSp_sregs (s : State) : s.decSp.sregs = s.sregs := rfl
@[simp] theorem State.decSp_ip (s : State) : s.decSp.ip = s.ip := rfl
@[simp] theorem State.decSp_flags (s : State) : s.decSp.flags = s.flags := rfl
@[simp] theorem State.decSp_mem (s : State) : s.decSp.mem = s.mem := rfl
@[simp] theorem State.decSp_queue (s : State) : s.decSp.queue = s.queue := rfl
@[simp] theorem State.decSp_nmi (s : State) : s.decSp.nmi = s.nmi := rfl
@[simp] theorem State.decSp_pfx (s : State) : s.decSp.pfx = s.pfx := rfl
@[simp] theorem State.decSp_run (s : State) : s.decSp.run = s.run := rfl
@[simp] theorem State.decSp_inhibit (s : State) : s.decSp.inhibit = s.inhibit := rfl
@[simp] theorem State.decSp_bus (s : State) : s.decSp.bus = s.bus := rfl
@[simp] theorem State.decSp_cont (s : State) : s.decSp.cont = s.cont := rfl
@[simp] theorem State.decSp_par (s : State) : s.decSp.par = s.par := rfl
@[simp] theorem State.decSp_env (s : State) : s.decSp.env = s.env := rfl
@[simp] theorem State.decSp_rest (s : State) : s.decSp.rest = s.rest := rfl
@[simp] theorem State.decSp_input (s : State) : s.decSp.input = s.input := rfl
@[simp] theorem State.decSp_ioIn (s : State) : s.decSp.ioIn = s.ioIn := rfl
@[simp] theorem State.decSp_ioOut (s : State) : s.decSp.ioOut = s.ioOut := rfl
@[simp] theorem State.decSp_draws (s : State) : s.decSp.draws = s.draws := rfl

@[simp] theorem State.addSp_regs (s : State) (k : Word) : (s.addSp k).regs = s.regs.set .sp (s.regs.sp + k) := rfl
@[simp] theorem State.addSp_sregs (s : State) (k : Word) : (s.addSp k).sregs = s.sregs := rfl
@[simp] theorem State.addSp_ip (s : State) (k : Word) : (s.addSp k).ip = s.ip := rfl
@[simp] theorem State.addSp_flags (s : State) (k : Word) : (s.addSp k).flags = s.flags := rfl
@[simp] theorem State.addSp_mem (s : State) (k : Word) : (s.addSp k).mem = s.mem := rfl
@[simp] theorem State.addSp_queue (s : State) (k : Word) : (s.addSp k).queue = s.queue := rfl
@[simp] theorem State.addSp_nmi (s : State) (k : Word) : (s.addSp k).nmi = s.nmi := rfl
@[simp] theorem State.addSp_pfx (s : State) (k : Word) : (s.addSp k).pfx = s.pfx := rfl
@[simp] theorem State.addSp_run (s : State) (k : Word) : (s.addSp k).run = s.run := rfl
@[simp] theorem State.addSp_inhibit (s : State) (k : Word) : (s.addSp k).inhibit = s.inhibit := rfl
@[simp] theorem State.addSp_bus (s : State) (k : Word) : (s.addSp k).bus = s.bus := rfl
@[simp] theorem State.addSp_cont (s : State) (k : Word) : (s.addSp k).cont = s.cont := rfl
@[simp] theorem State.addSp_par (s : State) (k : Word) : (s.addSp k).par = s.par := rfl
@[simp] theorem State.addSp_env (s : State) (k : Word) : (s.addSp k).env = s.env := rfl
@[simp] theorem State.addSp_rest (s : State) (k : Word) : (s.addSp k).rest = s.rest := rfl
@[simp] theorem State.addSp_input (s : State) (k : Word) : (s.addSp k).input = s.input := rfl
@[simp] theorem State.addSp_ioIn (s : State) (k : Word) : (s.addSp k).ioIn = s.ioIn := rfl
@[simp] theorem State.addSp_ioOut (s : State) (k : Word) : (s.addSp k).ioOut = s.ioOut := rfl
@[simp] theorem State.addSp_draws (s : State) (k : Word) : (s.addSp k).draws = s.draws := rfl

@[simp] theorem State.push_regs (s : State) (v : Word) : (s.push v).regs = s.regs.set .sp (s.regs.sp - 2) := rfl
@[simp] theorem State.push_sregs (s : State) (v : Word) : (s.push v).sregs = s.sregs := rfl
@[simp] theorem State.push_ip (s : State) (v : Word) : (s.push v).ip = s.ip := rfl
@[simp] theorem State.push_flags (s : State) (v : Word) : (s.push v).flags = s.flags := rfl
@[simp] theorem State.push_mem (s : State) (v : Word) :
    (s.push v).mem = (s.lwriteWord s.sregs.ss (s.regs.sp - 2) v).mem := rfl
@[simp] theorem State.push_queue (s : State) (v : Word) : (s.push v).queue = s.queue := rfl
@[simp] theorem State.push_nmi (s : State) (v : Word) : (s.push v).nmi = s.nmi := rfl
@[simp] theorem State.push_pfx (s : State) (v : Word) : (s.push v).pfx = s.pfx := rfl
@[simp] theorem State.push_run (s : State) (v : Word) : (s.push v).run = s.run := rfl
@[simp] theorem State.push_inhibit (s : State) (v : Word) : (s.push v).inhibit = s.inhibit := rfl
@[simp] theorem State.push_bus (s : State) (v : Word) : (s.push v).bus = s.bus := rfl
@[simp] theorem State.push_cont (s : State) (v : Word) : (s.push v).cont = s.cont := rfl
@[simp] theorem State.push_par (s : State) (v : Word) : (s.push v).par = s.par := rfl
@[simp] theorem State.push_env (s : State) (v : Word) : (s.push v).env = s.env := rfl
@[simp] theorem State.push_rest (s : State) (v : Word) : (s.push v).rest = s.rest := rfl
@[simp] theorem State.push_input (s : State) (v : Word) : (s.push v).input = s.input := rfl
@[simp] theorem State.push_ioIn (s : State) (v : Word) : (s.push v).ioIn = s.ioIn := rfl
@[simp] theorem State.push_ioOut (s : State) (v : Word) : (s.push v).ioOut = s.ioOut := rfl
@[simp] theorem State.push_draws (s : State) (v : Word) : (s.push v).draws = s.draws := rfl

@[simp] theorem State.decCx_sregs (s : State) : s.decCx.sregs = s.sregs := rfl
@[simp] theorem State.decCx_ip (s : State) : s.decCx.ip = s.ip := rfl
@[simp] theorem State.decCx_flags (s : State) : s.decCx.flags = s.flags := rfl
@[simp] theorem State.decCx_mem (s : State) : s.decCx.mem = s.mem := rfl
@[simp] theorem State.decCx_queue (s : State) : s.decCx.queue = s.queue := rfl
@[simp] theorem State.decCx_nmi (s : State) : s.decCx.nmi = s.nmi := rfl
@[simp] theorem State.decCx_pfx (s : State) : s.decCx.pfx = s.pfx := rfl
@[simp] theorem State.decCx_run (s : State) : s.decCx.run = s.run := rfl
@[simp] theorem State.decCx_inhibit (s : State) : s.decCx.inhibit = s.inhibit := rfl
@[simp] theorem State.decCx_bus (s : State) : s.decCx.bus = s.bus := rfl
@[simp] theorem State.decCx_cont (s : State) : s.decCx.cont = s.cont := rfl
@[simp] theorem State.decCx_par (s : State) : s.decCx.par = s.par := rfl
@[simp] theorem State.decCx_env (s : State) : s.decCx.env = s.env := rfl
@[simp] theorem State.decCx_rest (s : State) : s.decCx.rest = s.rest := rfl
@[simp] theorem State.decCx_input (s : State) : s.decCx.input = s.input := rfl
@[simp] theorem State.decCx_ioIn (s : State) : s.decCx.ioIn = s.ioIn := rfl
@[simp] theorem State.decCx_ioOut (s : State) : s.decCx.ioOut = s.ioOut := rfl
@[simp] theorem State.decCx_draws (s : State) : s.decCx.draws = s.draws := rfl

@[simp] theorem State.jump_regs (s : State) (o : Word) : (s.jump o).regs = s.regs := rfl
@[simp] theorem State.jump_sregs (s : State) (o : Word) : (s.jump o).sregs = s.sregs := rfl
@[simp] theorem State.jump_ip (s : State) (o : Word) : (s.jump o).ip = o := rfl
@[simp] theorem State.jump_flags (s : State) (o : Word) : (s.jump o).flags = s.flags := rfl
@[simp] theorem State.jump_mem (s : State) (o : Word) : (s.jump o).mem = s.mem := rfl
@[simp] theorem State.jump_queue (s : State) (o : Word) : (s.jump o).queue = [] := rfl
@[simp] theorem State.jump_nmi (s : State) (o : Word) : (s.jump o).nmi = s.nmi := rfl
@[simp] theorem State.jump_pfx (s : State) (o : Word) : (s.jump o).pfx = s.pfx := rfl
@[simp] theorem State.jump_run (s : State) (o : Word) : (s.jump o).run = s.run := rfl
@[simp] theorem State.jump_inhibit (s : State) (o : Word) : (s.jump o).inhibit = s.inhibit := rfl
@[simp] theorem State.jump_bus (s : State) (o : Word) : (s.jump o).bus = s.bus := rfl
@[simp] theorem State.jump_cont (s : State) (o : Word) : (s.jump o).cont = s.cont := rfl
@[simp] theorem State.jump_par (s : State) (o : Word) : (s.jump o).par = s.par := rfl
@[simp] theorem State.jump_env (s : State) (o : Word) : (s.jump o).env = s.env := rfl
@[simp] theorem State.jump_rest (s : State) (o : Word) : (s.jump o).rest = s.rest := rfl
@[simp] theorem State.jump_input (s : State) (o : Word) : (s.jump o).input = s.input := rfl
@[simp] theorem State.jump_ioIn (s : State) (o : Word) : (s.jump o).ioIn = s.ioIn := rfl
@[simp] theorem State.jump_ioOut (s : State) (o : Word) : (s.jump o).ioOut = s.ioOut := rfl
@[simp] theorem State.jump_draws (s : State) (o : Word) : (s.jump o).draws = s.draws := rfl

@[simp] theorem State.jumpFar_regs (s : State) (o seg : Word) : (s.jumpFar o seg).regs = s.regs := rfl
@[simp] theorem State.jumpFar_sregs (s : State) (o seg : Word) : (s.jumpFar o seg).sregs = s.sregs.set .cs seg := rfl
@[simp] theorem State.jumpFar_ip (s : State) (o seg : Word) : (s.jumpFar o seg).ip = o := rfl
@[simp] theorem State.jumpFar_flags (s : State) (o seg : Word) : (s.jumpFar o seg).flags = s.flags := rfl
@[simp] theorem State.jumpFar_mem (s : State) (o seg : Word) : (s.jumpFar o seg).mem = s.mem := rfl
@[simp] theorem State.jumpFar_queue (s : State) (o seg : Word) : (s.jumpFar o seg).queue = [] := rfl
@[simp] theorem State.jumpFar_nmi (s : State) (o seg : Word) : (s.jumpFar o seg).nmi = s.nmi := rfl
@[simp] theorem State.jumpFar_pfx (s : State) (o seg : Word) : (s.jumpFar o seg).pfx = s.pfx := rfl
@[simp] theorem State.jumpFar_run (s : State) (o seg : Word) : (s.jumpFar o seg).run = s.run := rfl
@[simp] theorem State.jumpFar_inhibit (s : State) (o seg : Word) : (s.jumpFar o seg).inhibit = s.inhibit := rfl
@[simp] theorem State.jumpFar_bus (s : State) (o seg : Word) : (s.jumpFar o seg).bus = s.bus := rfl
@[simp] theorem State.jumpFar_cont (s : State) (o seg : Word) : (s.jumpFar o seg).cont = s.cont := rfl
@[simp] theorem State.jumpFar_par (s : State) (o seg : Word) : (s.jumpFar o seg).par = s.par := rfl
@[simp] theorem State.jumpFar_env (s : State) (o seg : Word) : (s.jumpFar o seg).env = s.env := rfl
@[simp] theorem State.jumpFar_rest (s : State) (o seg : Word) : (s.jumpFar o seg).rest = s.rest := rfl
@[simp] theorem State.jumpFar_input (s : State) (o seg : Word) : (s.jumpFar o seg).input = s.input := rfl
@[simp] theorem State.jumpFar_ioIn (s : State) (o seg : Word) : (s.jumpFar o seg).ioIn = s.ioIn := rfl
@[simp] theorem State.jumpFar_ioOut (s : State) (o seg : Word) : (s.jumpFar o seg).ioOut = s.ioOut := rfl
@[simp] theorem State.jumpFar_draws (s : State) (o seg : Word) : (s.jumpFar o seg).draws = s.draws := rfl

@[simp] theorem State.latch_regs (s : State) (e : Bool) : (s.latch e).regs = s.regs := rfl
@[simp] theorem State.latch_sregs (s : State) (e : Bool) : (s.latch e).sregs = s.sregs := rfl
@[simp] theorem State.latch_ip (s : State) (e : Bool) : (s.latch e).ip = s.ip := rfl
@[simp] theorem State.latch_flags (s : State) (e : Bool) : (s.latch e).flags = s.flags := rfl
@[simp] theorem State.latch_mem (s : State) (e : Bool) : (s.latch e).mem = s.mem := rfl
@[simp] theorem State.latch_queue (s : State) (e : Bool) : (s.latch e).queue = s.queue := rfl
@[simp] theorem State.latch_nmi (s : State) (e : Bool) : (s.latch e).nmi = (s.nmi || e) := rfl
@[simp] theorem State.latch_pfx (s : State) (e : Bool) : (s.latch e).pfx = s.pfx := rfl
@[simp] theorem State.latch_run (s : State) (e : Bool) : (s.latch e).run = s.run := rfl
@[simp] theorem State.latch_inhibit (s : State) (e : Bool) : (s.latch e).inhibit = s.inhibit := rfl
@[simp] theorem State.latch_bus (s : State) (e : Bool) : (s.latch e).bus = s.bus := rfl
@[simp] theorem State.latch_cont (s : State) (e : Bool) : (s.latch e).cont = s.cont := rfl
@[simp] theorem State.latch_par (s : State) (e : Bool) : (s.latch e).par = s.par := rfl
@[simp] theorem State.latch_env (s : State) (e : Bool) : (s.latch e).env = s.env := rfl
@[simp] theorem State.latch_rest (s : State) (e : Bool) : (s.latch e).rest = s.rest := rfl
@[simp] theorem State.latch_input (s : State) (e : Bool) : (s.latch e).input = s.input := rfl
@[simp] theorem State.latch_ioIn (s : State) (e : Bool) : (s.latch e).ioIn = s.ioIn := rfl
@[simp] theorem State.latch_ioOut (s : State) (e : Bool) : (s.latch e).ioOut = s.ioOut := rfl
@[simp] theorem State.latch_draws (s : State) (e : Bool) : (s.latch e).draws = s.draws := rfl

@[simp] theorem State.portDone_regs (s : State) : s.portDone.regs = s.regs := rfl
@[simp] theorem State.portDone_sregs (s : State) : s.portDone.sregs = s.sregs := rfl
@[simp] theorem State.portDone_ip (s : State) : s.portDone.ip = s.ip := rfl
@[simp] theorem State.portDone_flags (s : State) : s.portDone.flags = s.flags := rfl
@[simp] theorem State.portDone_mem (s : State) : s.portDone.mem = s.mem := rfl
@[simp] theorem State.portDone_queue (s : State) : s.portDone.queue = s.queue := rfl
@[simp] theorem State.portDone_nmi (s : State) : s.portDone.nmi = s.nmi := rfl
@[simp] theorem State.portDone_pfx (s : State) : s.portDone.pfx = s.pfx := rfl
@[simp] theorem State.portDone_run (s : State) : s.portDone.run = s.run := rfl
@[simp] theorem State.portDone_inhibit (s : State) : s.portDone.inhibit = s.inhibit := rfl
@[simp] theorem State.portDone_bus (s : State) : s.portDone.bus = s.bus := rfl
@[simp] theorem State.portDone_cont (s : State) : s.portDone.cont = s.cont := rfl
@[simp] theorem State.portDone_par (s : State) : s.portDone.par = s.par := rfl
@[simp] theorem State.portDone_env (s : State) : s.portDone.env = s.env := rfl
@[simp] theorem State.portDone_rest (s : State) : s.portDone.rest = s.rest := rfl
@[simp] theorem State.portDone_input (s : State) : s.portDone.input = s.input := rfl
@[simp] theorem State.portDone_ioIn (s : State) : s.portDone.ioIn = s.ioIn.tail := rfl
@[simp] theorem State.portDone_ioOut (s : State) : s.portDone.ioOut = s.ioOut := rfl
@[simp] theorem State.portDone_draws (s : State) : s.portDone.draws = s.draws := rfl

@[simp] theorem State.portWrite_regs (s : State) (w : Width) (p : Word) (v : BitVec w.bits) :
    (s.portWrite w p v).regs = s.regs := by cases w <;> rfl
@[simp] theorem State.portWrite_sregs (s : State) (w : Width) (p : Word) (v : BitVec w.bits) :
    (s.portWrite w p v).sregs = s.sregs := by cases w <;> rfl
@[simp] theorem State.portWrite_ip (s : State) (w : Width) (p : Word) (v : BitVec w.bits) :
    (s.portWrite w p v).ip = s.ip := by cases w <;> rfl
@[simp] theorem State.portWrite_flags (s : State) (w : Width) (p : Word) (v : BitVec w.bits) :
    (s.portWrite w p v).flags = s.flags := by cases w <;> rfl
@[simp] theorem State.portWrite_mem (s : State) (w : Width) (p : Word) (v : BitVec w.bits) :
    (s.portWrite w p v).mem = s.mem := by cases w <;> rfl
@[simp] theorem State.portWrite_queue (s : State) (w : Width) (p : Word) (v : BitVec w.bits) :
    (s.portWrite w p v).queue = s.queue := by cases w <;> rfl
@[simp] theorem State.portWrite_nmi (s : State) (w : Width) (p : Word) (v : BitVec w.bits) :
    (s.portWrite w p v).nmi = s.nmi := by cases w <;> rfl
@[simp] theorem State.portWrite_pfx (s : State) (w : Width) (p : Word) (v : BitVec w.bits) :
    (s.portWrite w p v).pfx = s.pfx := by cases w <;> rfl
@[simp] theorem State.portWrite_run (s : State) (w : Width) (p : Word) (v : BitVec w.bits) :
    (s.portWrite w p v).run = s.run := by cases w <;> rfl
@[simp] theorem State.portWrite_inhibit (s : State) (w : Width) (p : Word) (v : BitVec w.bits) :
    (s.portWrite w p v).inhibit = s.inhibit := by cases w <;> rfl
@[simp] theorem State.portWrite_bus (s : State) (w : Width) (p : Word) (v : BitVec w.bits) :
    (s.portWrite w p v).bus = s.bus := by cases w <;> rfl
@[simp] theorem State.portWrite_cont (s : State) (w : Width) (p : Word) (v : BitVec w.bits) :
    (s.portWrite w p v).cont = s.cont := by cases w <;> rfl
@[simp] theorem State.portWrite_par (s : State) (w : Width) (p : Word) (v : BitVec w.bits) :
    (s.portWrite w p v).par = s.par := by cases w <;> rfl
@[simp] theorem State.portWrite_env (s : State) (w : Width) (p : Word) (v : BitVec w.bits) :
    (s.portWrite w p v).env = s.env := by cases w <;> rfl
@[simp] theorem State.portWrite_rest (s : State) (w : Width) (p : Word) (v : BitVec w.bits) :
    (s.portWrite w p v).rest = s.rest := by cases w <;> rfl
@[simp] theorem State.portWrite_input (s : State) (w : Width) (p : Word) (v : BitVec w.bits) :
    (s.portWrite w p v).input = s.input := by cases w <;> rfl
@[simp] theorem State.portWrite_ioIn (s : State) (w : Width) (p : Word) (v : BitVec w.bits) :
    (s.portWrite w p v).ioIn = s.ioIn := by cases w <;> rfl
@[simp] theorem State.portWrite_draws (s : State) (w : Width) (p : Word) (v : BitVec w.bits) :
    (s.portWrite w p v).draws = s.draws := by cases w <;> rfl

@[simp] theorem State.advanceSi_sregs (s : State) (w : Width) : (s.advanceSi w).sregs = s.sregs := rfl
@[simp] theorem State.advanceSi_ip (s : State) (w : Width) : (s.advanceSi w).ip = s.ip := rfl
@[simp] theorem State.advanceSi_flags (s : State) (w : Width) : (s.advanceSi w).flags = s.flags := rfl
@[simp] theorem State.advanceSi_mem (s : State) (w : Width) : (s.advanceSi w).mem = s.mem := rfl
@[simp] theorem State.advanceSi_queue (s : State) (w : Width) : (s.advanceSi w).queue = s.queue := rfl
@[simp] theorem State.advanceSi_nmi (s : State) (w : Width) : (s.advanceSi w).nmi = s.nmi := rfl
@[simp] theorem State.advanceSi_pfx (s : State) (w : Width) : (s.advanceSi w).pfx = s.pfx := rfl
@[simp] theorem State.advanceSi_run (s : State) (w : Width) : (s.advanceSi w).run = s.run := rfl
@[simp] theorem State.advanceSi_inhibit (s : State) (w : Width) : (s.advanceSi w).inhibit = s.inhibit := rfl
@[simp] theorem State.advanceSi_bus (s : State) (w : Width) : (s.advanceSi w).bus = s.bus := rfl
@[simp] theorem State.advanceSi_cont (s : State) (w : Width) : (s.advanceSi w).cont = s.cont := rfl
@[simp] theorem State.advanceSi_par (s : State) (w : Width) : (s.advanceSi w).par = s.par := rfl
@[simp] theorem State.advanceSi_env (s : State) (w : Width) : (s.advanceSi w).env = s.env := rfl
@[simp] theorem State.advanceSi_rest (s : State) (w : Width) : (s.advanceSi w).rest = s.rest := rfl
@[simp] theorem State.advanceSi_input (s : State) (w : Width) : (s.advanceSi w).input = s.input := rfl
@[simp] theorem State.advanceSi_ioIn (s : State) (w : Width) : (s.advanceSi w).ioIn = s.ioIn := rfl
@[simp] theorem State.advanceSi_ioOut (s : State) (w : Width) : (s.advanceSi w).ioOut = s.ioOut := rfl
@[simp] theorem State.advanceSi_draws (s : State) (w : Width) : (s.advanceSi w).draws = s.draws := rfl

@[simp] theorem State.advanceDi_sregs (s : State) (w : Width) : (s.advanceDi w).sregs = s.sregs := rfl
@[simp] theorem State.advanceDi_ip (s : State) (w : Width) : (s.advanceDi w).ip = s.ip := rfl
@[simp] theorem State.advanceDi_flags (s : State) (w : Width) : (s.advanceDi w).flags = s.flags := rfl
@[simp] theorem State.advanceDi_mem (s : State) (w : Width) : (s.advanceDi w).mem = s.mem := rfl
@[simp] theorem State.advanceDi_queue (s : State) (w : Width) : (s.advanceDi w).queue = s.queue := rfl
@[simp] theorem State.advanceDi_nmi (s : State) (w : Width) : (s.advanceDi w).nmi = s.nmi := rfl
@[simp] theorem State.advanceDi_pfx (s : State) (w : Width) : (s.advanceDi w).pfx = s.pfx := rfl
@[simp] theorem State.advanceDi_run (s : State) (w : Width) : (s.advanceDi w).run = s.run := rfl
@[simp] theorem State.advanceDi_inhibit (s : State) (w : Width) : (s.advanceDi w).inhibit = s.inhibit := rfl
@[simp] theorem State.advanceDi_bus (s : State) (w : Width) : (s.advanceDi w).bus = s.bus := rfl
@[simp] theorem State.advanceDi_cont (s : State) (w : Width) : (s.advanceDi w).cont = s.cont := rfl
@[simp] theorem State.advanceDi_par (s : State) (w : Width) : (s.advanceDi w).par = s.par := rfl
@[simp] theorem State.advanceDi_env (s : State) (w : Width) : (s.advanceDi w).env = s.env := rfl
@[simp] theorem State.advanceDi_rest (s : State) (w : Width) : (s.advanceDi w).rest = s.rest := rfl
@[simp] theorem State.advanceDi_input (s : State) (w : Width) : (s.advanceDi w).input = s.input := rfl
@[simp] theorem State.advanceDi_ioIn (s : State) (w : Width) : (s.advanceDi w).ioIn = s.ioIn := rfl
@[simp] theorem State.advanceDi_ioOut (s : State) (w : Width) : (s.advanceDi w).ioOut = s.ioOut := rfl
@[simp] theorem State.advanceDi_draws (s : State) (w : Width) : (s.advanceDi w).draws = s.draws := rfl

@[simp] theorem State.repeatAgain_regs (s : State) (i : Instr) : (s.repeatAgain i).regs = s.regs := rfl
@[simp] theorem State.repeatAgain_sregs (s : State) (i : Instr) : (s.repeatAgain i).sregs = s.sregs := rfl
@[simp] theorem State.repeatAgain_ip (s : State) (i : Instr) : (s.repeatAgain i).ip = s.ip - 1 := rfl
@[simp] theorem State.repeatAgain_flags (s : State) (i : Instr) : (s.repeatAgain i).flags = s.flags := rfl
@[simp] theorem State.repeatAgain_mem (s : State) (i : Instr) : (s.repeatAgain i).mem = s.mem := rfl
@[simp] theorem State.repeatAgain_queue (s : State) (i : Instr) : (s.repeatAgain i).queue = s.queue := rfl
@[simp] theorem State.repeatAgain_nmi (s : State) (i : Instr) : (s.repeatAgain i).nmi = s.nmi := rfl
@[simp] theorem State.repeatAgain_pfx (s : State) (i : Instr) : (s.repeatAgain i).pfx = s.pfx := rfl
@[simp] theorem State.repeatAgain_run (s : State) (i : Instr) : (s.repeatAgain i).run = s.run := rfl
@[simp] theorem State.repeatAgain_inhibit (s : State) (i : Instr) : (s.repeatAgain i).inhibit = s.inhibit := rfl
@[simp] theorem State.repeatAgain_bus (s : State) (i : Instr) : (s.repeatAgain i).bus = s.bus := rfl
@[simp] theorem State.repeatAgain_cont (s : State) (i : Instr) : (s.repeatAgain i).cont = some i := rfl
@[simp] theorem State.repeatAgain_par (s : State) (i : Instr) : (s.repeatAgain i).par = s.par := rfl
@[simp] theorem State.repeatAgain_env (s : State) (i : Instr) : (s.repeatAgain i).env = s.env := rfl
@[simp] theorem State.repeatAgain_rest (s : State) (i : Instr) : (s.repeatAgain i).rest = s.rest := rfl
@[simp] theorem State.repeatAgain_input (s : State) (i : Instr) : (s.repeatAgain i).input = s.input := rfl
@[simp] theorem State.repeatAgain_ioIn (s : State) (i : Instr) : (s.repeatAgain i).ioIn = s.ioIn := rfl
@[simp] theorem State.repeatAgain_ioOut (s : State) (i : Instr) : (s.repeatAgain i).ioOut = s.ioOut := rfl
@[simp] theorem State.repeatAgain_draws (s : State) (i : Instr) : (s.repeatAgain i).draws = s.draws := rfl

@[simp] theorem State.note_regs (s : State) (c : List BusCycle) (q : List QueueOp) : (s.note c q).regs = s.regs := rfl
@[simp] theorem State.note_sregs (s : State) (c : List BusCycle) (q : List QueueOp) : (s.note c q).sregs = s.sregs := rfl
@[simp] theorem State.note_ip (s : State) (c : List BusCycle) (q : List QueueOp) : (s.note c q).ip = s.ip := rfl
@[simp] theorem State.note_flags (s : State) (c : List BusCycle) (q : List QueueOp) : (s.note c q).flags = s.flags := rfl
@[simp] theorem State.note_mem (s : State) (c : List BusCycle) (q : List QueueOp) : (s.note c q).mem = s.mem := rfl
@[simp] theorem State.note_queue (s : State) (c : List BusCycle) (q : List QueueOp) : (s.note c q).queue = s.queue := rfl
@[simp] theorem State.note_nmi (s : State) (c : List BusCycle) (q : List QueueOp) : (s.note c q).nmi = s.nmi := rfl
@[simp] theorem State.note_pfx (s : State) (c : List BusCycle) (q : List QueueOp) : (s.note c q).pfx = s.pfx := rfl
@[simp] theorem State.note_run (s : State) (c : List BusCycle) (q : List QueueOp) : (s.note c q).run = s.run := rfl
@[simp] theorem State.note_inhibit (s : State) (c : List BusCycle) (q : List QueueOp) :
    (s.note c q).inhibit = s.inhibit := rfl
@[simp] theorem State.note_bus (s : State) (c : List BusCycle) (q : List QueueOp) :
    (s.note c q).bus = { s.bus with cycles := s.bus.cycles ++ c, queueOps := s.bus.queueOps ++ q } := rfl
@[simp] theorem State.note_cont (s : State) (c : List BusCycle) (q : List QueueOp) : (s.note c q).cont = s.cont := rfl
@[simp] theorem State.note_par (s : State) (c : List BusCycle) (q : List QueueOp) : (s.note c q).par = s.par := rfl
@[simp] theorem State.note_env (s : State) (c : List BusCycle) (q : List QueueOp) : (s.note c q).env = s.env := rfl
@[simp] theorem State.note_rest (s : State) (c : List BusCycle) (q : List QueueOp) : (s.note c q).rest = s.rest := rfl
@[simp] theorem State.note_input (s : State) (c : List BusCycle) (q : List QueueOp) : (s.note c q).input = s.input := rfl
@[simp] theorem State.note_ioIn (s : State) (c : List BusCycle) (q : List QueueOp) : (s.note c q).ioIn = s.ioIn := rfl
@[simp] theorem State.note_ioOut (s : State) (c : List BusCycle) (q : List QueueOp) : (s.note c q).ioOut = s.ioOut := rfl
@[simp] theorem State.note_draws (s : State) (c : List BusCycle) (q : List QueueOp) : (s.note c q).draws = s.draws := rfl

@[simp] theorem State.countCycle_regs (s : State) : s.countCycle.regs = s.regs := rfl
@[simp] theorem State.countCycle_sregs (s : State) : s.countCycle.sregs = s.sregs := rfl
@[simp] theorem State.countCycle_ip (s : State) : s.countCycle.ip = s.ip := rfl
@[simp] theorem State.countCycle_flags (s : State) : s.countCycle.flags = s.flags := rfl
@[simp] theorem State.countCycle_mem (s : State) : s.countCycle.mem = s.mem := rfl
@[simp] theorem State.countCycle_queue (s : State) : s.countCycle.queue = s.queue := rfl
@[simp] theorem State.countCycle_nmi (s : State) : s.countCycle.nmi = s.nmi := rfl
@[simp] theorem State.countCycle_pfx (s : State) : s.countCycle.pfx = s.pfx := rfl
@[simp] theorem State.countCycle_run (s : State) : s.countCycle.run = s.run := rfl
@[simp] theorem State.countCycle_inhibit (s : State) : s.countCycle.inhibit = s.inhibit := rfl
@[simp] theorem State.countCycle_bus (s : State) : s.countCycle.bus = s.bus := rfl
@[simp] theorem State.countCycle_cont (s : State) : s.countCycle.cont = s.cont := rfl
@[simp] theorem State.countCycle_par (s : State) : s.countCycle.par = s.par := rfl
@[simp] theorem State.countCycle_env (s : State) : s.countCycle.env = s.env := rfl
@[simp] theorem State.countCycle_rest (s : State) : s.countCycle.rest = s.rest := rfl
@[simp] theorem State.countCycle_input (s : State) :
    s.countCycle.input = { s.input with resetAfter := s.input.resetAfter.map (· - 1) } := rfl
@[simp] theorem State.countCycle_ioIn (s : State) : s.countCycle.ioIn = s.ioIn := rfl
@[simp] theorem State.countCycle_ioOut (s : State) : s.countCycle.ioOut = s.ioOut := rfl
@[simp] theorem State.countCycle_draws (s : State) : s.countCycle.draws = s.draws := rfl

@[simp] theorem State.enterReset_regs (s : State) : s.enterReset.regs = s.regs := rfl
@[simp] theorem State.enterReset_sregs (s : State) : s.enterReset.sregs = s.sregs := rfl
@[simp] theorem State.enterReset_ip (s : State) : s.enterReset.ip = s.ip := rfl
@[simp] theorem State.enterReset_flags (s : State) : s.enterReset.flags = s.flags := rfl
@[simp] theorem State.enterReset_mem (s : State) : s.enterReset.mem = s.mem := rfl
@[simp] theorem State.enterReset_queue (s : State) : s.enterReset.queue = [] := rfl
@[simp] theorem State.enterReset_nmi (s : State) : s.enterReset.nmi = false := rfl
@[simp] theorem State.enterReset_pfx (s : State) : s.enterReset.pfx = Pfx.none := rfl
@[simp] theorem State.enterReset_run (s : State) : s.enterReset.run = .heldInReset := rfl
@[simp] theorem State.enterReset_inhibit (s : State) : s.enterReset.inhibit = false := rfl
@[simp] theorem State.enterReset_bus (s : State) :
    s.enterReset.bus = { s.bus with owner := .cpu, rq0 := false, rq1 := false } := rfl
@[simp] theorem State.enterReset_cont (s : State) : s.enterReset.cont = none := rfl
@[simp] theorem State.enterReset_par (s : State) : s.enterReset.par = s.par := rfl
@[simp] theorem State.enterReset_env (s : State) : s.enterReset.env = s.env := rfl
@[simp] theorem State.enterReset_rest (s : State) : s.enterReset.rest = s.rest := rfl
@[simp] theorem State.enterReset_input (s : State) : s.enterReset.input = s.input := rfl
@[simp] theorem State.enterReset_ioIn (s : State) : s.enterReset.ioIn = s.ioIn := rfl
@[simp] theorem State.enterReset_ioOut (s : State) : s.enterReset.ioOut = s.ioOut := rfl
@[simp] theorem State.enterReset_draws (s : State) : s.enterReset.draws = s.draws := rfl

end Sys2Proof.Machine
end

