-- ==== Sys2Proof/Laws/Memory.lean ====
section
/-! SUPPORT. Memory: a read behind a write, and the canonical form under every operation. -/

namespace Sys2Proof.Machine

theorem Memory.get_set_same (m : List Host.Cell) (a : Nat) (b : Byte) : Memory.get (Memory.set m a b) a = some b := by
  induction m with
  | nil => simp [Memory.set, Memory.get]
  | cons p r ih =>
    obtain ⟨x, y⟩ := p
    simp only [Memory.set]
    split
    · simp [Memory.get]
    · split
      · simp [Memory.get]
      · simp [Memory.get, *]

theorem Memory.get_set_other (m : List Host.Cell) {a c : Nat} (b : Byte) (h : c ≠ a) :
    Memory.get (Memory.set m a b) c = Memory.get m c := by
  induction m with
  | nil => simp [Memory.set, Memory.get, h]
  | cons p r ih =>
    obtain ⟨x, y⟩ := p
    simp only [Memory.set]
    split
    · simp [Memory.get, h]
    · split
      · next h1 => subst h1; simp [Memory.get, h]
      · simp [Memory.get, ih]

theorem Memory.wfFrom_mono {m : List Host.Cell} {lo lo' : Nat} (h : Memory.wfFrom lo m = true) (hl : lo' ≤ lo) :
    Memory.wfFrom lo' m = true := by
  cases m with
  | nil => rfl
  | cons p r =>
    obtain ⟨x, y⟩ := p
    simp only [Memory.wfFrom, Bool.and_eq_true, decide_eq_true_eq] at h ⊢
    exact ⟨⟨Nat.le_trans hl h.1.1, h.1.2⟩, h.2⟩

theorem Memory.wfFrom_set {m : List Host.Cell} {lo a : Nat} (b : Byte) (h : Memory.wfFrom lo m = true) (hl : lo ≤ a)
    (ha : a < 2 ^ 20) : Memory.wfFrom lo (Memory.set m a b) = true := by
  induction m generalizing lo with
  | nil => simp [Memory.set, Memory.wfFrom]; omega
  | cons p r ih =>
    obtain ⟨x, y⟩ := p
    simp only [Memory.wfFrom, Bool.and_eq_true, decide_eq_true_eq] at h
    simp only [Memory.set]
    split
    · simp only [Memory.wfFrom, Bool.and_eq_true, decide_eq_true_eq]
      exact ⟨⟨hl, ha⟩, ⟨by omega, h.1.2⟩, h.2⟩
    · split
      · next h1 => subst h1; simp only [Memory.wfFrom, Bool.and_eq_true, decide_eq_true_eq]; exact h
      · simp only [Memory.wfFrom, Bool.and_eq_true, decide_eq_true_eq]
        exact ⟨h.1, ih h.2 (by omega)⟩

/-- A write keeps the canonical form. -/
theorem Memory.wf_set {m : List Host.Cell} (a : PhysAddr) (b : Byte) (h : Memory.wf m = true) :
    Memory.wf (Memory.set m a.toNat b) = true :=
  Memory.wfFrom_set b h (Nat.zero_le _) a.isLt

theorem Memory.wfFrom_erase {m : List Host.Cell} {lo : Nat} (a : Nat) (h : Memory.wfFrom lo m = true) :
    Memory.wfFrom lo (Memory.erase m a) = true := by
  induction m generalizing lo with
  | nil => rfl
  | cons p r ih =>
    simp only [Memory.wfFrom, Bool.and_eq_true, decide_eq_true_eq] at h
    simp only [Memory.erase, List.filter_cons] at ih ⊢
    split
    · simp only [Memory.wfFrom, Bool.and_eq_true, decide_eq_true_eq]
      exact ⟨h.1, ih h.2⟩
    · exact Memory.wfFrom_mono (ih h.2) (by omega)

theorem Memory.wf_erase (m : List Host.Cell) (a : Nat) (h : Memory.wf m = true) : Memory.wf (Memory.erase m a) = true :=
  Memory.wfFrom_erase a h

@[simp] theorem State.cell_writeByte_same (s : State) (a : PhysAddr) (v : Byte) :
    (s.writeByte a v).cell a = some v := Memory.get_set_same _ _ _

theorem State.cell_writeByte_other (s : State) {a c : PhysAddr} (v : Byte) (h : c ≠ a) :
    (s.writeByte a v).cell c = s.cell c :=
  Memory.get_set_other _ _ fun hc => h (BitVec.eq_of_toNat_eq hc)

theorem State.writeByte_wf (s : State) (a : PhysAddr) (v : Byte) (h : Memory.wf s.mem = true) :
    Memory.wf (s.writeByte a v).mem = true := Memory.wf_set a v h

theorem State.lwriteByte_wf (s : State) (seg o : Word) (v : Byte) (h : Memory.wf s.mem = true) :
    Memory.wf (s.lwriteByte seg o v).mem = true := Memory.wf_set _ v h

theorem State.lwriteWord_wf (s : State) (seg o v : Word) (h : Memory.wf s.mem = true) :
    Memory.wf (s.lwriteWord seg o v).mem = true := Memory.wf_set _ _ (Memory.wf_set _ _ h)

theorem State.lwrite_wf (s : State) (w : Width) (seg o : Word) (v : BitVec w.bits) (h : Memory.wf s.mem = true) :
    Memory.wf (s.lwrite w seg o v).mem = true := by
  cases w
  · exact s.lwriteByte_wf seg o v h
  · exact s.lwriteWord_wf seg o v h

theorem State.push_wf (s : State) (v : Word) (h : Memory.wf s.mem = true) : Memory.wf (s.push v).mem = true :=
  s.lwriteWord_wf _ _ v h

theorem State.writeRM_wf (s : State) (w : Width) (rm : RM) (v : BitVec w.bits) (h : Memory.wf s.mem = true) :
    Memory.wf (s.writeRM w rm v).mem = true := by
  cases rm with
  | reg r => simpa [State.writeRM] using h
  | mem m => exact s.lwrite_wf w _ _ v h

theorem State.foreignWrite_wf (s : State) (a : PhysAddr) (b : Byte) (h : Memory.wf s.mem = true) :
    Memory.wf (s.foreignWrite a b).mem = true := by
  simp only [State.foreignWrite]
  split
  · exact s.writeByte_wf a b h
  all_goals exact h

theorem State.busWrite_wf (s : State) (a : PhysAddr) (b : Byte) (h : Memory.wf s.mem = true) :
    Memory.wf (s.busWrite a b).mem = true := by
  simp only [State.busWrite]
  split
  · exact s.writeByte_wf a b h
  all_goals exact h

theorem State.foreignPortWrite_mem (s : State) (x : PhysAddr) (b : Byte) : (s.foreignPortWrite x b).mem = s.mem := by
  simp only [State.foreignPortWrite]
  split <;> rfl

theorem State.masterWrite_wf (s : State) (w : MasterWrite) (h : Memory.wf s.mem = true) :
    Memory.wf (s.masterWrite w).mem = true := by
  cases w with
  | memory a b => exact s.foreignWrite_wf a b h
  | port p b => rw [State.masterWrite, State.foreignPortWrite_mem]; exact h

theorem masterWrites_wf (l : List MasterWrite) (s : State) (h : Memory.wf s.mem = true) :
    Memory.wf (masterWrites l s).mem = true := by
  induction l generalizing s with
  | nil => exact h
  | cons p r ih => exact ih _ (s.masterWrite_wf p h)

theorem storeCode_wf (k : Nat) (l : List Byte) (s : State) (h : Memory.wf s.mem = true) :
    Memory.wf (storeCode k l s).mem = true := by
  induction l generalizing s k with
  | nil => exact h
  | cons b r ih => exact ih _ _ (s.writeByte_wf _ _ h)

/-- Placing a word of the opcode table keeps the canonical form. -/
theorem State.withFetchWord_wf (s : State) (nbits w : Nat) (h : Memory.wf s.mem = true) :
    Memory.wf (s.withFetchWord nbits w).mem = true := storeCode_wf _ _ _ h

/-! ## Bytes and words -/

theorem leWord_toNat (lo hi : Byte) : (leWord lo hi).toNat = lo.toNat + 256 * hi.toNat := by
  have h := lo.isLt
  show (hi ++ lo : BitVec (8 + 8)).toNat = _
  rw [BitVec.toNat_append, ← Nat.shiftLeft_add_eq_or_of_lt h, Nat.shiftLeft_eq]
  omega

theorem wordLo_toNat (v : Word) : (wordLo v).toNat = v.toNat % 256 := by simp [wordLo]

theorem wordHi_toNat (v : Word) : (wordHi v).toNat = v.toNat / 256 := by
  have h := v.isLt
  simp [wordHi, Nat.shiftRight_eq_div_pow]
  omega

@[simp] theorem wordLo_leWord (lo hi : Byte) : wordLo (leWord lo hi) = lo := by
  apply BitVec.eq_of_toNat_eq
  have h := lo.isLt
  rw [wordLo_toNat, leWord_toNat]
  omega

@[simp] theorem wordHi_leWord (lo hi : Byte) : wordHi (leWord lo hi) = hi := by
  apply BitVec.eq_of_toNat_eq
  have h := lo.isLt
  rw [wordHi_toNat, leWord_toNat]
  omega

@[simp] theorem leWord_lo_hi (v : Word) : leWord (wordLo v) (wordHi v) = v := by
  apply BitVec.eq_of_toNat_eq
  rw [leWord_toNat, wordLo_toNat, wordHi_toNat]
  omega

theorem phys_toNat (s o : Word) : (phys s o).toNat = (16 * s.toNat + o.toNat) % 2 ^ 20 := by
  have h1 := s.isLt
  have h2 := o.isLt
  simp [phys, BitVec.toNat_add, BitVec.toNat_mul]
  omega

/-- The two bytes of a word are two bytes of memory, wherever its offset wraps. -/
theorem phys_succ_ne (s o : Word) : phys s (o + 1) ≠ phys s o := by
  intro h
  have h' := congrArg BitVec.toNat h
  rw [phys_toNat, phys_toNat] at h'
  have h1 := s.isLt
  have h2 := o.isLt
  have h3 : (o + 1).toNat = (o.toNat + 1) % 2 ^ 16 := by simp [BitVec.toNat_add]
  omega

/-- Everything a store of a byte or word does. -/
theorem State.lwrite_stored (s : State) (w : Width) (seg o : Word) (v : BitVec w.bits) :
    Stored w seg o v s (s.lwrite w seg o v) := by
  cases w with
  | byte =>
    refine ⟨fun a ha => ?_, s.cell_writeByte_same _ _⟩
    exact s.cell_writeByte_other _ (by simpa [storedAt] using ha)
  | word =>
    have hne := phys_succ_ne seg o
    refine ⟨fun a ha => ?_, ?_, State.cell_writeByte_same _ _ _⟩
    · simp only [storedAt, List.mem_cons, List.not_mem_nil, or_false, not_or] at ha
      exact (State.cell_writeByte_other _ _ ha.2).trans (State.cell_writeByte_other _ _ ha.1)
    · exact (State.cell_writeByte_other _ _ hne.symm).trans (State.cell_writeByte_same _ _ _)

theorem State.lwrite_eq (s : State) (w : Width) (seg o : Word) (v : BitVec w.bits) :
    s.lwrite w seg o v = { s with mem := (s.lwrite w seg o v).mem } := by cases w <;> rfl

end Sys2Proof.Machine
end

