-- ==== Sys2Proof/Laws/Operands.lean ====
section
/-! SUPPORT. Registers, register or memory operands and pushes: what a write does, said once. -/

namespace Sys2Proof.Machine

@[simp] theorem Regs.get_set_same (g : Regs) (r : RegField) (v : Word) : (g.set r v).get r = v := by cases r <;> rfl

theorem Regs.get_set_other (g : Regs) {r r' : RegField} (v : Word) (h : r' ≠ r) : (g.set r v).get r' = g.get r' := by
  cases r <;> cases r' <;> first | rfl | exact absurd rfl h

@[simp] theorem Regs.get8_set8_same (g : Regs) (r : RegField) (v : Byte) : (g.set8 r v).get8 r = v := by
  cases r <;> simp [Regs.set8, Regs.get8, byteHome, byteIsHigh]

theorem Regs.get8_set8_other (g : Regs) {r r' : RegField} (v : Byte) (h : r' ≠ r) :
    (g.set8 r v).get8 r' = g.get8 r' := by
  cases r <;> cases r' <;>
    first
    | exact absurd rfl h
    | simp [Regs.set8, Regs.get8, byteHome, byteIsHigh, Regs.get, Regs.set]

/-- Everything a write of a register does. -/
theorem State.writeReg_regWritten (s : State) (w : Width) (r : RegField) (v : BitVec w.bits) :
    RegWritten w r v s.regs (s.writeReg w r v).regs := by
  cases w with
  | byte =>
    refine ⟨s.regs.get8_set8_same r v, fun r' h => s.regs.get8_set8_other v h, ?_⟩
    cases r <;> exact ⟨rfl, rfl, rfl, rfl⟩
  | word => exact ⟨s.regs.get_set_same r v, fun r' h => s.regs.get_set_other v h⟩

theorem State.writeReg_eq (s : State) (w : Width) (r : RegField) (v : BitVec w.bits) :
    s.writeReg w r v = { s with regs := (s.writeReg w r v).regs } := by cases w <;> rfl

/-- Everything a write of a register or memory operand does. -/
theorem State.writeRM_dest (s : State) (w : Width) (rm : RM) (v : BitVec w.bits) :
    DestWritten w rm v s (s.writeRM w rm v) := by
  cases rm with
  | reg r => exact ⟨s.writeReg_regWritten w r v, s.writeReg_eq w r v⟩
  | mem m => exact ⟨s.lwrite_stored w _ _ v, s.lwrite_eq w _ _ v⟩

theorem State.writeReg_dest (s : State) (w : Width) (r : RegField) (v : BitVec w.bits) :
    DestWritten w (.reg r) v s (s.writeReg w r v) := s.writeRM_dest w (.reg r) v

/-- Everything a push does. -/
theorem State.push_pushed (s : State) (v : Word) : Pushed v s (s.push v) :=
  ⟨s.decSp.lwrite_stored .word s.sregs.ss (s.regs.sp - 2) v,
    ⟨s.regs.get_set_same .sp _, fun _ h => s.regs.get_set_other _ h⟩, rfl⟩

@[simp] theorem Regs.set_sp_sp (g : Regs) (v : Word) : (g.set .sp v).sp = v := rfl

theorem State.writeRM_eq (s : State) (w : Width) (rm : RM) (v : BitVec w.bits) :
    s.writeRM w rm v = { s with regs := (s.writeRM w rm v).regs, mem := (s.writeRM w rm v).mem } := by
  cases rm with
  | reg r => cases w <;> rfl
  | mem m => cases w <;> rfl

/-! ## Words that are read -/

/-- The value of a word read, low byte first (R55). -/
theorem State.lreadWord_toNat (s : State) (seg o : Word) :
    (s.lreadWord seg o).toNat = (s.lreadByte seg o).toNat + 256 * (s.lreadByte seg (o + 1)).toNat :=
  leWord_toNat _ _

/-- A read of a byte that was written gives it. -/
theorem State.readByte_of_cell {s : State} {a : PhysAddr} {b : Byte} (h : s.cell a = some b) : s.readByte a = b := by
  simp [State.readByte, h]

/-- A word read behind the write of it, at the same place, gives it back. -/
theorem State.lread_lwrite (s : State) (w : Width) (seg o : Word) (v : BitVec w.bits) :
    (s.lwrite w seg o v).lread w seg o = v := by
  have h := s.lwrite_stored w seg o v
  cases w with
  | byte => exact State.readByte_of_cell h.2
  | word =>
    show leWord _ _ = v
    have h1 : (s.lwrite .word seg o v).lreadByte seg o = wordLo v := State.readByte_of_cell h.2.1
    have h2 : (s.lwrite .word seg o v).lreadByte seg (o + 1) = wordHi v := State.readByte_of_cell h.2.2
    rw [h1, h2, leWord_lo_hi]

/-! ## The FLAGS image -/

/-- Storing the nine flags and loading them gives them back, whatever the X bits are (R37). -/
@[simp] theorem Flags.ofImage_flagsImage (s : State) : Flags.ofImage s.flagsImage = s.flags := by
  cases hf : s.flags
  simp only [Flags.ofImage, State.flagsImage, hf, Flags.mk.injEq]
  refine ⟨?_, ?_, ?_, ?_, ?_, ?_, ?_, ?_, ?_⟩ <;> simp only [BitVec.getLsbD_append] <;> simp

end Sys2Proof.Machine
end

