-- ==== Sys2Proof/Laws/Exec.lean ====
section
/-! SUPPORT. What an interrupt entry does when it answers a next state, what the shared operations leave alone, and
what a meaning can do, said once for all instructions: `exec_kind`. -/

namespace Sys2Proof.Machine

/-! ## Interrupt entries -/

/-- An interrupt entry that completes found its element written and clear of the stack, and is the three pushes and the
jump (R386). -/
theorem interrupt_next {t : Byte} {s u : State} (h : interrupt t s = .next u) :
    s.stackHitsVector t = false ∧ s.vectorWritten t = true ∧ u = s.tick.pushFrame.enterVector t := by
  simp only [interrupt] at h
  split at h
  · cases h
  · next h1 =>
    split at h
    · next h2 => exact ⟨by simpa using h1, h2, by cases h; rfl⟩
    · cases h

/-- What an entry does outside its frame: the machine runs, the queue is empty, IF and TF are clear, and nothing that
the environment or a prefix set is changed. -/
theorem interrupt_frame {t : Byte} {s u : State} (h : interrupt t s = .next u) :
    u.run = .running ∧ u.queue = [] ∧ u.flags = { s.flags with ifl := false, tf := false } ∧
      u.regs = { s.regs with sp := s.regs.sp - 2 - 2 - 2 } ∧ u.pfx = s.pfx ∧ u.cont = s.cont ∧
      u.inhibit = s.inhibit ∧ u.nmi = s.nmi ∧ u.input = s.input ∧ u.env = s.env ∧ u.rest = s.rest ∧
      u.par = s.par ∧ u.bus = s.bus ∧ u.ioIn = s.ioIn ∧ u.ioOut = s.ioOut := by
  obtain ⟨-, -, rfl⟩ := interrupt_next h
  exact ⟨rfl, rfl, rfl, rfl, rfl, rfl, rfl, rfl, rfl, rfl, rfl, rfl, rfl, rfl, rfl⟩

theorem interrupt_wf {t : Byte} {s u : State} (h : interrupt t s = .next u) (hm : Memory.wf s.mem = true) :
    Memory.wf u.mem = true := by
  obtain ⟨-, -, rfl⟩ := interrupt_next h
  exact State.push_wf _ _ (State.push_wf _ _ (State.push_wf _ _ hm))

/-! ## The stack frame of an entry -/

/-- Two bytes near the top of the stack at different distances are two bytes of memory, wherever SP wraps. -/
theorem phys_sub_ne (s o : Word) {i j : Nat} (hi : i < 16) (hj : j < 16) (h : i ≠ j) :
    phys s (o - BitVec.ofNat 16 i) ≠ phys s (o - BitVec.ofNat 16 j) := by
  intro e
  have h1 := congrArg BitVec.toNat e
  rw [phys_toNat, phys_toNat] at h1
  have := o.isLt
  have := s.isLt
  simp only [BitVec.toNat_sub, BitVec.toNat_ofNat] at h1
  omega

/-- A push leaves every byte as it was but the two below SS:SP (R16). -/
theorem State.push_cell (s : State) (v : Word) (a : PhysAddr)
    (h : ∀ k, k = 1 ∨ k = 2 → a ≠ phys s.sregs.ss (s.regs.sp - BitVec.ofNat 16 k)) :
    (s.push v).cell a = s.cell a := by
  apply (s.push_pushed v).1.1
  simp only [storedAt, List.mem_cons, List.not_mem_nil, or_false, not_or]
  refine ⟨h 2 (.inr rfl), ?_⟩
  have e : s.regs.sp - 2 + 1 = s.regs.sp - BitVec.ofNat 16 1 := by bv_omega
  rw [e]
  exact h 1 (.inl rfl)

/-- The three pushes of an entry leave every byte as it was but the six below SS:SP (R386). -/
theorem State.pushFrame_cell (s : State) (a : PhysAddr)
    (h : ∀ k, 1 ≤ k → k ≤ 6 → a ≠ phys s.sregs.ss (s.regs.sp - BitVec.ofNat 16 k)) :
    s.pushFrame.cell a = s.cell a := by
  have e : ∀ o : Word, o - 2 - BitVec.ofNat 16 1 = o - BitVec.ofNat 16 3 ∧
      o - 2 - BitVec.ofNat 16 2 = o - BitVec.ofNat 16 4 ∧ o - 2 - 2 - BitVec.ofNat 16 1 = o - BitVec.ofNat 16 5 ∧
      o - 2 - 2 - BitVec.ofNat 16 2 = o - BitVec.ofNat 16 6 := by
    intro o
    refine ⟨?_, ?_, ?_, ?_⟩ <;> bv_omega
  simp only [State.pushFrame]
  refine (State.push_cell _ _ a ?_).trans ((State.push_cell _ _ a ?_).trans (State.push_cell _ _ a ?_))
  · rintro k (rfl | rfl)
    · show a ≠ phys s.sregs.ss (s.regs.sp - 2 - 2 - BitVec.ofNat 16 1)
      rw [(e _).2.2.1]
      exact h 5 (by omega) (by omega)
    · show a ≠ phys s.sregs.ss (s.regs.sp - 2 - 2 - BitVec.ofNat 16 2)
      rw [(e _).2.2.2]
      exact h 6 (by omega) (by omega)
  · rintro k (rfl | rfl)
    · show a ≠ phys s.sregs.ss (s.regs.sp - 2 - BitVec.ofNat 16 1)
      rw [(e _).1]
      exact h 3 (by omega) (by omega)
    · show a ≠ phys s.sregs.ss (s.regs.sp - 2 - BitVec.ofNat 16 2)
      rw [(e _).2.1]
      exact h 4 (by omega) (by omega)
  · rintro k (rfl | rfl)
    · exact h 1 (by omega) (by omega)
    · exact h 2 (by omega) (by omega)

theorem State.stackHitsVector_iff (s : State) (n : Byte) : s.stackHitsVector n = true ↔ StackOnVector n s := by
  simp only [State.stackHitsVector, StackOnVector, List.any_eq_true, beq_iff_eq]
  constructor
  · rintro ⟨k, hk, e⟩
    simp only [List.mem_cons, List.not_mem_nil, or_false] at hk
    exact ⟨k, by omega, by omega, (phys s.sregs.ss (s.regs.sp - BitVec.ofNat 16 k)).toNat % 4, by omega, by omega⟩
  · rintro ⟨k, h1, h2, j, hj, e⟩
    refine ⟨k, ?_, by omega⟩
    simp only [List.mem_cons, List.not_mem_nil, or_false]
    omega

theorem State.vectorWritten_iff (s : State) (n : Byte) : s.vectorWritten n = true ↔ VectorReady n s := by
  simp only [State.vectorWritten, VectorReady, List.all_eq_true, vectorAddr]
  constructor
  · intro h k hk
    exact h k (by simp only [List.mem_cons, List.not_mem_nil, or_false]; omega)
  · intro h k hk
    simp only [List.mem_cons, List.not_mem_nil, or_false] at hk
    exact h k (by omega)

/-! ## When a division traps -/

theorem State.divTraps_iff (s : State) (w : Width) (rm : RM) :
    s.divTraps w rm = true ↔
      (s.readRM w rm).toNat = 0 ∨ 2 ^ w.bits ≤ (s.dividend w).toNat / (s.readRM w rm).toNat := decide_eq_true_iff

theorem State.idivTraps_iff (s : State) (w : Width) (rm : RM) :
    s.idivTraps w rm = true ↔
      (s.readRM w rm).toInt = 0 ∨ (s.signedDividend w).tdiv (s.readRM w rm).toInt < (s.idivRange w).1 ∨
        (s.idivRange w).2 < (s.signedDividend w).tdiv (s.readRM w rm).toInt := decide_eq_true_iff

/-! ## What the shared operations leave alone -/

/-- From `s` to `t` only registers, flags, memory, ports, the inhibit bit and draws changed, memory is still in
canonical form if it was, and the queue is as it was or was emptied. -/
structure Plain (s t : State) : Prop where
  env : t.env = s.env
  input : t.input = s.input
  nmi : t.nmi = s.nmi
  rest : t.rest = s.rest
  par : t.par = s.par
  bus : t.bus = s.bus
  cont : t.cont = s.cont
  run : t.run = s.run
  pfx : t.pfx = s.pfx
  mem : Memory.wf s.mem = true → Memory.wf t.mem = true
  queue : t.queue = s.queue ∨ t.queue = []

theorem Plain.refl (s : State) : Plain s s := ⟨rfl, rfl, rfl, rfl, rfl, rfl, rfl, rfl, rfl, id, .inl rfl⟩

theorem Plain.trans {s t u : State} (h : Plain s t) (h' : Plain t u) : Plain s u where
  env := h'.env.trans h.env
  input := h'.input.trans h.input
  nmi := h'.nmi.trans h.nmi
  rest := h'.rest.trans h.rest
  par := h'.par.trans h.par
  bus := h'.bus.trans h.bus
  cont := h'.cont.trans h.cont
  run := h'.run.trans h.run
  pfx := h'.pfx.trans h.pfx
  mem := h'.mem ∘ h.mem
  queue := by
    rcases h'.queue with h1 | h1
    · rw [h1]; exact h.queue
    · exact .inr h1

theorem State.lwrite_plain (s : State) (w : Width) (seg o : Word) (v : BitVec w.bits) :
    Plain s (s.lwrite w seg o v) := by
  cases w <;> exact ⟨rfl, rfl, rfl, rfl, rfl, rfl, rfl, rfl, rfl, State.lwrite_wf s _ seg o v, .inl rfl⟩

theorem State.writeReg_plain (s : State) (w : Width) (r : RegField) (v : BitVec w.bits) :
    Plain s (s.writeReg w r v) := by
  cases w <;> exact ⟨rfl, rfl, rfl, rfl, rfl, rfl, rfl, rfl, rfl, id, .inl rfl⟩

theorem State.writeRM_plain (s : State) (w : Width) (rm : RM) (v : BitVec w.bits) : Plain s (s.writeRM w rm v) := by
  cases rm with
  | reg r => exact s.writeReg_plain w r v
  | mem m => exact s.lwrite_plain w _ _ v

theorem State.push_plain (s : State) (v : Word) : Plain s (s.push v) :=
  ⟨rfl, rfl, rfl, rfl, rfl, rfl, rfl, rfl, rfl, s.push_wf v, .inl rfl⟩

/-- An update of registers, segment registers, IP, flags, the inhibit bit, ports and draws. -/
theorem State.update_plain (s : State) (regs : Regs) (sregs : SRegs) (ip : Word) (flags : Flags) (inhibit : Bool)
    (ioIn : List Byte) (ioOut : List (Word × Byte)) (draws : Nat) :
    Plain s { s with
      regs := regs, sregs := sregs, ip := ip, flags := flags, inhibit := inhibit, ioIn := ioIn, ioOut := ioOut
      draws := draws } := ⟨rfl, rfl, rfl, rfl, rfl, rfl, rfl, rfl, rfl, id, .inl rfl⟩

/-- The same with the queue emptied: a transfer of control. -/
theorem State.transfer_plain (s : State) (regs : Regs) (sregs : SRegs) (ip : Word) (flags : Flags) :
    Plain s { s with regs := regs, sregs := sregs, ip := ip, flags := flags, queue := [] } :=
  ⟨rfl, rfl, rfl, rfl, rfl, rfl, rfl, rfl, rfl, id, .inr rfl⟩

theorem State.flags_plain (s : State) (f : Flags) : Plain s { s with flags := f } := s.update_plain _ _ _ f _ _ _ _

theorem aluApply_plain (op : AluOp) (w : Width) (a b : BitVec w.bits) (wr : State → BitVec w.bits → State)
    (s : State) (h : ∀ s v, Plain s (wr s v)) : Plain s (aluApply op w a b wr s) := by
  simp only [aluApply]
  split
  · exact (s.flags_plain _).trans (h _ _)
  · exact s.flags_plain _

theorem aluRmReg_plain (op : AluOp) (d : Dir) (w : Width) (reg : RegField) (rm : RM) (s : State) :
    Plain s (aluRmReg op d w reg rm s) := by
  cases d
  · exact aluApply_plain _ _ _ _ _ _ fun s => s.writeRM_plain w rm
  · exact aluApply_plain _ _ _ _ _ _ fun s => s.writeReg_plain w reg

theorem aluRmImm_plain (op : AluOp) (w : Width) (rm : RM) (imm : BitVec w.bits) (s : State) :
    Plain s (aluRmImm op w rm imm s) := aluApply_plain _ _ _ _ _ _ fun s => s.writeRM_plain w rm

theorem aluAccImm_plain (op : AluOp) (w : Width) (imm : BitVec w.bits) (s : State) :
    Plain s (aluAccImm op w imm s) := aluApply_plain _ _ _ _ _ _ fun s => s.writeReg_plain w .ax

theorem shiftRM_plain (op : ShiftOp) (c : ShiftCount) (w : Width) (rm : RM) (s : State) :
    Plain s (shiftRM op c w rm s) := by
  simp only [shiftRM]
  split
  · exact .refl s
  · exact (s.flags_plain _).trans (State.writeRM_plain _ _ _ _)

theorem State.decCx_plain (s : State) : Plain s s.decCx := s.update_plain _ _ _ _ _ _ _ _

theorem State.addSp_plain (s : State) (k : Word) : Plain s (s.addSp k) := s.update_plain _ _ _ _ _ _ _ _

theorem State.jump_plain (s : State) (o : Word) : Plain s (s.jump o) := s.transfer_plain _ _ _ _

theorem State.jumpFar_plain (s : State) (o seg : Word) : Plain s (s.jumpFar o seg) := s.transfer_plain _ _ _ _

theorem jumpIf_plain (c : Bool) (d : Byte) (s : State) : Plain s (jumpIf c d s) := by
  cases c
  · exact .refl s
  · exact s.jump_plain _

theorem State.advance_plain (s : State) (w : Width) : Plain s ((s.advanceSi w).advanceDi w) :=
  s.update_plain _ _ _ _ _ _ _ _

theorem movsOnce_plain (w : Width) (s : State) : Plain s (movsOnce w s) :=
  (s.lwrite_plain w _ _ _).trans (State.advance_plain _ w)

theorem cmpsOnce_plain (w : Width) (s : State) : Plain s (cmpsOnce w s) := s.update_plain _ _ _ _ _ _ _ _

theorem scasOnce_plain (w : Width) (s : State) : Plain s (scasOnce w s) := s.update_plain _ _ _ _ _ _ _ _

theorem lodsOnce_plain (w : Width) (s : State) : Plain s (lodsOnce w s) :=
  (s.writeReg_plain w _ _).trans (State.update_plain _ _ _ _ _ _ _ _ _)

theorem stosOnce_plain (w : Width) (s : State) : Plain s (stosOnce w s) :=
  (s.lwrite_plain w _ _ _).trans (State.update_plain _ _ _ _ _ _ _ _ _)

theorem State.withQuotient_plain (s : State) (w : Width) (q r : BitVec w.bits) : Plain s (s.withQuotient w q r) := by
  cases w <;> exact s.update_plain _ _ _ _ _ _ _ _

theorem State.divideFaulted_plain (s : State) (w : Width) (n : Nat) : Plain s (s.divideFaulted w n) := by
  cases w <;> exact s.update_plain _ _ _ _ _ _ _ _

theorem State.withProduct_plain (s : State) (w : Width) (p : BitVec 32) (u : Bool) :
    Plain s (s.withProduct w p u) := by cases w <;> exact s.update_plain _ _ _ _ _ _ _ _

/-! ## What a meaning can do -/

/-- An instruction that is neither a prefix byte, nor WAIT, nor HLT. -/
def ordinary : Instr → Bool
  | .wait => false
  | .hlt => false
  | i => !isPrefixByte i

/-- The kinds of next state a meaning can answer. -/
inductive Kind (i : Instr) (s t : State) : Prop where
  /-- registers, flags, memory and ports only -/
  | plain (o : ordinary i = true) (h : Plain s t)
  /-- an interrupt entry, behind nothing or behind the undefined results of a divide error -/
  | entry (o : ordinary i = true) (n : Byte) (u : State) (h : Plain s u) (e : interrupt n u = .next t)
  /-- one pass of a string primitive -/
  | string (h : isStringPrimitive i = true) (c : Bool) (once : State → State) (p : Plain s (once s))
      (e : t = repeated c i once s)
  /-- a prefix byte -/
  | pfx (h : isPrefixByte i = true) (p : Pfx) (e : t = { s with pfx := p })
  | hlt (h : i = .hlt) (e : t = { s with run := .halted })
  | passed (h : i = .wait) (e : t = { s with run := .running })
  | waits (h : i = .wait) (e : t = { s with ip := s.ip - 1, run := .waiting, cont := some .wait })

/-- No meaning changes what the bus and the environment hold. -/
theorem Kind.kept {i : Instr} {s t : State} (h : Kind i s t) :
    t.input = s.input ∧ t.bus = s.bus ∧ t.par = s.par ∧ t.env = s.env ∧ t.rest = s.rest ∧ t.nmi = s.nmi := by
  cases h with
  | plain _ h => exact ⟨h.input, h.bus, h.par, h.env, h.rest, h.nmi⟩
  | entry _ n u h e =>
    obtain ⟨-, -, -, -, -, -, -, h1, h2, h3, h4, h5, h6, -⟩ := interrupt_frame e
    exact ⟨h2.trans h.input, h6.trans h.bus, h5.trans h.par, h3.trans h.env, h4.trans h.rest, h1.trans h.nmi⟩
  | string hi c once p e =>
    subst e
    simp only [repeated]
    split
    · exact ⟨p.input, p.bus, p.par, p.env, p.rest, p.nmi⟩
    · split
      · exact ⟨rfl, rfl, rfl, rfl, rfl, rfl⟩
      · split <;> exact ⟨p.input, p.bus, p.par, p.env, p.rest, p.nmi⟩
  | pfx _ _ e => subst e; exact ⟨rfl, rfl, rfl, rfl, rfl, rfl⟩
  | hlt _ e => subst e; exact ⟨rfl, rfl, rfl, rfl, rfl, rfl⟩
  | passed _ e => subst e; exact ⟨rfl, rfl, rfl, rfl, rfl, rfl⟩
  | waits _ e => subst e; exact ⟨rfl, rfl, rfl, rfl, rfl, rfl⟩

/-- Every meaning keeps memory in its canonical form. -/
theorem Kind.mem {i : Instr} {s t : State} (h : Kind i s t) (hm : Memory.wf s.mem = true) : Memory.wf t.mem = true := by
  cases h with
  | plain _ h => exact h.mem hm
  | entry _ n u h e => exact interrupt_wf e (h.mem hm)
  | string hi c once p e =>
    subst e
    simp only [repeated]
    split
    · exact p.mem hm
    · split
      · exact hm
      · split <;> exact p.mem hm
  | pfx _ _ e => subst e; exact hm
  | hlt _ e => subst e; exact hm
  | passed _ e => subst e; exact hm
  | waits _ e => subst e; exact hm

/-- Everything a meaning can do when it answers a next state. -/
theorem exec_kind (i : Instr) {s t : State} (h : exec i s = .next t) : Kind i s t := by
  cases i with
  | movRmReg d w reg rm =>
    cases d <;> cases h
    · exact .plain rfl (s.writeRM_plain _ _ _)
    · exact .plain rfl (s.writeReg_plain _ _ _)
  | movRmImm w rm imm => cases h; exact .plain rfl (s.writeRM_plain _ _ _)
  | movRegImm w reg imm => cases h; exact .plain rfl (s.writeReg_plain _ _ _)
  | movAccMem w addr => cases h; exact .plain rfl (s.writeReg_plain _ _ _)
  | movMemAcc w addr => cases h; exact .plain rfl (s.lwrite_plain _ _ _ _)
  | movSregRm sr rm => cases sr <;> cases h <;> exact .plain rfl (s.update_plain _ _ _ _ _ _ _ _)
  | movRmSreg sr rm => cases h; exact .plain rfl (s.writeRM_plain _ _ _)
  | pushRm rm => cases h; exact .plain rfl (s.push_plain _)
  | pushReg reg => cases h; exact .plain rfl (s.push_plain _)
  | pushSreg sr => cases h; exact .plain rfl (s.push_plain _)
  | popRm rm => cases h; exact .plain rfl ((s.addSp_plain 2).trans ((s.addSp 2).writeRM_plain .word rm s.top))
  | popReg reg => cases h; exact .plain rfl (s.update_plain _ _ _ _ _ _ _ _)
  | popSreg sr => cases sr <;> cases h <;> exact .plain rfl (s.update_plain _ _ _ _ _ _ _ _)
  | xchgRmReg w reg rm => cases h; exact .plain rfl ((s.writeRM_plain _ _ _).trans (State.writeReg_plain _ _ _ _))
  | xchgAcc reg => cases h; exact .plain rfl ((s.writeReg_plain _ _ _).trans (State.writeReg_plain _ _ _ _))
  | inFixed w port => cases h; cases w <;> exact .plain rfl (s.update_plain _ _ _ _ _ _ _ _)
  | inVar w => cases h; cases w <;> exact .plain rfl (s.update_plain _ _ _ _ _ _ _ _)
  | outFixed w port => cases h; cases w <;> exact .plain rfl (s.update_plain _ _ _ _ _ _ _ _)
  | outVar w => cases h; cases w <;> exact .plain rfl (s.update_plain _ _ _ _ _ _ _ _)
  | xlat | lea _ _ | lds _ _ | les _ _ | lahf | sahf | popf =>
    cases h; exact .plain rfl (s.update_plain _ _ _ _ _ _ _ _)
  | pushf => cases h; exact .plain rfl (s.push_plain _)
  | addRmReg d w reg rm | adcRmReg d w reg rm | subRmReg d w reg rm | sbbRmReg d w reg rm | cmpRmReg d w reg rm
  | andRmReg d w reg rm | orRmReg d w reg rm | xorRmReg d w reg rm =>
    cases h; exact .plain rfl (aluRmReg_plain _ _ _ _ _ s)
  | testRmReg w reg rm => cases h; exact .plain rfl (aluRmReg_plain _ _ _ _ _ s)
  | addRmImm g rm | adcRmImm g rm | subRmImm g rm | sbbRmImm g rm | cmpRmImm g rm =>
    cases h; exact .plain rfl (aluRmImm_plain _ _ _ _ s)
  | andRmImm w rm imm | testRmImm w rm imm | orRmImm w rm imm | xorRmImm w rm imm =>
    cases h; exact .plain rfl (aluRmImm_plain _ _ _ _ s)
  | addAccImm w imm | adcAccImm w imm | subAccImm w imm | sbbAccImm w imm | cmpAccImm w imm | andAccImm w imm
  | testAccImm w imm | orAccImm w imm | xorAccImm w imm => cases h; exact .plain rfl (aluAccImm_plain _ _ _ s)
  | incRm w rm | decRm w rm | negRm w rm =>
    cases h; exact .plain rfl ((s.flags_plain _).trans (State.writeRM_plain _ _ _ _))
  | incReg reg | decReg reg => cases h; exact .plain rfl (s.update_plain _ _ _ _ _ _ _ _)
  | aaa | daa | aas | das | aam | aad | cbw | cwd => cases h; exact .plain rfl (s.update_plain _ _ _ _ _ _ _ _)
  | mulRm w rm | imulRm w rm => cases h; exact .plain rfl (s.withProduct_plain _ _ _)
  | divRm w rm =>
    simp only [exec, execDivRm] at h
    split at h
    · exact .entry rfl 0 _ (s.divideFaulted_plain _ _) h
    · cases h; exact .plain rfl (s.withQuotient_plain _ _ _)
  | idivRm w rm =>
    simp only [exec, execIdivRm] at h
    split at h
    · exact .entry rfl 0 _ (s.divideFaulted_plain _ _) h
    · cases h; exact .plain rfl (s.withQuotient_plain _ _ _)
  | notRm w rm => cases h; exact .plain rfl (s.writeRM_plain _ _ _)
  | shlRm c w rm | shrRm c w rm | sarRm c w rm | rolRm c w rm | rorRm c w rm | rclRm c w rm | rcrRm c w rm =>
    cases h; exact .plain rfl (shiftRM_plain _ _ _ _ s)
  | rep z =>
    simp only [exec, execRep] at h
    split at h <;> cases h
    exact .pfx rfl _ rfl
  | lock =>
    simp only [exec, execLock] at h
    split at h <;> cases h
    exact .pfx rfl _ rfl
  | segOverride sr =>
    simp only [exec, execSegOverride] at h
    split at h <;> cases h
    exact .pfx rfl _ rfl
  | movs w => cases h; exact .string rfl _ _ (movsOnce_plain w s) rfl
  | cmps w => cases h; exact .string rfl _ _ (cmpsOnce_plain w s) rfl
  | scas w => cases h; exact .string rfl _ _ (scasOnce_plain w s) rfl
  | lods w => cases h; exact .string rfl _ _ (lodsOnce_plain w s) rfl
  | stos w => cases h; exact .string rfl _ _ (stosOnce_plain w s) rfl
  | callNear _ | callRm _ => cases h; exact .plain rfl ((s.push_plain _).trans (State.jump_plain _ _))
  | callFar _ _ | callFarMem _ =>
    cases h; exact .plain rfl (((s.push_plain _).trans (State.push_plain _ _)).trans (State.jumpFar_plain _ _ _))
  | jmpNear _ | jmpShort _ | jmpRm _ | jmpFar _ _ | jmpFarMem _ | ret | retImm _ | retf | retfImm _ | iret =>
    cases h; exact .plain rfl (s.transfer_plain _ _ _ _)
  | je _ | jl _ | jle _ | jb _ | jbe _ | jp _ | jo _ | js _ | jne _ | jnl _ | jnle _ | jnb _ | jnbe _ | jnp _ | jno _
  | jns _ | jcxz _ => cases h; exact .plain rfl (jumpIf_plain _ _ s)
  | loop _ | loopz _ | loopnz _ => cases h; exact .plain rfl (s.decCx_plain.trans (jumpIf_plain _ _ s.decCx))
  | intType n => exact .entry rfl n s (.refl s) h
  | int3 => exact .entry rfl 3 s (.refl s) h
  | into =>
    simp only [exec, execInto] at h
    split at h
    · exact .entry rfl 4 s (.refl s) h
    · cases h; exact .plain rfl (.refl s)
  | clc | cmc | stc | cld | std | cli | sti => cases h; exact .plain rfl (s.update_plain _ _ _ _ _ _ _ _)
  | hlt => cases h; exact .hlt rfl rfl
  | wait =>
    simp only [exec, execWait] at h
    split at h <;> cases h
    · exact .waits rfl rfl
    · exact .passed rfl rfl
  | esc hi lo rm => cases rm <;> cases h <;> exact .plain rfl (.refl s)

end Sys2Proof.Machine
end

