-- ==== Sys2Proof/Laws/Cycle.lean ====
section
/-! SUPPORT. The parts of a step: sequencing, the queue, other masters, what the cycles of an activity leave alone, the
recognition point. -/

namespace Sys2Proof.Machine

/-! ## Sequencing -/

/-- A sequence that answers a next state passed through one. -/
theorem andThen_next {o : Out} {f : State → Out} {t : State} (h : andThen o f = .next t) :
    ∃ s, o = .next s ∧ f s = .next t := by
  cases o with
  | next s => exact ⟨s, rfl, h⟩
  | fault r => cases h
  | refused r => cases h

@[simp] theorem andThen_of_next (s : State) (f : State → Out) : andThen (.next s) f = f s := rfl

@[simp] theorem andThen_of_refused (r : Refusal) (f : State → Out) : andThen (.refused r) f = .refused r := rfl

/-- Going on with nothing is nothing. -/
theorem andThen_next_right (o : Out) : andThen o .next = o := by cases o <;> rfl

/-! ## The queue -/

@[simp] theorem padQueue_length (n : Nat) (q : List (Option Byte)) : (padQueue n q).length = n := by
  induction n generalizing q with
  | zero => cases q <;> rfl
  | succ n ih => cases q <;> simp [padQueue, ih]

theorem padQueue_nil (n : Nat) : padQueue n [] = List.replicate n none := by
  induction n with
  | zero => rfl
  | succ n ih => simp [padQueue, ih, List.replicate_succ]

theorem trimQueue_length (q : List (Option Byte)) : (trimQueue q).length ≤ q.length := by
  induction q with
  | nil => exact Nat.le_refl _
  | cons x r ih =>
    cases x with
    | none =>
      cases h : trimQueue r with
      | nil => simp [trimQueue, h]
      | cons y l => simp only [trimQueue, h]; rw [h] at ih; simpa using ih
    | some b => simpa [trimQueue] using ih

/-- Slots that trimming drops come back as slots that are memory's. -/
theorem padQueue_trimQueue (q : List (Option Byte)) : padQueue q.length (trimQueue q) = q := by
  induction q with
  | nil => rfl
  | cons x r ih =>
    cases x with
    | none =>
      cases h : trimQueue r with
      | nil => simpa [trimQueue, h, padQueue] using ih
      | cons y l => rw [h] at ih; simpa [trimQueue, h, padQueue] using ih
    | some b => simpa [trimQueue, padQueue] using ih

@[simp] theorem slotsAfter_length (old new : State) (k : Nat) (q : List (Option Byte)) :
    (slotsAfter old new k q).length = q.length := by
  induction q generalizing k with
  | nil => rfl
  | cons x r ih => simp [slotsAfter, ih]

theorem settleQueue_length (old new : State) : (settleQueue old new).queue.length ≤ new.queue.length :=
  Nat.le_trans (trimQueue_length _) (by simp)

@[simp] theorem settleQueue_nil (old new : State) (h : new.queue = []) : (settleQueue old new).queue = [] := by
  simp [settleQueue, h, slotsAfter, trimQueue]

/-- Settling the queue changes nothing else. -/
theorem settleQueue_eq (old new : State) :
    settleQueue old new = { new with queue := (settleQueue old new).queue } := rfl

@[simp] theorem State.windowBytes_length (s : State) (k : Nat) (q : List (Option Byte)) :
    (s.windowBytes k q).length = q.length := by
  induction q generalizing k with
  | nil => rfl
  | cons x r ih => simp [State.windowBytes, ih]

/-- A decoder always gets six bytes (R81). -/
@[simp] theorem State.fetchWindow_length (s : State) : s.fetchWindow.length = maxBytes := by simp [State.fetchWindow]

/-- One slot behind an instruction. -/
theorem slotsAfter_getElem? (old new : State) (q : List (Option Byte)) (k j : Nat) (h : j < q.length) :
    (slotsAfter old new k q)[j]? = some (slotAfter old new (k + j) (q[j]?.getD none)) := by
  induction q generalizing k j with
  | nil => simp at h
  | cons x r ih =>
    cases j with
    | zero => simp [slotsAfter]
    | succ j =>
      simp only [slotsAfter, List.getElem?_cons_succ]
      rw [ih (k + 1) j (by simpa using h)]
      congr 2
      omega

/-- One byte of a window. -/
theorem State.windowBytes_getElem? (s : State) (q : List (Option Byte)) (k j : Nat) (h : j < q.length) :
    (s.windowBytes k q)[j]? = some ((q[j]?.getD none).getD (s.fetchByte (s.streamAddr (k + j)))) := by
  induction q generalizing k j with
  | nil => simp at h
  | cons x r ih =>
    cases j with
    | zero => simp [State.windowBytes]
    | succ j =>
      simp only [State.windowBytes, List.getElem?_cons_succ]
      rw [ih (k + 1) j (by simpa using h)]
      congr 4
      omega

/-! ## Memory that is RAM everywhere -/

theorem State.region_of_ram {s : State} (h : s.par.memMap = []) (a : PhysAddr) : s.region a = .ram := by
  simp [State.region, h, regionAt]

theorem State.fetchByte_of_ram {s : State} (h : s.par.memMap = []) (a : PhysAddr) : s.fetchByte a = s.readByte a := by
  simp [State.fetchByte, State.region_of_ram h]

theorem State.busWrite_of_ram {s : State} (h : s.par.memMap = []) (a : PhysAddr) (b : Byte) :
    s.busWrite a b = s.writeByte a b := by simp [State.busWrite, State.region_of_ram h]

theorem State.foreignWrite_of_ram {s : State} (h : s.par.memMap = []) (a : PhysAddr) (b : Byte) :
    s.foreignWrite a b = s.writeByte a b := by simp [State.foreignWrite, State.region_of_ram h]

/-! ## Other masters -/

/-- A write of another master changes its byte at most. -/
theorem State.foreignWrite_cell (s : State) {a x : PhysAddr} (b : Byte) (h : x ≠ a) :
    (s.foreignWrite a b).cell x = s.cell x := by
  simp only [State.foreignWrite]
  split
  · exact State.cell_writeByte_other _ _ h
  · rfl
  · rfl
  · rfl

/-- Writes of another master leave every other byte as it was. -/
theorem masterWrites_cell (l : List MasterWrite) (s : State) (a : PhysAddr) (h : ∀ b, .memory a b ∉ l) :
    (masterWrites l s).cell a = s.cell a := by
  induction l generalizing s with
  | nil => rfl
  | cons w r ih =>
    rw [masterWrites, ih _ fun b hb => h b (List.mem_cons_of_mem _ hb)]
    cases w with
    | memory x v => exact s.foreignWrite_cell v fun e => h v (e ▸ List.mem_cons_self)
    | port p v => simp only [State.cell, State.masterWrite, State.foreignPortWrite_mem]

theorem State.foreignWrite_eq (s : State) (a : PhysAddr) (b : Byte) :
    s.foreignWrite a b = { s with mem := (s.foreignWrite a b).mem } := by
  simp only [State.foreignWrite]
  split <;> rfl

theorem State.foreignPortWrite_eq (s : State) (x : PhysAddr) (b : Byte) :
    s.foreignPortWrite x b = { s with bus := { s.bus with ioMem := (s.foreignPortWrite x b).bus.ioMem } } := by
  simp only [State.foreignPortWrite]
  split <;> rfl

theorem State.masterWrite_eq (s : State) (w : MasterWrite) :
    s.masterWrite w =
      { s with mem := (s.masterWrite w).mem, bus := { s.bus with ioMem := (s.masterWrite w).bus.ioMem } } := by
  cases w with
  | memory a b => simp only [State.masterWrite]; rw [State.foreignWrite_eq]
  | port p b => simp only [State.masterWrite]; rw [State.foreignPortWrite_eq]

/-- Writes of another master change memory and the bytes of ports only. -/
theorem masterWrites_eq (l : List MasterWrite) (s : State) :
    masterWrites l s =
      { s with mem := (masterWrites l s).mem, bus := { s.bus with ioMem := (masterWrites l s).bus.ioMem } } := by
  induction l generalizing s with
  | nil => rfl
  | cons p r ih =>
    rw [masterWrites, ih, State.masterWrite_eq]

/-- A write of another master to a port changes its byte at most. -/
theorem State.foreignPortWrite_portCell (s : State) {x y : PhysAddr} (b : Byte) (h : y ≠ x) :
    (s.foreignPortWrite x b).portCell y = s.portCell y := by
  simp only [State.foreignPortWrite]
  split
  · exact Memory.get_set_other _ _ fun e => h (BitVec.eq_of_toNat_eq e)
  all_goals rfl

/-- Writes of another master leave every other port as it was. -/
theorem masterWrites_portCell (l : List MasterWrite) (s : State) (p : Word) (h : ∀ b, .port p b ∉ l) :
    (masterWrites l s).portCell (p.setWidth 20) = s.portCell (p.setWidth 20) := by
  induction l generalizing s with
  | nil => rfl
  | cons w r ih =>
    rw [masterWrites, ih _ fun b hb => h b (List.mem_cons_of_mem _ hb)]
    cases w with
    | memory x v => rw [State.masterWrite, State.foreignWrite_eq]; rfl
    | port q v =>
      refine s.foreignPortWrite_portCell v fun e => h v ?_
      have : p = q := by bv_omega
      exact this ▸ List.mem_cons_self

/-- They keep the form of the ports. -/
theorem masterWrites_ports (l : List MasterWrite) (s : State) (h : Memory.wf s.bus.ioMem = true) :
    Memory.wf (masterWrites l s).bus.ioMem = true := by
  induction l generalizing s with
  | nil => exact h
  | cons w r ih =>
    refine ih _ ?_
    cases w with
    | memory a b => rw [State.masterWrite, State.foreignWrite_eq]; exact h
    | port p b =>
      simp only [State.masterWrite, State.foreignPortWrite]
      split
      · exact Memory.wf_set _ b h
      all_goals exact h

/-- The step has put nothing out. -/
theorem State.note_nil (s : State) : s.note [] [] = s := by simp [State.note]

/-! ## What the cycles of an activity leave alone -/

/-- From `s` to `t` only the bus has been used: bytes of memory and ports, the lists of inputs and outputs, and the cycles
put out and counted are new, memory and ports are still in canonical form if they were. -/
structure OnBus (s t : State) : Prop where
  regs : t.regs = s.regs
  sregs : t.sregs = s.sregs
  ip : t.ip = s.ip
  flags : t.flags = s.flags
  queue : t.queue = s.queue
  nmi : t.nmi = s.nmi
  pfx : t.pfx = s.pfx
  run : t.run = s.run
  inhibit : t.inhibit = s.inhibit
  cont : t.cont = s.cont
  par : t.par = s.par
  env : t.env = s.env
  rest : t.rest = s.rest
  draws : t.draws = s.draws
  owner : t.bus.owner = s.bus.owner
  rq0 : t.bus.rq0 = s.bus.rq0
  rq1 : t.bus.rq1 = s.bus.rq1
  input : ∃ g r, t.input = { s.input with gaps := g, resetAfter := r } ∧ r.isSome = s.input.resetAfter.isSome
  mem : Memory.wf s.mem = true → Memory.wf t.mem = true
  ports : Memory.wf s.bus.ioMem = true → Memory.wf t.bus.ioMem = true

/-- An update of what the bus holds. -/
theorem OnBus.update (s : State) (mem : List Host.Cell) (ioIn : List Byte) (ioOut : List (Word × Byte))
    (memIn : List Byte) (memOut ioMem : List Host.Cell) (cycles : List BusCycle) (ops : List QueueOp)
    (h : Memory.wf s.mem = true → Memory.wf mem = true) (hp : Memory.wf s.bus.ioMem = true → Memory.wf ioMem = true) :
    OnBus s { s with
      mem := mem, ioIn := ioIn, ioOut := ioOut
      bus := { s.bus with memIn := memIn, memOut := memOut, ioMem := ioMem, cycles := cycles, queueOps := ops } } :=
  ⟨rfl, rfl, rfl, rfl, rfl, rfl, rfl, rfl, rfl, rfl, rfl, rfl, rfl, rfl, rfl, rfl, rfl, ⟨_, _, rfl, rfl⟩, h, hp⟩

theorem OnBus.refl (s : State) : OnBus s s := .update s _ _ _ _ _ _ _ _ id id

theorem OnBus.trans {s t u : State} (h : OnBus s t) (h' : OnBus t u) : OnBus s u where
  regs := h'.regs.trans h.regs
  sregs := h'.sregs.trans h.sregs
  ip := h'.ip.trans h.ip
  flags := h'.flags.trans h.flags
  queue := h'.queue.trans h.queue
  nmi := h'.nmi.trans h.nmi
  pfx := h'.pfx.trans h.pfx
  run := h'.run.trans h.run
  inhibit := h'.inhibit.trans h.inhibit
  cont := h'.cont.trans h.cont
  par := h'.par.trans h.par
  env := h'.env.trans h.env
  rest := h'.rest.trans h.rest
  draws := h'.draws.trans h.draws
  owner := h'.owner.trans h.owner
  rq0 := h'.rq0.trans h.rq0
  rq1 := h'.rq1.trans h.rq1
  input := by
    obtain ⟨g, r, e, hr⟩ := h.input
    obtain ⟨g', r', e', hr'⟩ := h'.input
    refine ⟨g', r', by rw [e', e], ?_⟩
    rw [hr', e]
    exact hr
  mem := h'.mem ∘ h.mem
  ports := h'.ports ∘ h.ports

theorem OnBus.resetAfter {s t : State} (h : OnBus s t) : t.input.resetAfter.isSome = s.input.resetAfter.isSome := by
  obtain ⟨g, r, e, hr⟩ := h.input
  rw [e]
  exact hr

theorem State.note_onBus (s : State) (cs : List BusCycle) (ops : List QueueOp) : OnBus s (s.note cs ops) :=
  .update s _ _ _ _ _ _ _ _ id id

theorem State.noteEnd_onBus (s : State) (ops : List QueueOp) : OnBus s (s.noteEnd ops) := by
  simp only [State.noteEnd]
  split
  · exact .refl s
  · exact s.note_onBus _ _

theorem masterWrites_onBus (l : List MasterWrite) (s : State) : OnBus s (masterWrites l s) := by
  rw [masterWrites_eq]
  exact .update s _ _ _ _ _ _ _ _ (fun h => masterWrites_wf l s h) fun h => masterWrites_ports l s h

theorem State.passGap_onBus (s : State) (prev : Option Access) : OnBus s (s.passGap prev) := by
  simp only [State.passGap]
  split
  · exact .refl s
  · exact (masterWrites_onBus _ s).trans
      ⟨rfl, rfl, rfl, rfl, rfl, rfl, rfl, rfl, rfl, rfl, rfl, rfl, rfl, rfl, rfl, rfl, rfl,
        ⟨_, _, by rw [masterWrites_eq], by rw [masterWrites_eq]⟩, id, id⟩

theorem State.lookDone_onBus (s : State) (a : PhysAddr) : OnBus s (s.lookDone a) := by
  simp only [State.lookDone]
  split
  · exact .update s _ _ _ _ _ _ _ _ id id
  · exact .refl s

theorem State.portLookDone_onBus (s : State) (x : PhysAddr) : OnBus s (s.portLookDone x) := by
  simp only [State.portLookDone]
  split
  · exact .update s _ _ _ _ _ _ _ _ id id
  · exact .refl s

theorem State.portBusWrite_onBus (s : State) (x : PhysAddr) (b : Byte) : OnBus s (s.portBusWrite x b) := by
  simp only [State.portBusWrite]
  split
  · exact .update s _ _ _ _ _ _ _ _ id fun h => Memory.wf_set x b h
  · exact .refl s
  · exact .update s _ _ _ _ _ _ _ _ id id
  · exact .refl s

theorem portWrites_onBus (r : State) (k : Nat) (l : List PhysAddr) (s : State) : OnBus s (portWrites r k l s) := by
  induction l generalizing k s with
  | nil => exact .refl s
  | cons x l ih => exact (s.portBusWrite_onBus x _).trans (ih _ _)

theorem State.busWrite_onBus (s : State) (a : PhysAddr) (b : Byte) : OnBus s (s.busWrite a b) := by
  have hw := State.busWrite_wf s a b
  simp only [State.busWrite] at hw ⊢
  split
  · next e => rw [e] at hw; exact .update s _ _ _ _ _ _ _ _ hw id
  · exact .refl s
  · exact .update s _ _ _ _ _ _ _ _ id id
  · exact .refl s

/-- A fold of steps on the bus is one. -/
theorem OnBus.foldl {f : State → PhysAddr → State} (h : ∀ s a, OnBus s (f s a)) (l : List PhysAddr) (s : State) :
    OnBus s (l.foldl f s) := by
  induction l generalizing s with
  | nil => exact .refl s
  | cons a l ih => exact (h s a).trans (ih _)

theorem Access.lookDone_onBus (a : Access) (s : State) : OnBus s (a.lookDone s) := by
  simp only [Access.lookDone]
  split
  · exact OnBus.foldl State.lookDone_onBus _ s
  · exact OnBus.foldl State.portLookDone_onBus _ s
  · exact .refl s

theorem Access.perform_onBus (a : Access) (r s : State) : OnBus s (a.perform r s) := by
  simp only [Access.perform]
  split
  · exact OnBus.foldl (fun s x => s.busWrite_onBus x _) _ s
  · exact a.lookDone_onBus s
  · exact a.lookDone_onBus s
  · exact portWrites_onBus r _ _ s
  all_goals exact .refl s

theorem State.countCycle_onBus (s : State) : OnBus s s.countCycle :=
  ⟨rfl, rfl, rfl, rfl, rfl, rfl, rfl, rfl, rfl, rfl, rfl, rfl, rfl, rfl, rfl, rfl, rfl, ⟨_, _, rfl, by simp⟩, id, id⟩

/-- Cycles made one after another use the bus, and nothing else. -/
theorem replay_onBus (s r v : State) (l : List Access) (prev : Option Access) (cur : State) :
    OnBus cur (replay s r v l prev cur) := by
  induction l generalizing prev cur with
  | nil => exact .refl cur
  | cons a l ih =>
    simp only [replay]
    split
    · exact .refl cur
    · exact ((((cur.passGap_onBus prev).trans (a.perform_onBus r _)).trans (State.note_onBus _ _ _)).trans
        (State.countCycle_onBus _)).trans (ih _ _)

theorem State.look_wf (cur v : State) (a : PhysAddr) (h : Memory.wf v.mem = true) :
    Memory.wf (cur.look v a).mem = true := by
  simp only [State.look]
  split
  · split
    · exact State.writeByte_wf _ _ _ h
    · exact h
  · split
    · exact State.writeByte_wf _ _ _ h
    · exact h
  · exact State.writeByte_wf _ _ _ h
  · exact State.writeByte_wf _ _ _ h
  · exact Memory.wf_erase _ _ h

theorem State.look_eq (cur v : State) (a : PhysAddr) : cur.look v a = { v with mem := (cur.look v a).mem } := by
  simp only [State.look]
  split
  · split <;> rfl
  · split <;> rfl
  · rfl
  · rfl
  · rfl

/-- What the bytes of a read cycle make known: the machine as the instruction sees it has new memory and new inputs. -/
theorem lookBytes_eq {look : State → State → PhysAddr → State} {done : State → PhysAddr → State}
    (h : ∀ cur v x, look cur v x = { v with mem := (look cur v x).mem, ioIn := (look cur v x).ioIn })
    (l : List PhysAddr) (cur v : State) :
    lookBytes look done l cur v =
      { v with mem := (lookBytes look done l cur v).mem, ioIn := (lookBytes look done l cur v).ioIn } := by
  induction l generalizing cur v with
  | nil => rfl
  | cons x l ih => rw [lookBytes, ih, h]

theorem lookBytes_wf {look : State → State → PhysAddr → State} {done : State → PhysAddr → State}
    (h : ∀ cur v x, Memory.wf v.mem = true → Memory.wf (look cur v x).mem = true) (l : List PhysAddr) (cur v : State)
    (hv : Memory.wf v.mem = true) : Memory.wf (lookBytes look done l cur v).mem = true := by
  induction l generalizing cur v with
  | nil => exact hv
  | cons x l ih => exact ih _ _ (h cur v x hv)

theorem Access.look_eq (a : Access) (cur v : State) :
    a.look cur v = { v with mem := (a.look cur v).mem, ioIn := (a.look cur v).ioIn } := by
  simp only [Access.look]
  split
  · exact lookBytes_eq (fun cur v x => by rw [State.look_eq]) _ _ _
  · exact lookBytes_eq (fun _ _ _ => rfl) _ _ _
  · rfl

theorem Access.look_wf (a : Access) (cur v : State) (h : Memory.wf v.mem = true) :
    Memory.wf (a.look cur v).mem = true := by
  simp only [Access.look]
  split
  · exact lookBytes_wf State.look_wf _ _ _ h
  · exact lookBytes_wf (look := State.portLook) (fun _ _ _ h => h) _ _ _ h
  · exact h

/-- What an activity has read changes memory and the inputs only, as the instruction sees them. -/
theorem view_eq (l : List Access) (prev : Option Access) (cur v : State) :
    (view l prev cur v).2 = { v with mem := (view l prev cur v).2.mem, ioIn := (view l prev cur v).2.ioIn } := by
  induction l generalizing prev cur v with
  | nil => rfl
  | cons a l ih => rw [view, ih, Access.look_eq]

theorem view_wf (l : List Access) (prev : Option Access) (cur v : State) (h : Memory.wf v.mem = true) :
    Memory.wf (view l prev cur v).2.mem = true := by
  induction l generalizing prev cur v with
  | nil => exact h
  | cons a l ih => exact ih _ _ _ (a.look_wf _ _ h)

/-- What an activity has read is `s` but for memory and the inputs. -/
theorem view_onBus (l : List Access) (prev : Option Access) (cur v : State) : OnBus v (view l prev cur v).2 := by
  rw [view_eq]
  exact .update v _ _ _ _ _ _ _ _ (fun h => view_wf l prev cur v h) id

/-! ## Activities -/

/-- An activity from `s` that answers `u` was cut off by a RESET of this step; memory and ports are still in canonical
form. -/
structure CutOff (s u : State) : Prop where
  before : s.input.resetAfter.isSome = true
  behind : u.input.resetAfter.isSome = true
  mem : Memory.wf s.mem = true → Memory.wf u.mem = true
  ports : Memory.wf s.bus.ioMem = true → Memory.wf u.bus.ioMem = true

/-- `u` is `r` with memory and the bus as the cycles from `s` left them. -/
def Landed (s r u : State) : Prop := OnBus { r with mem := s.mem } u

theorem cut_resetAfter {s : State} (h : s.cut = true) : s.input.resetAfter.isSome = true := by
  simp only [State.cut, beq_iff_eq] at h
  simp [h]

theorem CutOff.trans {s t u : State} (h : CutOff s t) (h' : OnBus t u) : CutOff s u :=
  ⟨h.before, h'.resetAfter.trans h.behind, h'.mem ∘ h.mem, h'.ports ∘ h.ports⟩

theorem CutOff.after {s t u : State} (hr : t.input.resetAfter.isSome = s.input.resetAfter.isSome)
    (hm : Memory.wf s.mem = true → Memory.wf t.mem = true)
    (hp : Memory.wf s.bus.ioMem = true → Memory.wf t.bus.ioMem = true) (h : CutOff t u) : CutOff s u :=
  ⟨hr.symm.trans h.before, h.behind, h.mem ∘ hm, h.ports ∘ hp⟩

/-- What cycles made one after another can come to. -/
theorem performAll_next {as : List Access} {v s u : State} {o : Out} (h : performAll as v s o = .next u) :
    CutOff s u ∧ u.cut = true ∨ u.cut = false ∧ ∃ r, o = .next r ∧ (r.input = s.input → r.bus = s.bus → Landed s r u) := by
  obtain ⟨r, rfl, h1⟩ := andThen_next h
  have hb := replay_onBus s r v as none s
  dsimp only at h1
  split at h1
  · next hc =>
    cases h1
    have := cut_resetAfter hc
    exact .inl ⟨⟨hb.resetAfter.symm.trans this, this, hb.mem, hb.ports⟩, hc⟩
  · next hc =>
    cases h1
    refine .inr ⟨by simpa [State.cut] using hc, r, rfl, fun hi hbus => ?_⟩
    refine ⟨rfl, rfl, rfl, rfl, rfl, rfl, rfl, rfl, rfl, rfl, rfl, rfl, rfl, rfl, ?_, ?_, ?_, ?_, hb.mem, ?_⟩
    · exact hb.owner.trans (by rw [← hbus])
    · exact hb.rq0.trans (by rw [← hbus])
    · exact hb.rq1.trans (by rw [← hbus])
    · obtain ⟨g, x, e, hx⟩ := hb.input
      exact ⟨g, x, by rw [hi]; exact e, by rw [hi]; exact hx⟩
    · rw [show ({ r with mem := s.mem } : State).bus = s.bus from hbus]
      exact hb.ports

/-- An interrupt entry that nothing disturbs is its meaning, and its cycles are put out. -/
theorem enter_of_calm {s : State} (h : s.calm = true) (ack : Bool) (t : Byte) :
    enter ack t s = enterCalm ack t s := if_pos h

/-- An instruction that nothing disturbs is its meaning, and its cycles are put out. -/
theorem runBus_of_calm {s : State} (h : s.calm = true) (hp : s.par.ioMap = []) (i : Instr) :
    runBus i s = runCalm i s := if_pos (by simp [h, hp])

/-- What an interrupt entry on the bus can do: it is cut off, or it is the entry of R386 on what its cycles have read. -/
theorem enter_next {ack : Bool} {t : Byte} {s u : State} (h : enter ack t s = .next u) :
    CutOff s u ∨ ∃ v r m, OnBus s v ∧ interrupt t v = .next r ∧ OnBus { r with mem := m } u ∧
      (Memory.wf s.mem = true → Memory.wf m = true) := by
  simp only [enter] at h
  split at h
  · obtain ⟨r, h1, h2⟩ := andThen_next h
    cases h2
    exact .inr ⟨s, r, r.mem, .refl s, h1, State.note_onBus _ _ _, interrupt_wf h1⟩
  · obtain ⟨r, h1, h2⟩ := andThen_next h
    cases h2
    rcases performAll_next h1 with ⟨hc, -⟩ | ⟨-, q, h3, h4⟩
    · exact .inl (hc.trans (State.noteEnd_onBus _ _))
    · obtain ⟨-, -, -, -, -, -, -, -, hi, -, -, -, hb, -⟩ := interrupt_frame h3
      have hv := view_eq (s.responseAccesses ack t) none s s
      refine .inr ⟨_, q, s.mem, view_onBus _ _ _ _, h3, (h4 ?_ ?_).trans (State.noteEnd_onBus _ _), id⟩
      · rw [hi, hv]
      · rw [hb, hv]

/-- The instruction behind its entry: what a state that an entry is made from leaves alone. -/
theorem pendingEntry_plain {s u : State} {i : Instr} {t : Byte} (h : s.pendingEntry i = some (t, u)) :
    ordinary i = true ∧ Plain s u := by
  cases i <;> simp only [State.pendingEntry, reduceCtorEq, Option.some.injEq, Prod.mk.injEq] at h
  case into => split at h <;> cases h; exact ⟨rfl, .refl s⟩
  case divRm => split at h <;> cases h; exact ⟨rfl, s.divideFaulted_plain _ _⟩
  case idivRm => split at h <;> cases h; exact ⟨rfl, s.divideFaulted_plain _ _⟩
  all_goals obtain ⟨-, rfl⟩ := h; exact ⟨rfl, .refl s⟩

theorem cmpsWith_plain (w : Width) (a b : BitVec w.bits) (s : State) : Plain s (cmpsWith w a b s) :=
  s.update_plain _ _ _ _ _ _ _ _

/-- What CMPS by its cycles can do. -/
theorem cmpsByCycles_next {w : Width} {s u : State} (h : cmpsByCycles w s = .next u) :
    CutOff s u ∨ ∃ v r m, OnBus s v ∧ Kind (.cmps w) v r ∧ OnBus { r with mem := m } u ∧
      (Memory.wf s.mem = true → Memory.wf m = true) := by
  obtain ⟨p, h1, h2⟩ := andThen_next h
  rcases performAll_next h1 with ⟨hc, hp⟩ | ⟨hn, q, h3, h4⟩
  · simp only [hp, if_true] at h2
    cases h2
    exact .inl hc
  · cases h3
    have hp : OnBus s p := h4 rfl rfl
    simp only [hn, Bool.false_eq_true, if_false] at h2
    rcases performAll_next h2 with ⟨hc, -⟩ | ⟨-, q, h3, h5⟩
    · exact .inl (hc.after hp.resetAfter hp.mem hp.ports)
    · cases h3
      have hk : ∀ a b, Kind (.cmps w) p (repeated true (.cmps w) (cmpsWith w a b) p) := fun a b =>
        .string rfl true _ (cmpsWith_plain w a b p) rfl
      exact .inr ⟨p, _, p.mem, hp, hk _ _, h5 (hk _ _).kept.1 (hk _ _).kept.2.1, hp.mem⟩

/-- What any other instruction by its cycles can do. -/
theorem instrByCycles_next {i : Instr} {s u : State} (h : instrByCycles i s = .next u) :
    CutOff s u ∨ ∃ v r m, OnBus s v ∧ Kind i v r ∧ OnBus { r with mem := m } u ∧
      (Memory.wf s.mem = true → Memory.wf m = true) := by
  have hv := view_eq (s.accesses i) none s { s with ioIn := [] }
  have hvb := (OnBus.update s s.mem [] s.ioOut _ _ _ _ _ id id).trans
    (view_onBus (s.accesses i) none s { s with ioIn := [] })
  simp only [instrByCycles] at h
  generalize (view (s.accesses i) none s { s with ioIn := [] }).2 = v at h hv hvb
  have hi : v.input = s.input := by rw [hv]
  have hb : v.bus = s.bus := by rw [hv]
  split at h
  · rcases performAll_next h with ⟨hc, -⟩ | ⟨-, r, h1, h2⟩
    · exact .inl hc
    · have hk := exec_kind i h1
      exact .inr ⟨v, r, s.mem, hvb, hk, h2 (hk.kept.1.trans hi) (hk.kept.2.1.trans hb), id⟩
  · next t u1 he =>
    obtain ⟨ho, hpl⟩ := pendingEntry_plain he
    obtain ⟨p, h1, h2⟩ := andThen_next h
    rcases performAll_next h1 with ⟨hc, hp⟩ | ⟨hn, q, h3, h4⟩
    · simp only [hp, if_true] at h2
      cases h2
      exact .inl hc
    · cases h3
      have hp := h4 (hpl.input.trans hi) (hpl.bus.trans hb)
      simp only [hn, Bool.false_eq_true, if_false] at h2
      -- the machine the cycles of the instruction itself have left, as the entry sees it
      have hsp : OnBus s { s with mem := p.mem, input := p.input, bus := p.bus } := by
        obtain ⟨g, x, e, hx⟩ := hp.input
        refine ⟨rfl, rfl, rfl, rfl, rfl, rfl, rfl, rfl, rfl, rfl, rfl, rfl, rfl, rfl, ?_, ?_, ?_, ⟨g, x, ?_, ?_⟩, hp.mem, ?_⟩
        · exact hp.owner.trans (by rw [← hb, ← hpl.bus])
        · exact hp.rq0.trans (by rw [← hb, ← hpl.bus])
        · exact hp.rq1.trans (by rw [← hb, ← hpl.bus])
        · rw [← hi, ← hpl.input]; exact e
        · rw [← hi, ← hpl.input]; exact hx
        · rw [← hb, ← hpl.bus]; exact hp.ports
      rcases performAll_next h2 with ⟨hc, -⟩ | ⟨-, r, h5, h6⟩
      · exact .inl (hc.after (t := p) hsp.resetAfter hsp.mem hsp.ports)
      · have hv' := view_eq (p.entryAccesses t) none p p
        have hvw := view_wf (p.entryAccesses t) none p p
        generalize (view (p.entryAccesses t) none p p).2 = v' at h5 hv' hvw
        obtain ⟨-, -, -, -, -, -, -, -, hi', -, -, -, hb', -⟩ := interrupt_frame h5
        refine .inr ⟨{ s with mem := p.mem, input := p.input, bus := p.bus }, r, p.mem, hsp,
          .entry ho t v' ?_ h5, h6 (hi'.trans (by rw [hv'])) (hb'.trans (by rw [hv'])), hp.mem⟩
        have e1 : v.queue = s.queue := by rw [hv]
        refine ⟨?_, ?_, ?_, ?_, ?_, ?_, ?_, ?_, ?_, fun hm => hvw hm, ?_⟩
        all_goals rw [hv']
        · exact hp.env.trans (hpl.env.trans (by rw [hv]))
        · exact hp.nmi.trans (hpl.nmi.trans (by rw [hv]))
        · exact hp.rest.trans (hpl.rest.trans (by rw [hv]))
        · exact hp.par.trans (hpl.par.trans (by rw [hv]))
        · exact hp.cont.trans (hpl.cont.trans (by rw [hv]))
        · exact hp.run.trans (hpl.run.trans (by rw [hv]))
        · exact hp.pfx.trans (hpl.pfx.trans (by rw [hv]))
        · rcases hpl.queue with h | h
          · exact .inl (hp.queue.trans (h.trans e1))
          · exact .inr (hp.queue.trans h)

/-- What an instruction on the bus can do: it is cut off, or it is its meaning on what its cycles have read. -/
theorem runBus_next {i : Instr} {s u : State} (h : runBus i s = .next u) :
    CutOff s u ∨ ∃ v r m, OnBus s v ∧ Kind i v r ∧ OnBus { r with mem := m } u ∧
      (Memory.wf s.mem = true → Memory.wf m = true) := by
  simp only [runBus] at h
  split at h
  · obtain ⟨r, h1, h2⟩ := andThen_next h
    cases h2
    exact .inr ⟨s, r, r.mem, .refl s, exec_kind i h1, State.note_onBus _ _ _, (exec_kind i h1).mem⟩
  · obtain ⟨r, h1, h2⟩ := andThen_next h
    cases h2
    have hr : CutOff s r ∨ ∃ v q m, OnBus s v ∧ Kind i v q ∧ OnBus { q with mem := m } r ∧
        (Memory.wf s.mem = true → Memory.wf m = true) := by
      split at h1
      · exact cmpsByCycles_next h1
      · exact instrByCycles_next h1
    rcases hr with hc | ⟨v, q, m, h2, h3, h4, h5⟩
    · exact .inl (hc.trans (State.noteEnd_onBus _ _))
    · exact .inr ⟨v, q, m, h2, h3, h4.trans (State.noteEnd_onBus _ _), h5⟩

/-! ## Bus requests -/

/-- Arbitration changes who has the bus and which requests are recorded, and nothing else. -/
theorem State.arbitrate_eq (s : State) :
    ∃ o a b, s.arbitrate = { s with bus := { s.bus with owner := o, rq0 := a, rq1 := b } } := by
  simp only [State.arbitrate]
  split
  · exact ⟨_, _, _, rfl⟩
  · simp only [State.arbitratePulses]
    repeat' split
    all_goals exact ⟨_, _, _, rfl⟩

/-- Writes of masters of the system bus, and the queue behind them. -/
theorem systemStep_eq (s : State) :
    ∃ q, systemStep s = { s with
        mem := (systemStep s).mem, queue := q, bus := { s.bus with ioMem := (systemStep s).bus.ioMem } } ∧
      (q = s.queue ∨ q.length ≤ maxBytes) := by
  simp only [systemStep]
  split
  · split
    · exact ⟨_, masterWrites_eq _ _, .inl rfl⟩
    · refine ⟨_, by rw [settleQueue_eq, masterWrites_eq], .inr ?_⟩
      exact Nat.le_trans (settleQueue_length _ _) (by rw [masterWrites_eq]; simp)
  · exact ⟨_, rfl, .inl rfl⟩

/-- In hold acknowledge and during RESET they are nothing but writes. -/
theorem systemStep_onBus {s : State} (h : s.held = true ∨ s.run = .heldInReset) : OnBus s (systemStep s) := by
  simp only [systemStep]
  split
  · rw [if_pos (by simpa using h)]
    exact masterWrites_onBus _ s
  · exact .refl s

/-! ## The recognition point -/

@[simp] theorem State.settle_of_none (s : State) (h : s.cont = none) : s.settle = s := by simp [State.settle, h]

@[simp] theorem State.latch_false (s : State) : s.latch false = s := by simp [State.latch]

/-- Going on unless a RESET has cut the step off answers the state itself or what lies behind it. -/
theorem unlessCut_next {f : State → Out} {s t : State} (h : unlessCut f s = .next t) : t = s ∨ f s = .next t := by
  simp only [unlessCut] at h
  split at h
  · cases h; exact .inl rfl
  · exact .inr h

/-- A recognition point answers nothing but the state with its inhibit bit clear, behind changes of the NMI latch and
interrupt entries: what those keep, it keeps (R395, R396). -/
theorem boundary_induct {P : State → Prop} {tf : Bool} {s t : State} (h : boundary tf s = .next t)
    (hs : P { s with inhibit := false }) (hn : ∀ u n, P u → P { u with nmi := n })
    (he : ∀ u v ack n m, P u → enter ack n { u.settle with nmi := m } = .next v → P v) : P t := by
  simp only [boundary] at h
  split at h
  · cases h; exact hn _ _ hs
  · next hi =>
    have e : { s with inhibit := false } = s := by
      have : s.inhibit = false := by simpa using hi
      rw [← this]
    rw [e] at hs
    obtain ⟨u, h1, h2⟩ := andThen_next h
    obtain ⟨v, h3, h4⟩ := andThen_next h1
    have hv : P v := by
      simp only [recogniseExternal] at h3
      split at h3
      · exact he _ _ _ _ _ hs h3
      · split at h3
        · exact he s v _ _ s.settle.nmi hs h3
        · cases h3; exact hs
    have hu : P u := by
      rcases unlessCut_next h4 with rfl | h4
      · exact hv
      · simp only [recogniseStep] at h4
        split at h4
        · exact he v u _ _ v.settle.nmi hv h4
        · cases h4; exact hv
    rcases unlessCut_next h2 with rfl | h2
    · exact hu
    · simp only [recogniseLate] at h2
      split at h2
      · exact he _ _ _ _ _ (hn _ _ hu) h2
      · cases h2; exact hn _ _ hu

end Sys2Proof.Machine
end

