-- ==== Sys2Proof/Laws/Flags.lean ====
section
/-! SUPPORT. The flag computations against plain numbers (R18, R36). -/

namespace Sys2Proof.Machine

/-- Both operand widths. -/
theorem width_bits_cases (w : Width) : w.bits = 8 ∨ w.bits = 16 := by cases w <;> simp

theorem addResult_toNat {n : Nat} (hn : n = 8 ∨ n = 16) (a b : BitVec n) (c : Bool) :
    (addResult a b c).toNat = (a.toNat + b.toNat + c.toNat) % 2 ^ n := by
  rcases hn with rfl | rfl <;> cases c <;> simp [addResult, BitVec.toNat_add]

theorem subResult_toNat {n : Nat} (hn : n = 8 ∨ n = 16) (a b : BitVec n) (c : Bool) :
    (subResult a b c).toNat = (2 ^ n + 2 ^ n + a.toNat - b.toNat - c.toNat) % 2 ^ n := by
  rcases hn with rfl | rfl <;> cases c <;> simp [subResult, BitVec.toNat_sub] <;> have := a.isLt <;>
    have := b.isLt <;> omega

theorem parityEven_eq {n : Nat} (r : BitVec n) :
    parityEven r = decide (((List.range 8).countP fun i => r.toNat.testBit i) % 2 = 0) := by
  simp only [parityEven, BitVec.getLsbD, List.range, List.range.loop, List.countP_cons, List.countP_nil]
  generalize r.toNat.testBit 0 = b0
  generalize r.toNat.testBit 1 = b1
  generalize r.toNat.testBit 2 = b2
  generalize r.toNat.testBit 3 = b3
  generalize r.toNat.testBit 4 = b4
  generalize r.toNat.testBit 5 = b5
  generalize r.toNat.testBit 6 = b6
  generalize r.toNat.testBit 7 = b7
  revert b0 b1 b2 b3 b4 b5 b6 b7
  decide

/-- SZP say what `ResultFlags` says, and no other flag is changed (R18). -/
theorem Flags.setSZP_result {n : Nat} (f : Flags) (r : BitVec n) : ResultFlags n r.toNat (f.setSZP r) := by
  refine ⟨?_, BitVec.msb_eq_decide r, parityEven_eq r⟩
  show (r == 0) = _
  rw [Bool.eq_iff_iff]
  simp only [beq_iff_eq, decide_eq_true_eq]
  exact ⟨fun h => by simp [h], fun h => BitVec.eq_of_toNat_eq (by simpa using h)⟩

theorem msb_iff {n : Nat} (a : BitVec n) : a.msb = true ↔ 2 ^ (n - 1) ≤ a.toNat := by
  rw [BitVec.msb_eq_decide]; simp

theorem toInt_cases {n : Nat} (a : BitVec n) :
    (a.msb = true ∧ a.toInt = (a.toNat : Int) - (2 ^ n : Nat)) ∨ (a.msb = false ∧ a.toInt = (a.toNat : Int)) := by
  rw [BitVec.toInt_eq_msb_cond]
  cases a.msb <;> simp

/-- `OFadd` is signed overflow (R18, R36). -/
theorem add_overflow {n : Nat} (hn : n = 8 ∨ n = 16) (a b : BitVec n) (c : Bool) :
    (a.msb == b.msb && (addResult a b c).msb != a.msb) = true ↔ OutOfRange n (a.toInt + b.toInt + c.toNat) := by
  have hr := addResult_toNat hn a b c
  have hm := msb_iff (addResult a b c)
  have ha := msb_iff a
  have hb := msb_iff b
  have hc : c.toNat ≤ 1 := Bool.toNat_le c
  have la := a.isLt
  have lb := b.isLt
  unfold OutOfRange
  rcases toInt_cases a with ⟨h1, h2⟩ | ⟨h1, h2⟩ <;> rcases toInt_cases b with ⟨h3, h4⟩ | ⟨h3, h4⟩ <;>
    cases h5 : (addResult a b c).msb <;> rw [h1] at ha ⊢ <;> rw [h3] at hb ⊢ <;> rw [h5] at hm <;> rw [h2, h4] <;>
    rcases hn with rfl | rfl <;> simp at ha hb hm ⊢ <;> omega

/-- `OFsub` is signed overflow (R18, R36). -/
theorem sub_overflow {n : Nat} (hn : n = 8 ∨ n = 16) (a b : BitVec n) (c : Bool) :
    (a.msb != b.msb && (subResult a b c).msb != a.msb) = true ↔ OutOfRange n (a.toInt - b.toInt - c.toNat) := by
  have hr := subResult_toNat hn a b c
  have hm := msb_iff (subResult a b c)
  have ha := msb_iff a
  have hb := msb_iff b
  have hc : c.toNat ≤ 1 := Bool.toNat_le c
  have la := a.isLt
  have lb := b.isLt
  unfold OutOfRange
  rcases toInt_cases a with ⟨h1, h2⟩ | ⟨h1, h2⟩ <;> rcases toInt_cases b with ⟨h3, h4⟩ | ⟨h3, h4⟩ <;>
    cases h5 : (subResult a b c).msb <;> rw [h1] at ha ⊢ <;> rw [h3] at hb ⊢ <;> rw [h5] at hm <;> rw [h2, h4] <;>
    rcases hn with rfl | rfl <;> simp at ha hb hm ⊢ <;> omega

/-- Everything the flags of an addition say (R18). -/
theorem Flags.ofAdd_flags {n : Nat} (hn : n = 8 ∨ n = 16) (f : Flags) (a b : BitVec n) (c : Bool) :
    AddFlags a b c f (f.ofAdd a b c) := by
  have h := f.setSZP_result (addResult a b c)
  rw [addResult_toNat hn] at h
  exact ⟨⟨h, add_overflow hn a b c, by simp [Flags.ofAdd], rfl, rfl, rfl⟩, by simp [Flags.ofAdd]⟩

/-- Everything the flags of a subtraction say (R18). -/
theorem Flags.ofSub_flags {n : Nat} (hn : n = 8 ∨ n = 16) (f : Flags) (a b : BitVec n) (c : Bool) :
    SubFlags a b c f (f.ofSub a b c) := by
  have h := f.setSZP_result (subResult a b c)
  rw [subResult_toNat hn] at h
  exact ⟨⟨h, sub_overflow hn a b c, by simp [Flags.ofSub], rfl, rfl, rfl⟩, by simp [Flags.ofSub]⟩

/-- Everything the flags of a logic operation say (R213). -/
theorem Flags.ofLogic_flags {n : Nat} (f : Flags) (x : Bool) (r : BitVec n) : LogicFlags r f (f.ofLogic x r) :=
  ⟨f.setSZP_result r, rfl, rfl, rfl, rfl, rfl⟩

/-! ## Shifts and rotates -/

theorem ShiftOp.iter_zero {n : Nat} (op : ShiftOp) (x : BitVec n) (cf : Bool) : op.iter 0 x cf = (x, cf) := rfl

theorem ShiftOp.iter_succ {n : Nat} (op : ShiftOp) (k : Nat) (x : BitVec n) (cf : Bool) :
    op.iter (k + 1) x cf = op.iter k (op.step1 x cf).1 (op.step1 x cf).2 := rfl

/-- The step may be peeled off behind instead of in front. -/
theorem ShiftOp.iter_succ' {n : Nat} (op : ShiftOp) (k : Nat) (x : BitVec n) (cf : Bool) :
    op.iter (k + 1) x cf = op.step1 (op.iter k x cf).1 (op.iter k x cf).2 := by
  induction k generalizing x cf with
  | zero => rfl
  | succ k ih => rw [iter_succ, ih, iter_succ]

end Sys2Proof.Machine
end

