-- ==== Sys2Proof/Laws/PerInstr.lean ====
section
/-! SUPPORT. The family of lemmas per instruction: an encoding is 1 to 6 bytes long (R81). -/

namespace Sys2Proof.Laws

/-- An instruction is 1 to 6 bytes long without its prefixes (R81). -/
def EncodedLength.Statement (i : Instr) : Prop := 1 ≤ (encode i).length ∧ (encode i).length ≤ 6

theorem memBytes_length (mid : BitVec 3) (m : MemOp) :
    1 ≤ (memBytes mid m).length ∧ (memBytes mid m).length ≤ 3 := by
  cases m <;> simp [memBytes, leBytes]

theorem rmBytes_length (mid : BitVec 3) (rm : RM) :
    1 ≤ (rmBytes mid rm).length ∧ (rmBytes mid rm).length ≤ 3 := by
  cases rm with
  | reg r => simp [rmBytes]
  | mem m => exact memBytes_length mid m

theorem immBytes_length (w : Width) (imm : BitVec w.bits) : (immBytes w imm).length ≤ 2 := by
  cases w <;> simp [immBytes, leBytes]

theorem grpImm_bytes_length (g : GrpImm) : g.bytes.length ≤ 2 := by cases g <;> simp [GrpImm.bytes, leBytes]

/-! ## The shapes of encodings -/

theorem length_one (b : Byte) : 1 ≤ [b].length ∧ [b].length ≤ 6 := by simp

theorem length_two (b c : Byte) : 1 ≤ [b, c].length ∧ [b, c].length ≤ 6 := by simp

theorem length_word (b : Byte) (v : Word) : 1 ≤ (b :: leBytes v).length ∧ (b :: leBytes v).length ≤ 6 := by
  simp [leBytes]

theorem length_far (b : Byte) (o s : Word) :
    1 ≤ (b :: (leBytes o ++ leBytes s)).length ∧ (b :: (leBytes o ++ leBytes s)).length ≤ 6 := by simp [leBytes]

theorem length_imm (b : Byte) (w : Width) (imm : BitVec w.bits) :
    1 ≤ (b :: immBytes w imm).length ∧ (b :: immBytes w imm).length ≤ 6 := by
  have := immBytes_length w imm
  simp only [List.length_cons]
  omega

theorem length_mem (b : Byte) (mid : BitVec 3) (m : MemOp) :
    1 ≤ (b :: memBytes mid m).length ∧ (b :: memBytes mid m).length ≤ 6 := by
  have := memBytes_length mid m
  simp only [List.length_cons]
  omega

theorem length_rm (b : Byte) (mid : BitVec 3) (rm : RM) :
    1 ≤ (b :: rmBytes mid rm).length ∧ (b :: rmBytes mid rm).length ≤ 6 := by
  have := rmBytes_length mid rm
  simp only [List.length_cons]
  omega

theorem length_rmImm (b : Byte) (mid : BitVec 3) (rm : RM) (l : List Byte) (h : l.length ≤ 2) :
    1 ≤ (b :: (rmBytes mid rm ++ l)).length ∧ (b :: (rmBytes mid rm ++ l)).length ≤ 6 := by
  have := rmBytes_length mid rm
  simp only [List.length_cons, List.length_append]
  omega

/-! ## One lemma per instruction -/

theorem EncodedLength.movRmReg (d : Dir) (w : Width) (reg : RegField) (rm : RM) :
    EncodedLength.Statement (.movRmReg d w reg rm) := length_rm _ _ rm

theorem EncodedLength.movRmImm (w : Width) (rm : RM) (imm : BitVec w.bits) :
    EncodedLength.Statement (.movRmImm w rm imm) := length_rmImm _ _ rm _ (immBytes_length w imm)

theorem EncodedLength.movRegImm (w : Width) (reg : RegField) (imm : BitVec w.bits) :
    EncodedLength.Statement (.movRegImm w reg imm) := length_imm _ w imm

theorem EncodedLength.movAccMem (w : Width) (addr : Word) : EncodedLength.Statement (.movAccMem w addr) :=
  length_word _ addr

theorem EncodedLength.movMemAcc (w : Width) (addr : Word) : EncodedLength.Statement (.movMemAcc w addr) :=
  length_word _ addr

theorem EncodedLength.movSregRm (sr : SReg) (rm : RM) : EncodedLength.Statement (.movSregRm sr rm) := length_rm _ _ rm

theorem EncodedLength.movRmSreg (sr : SReg) (rm : RM) : EncodedLength.Statement (.movRmSreg sr rm) := length_rm _ _ rm

theorem EncodedLength.pushRm (rm : RM) : EncodedLength.Statement (.pushRm rm) := length_rm _ _ rm

theorem EncodedLength.pushReg (reg : RegField) : EncodedLength.Statement (.pushReg reg) := length_one _

theorem EncodedLength.pushSreg (sr : SReg) : EncodedLength.Statement (.pushSreg sr) := length_one _

theorem EncodedLength.popRm (rm : RM) : EncodedLength.Statement (.popRm rm) := length_rm _ _ rm

theorem EncodedLength.popReg (reg : RegField) : EncodedLength.Statement (.popReg reg) := length_one _

theorem EncodedLength.popSreg (sr : SReg) : EncodedLength.Statement (.popSreg sr) := length_one _

theorem EncodedLength.xchgRmReg (w : Width) (reg : RegField) (rm : RM) :
    EncodedLength.Statement (.xchgRmReg w reg rm) := length_rm _ _ rm

theorem EncodedLength.xchgAcc (reg : RegField) : EncodedLength.Statement (.xchgAcc reg) := length_one _

theorem EncodedLength.inFixed (w : Width) (port : Byte) : EncodedLength.Statement (.inFixed w port) := length_two _ _

theorem EncodedLength.inVar (w : Width) : EncodedLength.Statement (.inVar w) := length_one _

theorem EncodedLength.outFixed (w : Width) (port : Byte) : EncodedLength.Statement (.outFixed w port) :=
  length_two _ _

theorem EncodedLength.outVar (w : Width) : EncodedLength.Statement (.outVar w) := length_one _

theorem EncodedLength.xlat : EncodedLength.Statement .xlat := length_one _

theorem EncodedLength.lea (reg : RegField) (m : MemOp) : EncodedLength.Statement (.lea reg m) := length_mem _ _ m

theorem EncodedLength.lds (reg : RegField) (m : MemOp) : EncodedLength.Statement (.lds reg m) := length_mem _ _ m

theorem EncodedLength.les (reg : RegField) (m : MemOp) : EncodedLength.Statement (.les reg m) := length_mem _ _ m

theorem EncodedLength.lahf : EncodedLength.Statement .lahf := length_one _

theorem EncodedLength.sahf : EncodedLength.Statement .sahf := length_one _

theorem EncodedLength.pushf : EncodedLength.Statement .pushf := length_one _

theorem EncodedLength.popf : EncodedLength.Statement .popf := length_one _

theorem EncodedLength.addRmReg (d : Dir) (w : Width) (reg : RegField) (rm : RM) :
    EncodedLength.Statement (.addRmReg d w reg rm) := length_rm _ _ rm

theorem EncodedLength.addRmImm (g : GrpImm) (rm : RM) : EncodedLength.Statement (.addRmImm g rm) :=
  length_rmImm _ _ rm _ (grpImm_bytes_length g)

theorem EncodedLength.addAccImm (w : Width) (imm : BitVec w.bits) : EncodedLength.Statement (.addAccImm w imm) :=
  length_imm _ w imm

theorem EncodedLength.adcRmReg (d : Dir) (w : Width) (reg : RegField) (rm : RM) :
    EncodedLength.Statement (.adcRmReg d w reg rm) := length_rm _ _ rm

theorem EncodedLength.adcRmImm (g : GrpImm) (rm : RM) : EncodedLength.Statement (.adcRmImm g rm) :=
  length_rmImm _ _ rm _ (grpImm_bytes_length g)

theorem EncodedLength.adcAccImm (w : Width) (imm : BitVec w.bits) : EncodedLength.Statement (.adcAccImm w imm) :=
  length_imm _ w imm

theorem EncodedLength.incRm (w : Width) (rm : RM) : EncodedLength.Statement (.incRm w rm) := length_rm _ _ rm

theorem EncodedLength.incReg (reg : RegField) : EncodedLength.Statement (.incReg reg) := length_one _

theorem EncodedLength.aaa : EncodedLength.Statement .aaa := length_one _

theorem EncodedLength.daa : EncodedLength.Statement .daa := length_one _

theorem EncodedLength.subRmReg (d : Dir) (w : Width) (reg : RegField) (rm : RM) :
    EncodedLength.Statement (.subRmReg d w reg rm) := length_rm _ _ rm

theorem EncodedLength.subRmImm (g : GrpImm) (rm : RM) : EncodedLength.Statement (.subRmImm g rm) :=
  length_rmImm _ _ rm _ (grpImm_bytes_length g)

theorem EncodedLength.subAccImm (w : Width) (imm : BitVec w.bits) : EncodedLength.Statement (.subAccImm w imm) :=
  length_imm _ w imm

theorem EncodedLength.sbbRmReg (d : Dir) (w : Width) (reg : RegField) (rm : RM) :
    EncodedLength.Statement (.sbbRmReg d w reg rm) := length_rm _ _ rm

theorem EncodedLength.sbbRmImm (g : GrpImm) (rm : RM) : EncodedLength.Statement (.sbbRmImm g rm) :=
  length_rmImm _ _ rm _ (grpImm_bytes_length g)

theorem EncodedLength.sbbAccImm (w : Width) (imm : BitVec w.bits) : EncodedLength.Statement (.sbbAccImm w imm) :=
  length_imm _ w imm

theorem EncodedLength.decRm (w : Width) (rm : RM) : EncodedLength.Statement (.decRm w rm) := length_rm _ _ rm

theorem EncodedLength.decReg (reg : RegField) : EncodedLength.Statement (.decReg reg) := length_one _

theorem EncodedLength.negRm (w : Width) (rm : RM) : EncodedLength.Statement (.negRm w rm) := length_rm _ _ rm

theorem EncodedLength.cmpRmReg (d : Dir) (w : Width) (reg : RegField) (rm : RM) :
    EncodedLength.Statement (.cmpRmReg d w reg rm) := length_rm _ _ rm

theorem EncodedLength.cmpRmImm (g : GrpImm) (rm : RM) : EncodedLength.Statement (.cmpRmImm g rm) :=
  length_rmImm _ _ rm _ (grpImm_bytes_length g)

theorem EncodedLength.cmpAccImm (w : Width) (imm : BitVec w.bits) : EncodedLength.Statement (.cmpAccImm w imm) :=
  length_imm _ w imm

theorem EncodedLength.aas : EncodedLength.Statement .aas := length_one _

theorem EncodedLength.das : EncodedLength.Statement .das := length_one _

theorem EncodedLength.mulRm (w : Width) (rm : RM) : EncodedLength.Statement (.mulRm w rm) := length_rm _ _ rm

theorem EncodedLength.imulRm (w : Width) (rm : RM) : EncodedLength.Statement (.imulRm w rm) := length_rm _ _ rm

theorem EncodedLength.aam : EncodedLength.Statement .aam := length_two _ _

theorem EncodedLength.divRm (w : Width) (rm : RM) : EncodedLength.Statement (.divRm w rm) := length_rm _ _ rm

theorem EncodedLength.idivRm (w : Width) (rm : RM) : EncodedLength.Statement (.idivRm w rm) := length_rm _ _ rm

theorem EncodedLength.aad : EncodedLength.Statement .aad := length_two _ _

theorem EncodedLength.cbw : EncodedLength.Statement .cbw := length_one _

theorem EncodedLength.cwd : EncodedLength.Statement .cwd := length_one _

theorem EncodedLength.notRm (w : Width) (rm : RM) : EncodedLength.Statement (.notRm w rm) := length_rm _ _ rm

theorem EncodedLength.shlRm (c : ShiftCount) (w : Width) (rm : RM) : EncodedLength.Statement (.shlRm c w rm) :=
  length_rm _ _ rm

theorem EncodedLength.shrRm (c : ShiftCount) (w : Width) (rm : RM) : EncodedLength.Statement (.shrRm c w rm) :=
  length_rm _ _ rm

theorem EncodedLength.sarRm (c : ShiftCount) (w : Width) (rm : RM) : EncodedLength.Statement (.sarRm c w rm) :=
  length_rm _ _ rm

theorem EncodedLength.rolRm (c : ShiftCount) (w : Width) (rm : RM) : EncodedLength.Statement (.rolRm c w rm) :=
  length_rm _ _ rm

theorem EncodedLength.rorRm (c : ShiftCount) (w : Width) (rm : RM) : EncodedLength.Statement (.rorRm c w rm) :=
  length_rm _ _ rm

theorem EncodedLength.rclRm (c : ShiftCount) (w : Width) (rm : RM) : EncodedLength.Statement (.rclRm c w rm) :=
  length_rm _ _ rm

theorem EncodedLength.rcrRm (c : ShiftCount) (w : Width) (rm : RM) : EncodedLength.Statement (.rcrRm c w rm) :=
  length_rm _ _ rm

theorem EncodedLength.andRmReg (d : Dir) (w : Width) (reg : RegField) (rm : RM) :
    EncodedLength.Statement (.andRmReg d w reg rm) := length_rm _ _ rm

theorem EncodedLength.andRmImm (w : Width) (rm : RM) (imm : BitVec w.bits) :
    EncodedLength.Statement (.andRmImm w rm imm) := length_rmImm _ _ rm _ (immBytes_length w imm)

theorem EncodedLength.andAccImm (w : Width) (imm : BitVec w.bits) : EncodedLength.Statement (.andAccImm w imm) :=
  length_imm _ w imm

theorem EncodedLength.testRmReg (w : Width) (reg : RegField) (rm : RM) :
    EncodedLength.Statement (.testRmReg w reg rm) := length_rm _ _ rm

theorem EncodedLength.testRmImm (w : Width) (rm : RM) (imm : BitVec w.bits) :
    EncodedLength.Statement (.testRmImm w rm imm) := length_rmImm _ _ rm _ (immBytes_length w imm)

theorem EncodedLength.testAccImm (w : Width) (imm : BitVec w.bits) : EncodedLength.Statement (.testAccImm w imm) :=
  length_imm _ w imm

theorem EncodedLength.orRmReg (d : Dir) (w : Width) (reg : RegField) (rm : RM) :
    EncodedLength.Statement (.orRmReg d w reg rm) := length_rm _ _ rm

theorem EncodedLength.orRmImm (w : Width) (rm : RM) (imm : BitVec w.bits) :
    EncodedLength.Statement (.orRmImm w rm imm) := length_rmImm _ _ rm _ (immBytes_length w imm)

theorem EncodedLength.orAccImm (w : Width) (imm : BitVec w.bits) : EncodedLength.Statement (.orAccImm w imm) :=
  length_imm _ w imm

theorem EncodedLength.xorRmReg (d : Dir) (w : Width) (reg : RegField) (rm : RM) :
    EncodedLength.Statement (.xorRmReg d w reg rm) := length_rm _ _ rm

theorem EncodedLength.xorRmImm (w : Width) (rm : RM) (imm : BitVec w.bits) :
    EncodedLength.Statement (.xorRmImm w rm imm) := length_rmImm _ _ rm _ (immBytes_length w imm)

theorem EncodedLength.xorAccImm (w : Width) (imm : BitVec w.bits) : EncodedLength.Statement (.xorAccImm w imm) :=
  length_imm _ w imm

theorem EncodedLength.rep (z : Bool) : EncodedLength.Statement (.rep z) := length_one _

theorem EncodedLength.movs (w : Width) : EncodedLength.Statement (.movs w) := length_one _

theorem EncodedLength.cmps (w : Width) : EncodedLength.Statement (.cmps w) := length_one _

theorem EncodedLength.scas (w : Width) : EncodedLength.Statement (.scas w) := length_one _

theorem EncodedLength.lods (w : Width) : EncodedLength.Statement (.lods w) := length_one _

theorem EncodedLength.stos (w : Width) : EncodedLength.Statement (.stos w) := length_one _

theorem EncodedLength.callNear (disp : Word) : EncodedLength.Statement (.callNear disp) := length_word _ disp

theorem EncodedLength.callRm (rm : RM) : EncodedLength.Statement (.callRm rm) := length_rm _ _ rm

theorem EncodedLength.callFar (off : Word) (seg : Word) : EncodedLength.Statement (.callFar off seg) :=
  length_far _ off seg

theorem EncodedLength.callFarMem (m : MemOp) : EncodedLength.Statement (.callFarMem m) := length_mem _ _ m

theorem EncodedLength.jmpNear (disp : Word) : EncodedLength.Statement (.jmpNear disp) := length_word _ disp

theorem EncodedLength.jmpShort (disp : Byte) : EncodedLength.Statement (.jmpShort disp) := length_two _ _

theorem EncodedLength.jmpRm (rm : RM) : EncodedLength.Statement (.jmpRm rm) := length_rm _ _ rm

theorem EncodedLength.jmpFar (off : Word) (seg : Word) : EncodedLength.Statement (.jmpFar off seg) :=
  length_far _ off seg

theorem EncodedLength.jmpFarMem (m : MemOp) : EncodedLength.Statement (.jmpFarMem m) := length_mem _ _ m

theorem EncodedLength.ret : EncodedLength.Statement .ret := length_one _

theorem EncodedLength.retImm (k : Word) : EncodedLength.Statement (.retImm k) := length_word _ k

theorem EncodedLength.retf : EncodedLength.Statement .retf := length_one _

theorem EncodedLength.retfImm (k : Word) : EncodedLength.Statement (.retfImm k) := length_word _ k

theorem EncodedLength.je (disp : Byte) : EncodedLength.Statement (.je disp) := length_two _ _

theorem EncodedLength.jl (disp : Byte) : EncodedLength.Statement (.jl disp) := length_two _ _

theorem EncodedLength.jle (disp : Byte) : EncodedLength.Statement (.jle disp) := length_two _ _

theorem EncodedLength.jb (disp : Byte) : EncodedLength.Statement (.jb disp) := length_two _ _

theorem EncodedLength.jbe (disp : Byte) : EncodedLength.Statement (.jbe disp) := length_two _ _

theorem EncodedLength.jp (disp : Byte) : EncodedLength.Statement (.jp disp) := length_two _ _

theorem EncodedLength.jo (disp : Byte) : EncodedLength.Statement (.jo disp) := length_two _ _

theorem EncodedLength.js (disp : Byte) : EncodedLength.Statement (.js disp) := length_two _ _

theorem EncodedLength.jne (disp : Byte) : EncodedLength.Statement (.jne disp) := length_two _ _

theorem EncodedLength.jnl (disp : Byte) : EncodedLength.Statement (.jnl disp) := length_two _ _

theorem EncodedLength.jnle (disp : Byte) : EncodedLength.Statement (.jnle disp) := length_two _ _

theorem EncodedLength.jnb (disp : Byte) : EncodedLength.Statement (.jnb disp) := length_two _ _

theorem EncodedLength.jnbe (disp : Byte) : EncodedLength.Statement (.jnbe disp) := length_two _ _

theorem EncodedLength.jnp (disp : Byte) : EncodedLength.Statement (.jnp disp) := length_two _ _

theorem EncodedLength.jno (disp : Byte) : EncodedLength.Statement (.jno disp) := length_two _ _

theorem EncodedLength.jns (disp : Byte) : EncodedLength.Statement (.jns disp) := length_two _ _

theorem EncodedLength.loop (disp : Byte) : EncodedLength.Statement (.loop disp) := length_two _ _

theorem EncodedLength.loopz (disp : Byte) : EncodedLength.Statement (.loopz disp) := length_two _ _

theorem EncodedLength.loopnz (disp : Byte) : EncodedLength.Statement (.loopnz disp) := length_two _ _

theorem EncodedLength.jcxz (disp : Byte) : EncodedLength.Statement (.jcxz disp) := length_two _ _

theorem EncodedLength.intType (t : Byte) : EncodedLength.Statement (.intType t) := length_two _ _

theorem EncodedLength.int3 : EncodedLength.Statement .int3 := length_one _

theorem EncodedLength.into : EncodedLength.Statement .into := length_one _

theorem EncodedLength.iret : EncodedLength.Statement .iret := length_one _

theorem EncodedLength.clc : EncodedLength.Statement .clc := length_one _

theorem EncodedLength.cmc : EncodedLength.Statement .cmc := length_one _

theorem EncodedLength.stc : EncodedLength.Statement .stc := length_one _

theorem EncodedLength.cld : EncodedLength.Statement .cld := length_one _

theorem EncodedLength.std : EncodedLength.Statement .std := length_one _

theorem EncodedLength.cli : EncodedLength.Statement .cli := length_one _

theorem EncodedLength.sti : EncodedLength.Statement .sti := length_one _

theorem EncodedLength.hlt : EncodedLength.Statement .hlt := length_one _

theorem EncodedLength.wait : EncodedLength.Statement .wait := length_one _

theorem EncodedLength.esc (hi : BitVec 3) (lo : BitVec 3) (rm : RM) : EncodedLength.Statement (.esc hi lo rm) :=
  length_rm _ _ rm

theorem EncodedLength.lock : EncodedLength.Statement .lock := length_one _

theorem EncodedLength.segOverride (sr : SReg) : EncodedLength.Statement (.segOverride sr) := length_one _

end Sys2Proof.Laws
end

