-- ==== Sys2Proof/Laws/Pins.lean ====
section
/-! SUPPORT. What a step puts out on the pins decides nothing in it; interrupt entries and recognition points that nothing
disturbs, without what they put out. -/

namespace Sys2Proof.Machine

/-! ## Outputs decide nothing -/

/-- The machine with these outputs of the present step. -/
def State.putOut (s : State) (c : List BusCycle) (q : List QueueOp) : State :=
  { s with bus := { s.bus with cycles := c, queueOps := q } }

/-- A change of the next state. -/
def mapNext (f : State → State) (o : Out) : Out := andThen o fun t => .next (f t)

/-- The outcome does not depend on what has been put out before, outputs apart. -/
def Blind (f : State → Out) : Prop := ∀ c q s, silent (f (s.putOut c q)) = silent (f s)

@[simp] theorem silent_silent (o : Out) : silent (silent o) = silent o := by cases o <;> rfl

theorem andThen_silent (o : Out) (f : State → Out) : andThen o (fun u => silent (f u)) = silent (andThen o f) := by
  cases o <;> rfl

/-- What is put out before a blind part can be forgotten before it. -/
theorem silent_andThen {f g : State → Out} {o : Out} (hg : Blind g)
    (h : ∀ t, o = .next t → silent (f t) = silent (g t)) :
    silent (andThen o f) = silent (andThen (silent o) g) := by
  cases o with
  | next s => exact (h s rfl).trans (hg [] [] s).symm
  | fault r => rfl
  | refused r => rfl

theorem Blind.andThen {f g : State → Out} (hf : Blind f) (hg : Blind g) : Blind fun s => andThen (f s) g := by
  intro c q s
  have h := hf c q s
  show silent (Machine.andThen (f (s.putOut c q)) g) = silent (Machine.andThen (f s) g)
  rw [silent_andThen hg (fun _ _ => rfl), silent_andThen (o := f s) hg (fun _ _ => rfl), h]

theorem State.readRM_putOut (s : State) (c q) (w : Width) (rm : RM) : (s.putOut c q).readRM w rm = s.readRM w rm := by
  cases rm <;> cases w <;> rfl

theorem State.writeRM_putOut (s : State) (c q) (w : Width) (rm : RM) (v : BitVec w.bits) :
    (s.putOut c q).writeRM w rm v = (s.writeRM w rm v).putOut c q := by cases rm <;> cases w <;> rfl

theorem State.writeReg_putOut (s : State) (c q) (w : Width) (r : RegField) (v : BitVec w.bits) :
    (s.putOut c q).writeReg w r v = (s.writeReg w r v).putOut c q := by cases w <;> rfl

theorem aluApply_putOut (op : AluOp) (w : Width) (a b : BitVec w.bits) {wr : State → BitVec w.bits → State} (s : State)
    (c q) (h : ∀ s v, wr (s.putOut c q) v = (wr s v).putOut c q) :
    aluApply op w a b wr (s.putOut c q) = (aluApply op w a b wr s).putOut c q := by
  simp only [aluApply]
  split
  · exact h { s with flags := _ } _
  · rfl

theorem aluRmReg_putOut (op : AluOp) (d : Dir) (w : Width) (reg : RegField) (rm : RM) (s : State) (c q) :
    aluRmReg op d w reg rm (s.putOut c q) = (aluRmReg op d w reg rm s).putOut c q := by
  cases d <;> simp only [aluRmReg, State.readRM_putOut]
  · exact aluApply_putOut _ _ _ _ _ _ _ fun s _ => s.writeRM_putOut _ _ _ _ _
  · exact aluApply_putOut _ _ _ _ _ _ _ fun s _ => s.writeReg_putOut _ _ _ _ _

theorem aluRmImm_putOut (op : AluOp) (w : Width) (rm : RM) (imm : BitVec w.bits) (s : State) (c q) :
    aluRmImm op w rm imm (s.putOut c q) = (aluRmImm op w rm imm s).putOut c q := by
  simp only [aluRmImm, State.readRM_putOut]
  exact aluApply_putOut _ _ _ _ _ _ _ fun s _ => s.writeRM_putOut _ _ _ _ _

theorem aluAccImm_putOut (op : AluOp) (w : Width) (imm : BitVec w.bits) (s : State) (c q) :
    aluAccImm op w imm (s.putOut c q) = (aluAccImm op w imm s).putOut c q :=
  aluApply_putOut _ _ _ _ _ _ _ fun s _ => s.writeReg_putOut _ _ _ _ _

theorem shiftRM_putOut (op : ShiftOp) (k : ShiftCount) (w : Width) (rm : RM) (s : State) (c q) :
    shiftRM op k w rm (s.putOut c q) = (shiftRM op k w rm s).putOut c q := by
  simp only [shiftRM, State.readRM_putOut]
  show (if s.shiftCount k = 0 then _ else _) = _
  split
  · rfl
  · exact State.writeRM_putOut { s with flags := _ } c q w rm _

theorem jumpIf_putOut (b : Bool) (d : Byte) (s : State) (c q) :
    jumpIf b d (s.putOut c q) = (jumpIf b d s).putOut c q := by cases b <;> rfl

theorem repeated_putOut (b : Bool) (i : Instr) {f : State → State} (s : State) (c q)
    (h : ∀ s, f (s.putOut c q) = (f s).putOut c q) :
    repeated b i f (s.putOut c q) = (repeated b i f s).putOut c q := by
  simp only [repeated, h]
  have e : (s.putOut c q).pfx.rep = s.pfx.rep := rfl
  rw [e]
  cases s.pfx.rep with
  | none => rfl
  | some z =>
    show (if s.regs.cx = 0 then s.putOut c q else if b && (f s).decCx.flags.zf != z then _ else _) =
      (if s.regs.cx = 0 then s else if b && (f s).decCx.flags.zf != z then _ else _ : State).putOut c q
    split
    · rfl
    · split <;> rfl

theorem interrupt_putOut (n : Byte) (s : State) (c q) :
    interrupt n (s.putOut c q) = mapNext (·.putOut c q) (interrupt n s) := by
  have e1 : (s.putOut c q).stackHitsVector n = s.stackHitsVector n := rfl
  have e2 : (s.putOut c q).vectorWritten n = s.vectorWritten n := rfl
  simp only [interrupt, e1, e2]
  split
  · rfl
  · split <;> rfl

theorem State.divideFaulted_putOut (s : State) (c q) (w : Width) (n : Nat) :
    (s.putOut c q).divideFaulted w n = (s.divideFaulted w n).putOut c q := by cases w <;> rfl

theorem State.divTraps_putOut (s : State) (c q) (w : Width) (rm : RM) :
    (s.putOut c q).divTraps w rm = s.divTraps w rm := by
  simp only [State.divTraps, State.readRM_putOut]
  cases w <;> rfl

theorem State.idivTraps_putOut (s : State) (c q) (w : Width) (rm : RM) :
    (s.putOut c q).idivTraps w rm = s.idivTraps w rm := by
  simp only [State.idivTraps, State.readRM_putOut]
  cases w <;> rfl

/-- No meaning looks at what the step has put out, or changes it. -/
theorem exec_putOut (i : Instr) (s : State) (c q) :
    exec i (s.putOut c q) = mapNext (·.putOut c q) (exec i s) := by
  cases i with
  | addRmReg d w reg rm | adcRmReg d w reg rm | subRmReg d w reg rm | sbbRmReg d w reg rm | cmpRmReg d w reg rm
  | andRmReg d w reg rm | orRmReg d w reg rm | xorRmReg d w reg rm =>
    exact congrArg Host.Outcome.next (aluRmReg_putOut _ _ _ _ _ _ _ _)
  | testRmReg w reg rm => exact congrArg Host.Outcome.next (aluRmReg_putOut _ _ _ _ _ _ _ _)
  | addRmImm g rm | adcRmImm g rm | subRmImm g rm | sbbRmImm g rm | cmpRmImm g rm =>
    exact congrArg Host.Outcome.next (aluRmImm_putOut _ _ _ _ _ _ _)
  | andRmImm w rm imm | testRmImm w rm imm | orRmImm w rm imm | xorRmImm w rm imm =>
    exact congrArg Host.Outcome.next (aluRmImm_putOut _ _ _ _ _ _ _)
  | addAccImm w imm | adcAccImm w imm | subAccImm w imm | sbbAccImm w imm | cmpAccImm w imm | andAccImm w imm
  | testAccImm w imm | orAccImm w imm | xorAccImm w imm =>
    exact congrArg Host.Outcome.next (aluAccImm_putOut _ _ _ _ _ _)
  | je _ | jl _ | jle _ | jb _ | jbe _ | jp _ | jo _ | js _ | jne _ | jnl _ | jnle _ | jnb _ | jnbe _ | jnp _ | jno _
  | jns _ | jcxz _ => exact congrArg Host.Outcome.next (jumpIf_putOut _ _ _ _ _)
  | loop _ | loopz _ | loopnz _ => exact congrArg Host.Outcome.next (jumpIf_putOut _ _ s.decCx _ _)
  | intType n => exact interrupt_putOut _ _ _ _
  | int3 => exact interrupt_putOut _ _ _ _
  | into =>
    simp only [exec, execInto]
    show (if s.flags.ofl then _ else _) = _
    split
    · exact interrupt_putOut _ _ _ _
    · rfl
  | divRm w rm =>
    simp only [exec, execDivRm, State.divTraps_putOut, State.readRM_putOut, State.divideFaulted_putOut]
    split
    · exact interrupt_putOut _ _ _ _
    · cases w <;> rfl
  | idivRm w rm =>
    simp only [exec, execIdivRm, State.idivTraps_putOut, State.readRM_putOut, State.divideFaulted_putOut]
    split
    · exact interrupt_putOut _ _ _ _
    · cases w <;> rfl
  | movs w | cmps w | scas w | lods w | stos w =>
    exact congrArg Host.Outcome.next (repeated_putOut _ _ _ _ _ fun s => by cases w <;> rfl)
  | shlRm k w rm | shrRm k w rm | sarRm k w rm | rolRm k w rm | rorRm k w rm | rclRm k w rm | rcrRm k w rm =>
    exact congrArg Host.Outcome.next (shiftRM_putOut _ _ _ _ _ _ _)
  | movRmReg d w reg rm => cases d <;> cases rm <;> cases w <;> rfl
  | movRmImm w rm _ | incRm w rm | decRm w rm | negRm w rm | mulRm w rm | imulRm w rm | notRm w rm
  | xchgRmReg w _ rm => cases rm <;> cases w <;> rfl
  | movRegImm w _ _ | inFixed w _ | outFixed w _ | inVar w | outVar w | movAccMem w _ | movMemAcc w _ =>
    cases w <;> rfl
  | movSregRm sr rm => cases sr <;> cases rm <;> rfl
  | movRmSreg _ rm | pushRm rm | popRm rm | callRm rm | jmpRm rm | esc _ _ rm => cases rm <;> rfl
  | popSreg sr => cases sr <;> rfl
  | wait => simp only [exec, execWait]; show (if s.input.testHigh then _ else _) = _; split <;> rfl
  | rep _ => simp only [exec, execRep]; show (if s.pfx.rep.isSome then _ else _) = _; split <;> rfl
  | lock => simp only [exec, execLock]; show (if s.pfx.lock then _ else _) = _; split <;> rfl
  | segOverride _ => simp only [exec, execSegOverride]; show (if s.pfx.seg.isSome then _ else _) = _; split <;> rfl
  | _ => rfl

theorem exec_blind (i : Instr) : Blind (exec i) := by
  intro c q s
  rw [exec_putOut]
  cases exec i s <;> rfl

theorem interrupt_blind (n : Byte) : Blind (interrupt n) := exec_blind (.intType n)

theorem slotsAfter_putOut (old new : State) (c q d e) (k : Nat) (l : List (Option Byte)) :
    slotsAfter (old.putOut d e) (new.putOut c q) k l = slotsAfter old new k l := by
  induction l generalizing k with
  | nil => rfl
  | cons x r ih => simp only [slotsAfter, ih]; rfl

theorem settleQueue_putOut (old new : State) (c q d e) :
    settleQueue (old.putOut d e) (new.putOut c q) = (settleQueue old new).putOut c q := by
  simp only [settleQueue]
  rw [show (new.putOut c q).queue = new.queue from rfl, slotsAfter_putOut]
  rfl

/-! ## What nothing disturbs -/

theorem State.calm_iff (s : State) :
    s.calm = true ↔ s.input.gaps = [] ∧ s.input.resetAfter = none ∧ s.par.memMap = [] := by
  simp [State.calm, and_assoc]

theorem State.calm_of {s t : State} (h : s.calm = true) (hi : t.input = s.input) (hp : t.par = s.par) :
    t.calm = true := by
  simp only [State.calm, hi, hp] at h ⊢
  exact h

theorem State.cut_of_calm {s : State} (h : s.calm = true) : s.cut = false := by
  simp [State.cut, (s.calm_iff.1 h).2.1]

theorem State.calm_settle {s : State} (h : s.calm = true) : s.settle.calm = true := by
  simp only [State.settle]
  split <;> exact h

theorem State.settle_putOut (s : State) (c q) : (s.putOut c q).settle = s.settle.putOut c q := by
  simp only [State.settle]
  show (if s.cont.isSome then _ else _) = _
  split <;> rfl

theorem silent_enterCalm (ack : Bool) (n : Byte) (s : State) : silent (enterCalm ack n s) = silent (interrupt n s) := by
  simp only [enterCalm]
  cases interrupt n s <;> rfl

theorem enterCalm_calm {ack : Bool} {n : Byte} {s t : State} (h : enterCalm ack n s = .next t) (hc : s.calm = true) :
    t.calm = true := by
  obtain ⟨r, h1, h2⟩ := andThen_next h
  cases h2
  obtain ⟨-, -, -, -, -, -, -, -, hi, -, -, hp, -⟩ := interrupt_frame h1
  exact State.calm_of hc hi hp

/-- An instruction that nothing disturbs is its meaning, outputs apart. -/
theorem silent_runBus {i : Instr} {s : State} (h : s.calm = true) (hp : s.par.ioMap = []) :
    silent (runBus i s) = silent (exec i s) := by
  rw [runBus_of_calm h hp, runCalm]
  cases exec i s <;> rfl

theorem runBus_calm {i : Instr} {s t : State} (h : runBus i s = .next t) (hc : s.calm = true)
    (hp : s.par.ioMap = []) : t.calm = true := by
  rw [runBus_of_calm hc hp] at h
  obtain ⟨r, h1, h2⟩ := andThen_next h
  cases h2
  obtain ⟨k1, -, k3, -⟩ := (exec_kind i h1).kept
  exact State.calm_of hc k1 k3

/-! ## The recognition point that nothing disturbs -/

/-- NMI, then INTR, as entries of R386 without bus cycles. -/
def plainExternal (s : State) : Out :=
  if s.nmi then interrupt 2 { s.settle with nmi := false }
  else if s.input.intr && s.flags.ifl then interrupt s.input.inta s.settle
  else .next s

/-- The single-step trap, the same. -/
def plainStep (tf : Bool) (s : State) : Out := if tf then interrupt 1 s.settle else .next s

/-- A late NMI edge, the same. -/
def plainLate (s : State) : Out :=
  if (s.latch s.input.nmiLate).nmi then interrupt 2 { (s.latch s.input.nmiLate).settle with nmi := false }
  else .next (s.latch s.input.nmiLate)

/-- The recognition point, the same. -/
def plainBoundary (tf : Bool) (s : State) : Out :=
  if s.inhibit then .next ({ s with inhibit := false }.latch s.input.nmiLate)
  else andThen (andThen (plainExternal s) (plainStep tf)) plainLate

theorem plainExternal_blind : Blind plainExternal := by
  intro c q s
  simp only [plainExternal, State.settle_putOut]
  show silent (if s.nmi then interrupt 2 (State.putOut { s.settle with nmi := false } c q) else
    if s.input.intr && s.flags.ifl then interrupt s.input.inta (s.settle.putOut c q) else _) = _
  split
  · exact interrupt_blind _ _ _ _
  · split
    · exact interrupt_blind _ _ _ _
    · rfl

theorem plainStep_blind (tf : Bool) : Blind (plainStep tf) := by
  intro c q s
  simp only [plainStep, State.settle_putOut]
  split
  · exact interrupt_blind _ _ _ _
  · rfl

theorem plainLate_blind : Blind plainLate := by
  intro c q s
  have e : (s.putOut c q).latch s.input.nmiLate = (s.latch s.input.nmiLate).putOut c q := rfl
  simp only [plainLate]
  show silent (if (s.latch s.input.nmiLate).nmi then
    interrupt 2 { ((s.putOut c q).latch s.input.nmiLate).settle with nmi := false } else _) = _
  rw [e, State.settle_putOut]
  split
  · exact interrupt_blind 2 c q { (s.latch s.input.nmiLate).settle with nmi := false }
  · rfl

theorem plainBoundary_blind (tf : Bool) : Blind (plainBoundary tf) := by
  intro c q s
  simp only [plainBoundary]
  show silent (if s.inhibit then _ else _) = _
  split
  · rfl
  · exact ((plainExternal_blind.andThen (plainStep_blind tf)).andThen plainLate_blind) c q s

/-- A recognition point that nothing disturbs is its entries without their bus cycles, outputs apart (R395). -/
theorem silent_boundary {s : State} (hc : s.calm = true) (tf : Bool) :
    silent (boundary tf s) = silent (plainBoundary tf s) := by
  have hent : ∀ (ack : Bool) (n : Byte) (u : State), u.calm = true →
      silent (enter ack n u) = silent (interrupt n u) := fun ack n u hu => by
    rw [enter_of_calm hu, silent_enterCalm]
  have hkeep : ∀ (ack : Bool) (n : Byte) (u t : State), u.calm = true → enter ack n u = .next t → t.calm = true :=
    fun ack n u t hu h => enterCalm_calm (by rwa [enter_of_calm hu] at h) hu
  simp only [boundary, plainBoundary]
  split
  · rfl
  · have e1 : silent (recogniseExternal s) = silent (plainExternal s) := by
      simp only [recogniseExternal, plainExternal]
      split
      · exact hent _ _ { s.settle with nmi := false } (State.calm_settle hc)
      · split
        · exact hent _ _ _ (State.calm_settle hc)
        · rfl
    have k1 : ∀ t, recogniseExternal s = .next t → t.calm = true := by
      intro t h
      simp only [recogniseExternal] at h
      split at h
      · exact hkeep _ _ { s.settle with nmi := false } _ (State.calm_settle hc) h
      · split at h
        · exact hkeep _ _ _ _ (State.calm_settle hc) h
        · cases h; exact hc
    have e2 : ∀ t, t.calm = true → silent (unlessCut (recogniseStep tf) t) = silent (plainStep tf t) := by
      intro t ht
      simp only [unlessCut, State.cut_of_calm ht, recogniseStep, plainStep, Bool.false_eq_true, if_false]
      split
      · exact hent _ _ _ (State.calm_settle ht)
      · rfl
    have k2 : ∀ t u, t.calm = true → unlessCut (recogniseStep tf) t = .next u → u.calm = true := by
      intro t u ht h
      simp only [unlessCut, State.cut_of_calm ht, recogniseStep, Bool.false_eq_true, if_false] at h
      split at h
      · exact hkeep _ _ _ _ (State.calm_settle ht) h
      · cases h; exact ht
    have e3 : ∀ t, t.calm = true → silent (unlessCut recogniseLate t) = silent (plainLate t) := by
      intro t ht
      simp only [unlessCut, State.cut_of_calm ht, recogniseLate, plainLate, Bool.false_eq_true, if_false]
      split
      · exact hent _ _ { (t.latch t.input.nmiLate).settle with nmi := false } (State.calm_settle (s := t.latch _) ht)
      · rfl
    have e4 : silent (andThen (recogniseExternal s) (unlessCut (recogniseStep tf))) =
        silent (andThen (plainExternal s) (plainStep tf)) := by
      rw [silent_andThen (plainStep_blind tf) (fun t ht => e2 t (k1 t ht)), e1,
        ← silent_andThen (plainStep_blind tf) (fun _ _ => rfl)]
    rw [silent_andThen plainLate_blind (fun t ht => e3 t ?_), e4, ← silent_andThen plainLate_blind (fun _ _ => rfl)]
    obtain ⟨u, h1, h2⟩ := andThen_next ht
    exact k2 u t (k1 u h1) h2

/-- What lies behind a meaning does not look at what has been put out, when nothing disturbs it. -/
theorem silent_finish_putOut (i : Instr) (tf : Bool) {s : State} (hc : s.calm = true) (c q) :
    silent (finish i tf (s.putOut c q)) = silent (finish i tf s) := by
  simp only [finish]
  split
  · rfl
  · have e : (s.putOut c q).endPrefixes = s.endPrefixes.putOut c q := by
      simp only [State.endPrefixes]
      show (if s.cont.isSome then _ else _) = _
      split <;> rfl
    have h : s.endPrefixes.calm = true := by
      simp only [State.endPrefixes]
      split <;> exact hc
    rw [e, silent_boundary (s := s.endPrefixes.putOut c q) h, silent_boundary h]
    exact plainBoundary_blind _ c q _

/-- A recognition point that nothing disturbs leaves it so. -/
theorem boundary_calm {tf : Bool} {s t : State} (h : boundary tf s = .next t) (hc : s.calm = true) : t.calm = true := by
  refine boundary_induct (P := fun s => s.calm = true) h hc (fun _ _ h => h) ?_
  intro u v ack n m hu e
  have hm : State.calm { u.settle with nmi := m } = true := State.calm_settle hu
  rw [enter_of_calm hm] at e
  exact enterCalm_calm e hm

theorem finish_calm {i : Instr} {tf : Bool} {s t : State} (h : finish i tf s = .next t) (hc : s.calm = true) :
    t.calm = true := by
  simp only [finish] at h
  split at h
  · cases h; exact hc
  · refine boundary_calm h ?_
    simp only [State.endPrefixes]
    split <;> exact hc

/-! ## A step that nothing disturbs -/

/-- With the bus its own and no request, arbitration changes nothing. -/
theorem State.arbitrate_of_cpu {s : State} (h : s.bus.owner = .cpu) (h0 : s.bus.rq0 = false) (h1 : s.bus.rq1 = false)
    (u : s.input.Undisturbed) : s.arbitrate = s := by
  obtain ⟨-, -, a, b, c, -, -⟩ := u
  have e : s.arbitrate = { s with bus := { s.bus with owner := .cpu, rq0 := false, rq1 := false } } := by
    simp only [State.arbitrate]
    split
    · simp [State.arbitrateHold, a]
    · simp [State.arbitratePulses, b, c, h, h0, h1]
  rw [e]
  cases s with | mk r1 r2 r3 r4 r5 r6 r7 r8 r9 r10 bus => cases bus; cases h; cases h0; cases h1; rfl

theorem systemStep_of_none {s : State} (h : s.input.systemWrites = []) : systemStep s = s := by simp [systemStep, h]

theorem State.closeStep_of_none {s : State} (h : s.input.resetAfter = none) : s.closeStep = s := by
  simp [State.closeStep, h]

/-- An instruction that nothing disturbs, from its meaning to the recognition point behind it, outputs apart. -/
theorem silent_runInstr {i : Instr} {n : Nat} {s s1 : State} (hc : s.calm = true) (hp : s.par.ioMap = [])
    (h1 : s1 = { s with queue := padQueue maxBytes s.queue }.tick) :
    silent (runInstr i n s) =
      if s.pfx.rep.isSome && !isStringPrimitive i && !isPrefixByte i then .refused .repBeforeNonString
      else silent (andThen (exec i s1) fun t => finish i s.flags.tf (settleQueue s1 t)) := by
  simp only [runInstr]
  split
  · rfl
  · have hq : ({ s.note [] (takeOps n) with queue := padQueue maxBytes s.queue } : State).tick =
        s1.putOut (s.bus.cycles ++ []) (s.bus.queueOps ++ takeOps n) := by rw [h1]; rfl
    have hc1 : s1.calm = true := by rw [h1]; exact hc
    have hp1 : s1.par.ioMap = [] := by rw [h1]; exact hp
    rw [hq]
    generalize s.bus.cycles ++ [] = c
    generalize s.bus.queueOps ++ takeOps n = q
    rw [runBus_of_calm (s := s1.putOut c q) hc1 hp1, runCalm, exec_putOut]
    cases hx : exec i s1 with
    | fault r => rfl
    | refused r => rfl
    | next r =>
      obtain ⟨k1, -, k3, -⟩ := (exec_kind i hx).kept
      have rc : r.calm = true := State.calm_of hc1 k1 k3
      simp only [mapNext, andThen_of_next]
      generalize State.calmCycles _ _ _ = c'
      generalize emptyOps _ = q'
      have e : (r.putOut c q).note c' q' = r.putOut (c ++ c') (q ++ q') := rfl
      rw [e]
      simp only [unlessCut]
      rw [if_neg (by have := State.cut_of_calm rc; simpa [State.cut, State.putOut] using this), settleQueue_putOut]
      exact silent_finish_putOut i _ (s := settleQueue s1 r) rc _ _

/-- A step that nothing disturbs leaves it so. -/
theorem runInstr_calm {i : Instr} {n : Nat} {s t : State} (h : runInstr i n s = .next t) (hc : s.calm = true)
    (hp : s.par.ioMap = []) : t.calm = true := by
  simp only [runInstr] at h
  split at h
  · cases h
  · obtain ⟨u, h1, h2⟩ := andThen_next h
    have uc : u.calm = true := runBus_calm h1 hc hp
    simp only [unlessCut, State.cut_of_calm uc, Bool.false_eq_true, if_false] at h2
    exact finish_calm h2 uc

/-- The end of a step that no RESET ends. -/
theorem silent_closed {o : Out} (h : ∀ t, o = .next t → t.calm = true) :
    silent (andThen o fun t => .next t.closeStep) = silent o := by
  cases o with
  | next t =>
    rw [andThen_of_next, State.closeStep_of_none ((State.calm_iff t).1 (h t rfl)).2.1]
  | fault r => rfl
  | refused r => rfl

/-- The NMI latch decides nothing in a fetch. -/
theorem State.fetchWindow_latch (s : State) (b : Bool) : (s.latch b).fetchWindow = s.fetchWindow := by
  have h : ∀ (q : List (Option Byte)) (k : Nat), (s.latch b).windowBytes k q = s.windowBytes k q := by
    intro q
    induction q with
    | nil => intro k; rfl
    | cons x r ih => intro k; simp only [State.windowBytes, ih]; rfl
  exact h _ 0

/-- A step that nothing disturbs is a step of the halted machine, or one instruction. -/
theorem stepInput_of_undisturbed {s : State} (hr : s.run ≠ .heldInReset) (hs : s.run ≠ .restarting)
    (h : s.bus.owner = .cpu)
    (h0 : s.bus.rq0 = false) (h1 : s.bus.rq1 = false) (u : s.input.Undisturbed) :
    stepInput s = if s.run = .halted then boundary false (s.latch s.input.nmiEdge)
      else instruction (s.latch s.input.nmiEdge) := by
  have hh : (s.latch s.input.nmiEdge).held = false := by simp [State.held, State.latch, h]
  simp only [stepInput, u.1, Bool.false_eq_true, if_false, if_neg hr]
  rw [systemStep_of_none (s := s.latch s.input.nmiEdge) u.2.2.2.2.2.1,
    State.arbitrate_of_cpu (s := s.latch s.input.nmiEdge) h h0 h1 u]
  have hs' : (s.latch s.input.nmiEdge).run ≠ .restarting := hs
  simp only [hh, Bool.false_eq_true, if_false, haltedStep, if_neg hs']
  rfl

end Sys2Proof.Machine
end

