-- ==== Sys2Proof/Tests/Slice0.lean ====
section
/-! SUPPORT. Tests: the well-formedness checks, a word of every constructor written out from the spec's encoding, single
steps with the results of `spec/95_test_vectors.md`, and a witness for the hypotheses of each obligation. "95" is that
file, V-DT and so on its sections. -/

namespace Sys2Proof.Machine.Tests

/-! ## Helpers -/

/-- The bytes decode to the instruction, with nothing left. -/
def decodes (bs : List Byte) (i : Instr) : Bool :=
  match decode bs with
  | .ok (j, []) => j == i
  | _ => false

/-- The start state of the vectors of 95. -/
def start : State :=
  { State.reset with
    regs := { State.reset.regs with sp := 0x100 }
    sregs := { es := 0x3000, cs := 0x1000, ss := 0x4000, ds := 0x2000 }
    ip := 0x100 }

/-- Bytes at a physical address. -/
def bytes (a : PhysAddr) : List Byte → State → State
  | [], s => s
  | b :: r, s => bytes (a + 1) r (s.writeByte a b)

def reg (r : RegField) (v : Word) (s : State) : State := s.writeReg .word r v

def half (r : RegField) (v : Byte) (s : State) : State := s.writeReg .byte r v

def seg (r : SReg) (v : Word) (s : State) : State := { s with sregs := s.sregs.set r v }

def startIp (v : Word) (s : State) : State := { s with ip := v }

/-- One of the nine flags. -/
inductive Flag where
  | cf | pf | af | zf | sf | tf | ifl | df | ofl

def Flag.of (f : Flags) : Flag → Bool
  | .cf => f.cf
  | .pf => f.pf
  | .af => f.af
  | .zf => f.zf
  | .sf => f.sf
  | .tf => f.tf
  | .ifl => f.ifl
  | .df => f.df
  | .ofl => f.ofl

/-- The flag is 1 at the start. -/
def flag (k : Flag) (s : State) : State :=
  let f := s.flags
  { s with flags :=
    match k with
    | .cf => { f with cf := true }
    | .pf => { f with pf := true }
    | .af => { f with af := true }
    | .zf => { f with zf := true }
    | .sf => { f with sf := true }
    | .tf => { f with tf := true }
    | .ifl => { f with ifl := true }
    | .df => { f with df := true }
    | .ofl => { f with ofl := true } }

def regIs (r : RegField) (v : Word) (t : State) : Bool := t.regs.get r == v

def segIs (r : SReg) (v : Word) (t : State) : Bool := t.sregs.get r == v

def ipIs (v : Word) (t : State) : Bool := t.ip == v

def flagIs (k : Flag) (b : Bool) (t : State) : Bool := Flag.of t.flags k == b

def cellIs (a : PhysAddr) (b : Byte) (t : State) : Bool := t.cell a == some b

def out (l : List (Word × Byte)) (t : State) : Bool := t.ioOut == l

def halted (t : State) : Bool := t.run == .halted

/-- The start state with changes made to it. -/
def startWith (set : List (State → State)) : State := set.foldl (fun s f => f s) start

/-- The changed start state with code at CS:IP. -/
def boot (code : List Byte) (set : List (State → State)) : State := storeCode 0 code (startWith set)

/-- The environment of the next step. -/
def env (e : EnvInput) (s : State) : State := { s with env := [e] }

/-- The maximum mode. -/
def maximum (s : State) : State := { s with par := { s.par with strap := .maximum } }

/-- IDIV accepts -128 and -32768. -/
def fullRange (s : State) : State := { s with par := { s.par with idivMinQ8 := .full, idivMinQ16 := .full } }

/-- A memory map of one region. -/
def region (first last : Nat) (k : RegionKind) (s : State) : State :=
  { s with par := { s.par with memMap := [{ first := first, last := last, kind := k }] } }

/-- An I/O map of one region. -/
def ports (first last : Nat) (k : RegionKind) (s : State) : State :=
  { s with par := { s.par with ioMap := [{ first := first, last := last, kind := k }] } }

/-- What devices in memory answer. -/
def memInputs (l : List Byte) (s : State) : State := { s with bus := { s.bus with memIn := l } }

/-- The kinds of the bus cycles of the step. -/
def cyclesAre (l : List BusKind) (t : State) : Bool := t.bus.cycles.map BusCycle.kind == l

/-- The queue operations of the step. -/
def opsAre (l : List QueueOp) (t : State) : Bool := t.bus.queueOps == l

def owner (o : BusOwner) (t : State) : Bool := t.bus.owner == o

/-- One step from there meets every check. -/
def runs (code : List Byte) (set : List (State → State)) (checks : List (State → Bool)) : Bool :=
  match step (boot code set) with
  | .next t => checks.all fun f => f t
  | _ => false

/-! ## Well-formedness -/

/-- R88: `[BP]` without a displacement has no encoding. -/
theorem test_wf_refuses_bp_without_displacement :
    (Instr.movRmReg .fromReg .word .ax (.mem (.ind .bp))).wf = false := by decide

/-- R106: CS is no destination of MOV. -/
theorem test_wf_refuses_mov_to_cs : (Instr.movSregRm .cs (.reg .ax)).wf = false := by decide

/-- R106: CS is no destination of POP. -/
theorem test_wf_refuses_pop_cs : (Instr.popSreg .cs).wf = false := by decide

/-- R88: the same operand with a displacement of zero has one. -/
theorem test_wf_accepts_bp_with_displacement :
    (Instr.movRmReg .fromReg .word .ax (.mem (.disp8 .bp 0))).wf = true := by decide

/-! ## Encodings -/

/-- 95, V-DT. -/
theorem test_decode_movRmReg : decodes [0x88, 0xF1] (.movRmReg .fromReg .byte .si (.reg .cx)) = true := by decide

/-- 95, V-DT. -/
theorem test_decode_movRmReg2 :
    decodes [0x8B, 0x46, 0xFE] (.movRmReg .toReg .word .ax (.mem (.disp8 .bp 0xFE))) = true := by decide

/-- 95, V-DT. -/
theorem test_decode_movRmImm :
    decodes [0xC7, 0x85, 0x34, 0x12, 0xCD, 0xAB] (.movRmImm .word (.mem (.disp16 .di 0x1234)) 0xABCD) = true := by decide

/-- 95, V-DT. -/
theorem test_decode_movRegImm : decodes [0xB5, 0x80] (.movRegImm .byte .bp 0x80) = true := by decide

/-- 95, V-DT. -/
theorem test_decode_movAccMem : decodes [0xA1, 0x34, 0x12] (.movAccMem .word 0x1234) = true := by decide

/-- 95, V-DT. -/
theorem test_decode_movMemAcc : decodes [0xA2, 0x00, 0x02] (.movMemAcc .byte 0x0200) = true := by decide

/-- 95, V-DT. -/
theorem test_decode_movSregRm : decodes [0x8E, 0xD8] (.movSregRm .ds (.reg .ax)) = true := by decide

/-- 95, V-DT. -/
theorem test_decode_movRmSreg : decodes [0x8C, 0xD0] (.movRmSreg .ss (.reg .ax)) = true := by decide

/-- 95, V-DT. -/
theorem test_decode_pushRm : decodes [0xFF, 0x37] (.pushRm (.mem (.ind .bx))) = true := by decide

/-- 95, V-DT. -/
theorem test_decode_pushReg : decodes [0x54] (.pushReg .sp) = true := by decide

/-- 95, V-DT. -/
theorem test_decode_pushSreg : decodes [0x0E] (.pushSreg .cs) = true := by decide

/-- 95, V-DT. -/
theorem test_decode_popRm : decodes [0x8F, 0x04] (.popRm (.mem (.ind .si))) = true := by decide

/-- 95, V-DT. -/
theorem test_decode_popReg : decodes [0x5B] (.popReg .bx) = true := by decide

/-- 95, V-DT. -/
theorem test_decode_popSreg : decodes [0x07] (.popSreg .es) = true := by decide

/-- 95, V-DT. -/
theorem test_decode_xchgRmReg : decodes [0x86, 0x0F] (.xchgRmReg .byte .cx (.mem (.ind .bx))) = true := by decide

/-- 95, V-DT. -/
theorem test_decode_xchgAcc : decodes [0x93] (.xchgAcc .bx) = true := by decide

/-- 95, V-DT. -/
theorem test_decode_inFixed : decodes [0xE4, 0x60] (.inFixed .byte 0x60) = true := by decide

/-- 95, V-DT. -/
theorem test_decode_inVar : decodes [0xED] (.inVar .word) = true := by decide

/-- 95, V-DT. -/
theorem test_decode_outFixed : decodes [0xE6, 0x61] (.outFixed .byte 0x61) = true := by decide

/-- 95, V-DT. -/
theorem test_decode_outVar : decodes [0xEF] (.outVar .word) = true := by decide

/-- 95, V-DT. -/
theorem test_decode_xlat : decodes [0xD7] (.xlat) = true := by decide

/-- 95, V-DT. -/
theorem test_decode_lea : decodes [0x8D, 0x7A, 0xFE] (.lea .di (.disp8 .bpSi 0xFE)) = true := by decide

/-- 95, V-DT. -/
theorem test_decode_lds : decodes [0xC5, 0x37] (.lds .si (.ind .bx)) = true := by decide

/-- 95, V-DT. -/
theorem test_decode_les : decodes [0xC4, 0x3F] (.les .di (.ind .bx)) = true := by decide

/-- 95, V-DT. -/
theorem test_decode_lahf : decodes [0x9F] (.lahf) = true := by decide

/-- 95, V-DT. -/
theorem test_decode_sahf : decodes [0x9E] (.sahf) = true := by decide

/-- 95, V-DT. -/
theorem test_decode_pushf : decodes [0x9C] (.pushf) = true := by decide

/-- 95, V-DT. -/
theorem test_decode_popf : decodes [0x9D] (.popf) = true := by decide

/-- 95, V-AR. -/
theorem test_decode_addRmReg : decodes [0x00, 0xD8] (.addRmReg .fromReg .byte .bx (.reg .ax)) = true := by decide

/-- 95, V-AR. -/
theorem test_decode_addRmImm : decodes [0x83, 0xC3, 0xFF] (.addRmImm (.wordSx 0xFF) (.reg .bx)) = true := by decide

/-- 95, V-AR. -/
theorem test_decode_addAccImm : decodes [0x05, 0xFF, 0x00] (.addAccImm .word 0x00FF) = true := by decide

/-- 95, V-AR. -/
theorem test_decode_adcRmReg : decodes [0x11, 0xD8] (.adcRmReg .fromReg .word .bx (.reg .ax)) = true := by decide

/-- R162, form B of R160: 100000 0 1, 11 010 001. -/
theorem test_decode_adcRmImm :
    decodes [0x81, 0xD1, 0x34, 0x12] (.adcRmImm (.word 0x1234) (.reg .cx)) = true := by decide

/-- 95, V-AR. -/
theorem test_decode_adcAccImm : decodes [0x14, 0x00] (.adcAccImm .byte 0x00) = true := by decide

/-- 95, V-AR. -/
theorem test_decode_incRm : decodes [0xFE, 0x07] (.incRm .byte (.mem (.ind .bx))) = true := by decide

/-- 95, V-AR. -/
theorem test_decode_incReg : decodes [0x40] (.incReg .ax) = true := by decide

/-- 95, V-AR. -/
theorem test_decode_aaa : decodes [0x37] (.aaa) = true := by decide

/-- 95, V-AR. -/
theorem test_decode_daa : decodes [0x27] (.daa) = true := by decide

/-- R166, form A of R160: 00 101 0 1 1, 01 011 101. -/
theorem test_decode_subRmReg :
    decodes [0x2B, 0x5D, 0x80] (.subRmReg .toReg .word .bx (.mem (.disp8 .di 0x80))) = true := by decide

/-- R166, form B of R160: 100000 1 0, 00 101 110. -/
theorem test_decode_subRmImm :
    decodes [0x82, 0x2E, 0x00, 0x10, 0x07] (.subRmImm (.byte true 0x07) (.mem (.direct 0x1000))) = true := by decide

/-- R166, form C of R160: 00 101 1 0 0. -/
theorem test_decode_subAccImm : decodes [0x2C, 0x7F] (.subAccImm .byte 0x7F) = true := by decide

/-- 95, V-AR. -/
theorem test_decode_sbbRmReg : decodes [0x19, 0xD8] (.sbbRmReg .fromReg .word .bx (.reg .ax)) = true := by decide

/-- R167, form B of R160: 100000 0 0, 11 011 001. -/
theorem test_decode_sbbRmImm :
    decodes [0x80, 0xD9, 0x01] (.sbbRmImm (.byte false 0x01) (.reg .cx)) = true := by decide

/-- 95, V-AR. -/
theorem test_decode_sbbAccImm : decodes [0x1C, 0x05] (.sbbAccImm .byte 0x05) = true := by decide

/-- 95, V-AR. -/
theorem test_decode_decRm : decodes [0xFE, 0x0C] (.decRm .byte (.mem (.ind .si))) = true := by decide

/-- 95, V-AR. -/
theorem test_decode_decReg : decodes [0x49] (.decReg .cx) = true := by decide

/-- 95, V-AR. -/
theorem test_decode_negRm : decodes [0xF7, 0xD8] (.negRm .word (.reg .ax)) = true := by decide

/-- 95, V-AR. -/
theorem test_decode_cmpRmReg : decodes [0x38, 0xD8] (.cmpRmReg .fromReg .byte .bx (.reg .ax)) = true := by decide

/-- 95, V-AR. -/
theorem test_decode_cmpRmImm :
    decodes [0x80, 0x3F, 0x01] (.cmpRmImm (.byte false 0x01) (.mem (.ind .bx))) = true := by decide

/-- 95, V-AR. -/
theorem test_decode_cmpAccImm : decodes [0x3D, 0x00, 0x80] (.cmpAccImm .word 0x8000) = true := by decide

/-- 95, V-AR. -/
theorem test_decode_aas : decodes [0x3F] (.aas) = true := by decide

/-- 95, V-AR. -/
theorem test_decode_das : decodes [0x2F] (.das) = true := by decide

/-- 95, V-AR. -/
theorem test_decode_mulRm : decodes [0xF7, 0xE1] (.mulRm .word (.reg .cx)) = true := by decide

/-- 95, V-AR. -/
theorem test_decode_imulRm : decodes [0xF6, 0xE9] (.imulRm .byte (.reg .cx)) = true := by decide

/-- R178. -/
theorem test_decode_aam : decodes [0xD4, 0x0A] (.aam) = true := by decide

/-- 95, V-IN. -/
theorem test_decode_divRm : decodes [0xF6, 0xF3] (.divRm .byte (.reg .bx)) = true := by decide

/-- 95, V-IN. -/
theorem test_decode_idivRm : decodes [0xF7, 0xFB] (.idivRm .word (.reg .bx)) = true := by decide

/-- R181. -/
theorem test_decode_aad : decodes [0xD5, 0x0A] (.aad) = true := by decide

/-- R182. -/
theorem test_decode_cbw : decodes [0x98] (.cbw) = true := by decide

/-- R183. -/
theorem test_decode_cwd : decodes [0x99] (.cwd) = true := by decide

/-- R200: 1111011 0, 11 010 011. -/
theorem test_decode_notRm : decodes [0xF6, 0xD3] (.notRm .byte (.reg .bx)) = true := by decide

/-- R202: 110100 1 1, 11 100 000. -/
theorem test_decode_shlRm : decodes [0xD3, 0xE0] (.shlRm .cl .word (.reg .ax)) = true := by decide

/-- R203: 110100 0 0, 11 101 001. -/
theorem test_decode_shrRm : decodes [0xD0, 0xE9] (.shrRm .one .byte (.reg .cx)) = true := by decide

/-- 95, V-LG. -/
theorem test_decode_sarRm : decodes [0xD2, 0xF8] (.sarRm .cl .byte (.reg .ax)) = true := by decide

/-- 95, V-LG. -/
theorem test_decode_rolRm : decodes [0xD3, 0xC0] (.rolRm .cl .word (.reg .ax)) = true := by decide

/-- 95, V-LG. -/
theorem test_decode_rorRm : decodes [0xD0, 0xC8] (.rorRm .one .byte (.reg .ax)) = true := by decide

/-- 95, V-LG. -/
theorem test_decode_rclRm : decodes [0xD0, 0xD0] (.rclRm .one .byte (.reg .ax)) = true := by decide

/-- 95, V-LG. -/
theorem test_decode_rcrRm : decodes [0xD1, 0xD8] (.rcrRm .one .word (.reg .ax)) = true := by decide

/-- 95, V-LG. -/
theorem test_decode_andRmReg : decodes [0x21, 0xD8] (.andRmReg .fromReg .word .bx (.reg .ax)) = true := by decide

/-- 95, V-LG. -/
theorem test_decode_andRmImm :
    decodes [0x81, 0x27, 0xFF, 0x00] (.andRmImm .word (.mem (.ind .bx)) 0x00FF) = true := by decide

/-- 95, V-LG. -/
theorem test_decode_andAccImm : decodes [0x24, 0x0F] (.andAccImm .byte 0x0F) = true := by decide

/-- 95, V-LG. -/
theorem test_decode_testRmReg : decodes [0x85, 0xD8] (.testRmReg .word .bx (.reg .ax)) = true := by decide

/-- 95, V-LG. -/
theorem test_decode_testRmImm :
    decodes [0xF6, 0x04, 0x80] (.testRmImm .byte (.mem (.ind .si)) 0x80) = true := by decide

/-- 95, V-LG. -/
theorem test_decode_testAccImm : decodes [0xA8, 0x80] (.testAccImm .byte 0x80) = true := by decide

/-- R216, form A of R160: 00 001 0 1 0, 00 000 010. -/
theorem test_decode_orRmReg : decodes [0x0A, 0x02] (.orRmReg .toReg .byte .ax (.mem (.ind .bpSi))) = true := by decide

/-- R216: 1000000 1, 11 001 001. -/
theorem test_decode_orRmImm : decodes [0x81, 0xC9, 0x00, 0x80] (.orRmImm .word (.reg .cx) 0x8000) = true := by decide

/-- 95, V-LG. -/
theorem test_decode_orAccImm : decodes [0x0C, 0x30] (.orAccImm .byte 0x30) = true := by decide

/-- 95, V-LG. -/
theorem test_decode_xorRmReg : decodes [0x31, 0xC0] (.xorRmReg .fromReg .word .ax (.reg .ax)) = true := by decide

/-- 95, V-LG. -/
theorem test_decode_xorRmImm : decodes [0x80, 0x37, 0xFF] (.xorRmImm .byte (.mem (.ind .bx)) 0xFF) = true := by decide

/-- R217, form C of R160: 00 110 1 0 1. -/
theorem test_decode_xorAccImm : decodes [0x35, 0x0F, 0xF0] (.xorAccImm .word 0xF00F) = true := by decide

/-- R231: 1111001 z. -/
theorem test_decode_rep : decodes [0xF2] (.rep false) = true := by decide

/-- 95, V-ST. -/
theorem test_decode_movs : decodes [0xA5] (.movs .word) = true := by decide

/-- 95, V-ST. -/
theorem test_decode_cmps : decodes [0xA6] (.cmps .byte) = true := by decide

/-- 95, V-ST. -/
theorem test_decode_scas : decodes [0xAF] (.scas .word) = true := by decide

/-- 95, V-ST. -/
theorem test_decode_lods : decodes [0xAC] (.lods .byte) = true := by decide

/-- 95, V-ST. -/
theorem test_decode_stos : decodes [0xAA] (.stos .byte) = true := by decide

/-- 95, V-CT. -/
theorem test_decode_callNear : decodes [0xE8, 0xFD, 0xFF] (.callNear 0xFFFD) = true := by decide

/-- 95, V-CT. -/
theorem test_decode_callRm : decodes [0xFF, 0xD3] (.callRm (.reg .bx)) = true := by decide

/-- 95, V-CT. -/
theorem test_decode_callFar : decodes [0x9A, 0x10, 0x00, 0x00, 0x20] (.callFar 0x0010 0x2000) = true := by decide

/-- 95, V-CT. -/
theorem test_decode_callFarMem : decodes [0xFF, 0x1F] (.callFarMem (.ind .bx)) = true := by decide

/-- 95, V-CT. -/
theorem test_decode_jmpNear : decodes [0xE9, 0x20, 0x00] (.jmpNear 0x0020) = true := by decide

/-- 95, V-CT. -/
theorem test_decode_jmpShort : decodes [0xEB, 0xFE] (.jmpShort 0xFE) = true := by decide

/-- 95, V-CT. -/
theorem test_decode_jmpRm : decodes [0xFF, 0x24] (.jmpRm (.mem (.ind .si))) = true := by decide

/-- 95, V-CT. -/
theorem test_decode_jmpFar : decodes [0xEA, 0x5B, 0xE0, 0x00, 0xF0] (.jmpFar 0xE05B 0xF000) = true := by decide

/-- 95, V-CT. -/
theorem test_decode_jmpFarMem : decodes [0xFF, 0x2F] (.jmpFarMem (.ind .bx)) = true := by decide

/-- 95, V-CT. -/
theorem test_decode_ret : decodes [0xC3] (.ret) = true := by decide

/-- 95, V-CT. -/
theorem test_decode_retImm : decodes [0xC2, 0x04, 0x00] (.retImm 0x0004) = true := by decide

/-- 95, V-CT. -/
theorem test_decode_retf : decodes [0xCB] (.retf) = true := by decide

/-- 95, V-CT. -/
theorem test_decode_retfImm : decodes [0xCA, 0x02, 0x00] (.retfImm 0x0002) = true := by decide

/-- 95, V-CT. -/
theorem test_decode_je : decodes [0x74, 0x10] (.je 0x10) = true := by decide

/-- 95, V-CT. -/
theorem test_decode_jl : decodes [0x7C, 0x02] (.jl 0x02) = true := by decide

/-- 95, V-CT. -/
theorem test_decode_jle : decodes [0x7E, 0x02] (.jle 0x02) = true := by decide

/-- 95, V-CT. -/
theorem test_decode_jb : decodes [0x72, 0x02] (.jb 0x02) = true := by decide

/-- 95, V-CT. -/
theorem test_decode_jbe : decodes [0x76, 0x02] (.jbe 0x02) = true := by decide

/-- 95, V-CT. -/
theorem test_decode_jp : decodes [0x7A, 0x02] (.jp 0x02) = true := by decide

/-- 95, V-CT. -/
theorem test_decode_jo : decodes [0x70, 0x02] (.jo 0x02) = true := by decide

/-- 95, V-CT. -/
theorem test_decode_js : decodes [0x78, 0x02] (.js 0x02) = true := by decide

/-- 95, V-CT. -/
theorem test_decode_jne : decodes [0x75, 0xF0] (.jne 0xF0) = true := by decide

/-- 95, V-CT. -/
theorem test_decode_jnl : decodes [0x7D, 0x02] (.jnl 0x02) = true := by decide

/-- 95, V-CT. -/
theorem test_decode_jnle : decodes [0x7F, 0x02] (.jnle 0x02) = true := by decide

/-- R275. -/
theorem test_decode_jnb : decodes [0x73, 0x80] (.jnb 0x80) = true := by decide

/-- 95, V-CT. -/
theorem test_decode_jnbe : decodes [0x77, 0x02] (.jnbe 0x02) = true := by decide

/-- R277. -/
theorem test_decode_jnp : decodes [0x7B, 0x02] (.jnp 0x02) = true := by decide

/-- 95, V-CT. -/
theorem test_decode_jno : decodes [0x71, 0x02] (.jno 0x02) = true := by decide

/-- R279. -/
theorem test_decode_jns : decodes [0x79, 0x02] (.jns 0x02) = true := by decide

/-- 95, V-CT. -/
theorem test_decode_loop : decodes [0xE2, 0xFE] (.loop 0xFE) = true := by decide

/-- 95, V-CT. -/
theorem test_decode_loopz : decodes [0xE1, 0x04] (.loopz 0x04) = true := by decide

/-- 95, V-CT. -/
theorem test_decode_loopnz : decodes [0xE0, 0x04] (.loopnz 0x04) = true := by decide

/-- 95, V-CT. -/
theorem test_decode_jcxz : decodes [0xE3, 0x04] (.jcxz 0x04) = true := by decide

/-- 95, V-IN. -/
theorem test_decode_intType : decodes [0xCD, 0x21] (.intType 0x21) = true := by decide

/-- 95, V-IN. -/
theorem test_decode_int3 : decodes [0xCC] (.int3) = true := by decide

/-- 95, V-IN. -/
theorem test_decode_into : decodes [0xCE] (.into) = true := by decide

/-- 95, V-IN. -/
theorem test_decode_iret : decodes [0xCF] (.iret) = true := by decide

/-- 95, V-PC. -/
theorem test_decode_clc : decodes [0xF8] (.clc) = true := by decide

/-- 95, V-PC. -/
theorem test_decode_cmc : decodes [0xF5] (.cmc) = true := by decide

/-- 95, V-PC. -/
theorem test_decode_stc : decodes [0xF9] (.stc) = true := by decide

/-- 95, V-PC. -/
theorem test_decode_cld : decodes [0xFC] (.cld) = true := by decide

/-- 95, V-PC. -/
theorem test_decode_std : decodes [0xFD] (.std) = true := by decide

/-- 95, V-PC. -/
theorem test_decode_cli : decodes [0xFA] (.cli) = true := by decide

/-- 95, V-PC. -/
theorem test_decode_sti : decodes [0xFB] (.sti) = true := by decide

/-- 95, V-PC. -/
theorem test_decode_hlt : decodes [0xF4] (.hlt) = true := by decide

/-- 95, V-PC. -/
theorem test_decode_wait : decodes [0x9B] (.wait) = true := by decide

/-- 95, V-PC. -/
theorem test_decode_esc : decodes [0xDB, 0x20] (.esc 3 4 (.mem (.ind .bxSi))) = true := by decide

/-- 95, V-PC. -/
theorem test_decode_lock : decodes [0xF0] (.lock) = true := by decide

/-- R311. -/
theorem test_decode_segOverride : decodes [0x26] (.segOverride .es) = true := by decide

/-- R96: each first byte of R108's list is refused. -/
theorem test_decode_refuses_first_bytes :
    ([0x0F, 0x60, 0x6F, 0xC0, 0xC1, 0xC8, 0xC9, 0xD6, 0xF1] : List Byte).all
      (fun b => match decode [b, 0, 0, 0, 0, 0] with | .error _ => true | .ok _ => false) = true := by decide

/-- 95, V-RF: second bytes that are refused. -/
theorem test_decode_refuses_second_bytes :
    ([[0x8E, 0xC8], [0x8C, 0xE0], [0x8F, 0xC8], [0xC6, 0xC8, 0], [0xFE, 0xD0], [0xFF, 0xF8], [0xF6, 0xC8, 0],
      [0x8D, 0xC0], [0xC5, 0xC0], [0xD5, 0x10], [0x82, 0xC8, 1], [0x83, 0xE3, 0xF0], [0xD0, 0xF0]] :
        List (List Byte)).all
      (fun l => match decode l with | .error _ => true | .ok _ => false) = true := by decide

/-! ## Single steps -/

/-- 95, V-DT, `mov [bx+si+0x10], cx`. -/
theorem test_step_movRmReg :
    runs [0x89, 0x48, 0x10] [reg .bx 0x0100, reg .si 0x0020, reg .cx 0xBEEF, bytes 0x20130 [0x00, 0x00]]
      [ipIs 0x0103, cellIs 0x20130 0xEF, cellIs 0x20131 0xBE] = true := by decide

/-- 95, V-DT, `mov word ptr [di+0x1234], 0xabcd`. -/
theorem test_step_movRmImm :
    runs [0xC7, 0x85, 0x34, 0x12, 0xCD, 0xAB] [reg .di 0x0010, bytes 0x21244 [0x00, 0x00]]
      [ipIs 0x0106, cellIs 0x21244 0xCD, cellIs 0x21245 0xAB] = true := by decide

/-- 95, V-DT, `mov bx, 0xfffe`. -/
theorem test_step_movRegImm :
    runs [0xBB, 0xFE, 0xFF] []
      [regIs .bx 0xFFFE, ipIs 0x0103] = true := by decide

/-- 95, V-DT, `mov ax, [0x1234]`. -/
theorem test_step_movAccMem :
    runs [0xA1, 0x34, 0x12] [bytes 0x21234 [0xCD, 0xAB]]
      [regIs .ax 0xABCD, ipIs 0x0103] = true := by decide

/-- 95, V-DT, `mov [0x0200], al`. -/
theorem test_step_movMemAcc :
    runs [0xA2, 0x00, 0x02] [half .ax 0x5A, bytes 0x20200 [0x00]]
      [ipIs 0x0103, cellIs 0x20200 0x5A] = true := by decide

/-- 95, V-DT, `mov ds, ax`. -/
theorem test_step_movSregRm :
    runs [0x8E, 0xD8] [reg .ax 0x2222]
      [segIs .ds 0x2222, ipIs 0x0102] = true := by decide

/-- 95, V-DT, `mov ax, ss`. -/
theorem test_step_movRmSreg :
    runs [0x8C, 0xD0] []
      [regIs .ax 0x4000, ipIs 0x0102] = true := by decide

/-- 95, V-DT, `push word ptr [bx]`. -/
theorem test_step_pushRm :
    runs [0xFF, 0x37] [reg .bx 0x0020, bytes 0x20020 [0x11, 0x22], bytes 0x400FE [0x00, 0x00]]
      [regIs .sp 0x00FE, ipIs 0x0102, cellIs 0x400FE 0x11, cellIs 0x400FF 0x22] = true := by decide

/-- 95, V-DT, `push ax`. -/
theorem test_step_pushReg :
    runs [0x50] [reg .ax 0x1234, bytes 0x400FE [0x00, 0x00]]
      [regIs .sp 0x00FE, ipIs 0x0101, cellIs 0x400FE 0x34, cellIs 0x400FF 0x12] = true := by decide

/-- 95, V-DT, `push cs`. -/
theorem test_step_pushSreg :
    runs [0x0E] [bytes 0x400FE [0x00, 0x00]]
      [regIs .sp 0x00FE, ipIs 0x0101, cellIs 0x400FF 0x10] = true := by decide

/-- 95, V-DT, `pop word ptr [si]`. -/
theorem test_step_popRm :
    runs [0x8F, 0x04] [reg .si 0x0040, bytes 0x40100 [0x01, 0x02], bytes 0x20040 [0x00, 0x00]]
      [regIs .sp 0x0102, ipIs 0x0102, cellIs 0x20040 0x01, cellIs 0x20041 0x02] = true := by decide

/-- 95, V-DT, `pop bx`. -/
theorem test_step_popReg :
    runs [0x5B] [bytes 0x40100 [0xAA, 0x55]]
      [regIs .bx 0x55AA, regIs .sp 0x0102, ipIs 0x0101] = true := by decide

/-- 95, V-DT, `pop es`. -/
theorem test_step_popSreg :
    runs [0x07] [bytes 0x40100 [0x00, 0x50]]
      [regIs .sp 0x0102, segIs .es 0x5000, ipIs 0x0101] = true := by decide

/-- 95, V-DT, `xchg cl, [bx]`. -/
theorem test_step_xchgRmReg :
    runs [0x86, 0x0F] [half .cx 0x11, reg .bx 0x0008, bytes 0x20008 [0x22]]
      [regIs .cx 0x0022, ipIs 0x0102, cellIs 0x20008 0x11] = true := by decide

/-- 95, V-DT, `xchg ax, bx`. -/
theorem test_step_xchgAcc :
    runs [0x93] [reg .ax 0x0001, reg .bx 0x0002]
      [regIs .ax 0x0002, regIs .bx 0x0001, ipIs 0x0101] = true := by decide

/-- 95, V-DT, `out 0x61, al`. -/
theorem test_step_outFixed :
    runs [0xE6, 0x61] [half .ax 0x33]
      [ipIs 0x0102, out [(0x0061, 0x33)]] = true := by decide

/-- 95, V-DT, `out dx, ax`. -/
theorem test_step_outVar :
    runs [0xEF] [reg .dx 0x03F8, reg .ax 0x4142]
      [ipIs 0x0101, out [(0x03F8, 0x42), (0x03F9, 0x41)]] = true := by decide

/-- 95, V-DT, `xlat`. -/
theorem test_step_xlat :
    runs [0xD7] [reg .bx 0x0200, half .ax 0x05, bytes 0x20205 [0x77]]
      [regIs .ax 0x0077, ipIs 0x0101] = true := by decide

/-- 95, V-DT, `lea di, [bp+si-2]`. -/
theorem test_step_lea :
    runs [0x8D, 0x7A, 0xFE] [reg .bp 0x1000, reg .si 0x0001]
      [regIs .di 0x0FFF, ipIs 0x0103] = true := by decide

/-- 95, V-DT, `lds si, [bx]`. -/
theorem test_step_lds :
    runs [0xC5, 0x37] [reg .bx 0x0010, bytes 0x20010 [0x78, 0x56, 0x34, 0x12]]
      [regIs .si 0x5678, segIs .ds 0x1234, ipIs 0x0102] = true := by decide

/-- 95, V-DT, `les di, [bx]`. -/
theorem test_step_les :
    runs [0xC4, 0x3F] [reg .bx 0x0010, bytes 0x20010 [0x78, 0x56, 0x34, 0x12]]
      [regIs .di 0x5678, segIs .es 0x1234, ipIs 0x0102] = true := by decide

/-- 95, V-DT, `lahf`. -/
theorem test_step_lahf :
    runs [0x9F] [flag .sf, flag .af, flag .cf]
      [ipIs 0x0101] = true := by decide

/-- 95, V-DT, `sahf`. -/
theorem test_step_sahf :
    runs [0x9E] [half .sp 0xD5, flag .ofl]
      [ipIs 0x0101, flagIs .cf true, flagIs .pf true, flagIs .af true, flagIs .zf true,
        flagIs .sf true] = true := by decide

/-- 95, V-DT, `pushf`. -/
theorem test_step_pushf :
    runs [0x9C] [flag .cf, flag .zf, flag .ifl, bytes 0x400FE [0x00, 0x00]]
      [regIs .sp 0x00FE, ipIs 0x0101] = true := by decide

/-- 95, V-DT, `popf`. -/
theorem test_step_popf :
    runs [0x9D] [bytes 0x40100 [0xD5, 0x0F]]
      [regIs .sp 0x0102, ipIs 0x0101, flagIs .cf true, flagIs .pf true, flagIs .af true, flagIs .zf true,
        flagIs .sf true, flagIs .tf true, flagIs .ifl true, flagIs .df true, flagIs .ofl true] = true := by decide

/-- 95, V-AR, `add al, bl`. -/
theorem test_step_addRmReg :
    runs [0x00, 0xD8] [half .ax 0xFF, half .bx 0x01]
      [regIs .ax 0x0000, ipIs 0x0102, flagIs .cf true, flagIs .pf true, flagIs .af true,
        flagIs .zf true] = true := by decide

/-- 95, V-AR, `add bx, -1`. -/
theorem test_step_addRmImm :
    runs [0x83, 0xC3, 0xFF] [reg .bx 0x0001]
      [regIs .bx 0x0000, ipIs 0x0103, flagIs .cf true, flagIs .pf true, flagIs .af true,
        flagIs .zf true] = true := by decide

/-- 95, V-AR, `add ax, 0x00ff`. -/
theorem test_step_addAccImm :
    runs [0x05, 0xFF, 0x00] [reg .ax 0x0001]
      [regIs .ax 0x0100, ipIs 0x0103, flagIs .pf true, flagIs .af true] = true := by decide

/-- 95, V-AR, `adc ax, bx`. -/
theorem test_step_adcRmReg :
    runs [0x11, 0xD8] [reg .ax 0xFFFF, reg .bx 0x0000, flag .cf]
      [regIs .ax 0x0000, ipIs 0x0102, flagIs .pf true, flagIs .af true, flagIs .zf true] = true := by decide

/-- 95, V-AR, `adc al, 0`. -/
theorem test_step_adcAccImm :
    runs [0x14, 0x00] [half .ax 0x0F, flag .cf]
      [regIs .ax 0x0010, ipIs 0x0102, flagIs .cf false, flagIs .af true] = true := by decide

/-- 95, V-AR, `inc byte ptr [bx]`. -/
theorem test_step_incRm :
    runs [0xFE, 0x07] [reg .bx 0x0002, bytes 0x20002 [0x7F]]
      [ipIs 0x0102, flagIs .af true, flagIs .sf true, flagIs .ofl true, cellIs 0x20002 0x80] = true := by decide

/-- 95, V-AR, `inc ax`. -/
theorem test_step_incReg :
    runs [0x40] [reg .ax 0xFFFF, flag .cf]
      [regIs .ax 0x0000, ipIs 0x0101, flagIs .pf true, flagIs .af true, flagIs .zf true] = true := by decide

/-- 95, V-AR, `aaa`. -/
theorem test_step_aaa :
    runs [0x37] [reg .ax 0x000F]
      [regIs .ax 0x0105, ipIs 0x0101, flagIs .cf true, flagIs .af true] = true := by decide

/-- 95, V-AR, `daa`. -/
theorem test_step_daa :
    runs [0x27] [half .ax 0x9A]
      [regIs .ax 0x0000, ipIs 0x0101, flagIs .cf true, flagIs .pf true, flagIs .af true,
        flagIs .zf true] = true := by decide

/-- 95, V-AR, `sub ax, bx`. -/
theorem test_step_subRmReg :
    runs [0x29, 0xD8] [reg .ax 0x0000, reg .bx 0x0001]
      [regIs .ax 0xFFFF, ipIs 0x0102, flagIs .cf true, flagIs .pf true, flagIs .af true,
        flagIs .sf true] = true := by decide

/-- 95, V-AR, `sbb ax, bx`. -/
theorem test_step_sbbRmReg :
    runs [0x19, 0xD8] [reg .ax 0x0000, reg .bx 0xFFFF, flag .cf]
      [ipIs 0x0102, flagIs .pf true, flagIs .af true, flagIs .zf true] = true := by decide

/-- 95, V-AR, `sbb al, 5`. -/
theorem test_step_sbbAccImm :
    runs [0x1C, 0x05] [half .ax 0x05, flag .cf]
      [regIs .ax 0x00FF, ipIs 0x0102, flagIs .pf true, flagIs .af true, flagIs .sf true] = true := by decide

/-- 95, V-AR, `dec byte ptr [si]`. -/
theorem test_step_decRm :
    runs [0xFE, 0x0C] [reg .si 0x0002, bytes 0x20002 [0x80]]
      [ipIs 0x0102, flagIs .af true, flagIs .ofl true, cellIs 0x20002 0x7F] = true := by decide

/-- 95, V-AR, `dec cx`. -/
theorem test_step_decReg :
    runs [0x49] [reg .cx 0x0000]
      [regIs .cx 0xFFFF, ipIs 0x0101, flagIs .pf true, flagIs .af true, flagIs .sf true] = true := by decide

/-- 95, V-AR, `neg al`. -/
theorem test_step_negRm :
    runs [0xF6, 0xD8] [half .ax 0x01]
      [regIs .ax 0x00FF, ipIs 0x0102, flagIs .cf true, flagIs .pf true, flagIs .af true,
        flagIs .sf true] = true := by decide

/-- 95, V-AR, `cmp al, bl`. -/
theorem test_step_cmpRmReg :
    runs [0x38, 0xD8] [half .ax 0x05, half .bx 0x05]
      [ipIs 0x0102, flagIs .pf true, flagIs .zf true] = true := by decide

/-- 95, V-AR, `cmp byte ptr [bx], 1`. -/
theorem test_step_cmpRmImm :
    runs [0x80, 0x3F, 0x01] [reg .bx 0x0000, bytes 0x20000 [0x00]]
      [ipIs 0x0103, flagIs .cf true, flagIs .pf true, flagIs .af true, flagIs .sf true] = true := by decide

/-- 95, V-AR, `cmp ax, 0x8000`. -/
theorem test_step_cmpAccImm :
    runs [0x3D, 0x00, 0x80] [reg .ax 0x7FFF]
      [ipIs 0x0103, flagIs .cf true, flagIs .pf true, flagIs .sf true, flagIs .ofl true] = true := by decide

/-- 95, V-AR, `aas`. -/
theorem test_step_aas :
    runs [0x3F] [reg .ax 0x01FE, flag .af]
      [regIs .ax 0x0008, ipIs 0x0101, flagIs .cf true] = true := by decide

/-- 95, V-AR, `das`. -/
theorem test_step_das :
    runs [0x2F] [half .ax 0xEE, flag .cf, flag .af]
      [regIs .ax 0x0088, ipIs 0x0101, flagIs .pf true, flagIs .sf true] = true := by decide

/-- 95, V-AR, `mul bx`. -/
theorem test_step_mulRm :
    runs [0xF7, 0xE3] [reg .ax 0xFFFF, reg .bx 0xFFFF]
      [regIs .ax 0x0001, regIs .dx 0xFFFE, ipIs 0x0102, flagIs .cf true, flagIs .ofl true] = true := by decide

/-- 95, V-AR, `imul bx`. -/
theorem test_step_imulRm :
    runs [0xF7, 0xEB] [reg .ax 0x4000, reg .bx 0x0004]
      [regIs .ax 0x0000, regIs .dx 0x0001, ipIs 0x0102, flagIs .cf true, flagIs .ofl true] = true := by decide

/-- 95, V-AR, `aam`. -/
theorem test_step_aam :
    runs [0xD4, 0x0A] [half .ax 0x3F]
      [regIs .ax 0x0603, ipIs 0x0102, flagIs .pf true] = true := by decide

/-- 95, V-AR, `div bx`. -/
theorem test_step_divRm :
    runs [0xF7, 0xF3] [reg .dx 0x0001, reg .ax 0x0000, reg .bx 0x0002]
      [regIs .ax 0x8000, regIs .dx 0x0000, ipIs 0x0102] = true := by decide

/-- 95, V-AR, `idiv bx`. -/
theorem test_step_idivRm :
    runs [0xF7, 0xFB] [reg .dx 0xFFFF, reg .ax 0xFF9C, reg .bx 0x0007]
      [regIs .ax 0xFFF2, regIs .dx 0xFFFE, ipIs 0x0102] = true := by decide

/-- 95, V-AR, `aad`. -/
theorem test_step_aad :
    runs [0xD5, 0x0A] [reg .ax 0x0603]
      [regIs .ax 0x003F, ipIs 0x0102, flagIs .pf true] = true := by decide

/-- 95, V-AR, `cbw`. -/
theorem test_step_cbw :
    runs [0x98] [half .ax 0x80]
      [regIs .ax 0xFF80, ipIs 0x0101] = true := by decide

/-- 95, V-AR, `cwd`. -/
theorem test_step_cwd :
    runs [0x99] [reg .ax 0x8000]
      [regIs .dx 0xFFFF, ipIs 0x0101] = true := by decide

/-- 95, V-LG, `not word ptr [bx]`. -/
theorem test_step_notRm :
    runs [0xF7, 0x17] [reg .bx 0x0000, bytes 0x20000 [0x00, 0xFF]]
      [ipIs 0x0102, cellIs 0x20000 0xFF, cellIs 0x20001 0x00] = true := by decide

/-- 95, V-LG, `shl ax, cl`. -/
theorem test_step_shlRm :
    runs [0xD3, 0xE0] [reg .ax 0x0001, half .cx 0x10]
      [regIs .ax 0x0000, ipIs 0x0102, flagIs .cf true, flagIs .pf true, flagIs .zf true] = true := by decide

/-- 95, V-LG, `shr ax, 1`. -/
theorem test_step_shrRm :
    runs [0xD1, 0xE8] [reg .ax 0x8001]
      [regIs .ax 0x4000, ipIs 0x0102, flagIs .cf true, flagIs .pf true, flagIs .ofl true] = true := by decide

/-- 95, V-LG, `sar ax, 1`. -/
theorem test_step_sarRm :
    runs [0xD1, 0xF8] [reg .ax 0x8000]
      [regIs .ax 0xC000, ipIs 0x0102, flagIs .pf true, flagIs .sf true] = true := by decide

/-- 95, V-LG, `rol al, 1`. -/
theorem test_step_rolRm :
    runs [0xD0, 0xC0] [half .ax 0x81, flag .zf]
      [regIs .ax 0x0003, ipIs 0x0102, flagIs .cf true, flagIs .ofl true] = true := by decide

/-- 95, V-LG, `ror al, 1`. -/
theorem test_step_rorRm :
    runs [0xD0, 0xC8] [half .ax 0x01]
      [regIs .ax 0x0080, ipIs 0x0102, flagIs .cf true, flagIs .ofl true] = true := by decide

/-- 95, V-LG, `rcl al, 1`. -/
theorem test_step_rclRm :
    runs [0xD0, 0xD0] [half .ax 0x80, flag .cf]
      [regIs .ax 0x0001, ipIs 0x0102, flagIs .ofl true] = true := by decide

/-- 95, V-LG, `rcr ax, 1`. -/
theorem test_step_rcrRm :
    runs [0xD1, 0xD8] [reg .ax 0x0000, flag .cf]
      [regIs .ax 0x8000, ipIs 0x0102, flagIs .cf false, flagIs .ofl true] = true := by decide

/-- 95, V-LG, `and ax, bx`. -/
theorem test_step_andRmReg :
    runs [0x21, 0xD8] [reg .ax 0xFF00, reg .bx 0x0FF0]
      [regIs .ax 0x0F00, ipIs 0x0102, flagIs .pf true] = true := by decide

/-- 95, V-LG, `and word ptr [bx], 0x00ff`. -/
theorem test_step_andRmImm :
    runs [0x81, 0x27, 0xFF, 0x00] [reg .bx 0x0000, bytes 0x20000 [0x34, 0x12]]
      [ipIs 0x0104, cellIs 0x20001 0x00] = true := by decide

/-- 95, V-LG, `and al, 0x0f`. -/
theorem test_step_andAccImm :
    runs [0x24, 0x0F] [half .ax 0xF5, flag .cf, flag .ofl]
      [regIs .ax 0x0005, ipIs 0x0102, flagIs .cf false, flagIs .pf true, flagIs .ofl false] = true := by decide

/-- 95, V-LG, `test ax, bx`. -/
theorem test_step_testRmReg :
    runs [0x85, 0xD8] [reg .ax 0x00FF, reg .bx 0xFF00]
      [ipIs 0x0102, flagIs .pf true, flagIs .zf true] = true := by decide

/-- 95, V-LG, `test byte ptr [si], 0x80`. -/
theorem test_step_testRmImm :
    runs [0xF6, 0x04, 0x80] [reg .si 0x0000, bytes 0x20000 [0x7F]]
      [ipIs 0x0103, flagIs .pf true, flagIs .zf true] = true := by decide

/-- 95, V-LG, `test al, 0x80`. -/
theorem test_step_testAccImm :
    runs [0xA8, 0x80] [half .ax 0x80]
      [ipIs 0x0102, flagIs .sf true] = true := by decide

/-- 95, V-LG, `or ax, ax`. -/
theorem test_step_orRmReg :
    runs [0x09, 0xC0] [reg .ax 0x0000, flag .cf]
      [ipIs 0x0102, flagIs .cf false, flagIs .pf true, flagIs .zf true] = true := by decide

/-- 95, V-LG, `or al, 0x30`. -/
theorem test_step_orAccImm :
    runs [0x0C, 0x30] [half .ax 0x05]
      [regIs .ax 0x0035, ipIs 0x0102, flagIs .pf true] = true := by decide

/-- 95, V-LG, `xor ax, ax`. -/
theorem test_step_xorRmReg :
    runs [0x31, 0xC0] [reg .ax 0x1234, flag .cf, flag .ofl]
      [regIs .ax 0x0000, ipIs 0x0102, flagIs .cf false, flagIs .pf true, flagIs .zf true,
        flagIs .ofl false] = true := by decide

/-- 95, V-LG, `xor byte ptr [bx], 0xff`. -/
theorem test_step_xorRmImm :
    runs [0x80, 0x37, 0xFF] [reg .bx 0x0000, bytes 0x20000 [0xAA]]
      [ipIs 0x0103, flagIs .pf true, cellIs 0x20000 0x55] = true := by decide

/-- 95, V-ST, `movsw`. -/
theorem test_step_movs :
    runs [0xA5] [reg .si 0x0010, reg .di 0x0020, flag .df, bytes 0x20010 [0x41, 0x42], bytes 0x30020 [0x00, 0x00]]
      [regIs .si 0x000E, regIs .di 0x001E, ipIs 0x0101, cellIs 0x30020 0x41, cellIs 0x30021 0x42] = true := by decide

/-- 95, V-ST, `cmpsb`. -/
theorem test_step_cmps :
    runs [0xA6] [reg .si 0x0000, reg .di 0x0000, bytes 0x20000 [0x05], bytes 0x30000 [0x07]]
      [regIs .si 0x0001, regIs .di 0x0001, ipIs 0x0101, flagIs .cf true, flagIs .af true,
        flagIs .sf true] = true := by decide

/-- 95, V-ST, `scasw`. -/
theorem test_step_scas :
    runs [0xAF] [reg .di 0x0004, reg .ax 0x1234, bytes 0x30004 [0x34, 0x12]]
      [regIs .di 0x0006, ipIs 0x0101, flagIs .pf true, flagIs .zf true] = true := by decide

/-- 95, V-ST, `lodsb`. -/
theorem test_step_lods :
    runs [0xAC] [reg .si 0x0007, bytes 0x20007 [0x5A]]
      [regIs .ax 0x005A, regIs .si 0x0008, ipIs 0x0101] = true := by decide

/-- 95, V-ST, `stosb`. -/
theorem test_step_stos :
    runs [0xAA] [reg .di 0x0009, half .ax 0xEE, bytes 0x30009 [0x00]]
      [regIs .di 0x000A, ipIs 0x0101, cellIs 0x30009 0xEE] = true := by decide

/-- 95, V-CT, `call near`. -/
theorem test_step_callNear :
    runs [0xE8, 0x10, 0x00] [bytes 0x400FC [0x00, 0x00, 0x00, 0x00]]
      [regIs .sp 0x00FE, ipIs 0x0113, cellIs 0x400FE 0x03, cellIs 0x400FF 0x01] = true := by decide

/-- 95, V-CT, `call bx`. -/
theorem test_step_callRm :
    runs [0xFF, 0xD3] [bytes 0x400FC [0x00, 0x00, 0x00, 0x00], reg .bx 0x2000]
      [regIs .sp 0x00FE, ipIs 0x2000, cellIs 0x400FE 0x02, cellIs 0x400FF 0x01] = true := by decide

/-- 95, V-CT, `call far 2000:0010`. -/
theorem test_step_callFar :
    runs [0x9A, 0x10, 0x00, 0x00, 0x20] [bytes 0x400FC [0x00, 0x00, 0x00, 0x00]]
      [regIs .sp 0x00FC, segIs .cs 0x2000, ipIs 0x0010, cellIs 0x400FC 0x05, cellIs 0x400FD 0x01,
        cellIs 0x400FF 0x10] = true := by decide

/-- 95, V-CT, `call far [bx]`. -/
theorem test_step_callFarMem :
    runs [0xFF, 0x1F] [reg .bx 0x0010, bytes 0x20010 [0x34, 0x12, 0x00, 0x50], bytes 0x400FC [0x00, 0x00, 0x00, 0x00]]
      [regIs .sp 0x00FC, segIs .cs 0x5000, ipIs 0x1234, cellIs 0x400FC 0x02, cellIs 0x400FD 0x01,
        cellIs 0x400FF 0x10] = true := by decide

/-- 95, V-CT, `jmp near`. -/
theorem test_step_jmpNear :
    runs [0xE9, 0x20, 0x00] [startIp 0xFFF0]
      [ipIs 0x0013] = true := by decide

/-- 95, V-CT, `jmp short +5`. -/
theorem test_step_jmpShort :
    runs [0xEB, 0x05] []
      [ipIs 0x0107] = true := by decide

/-- 95, V-CT, `jmp ax`. -/
theorem test_step_jmpRm :
    runs [0xFF, 0xE0] [reg .ax 0x4321]
      [ipIs 0x4321] = true := by decide

/-- 95, V-CT, `jmp far F000:E05B`. -/
theorem test_step_jmpFar :
    runs [0xEA, 0x5B, 0xE0, 0x00, 0xF0] []
      [segIs .cs 0xF000, ipIs 0xE05B] = true := by decide

/-- 95, V-CT, `jmp far [bx]`. -/
theorem test_step_jmpFarMem :
    runs [0xFF, 0x2F] [reg .bx 0x0000, bytes 0x20000 [0x01, 0x00, 0x02, 0x00]]
      [segIs .cs 0x0002, ipIs 0x0001] = true := by decide

/-- 95, V-CT, `ret`. -/
theorem test_step_ret :
    runs [0xC3] [bytes 0x40100 [0x34, 0x12]]
      [regIs .sp 0x0102, ipIs 0x1234] = true := by decide

/-- 95, V-CT, `ret 4`. -/
theorem test_step_retImm :
    runs [0xC2, 0x04, 0x00] [bytes 0x40100 [0x34, 0x12]]
      [regIs .sp 0x0106, ipIs 0x1234] = true := by decide

/-- 95, V-CT, `retf`. -/
theorem test_step_retf :
    runs [0xCB] [bytes 0x40100 [0x34, 0x12, 0x00, 0x50]]
      [regIs .sp 0x0104, segIs .cs 0x5000, ipIs 0x1234] = true := by decide

/-- 95, V-CT, `retf 2`. -/
theorem test_step_retfImm :
    runs [0xCA, 0x02, 0x00] [bytes 0x40100 [0x34, 0x12, 0x00, 0x50]]
      [regIs .sp 0x0106, segIs .cs 0x5000, ipIs 0x1234] = true := by decide

/-- 95, V-CT, `jz +0x10`. -/
theorem test_step_je :
    runs [0x74, 0x10] [flag .zf]
      [ipIs 0x0112] = true := by decide

/-- 95, V-CT, `jl +2`. -/
theorem test_step_jl :
    runs [0x7C, 0x02] [flag .sf]
      [ipIs 0x0104] = true := by decide

/-- 95, V-CT, `jle +2`. -/
theorem test_step_jle :
    runs [0x7E, 0x02] [flag .zf]
      [ipIs 0x0104] = true := by decide

/-- 95, V-CT, `jb +2`. -/
theorem test_step_jb :
    runs [0x72, 0x02] [flag .cf]
      [ipIs 0x0104] = true := by decide

/-- 95, V-CT, `jbe +2`. -/
theorem test_step_jbe :
    runs [0x76, 0x02] []
      [ipIs 0x0102] = true := by decide

/-- 95, V-CT, `jp +2`. -/
theorem test_step_jp :
    runs [0x7A, 0x02] [flag .pf]
      [ipIs 0x0104] = true := by decide

/-- 95, V-CT, `jo +2`. -/
theorem test_step_jo :
    runs [0x70, 0x02] [flag .ofl]
      [ipIs 0x0104] = true := by decide

/-- 95, V-CT, `js +2`. -/
theorem test_step_js :
    runs [0x78, 0x02] []
      [ipIs 0x0102] = true := by decide

/-- 95, V-CT, `jnz -0x10`. -/
theorem test_step_jne :
    runs [0x75, 0xF0] []
      [ipIs 0x00F2] = true := by decide

/-- 95, V-CT, `jge +2`. -/
theorem test_step_jnl :
    runs [0x7D, 0x02] [flag .sf, flag .ofl]
      [ipIs 0x0104] = true := by decide

/-- 95, V-CT, `jg +2`. -/
theorem test_step_jnle :
    runs [0x7F, 0x02] [flag .sf, flag .ofl]
      [ipIs 0x0104] = true := by decide

/-- 95, V-CT, `ja +2`. -/
theorem test_step_jnbe :
    runs [0x77, 0x02] []
      [ipIs 0x0104] = true := by decide

/-- 95, V-CT, `jno +2`. -/
theorem test_step_jno :
    runs [0x71, 0x02] []
      [ipIs 0x0104] = true := by decide

/-- 95, V-CT, `loop -2`. -/
theorem test_step_loop :
    runs [0xE2, 0xFE] [reg .cx 0x0001]
      [regIs .cx 0x0000, ipIs 0x0102] = true := by decide

/-- 95, V-CT, `loopz +4`. -/
theorem test_step_loopz :
    runs [0xE1, 0x04] [reg .cx 0x0005, flag .zf]
      [regIs .cx 0x0004, ipIs 0x0106] = true := by decide

/-- 95, V-CT, `loopnz +4`. -/
theorem test_step_loopnz :
    runs [0xE0, 0x04] [reg .cx 0x0005]
      [regIs .cx 0x0004, ipIs 0x0106] = true := by decide

/-- 95, V-CT, `jcxz +4`. -/
theorem test_step_jcxz :
    runs [0xE3, 0x04] [reg .cx 0x0000]
      [ipIs 0x0106] = true := by decide

/-- 95, V-IN, `int 3 long form`. -/
theorem test_step_intType :
    runs [0xCD, 0x03] [bytes 0x0000C [0x10, 0x00, 0x00, 0x70], bytes 0x400FA [0x00, 0x00, 0x00, 0x00, 0x00, 0x00]]
      [regIs .sp 0x00FA, segIs .cs 0x7000, ipIs 0x0010, cellIs 0x400FA 0x02, cellIs 0x400FB 0x01,
        cellIs 0x400FD 0x10] = true := by decide

/-- 95, V-IN, `int 3`. -/
theorem test_step_int3 :
    runs [0xCC] [bytes 0x0000C [0x10, 0x00, 0x00, 0x70], bytes 0x400FA [0x00, 0x00, 0x00, 0x00, 0x00, 0x00], flag .ifl]
      [regIs .sp 0x00FA, segIs .cs 0x7000, ipIs 0x0010, flagIs .ifl false, cellIs 0x400FA 0x01, cellIs 0x400FB 0x01,
        cellIs 0x400FD 0x10] = true := by decide

/-- 95, V-IN, `into`. -/
theorem test_step_into :
    runs [0xCE] [bytes 0x00010 [0x20, 0x00, 0x00, 0x70], bytes 0x400FA [0x00, 0x00, 0x00, 0x00, 0x00, 0x00], flag .ofl]
      [regIs .sp 0x00FA, segIs .cs 0x7000, ipIs 0x0020, cellIs 0x400FA 0x01, cellIs 0x400FB 0x01,
        cellIs 0x400FD 0x10] = true := by decide

/-- 95, V-IN, `iret`. -/
theorem test_step_iret :
    runs [0xCF] [bytes 0x40100 [0x34, 0x12, 0x00, 0x50, 0xD7, 0x0F]]
      [regIs .sp 0x0106, segIs .cs 0x5000, ipIs 0x1234, flagIs .cf true, flagIs .pf true, flagIs .af true,
        flagIs .zf true, flagIs .sf true, flagIs .tf true, flagIs .ifl true, flagIs .df true,
        flagIs .ofl true] = true := by decide

/-- 95, V-PC, `clc`. -/
theorem test_step_clc :
    runs [0xF8] [flag .cf]
      [ipIs 0x0101, flagIs .cf false] = true := by decide

/-- 95, V-PC, `cmc`. -/
theorem test_step_cmc :
    runs [0xF5] [flag .cf]
      [ipIs 0x0101, flagIs .cf false] = true := by decide

/-- 95, V-PC, `stc`. -/
theorem test_step_stc :
    runs [0xF9] []
      [ipIs 0x0101, flagIs .cf true] = true := by decide

/-- 95, V-PC, `cld`. -/
theorem test_step_cld :
    runs [0xFC] [flag .df]
      [ipIs 0x0101, flagIs .df false] = true := by decide

/-- 95, V-PC, `std`. -/
theorem test_step_std :
    runs [0xFD] []
      [ipIs 0x0101, flagIs .df true] = true := by decide

/-- 95, V-PC, `cli`. -/
theorem test_step_cli :
    runs [0xFA] [flag .ifl]
      [ipIs 0x0101, flagIs .ifl false] = true := by decide

/-- 95, V-PC, `sti`. -/
theorem test_step_sti :
    runs [0xFB] []
      [ipIs 0x0101, flagIs .ifl true] = true := by decide

/-- 95, V-PC, `hlt`. -/
theorem test_step_hlt :
    runs [0xF4] []
      [halted, ipIs 0x0101] = true := by decide

/-- 95, V-PC, `wait`. -/
theorem test_step_wait :
    runs [0x9B] []
      [ipIs 0x0101] = true := by decide

/-- 95, V-PC, `esc 0x1c, [bx+si]`. -/
theorem test_step_esc :
    runs [0xDB, 0x20] [reg .bx 0x0010, reg .si 0x0002, bytes 0x20012 [0xAA, 0xBB]]
      [ipIs 0x0102] = true := by decide

/-- 95, V-DT: the port answers 41H. -/
theorem test_step_inFixed :
    runs [0xE4, 0x60] [fun s => { s with ioIn := [0x41, 0x42] }]
      [regIs .ax 0x0041, ipIs 0x0102, fun t => t.ioIn == [0x42]] = true := by decide

/-- 95, V-DT: the port pair answers 34H, 12H. -/
theorem test_step_inVar :
    runs [0xED] [reg .dx 0x03F8, fun s => { s with ioIn := [0x34, 0x12] }]
      [regIs .ax 0x1234, fun t => t.ioIn == []] = true := by decide

/-- R162: FFFFH + 0000H + 1. -/
theorem test_step_adcRmImm :
    runs [0x83, 0xD1, 0x00] [reg .cx 0xFFFF, flag .cf] [regIs .cx 0, flagIs .cf true, flagIs .af true] = true := by
  decide

/-- R166: 0 - FFFFH with the immediate FFH sign-extended. -/
theorem test_step_subRmImm :
    runs [0x83, 0xE9, 0xFF] [] [regIs .cx 1, flagIs .cf true, flagIs .ofl false] = true := by decide

/-- R166: 80H - 7FH. -/
theorem test_step_subAccImm :
    runs [0x2C, 0x7F] [half .ax 0x80] [regIs .ax 1, flagIs .cf false, flagIs .ofl true] = true := by decide

/-- R167: 00H - 00H - 1. -/
theorem test_step_sbbRmImm :
    runs [0x80, 0xD9, 0x00] [flag .cf] [regIs .cx 0x00FF, flagIs .cf true, flagIs .sf true] = true := by decide

/-- R216: CF and OF are cleared. -/
theorem test_step_orRmImm :
    runs [0x81, 0xC9, 0x00, 0x80] [flag .cf, flag .ofl] [regIs .cx 0x8000, flagIs .cf false, flagIs .ofl false] = true := by
  decide

/-- R217. -/
theorem test_step_xorAccImm :
    runs [0x35, 0x0F, 0xF0] [reg .ax 0xFFFF] [regIs .ax 0x0FF0, flagIs .zf false] = true := by decide

/-- R275. -/
theorem test_step_jnb : runs [0x73, 0x80] [] [ipIs 0x0082] = true := by decide

/-- R277. -/
theorem test_step_jnp : runs [0x7B, 0x02] [flag .pf] [ipIs 0x0102] = true := by decide

/-- R279. -/
theorem test_step_jns : runs [0x79, 0x02] [] [ipIs 0x0104] = true := by decide

/-- R42, R231. -/
theorem test_step_rep : runs [0xF3] [] [ipIs 0x0101, fun t => t.pfx == { Pfx.none with rep := some true }] = true := by
  decide

/-- R42, R310. -/
theorem test_step_lock : runs [0xF0] [] [ipIs 0x0101, fun t => t.pfx == { Pfx.none with lock := true }] = true := by
  decide

/-- R42, R311. -/
theorem test_step_segOverride :
    runs [0x36] [] [ipIs 0x0101, fun t => t.pfx == { Pfx.none with seg := some .ss }] = true := by decide

/-- 95, V-ST, `es rep movsb`: the override is for the source only. -/
theorem test_step_movs_override :
    runs [0xA4] [reg .si 0x20, reg .di 0x30, bytes 0x30020 [0x99],
        fun s => { s with pfx := { Pfx.none with seg := some .es } }]
      [cellIs 0x30030 0x99, regIs .si 0x21, regIs .di 0x31] = true := by decide

/-- 95, V-ST, `repe cmpsb`: the third element differs. -/
theorem test_step_repe_cmps_stops :
    runs [0xA6] [reg .cx 3, reg .si 2, reg .di 2, bytes 0x20002 [0x03], bytes 0x30002 [0x09],
        fun s => { s with pfx := { Pfx.none with rep := some true } }]
      [regIs .cx 2, regIs .si 3, ipIs 0x0101, flagIs .cf true, fun t => t.cont == none] = true := by decide

/-- R165: 60H + 99H + 1 = FAH is a sum of packed BCD bytes: 160. -/
theorem test_step_daa_top : runs [0x27] [half .ax 0xFA] [regIs .ax 0x60, flagIs .cf true] = true := by decide

/-- 95, V-IN, `int 0x40`: the element was never written. -/
theorem test_step_int_unwritten :
    (match step (boot [0xCD, 0x40] []) with | .refused (.vectorUnwritten 0x40) => true | _ => false) = true := by decide

/-- 95, V-RF: `rep nop`. -/
theorem test_step_rep_nop :
    (match step (boot [0x90] [fun s => { s with pfx := { Pfx.none with rep := some true } }]) with
      | .refused .repBeforeNonString => true
      | _ => false) = true := by decide

/-- R386, R395: NMI goes before INTR. -/
theorem test_step_nmi_before_intr :
    runs [0x90] [flag .ifl, bytes 0x00008 [0x10, 0, 0, 0x70],
        fun s => { s with env := [{ EnvInput.quiescent with nmiEdge := true, intr := true, inta := 0x40 }] }]
      [segIs .cs 0x7000, ipIs 0x0010, flagIs .ifl false, cellIs 0x400FA 0x01] = true := by decide

/-- R396: no recognition behind MOV to SS. -/
theorem test_step_inhibit :
    runs [0x8E, 0xD0] [fun s => { s with env := [{ EnvInput.quiescent with nmiEdge := true }] }]
      [ipIs 0x0102, fun t => t.nmi, fun t => !t.inhibit] = true := by decide

/-- R392, D17: single-step behind an instruction that began with TF = 1. -/
theorem test_step_single_step :
    runs [0x90] [flag .tf, bytes 0x00004 [0x10, 0, 0, 0x70]]
      [segIs .cs 0x7000, flagIs .tf false, cellIs 0x400FA 0x01] = true := by decide

/-- R430: RESET. -/
theorem test_step_reset :
    runs [0x90] [fun s => { s with env := [{ EnvInput.quiescent with reset := true }] }]
      [fun t => t.run == .heldInReset, fun t => t.queue == []] = true := by decide

/-! ## The bus -/

/-- A write of another master between two bus cycles of the step: none before the first, this one before the second. -/
def between (a : PhysAddr) (b : Byte) : EnvInput :=
  { EnvInput.quiescent with gaps :=
    [{ localWrites := [], systemWrites := [] }, { localWrites := [.memory a b], systemWrites := [] }] }

/-- R347, U27: INC of a memory byte loses what another master wrote between its read and its write. -/
theorem test_bus_lost_update :
    runs [0xFE, 0x06, 0x00, 0x00] [bytes 0x20000 [5], env (between 0x20000 0x40)]
      [cellIs 0x20000 6, cyclesAre [.readMemory, .writeMemory]] = true := by decide

/-- R347: the second word of LES is read behind such a write, and under LOCK it is not. -/
theorem test_bus_lock :
    runs [0xC4, 0x3F] [bytes 0x20000 [1, 0, 2, 0], env (between 0x20002 9)] [regIs .di 1, segIs .es 9] = true ∧
    runs [0xC4, 0x3F] [bytes 0x20000 [1, 0, 2, 0], env (between 0x20002 9),
        fun s => { s with pfx := { Pfx.none with lock := true } }]
      [regIs .di 1, segIs .es 2, cellIs 0x20002 2] = true := by decide

/-- R430, R340: RESET behind the first bus cycle of a far CALL, which has pushed CS only. -/
theorem test_bus_reset_inside :
    runs [0x9A, 0x00, 0x10, 0x34, 0x12] [env { EnvInput.quiescent with resetAfter := some 1 }]
      [cellIs 0x400FF 0x10, cellIs 0x400FE 0x00, fun t => t.cell 0x400FC == none,
        fun t => t.run == .heldInReset] = true := by decide

/-- Log 20: that CALL reports the bytes taken, and the RESET reports no queue operation. -/
theorem test_bus_reset_queue :
    runs [0x9A, 0x00, 0x10, 0x34, 0x12] [env { EnvInput.quiescent with resetAfter := some 1 }]
      [opsAre [.firstByte, .subsequentByte, .subsequentByte, .subsequentByte, .subsequentByte],
        fun t => t.queue == []] = true := by decide

/-- R445, D35: an NMI edge in the internal reset sequence, with HOLD at its end, waits for the bus before the first
instruction, or behind it. -/
theorem test_bus_nmi_behind_reset :
    runs [0x90] [fun s => { s with run := .heldInReset },
        env { EnvInput.quiescent with hold := true, nmiLate := true, nmiFirst := true }]
      [fun t => t.run == .restarting, fun t => t.nmi, owner .hold] = true ∧
    runs [0x90] [fun s => { s with run := .heldInReset },
        env { EnvInput.quiescent with hold := true, nmiLate := true }]
      [fun t => t.run == .running, fun t => t.nmi, owner .hold] = true := by decide

/-- R383, R445: and it is entered when the bus is back. -/
theorem test_bus_nmi_when_back :
    runs [0x90] [fun s => { s with run := .restarting, nmi := true, bus := { s.bus with owner := .hold } },
        bytes 0x00008 [0x10, 0, 0, 0x70]]
      [segIs .cs 0x7000, ipIs 0x0010, owner .cpu, fun t => t.run == .running, fun t => !t.nmi, cellIs 0x400FA 0x00,
        cellIs 0x400FB 0x01] = true := by decide

/-- R10, R430: a master of the system bus writes while RESET is HIGH. -/
theorem test_bus_reset_system :
    runs [0x90] [maximum, env { EnvInput.quiescent with reset := true, systemWrites := [.memory 0x500 7] }]
      [cellIs 0x500 7, fun t => t.run == .heldInReset] = true := by decide

/-- R331, R346: the queue status is of the maximum mode. -/
theorem test_bus_strap :
    runs [0x40] [] [fun t => t.queueStatus == []] = true ∧
    runs [0x40] [maximum] [fun t => !t.queueStatus.isEmpty] = true := by decide

/-- R43, R74: in hold acknowledge the EU executes an INC AX that is in the queue. -/
theorem test_bus_queued_in_hold :
    runs [0x90] [env { EnvInput.quiescent with hold := true, euGoes := true },
        fun s => { s with queue := [some 0x40] }]
      [regIs .ax 1, ipIs 0x0101, owner .hold, State.hlda, opsAre [.firstByte]] = true := by decide

/-- R345: of two requests at once RQ/GT0 is granted, and RQ/GT1 is recorded. -/
theorem test_bus_priority :
    runs [0x90] [maximum, env { EnvInput.quiescent with rq0 := true, rq1 := true }]
      [owner .rq0, fun t => t.bus.rq1, ipIs 0x0100] = true := by decide

/-- R8, D2: a write to ROM is ignored. -/
theorem test_bus_rom :
    runs [0xA2, 0x00, 0x00] [bytes 0x20000 [7], half .ax 1, region 0x20000 0x2FFFF .rom]
      [cellIs 0x20000 7] = true := by decide

/-- R8, D2: a read of a device is an input, a write of it an output. -/
theorem test_bus_device :
    runs [0xFE, 0x06, 0x00, 0x00] [region 0x20000 0x2FFFF .device,
        memInputs [0x7F, 1]]
      [fun t => t.bus.memOut == [(0x20000, 0x80)], fun t => t.bus.memIn == [1], flagIs .ofl true] = true := by decide

/-- R8, R235: a word of a device, at an even and at an odd address, is its two inputs in order. -/
theorem test_bus_device_word :
    runs [0xAD] [reg .si 0x10, region 0x20000 0x2FFFF .device, memInputs [0x34, 0x12, 0x56]]
      [regIs .ax 0x1234, fun t => t.bus.memIn == [0x56]] = true ∧
    runs [0xAD] [reg .si 0x11, region 0x20000 0x2FFFF .device, memInputs [0x34, 0x12, 0x56]]
      [regIs .ax 0x1234, fun t => t.bus.memIn == [0x56]] = true := by decide

/-- R8, D2: a port of RAM holds what OUT has written to it, and no output leaves it; a port of ROM does not. -/
theorem test_bus_port_ram :
    runs [0xE7, 0x40] [reg .ax 0x1234, ports 0x40 0x41 .ram]
      [fun t => t.bus.ioMem == [(0x40, 0x34), (0x41, 0x12)], fun t => t.ioOut == []] = true ∧
    runs [0xE5, 0x40] [ports 0x40 0x41 .ram,
        fun s => { s with bus := { s.bus with ioMem := [(0x40, 0x34), (0x41, 0x12)] } }]
      [regIs .ax 0x1234] = true ∧
    runs [0xE7, 0x40] [reg .ax 0x1234, ports 0x40 0x41 .rom] [fun t => t.bus.ioMem == []] = true := by decide

/-- R10, R51: in hold acknowledge the other master writes a port of RAM; a port that is a device
is not the CPU's to see. -/
theorem test_bus_master_port :
    runs [0x90] [ports 0x40 0x40 .ram,
        env { EnvInput.quiescent with hold := true, busWrites := [.port 0x40 7, .port 0x41 8] }]
      [fun t => t.portCell 0x40 == some 7, fun t => t.portCell 0x41 == none, owner .hold] = true := by decide

/-- R353, R384: the two acknowledge cycles, with LOCK in the maximum mode, before the pushes and the element. -/
theorem test_bus_acknowledge :
    runs [0x90] [maximum, flag .ifl, bytes 0x00100 [0x10, 0, 0, 0x70],
        env { EnvInput.quiescent with intr := true, inta := 0x40 }]
      [segIs .cs 0x7000,
        cyclesAre [.interruptAcknowledge, .interruptAcknowledge, .writeMemory, .writeMemory, .writeMemory, .readMemory,
          .readMemory],
        fun t => t.bus.cycles.map BusCycle.lock == [true, true, false, false, false, false, false],
        fun t => (t.bus.cycles.map BusCycle.low).take 2 == [none, some 0x40]] = true := by decide

/-- R346: the bytes of MOV AX, 1234H; a prefix byte; and JMP SHORT, which empties the queue. -/
theorem test_bus_queue_operations :
    runs [0xB8, 0x34, 0x12] [] [opsAre [.firstByte, .subsequentByte, .subsequentByte]] = true ∧
    runs [0xF0] [] [opsAre [.firstByte]] = true ∧
    runs [0xEB, 0x00] [] [opsAre [.firstByte, .subsequentByte, .empty]] = true := by decide

/-- R307, R354: the halt indication of HLT, and again when the bus comes back. -/
theorem test_bus_halt :
    runs [0xF4] [] [halted, cyclesAre [.halt]] = true ∧
    runs [0x90] [fun s => { s with run := .halted, bus := { s.bus with owner := .hold } }]
      [halted, owner .cpu, cyclesAre [.halt]] = true := by decide

/-- R59, R60, R352: a word at an odd address goes out in two cycles, its low byte on D15 to D8. -/
theorem test_bus_odd_word :
    runs [0xA3, 0x01, 0x00] [reg .ax 0x1234]
      [fun t => t.bus.cycles.map (fun c => (c.addr, c.bhe, c.high, c.low)) ==
        [(some 0x20001, some false, some 0x34, none), (some 0x20002, some true, none, some 0x12)]] = true := by decide

/-- R8, D13: the parameter of the saved IP, behind an override; 95, V-IN has the other value. -/
theorem test_divide_error_same :
    runs [0xF6, 0x37] [bytes 0 [0x10, 0, 0, 0x70], bytes 0x30000 [0],
        fun s => { s with pfx := { Pfx.none with seg := some .es }, par := { s.par with divFaultReturn := .same } }]
      [segIs .cs 0x7000, cellIs 0x400FA 0xFF, cellIs 0x400FB 0x00] = true := by decide

/-- R8, D14: -128 with the other value of the parameter. -/
theorem test_idiv_full_range :
    runs [0xF6, 0xFB] [reg .ax 0xFF80, half .bx 1, fullRange] [regIs .ax 0x0080] = true := by decide

/-- The host's placing of a table word: MOV AX, BX runs as the first instruction. -/
theorem test_fetch_word :
    (match step (State.reset.withFetchWord 16 0x89D8) with | .next t => t.ip == 2 | _ => false) = true := by decide

/-! ## Witnesses: concrete states and operands that meet the hypotheses of an obligation -/

/-- Rewrites one field-level fact of an outcome. -/
def next? (o : Out) : Option State :=
  match o with
  | .next t => some t
  | _ => none

theorem eq_of_next? {o : Out} {t : State} (h : next? o = some t) : o = .next t := by
  cases o with
  | next u => simp only [next?, Option.some.injEq] at h; rw [h]
  | fault r => cases h
  | refused r => cases h

/-- A meaning that answers a next state gives a witness of `exec i s = .next t`. -/
theorem exists_next {o : Out} (h : (next? o).isSome = true) : ∃ t, o = .next t := by
  cases o with
  | next u => exact ⟨u, rfl⟩
  | fault r => cases h
  | refused r => cases h

theorem witness_DecodeOfEncode : (Instr.movRmImm .word (.mem (.disp16 .di 0xFFFF)) 0x8000).wf = true := by decide

theorem witness_EncodeOfDecode : decode [0x88, 0xF1, 0x90] = .ok (.movRmReg .fromReg .byte .si (.reg .cx), [0x90]) := by
  rfl

theorem witness_RefusedEncodings :
    refusedBytes 0x0F 0 = true ∧ refusedBytes 0xFF 0xFF = true ∧ refusedBytes 0x00 0 = false := by decide

/-- An override, no override with BP, and none without BP. -/
theorem witness_EffectiveAddress :
    ({ start with pfx := { Pfx.none with seg := some .ss } } : State).pfx.seg = some .ss ∧
    (start.pfx.seg = none ∧ UsesBp (.disp8 .bp 0xFF)) ∧ (start.pfx.seg = none ∧ ¬ UsesBp (.direct 0xFFFF)) := by
  refine ⟨rfl, ⟨rfl, .inr (.inr rfl)⟩, rfl, fun h => h⟩

/-- A word at offset FFFFH, which wraps and has an odd address. -/
theorem witness_StoredThenLoaded :
    ∃ t, exec (.movRmReg .fromReg .word .ax (.mem (.direct 0xFFFF))) (startWith [reg .ax 0x1234]) = .next t := ⟨_, rfl⟩

theorem witness_SegmentLoads : SReg.es ≠ .cs ∧ SReg.ss ≠ .cs ∧ SReg.ds ≠ .cs := by decide

theorem witness_PopForms :
    ∃ s' : State, s' = { start with regs := { start.regs with sp := start.regs.sp + 2 } } ∧ s'.regs.sp = 0x102 :=
  ⟨_, rfl, rfl⟩

/-- PUSH AX and PUSHF at SP = 0000H, where the stack wraps. -/
theorem witness_PushPopRoundTrip :
    (RegField.ax ≠ .sp ∧ RegField.di ≠ .sp ∧ ∃ t, exec (.pushReg .ax) (startWith [reg .sp 0]) = .next t) ∧
    ∃ t, exec .pushf (startWith [reg .sp 0]) = .next t := ⟨⟨by decide, by decide, _, rfl⟩, _, rfl⟩

theorem witness_PortForms :
    ({ start with ioIn := [0xFF] } : State).ioIn = 0xFF :: [] ∧
    ({ start with ioIn := [0xFF, 0x80] } : State).ioIn = 0xFF :: 0x80 :: [] := ⟨rfl, rfl⟩

/-- The greatest quotient of each form, and the least of IDIV under both choices of the parameter. -/
theorem witness_DivForms :
    (let s := startWith [reg .ax 0xFEFF, half .bx 0xFF]
     (s.readRM .byte (.reg .bx)).toNat ≠ 0 ∧ s.regs.ax.toNat / (s.readRM .byte (.reg .bx)).toNat ≤ 0xFF) ∧
    (let s := startWith [reg .dx 0xFFFE, reg .ax 0xFFFF, reg .bx 0xFFFF]
     (s.readRM .word (.reg .bx)).toNat ≠ 0 ∧
       (s.regs.dx ++ s.regs.ax).toNat / (s.readRM .word (.reg .bx)).toNat ≤ 0xFFFF) ∧
    (let s := startWith [reg .ax 0xFF81, half .bx 1]
     (s.readRM .byte (.reg .bx)).toInt ≠ 0 ∧
       (if s.par.idivMinQ8 = .symmetric then -127 else -128) ≤ s.regs.ax.toInt.tdiv (s.readRM .byte (.reg .bx)).toInt ∧
       s.regs.ax.toInt.tdiv (s.readRM .byte (.reg .bx)).toInt ≤ 127) ∧
    (let s := startWith [reg .ax 0xFF80, half .bx 1, fullRange]
     (if s.par.idivMinQ8 = .symmetric then -127 else -128) ≤ s.regs.ax.toInt.tdiv (s.readRM .byte (.reg .bx)).toInt) ∧
    (let s := startWith [reg .dx 0, reg .ax 0x7FFF, reg .bx 1]
     (s.readRM .word (.reg .bx)).toInt ≠ 0 ∧
       (if s.par.idivMinQ16 = .symmetric then -32767 else -32768) ≤
         (s.regs.dx ++ s.regs.ax).toInt.tdiv (s.readRM .word (.reg .bx)).toInt ∧
       (s.regs.dx ++ s.regs.ax).toInt.tdiv (s.readRM .word (.reg .bx)).toInt ≤ 32767) ∧
    (let s := startWith [reg .dx 0xFFFF, reg .ax 0x8000, reg .bx 1, fullRange]
     (if s.par.idivMinQ16 = .symmetric then -32767 else -32768) ≤
       (s.regs.dx ++ s.regs.ax).toInt.tdiv (s.readRM .word (.reg .bx)).toInt) := by decide

/-- A zero divisor, and the first quotients out of range; the two saved IPs. -/
theorem witness_DivideError :
    (∃ (ret : Nat → Word) (min8 min16 : Int),
      (∀ n, ret n = if start.par.divFaultReturn = .next then start.ip else
        start.ip - BitVec.ofNat 16 (n + start.pfx.seg.isSome.toNat + start.pfx.rep.isSome.toNat +
          start.pfx.lock.toNat)) ∧
      min8 = (if start.par.idivMinQ8 = .symmetric then -127 else -128) ∧
      min16 = (if start.par.idivMinQ16 = .symmetric then -32767 else -32768)) ∧
    (let s := startWith [reg .ax 0x0100, half .bx 1]
     0x100 ≤ s.regs.ax.toNat / (s.readRM .byte (.reg .bx)).toNat) ∧
    (let s := startWith [reg .dx 1, reg .bx 1]
     0x10000 ≤ (s.regs.dx ++ s.regs.ax).toNat / (s.readRM .word (.reg .bx)).toNat) ∧
    (startWith []).readRM .byte (.reg .bx) = 0 ∧
    (let s := startWith [reg .ax 0xFF80, half .bx 1]
     s.regs.ax.toInt.tdiv (s.readRM .byte (.reg .bx)).toInt <
       (if s.par.idivMinQ8 = .symmetric then -127 else -128)) ∧
    (let s := startWith [reg .ax 0xFF7F, half .bx 1, fullRange]
     s.regs.ax.toInt.tdiv (s.readRM .byte (.reg .bx)).toInt <
       (if s.par.idivMinQ8 = .symmetric then -127 else -128)) ∧
    (let s := startWith [reg .ax 0x0080, half .bx 1]
     127 < s.regs.ax.toInt.tdiv (s.readRM .byte (.reg .bx)).toInt) ∧
    (let s := startWith [reg .dx 0xFFFF, reg .ax 0x8000, reg .bx 1]
     (s.regs.dx ++ s.regs.ax).toInt.tdiv (s.readRM .word (.reg .bx)).toInt <
       (if s.par.idivMinQ16 = .symmetric then -32767 else -32768)) ∧
    (let s := startWith [reg .ax 0x8000, reg .bx 1]
     32767 < (s.regs.dx ++ s.regs.ax).toInt.tdiv (s.readRM .word (.reg .bx)).toInt) :=
  ⟨⟨_, _, _, fun _ => rfl, rfl, rfl⟩, by decide⟩

/-- Both branches, at the boundary digits and the boundary values of AL. -/
theorem witness_AsciiAdjustForms :
    (let s := startWith [half .ax 0xFA]
     (true = true ↔ 9 < (s.regs.get8 .ax).toNat % 16 ∨ s.flags.af = true)) ∧
    (let s := startWith [half .ax 0x09]
     (false = true ↔ 9 < (s.regs.get8 .ax).toNat % 16 ∨ s.flags.af = true)) ∧
    (let s := startWith [half .ax 0x05, flag .af]
     (true = true ↔ 9 < (s.regs.get8 .ax).toNat % 16 ∨ s.flags.af = true)) := by decide

/-- AL where the two tests agree with and without an adjust of the high digit, and AL where they do not. -/
theorem witness_DecimalAdjustForms :
    (let s := startWith [half .ax 0x9A]
     (true = true ↔ 9 < 0x9A % 16 ∨ s.flags.af = true) ∧ 0x9A = (s.regs.get8 .ax).toNat ∧
       (true = true ↔ 0x99 < 0x9A ∨ s.flags.cf = true) ∧
       (true = true ↔ 0x9F < (0x9A + 6 * true.toNat) % 256 ∨ s.flags.cf = true)) ∧
    (let s := startWith [half .ax 0x99]
     (false = true ↔ 9 < 0x99 % 16 ∨ s.flags.af = true) ∧ 0x99 = (s.regs.get8 .ax).toNat ∧
       (false = true ↔ 0x99 < 0x99 ∨ s.flags.cf = true) ∧
       (false = true ↔ 0x9F < (0x99 + 256 - 6 * false.toNat) % 256 ∨ s.flags.cf = true)) ∧
    (let s := startWith [half .ax 0xFA]
     (true = true ↔ 9 < 0xFA % 16 ∨ s.flags.af = true) ∧
       ¬ (0x99 < 0xFA ↔ 0x9F < (0xFA + 6 * true.toNat) % 256 ∨ s.flags.cf = true)) := by decide

/-- 99 + 99 + 1 and 0 - 99 - 1. -/
theorem witness_PackedBcd :
    (let s := startWith [half .ax 0x99, flag .cf]
     (s.regs.get8 .ax).toNat = 99 / 10 * 16 + 99 % 10 ∧ (0x99 : Byte).toNat = 99 / 10 * 16 + 99 % 10 ∧
       ∃ t, exec (.adcAccImm .byte 0x99) s = .next t) ∧
    (let s := startWith [flag .cf]
     (s.regs.get8 .ax).toNat = 0 / 10 * 16 + 0 % 10 ∧ (0x99 : Byte).toNat = 99 / 10 * 16 + 99 % 10 ∧
       ∃ t, exec (.sbbAccImm .byte 0x99) s = .next t) := ⟨⟨by decide, by decide, _, rfl⟩, by decide, by decide, _, rfl⟩

/-- Counts 0, 1 and 255 (the shifts and rotates of three obligations have the same hypotheses). -/
theorem witness_ShiftForms_RotateForms_RotateCarryForms :
    (let s := startWith [half .cx 0]
     0 = (match ShiftCount.cl with | .one => 1 | .cl => (s.regs.get8 .cx).toNat)) ∧
    (let s := startWith [half .cx 0xFF]
     1 = (match ShiftCount.one with | .one => 1 | .cl => (s.regs.get8 .cx).toNat) ∧
       255 = (match ShiftCount.cl with | .one => 1 | .cl => (s.regs.get8 .cx).toNat) ∧ 1 ≤ 255) ∧
    8 = Width.byte.bits ∧ (startWith [half .ax 0x80]).readRM .byte (.reg .ax) = 0x80 := by decide

theorem witness_StringOnce :
    let s := startWith [flag .df]
    s.pfx.rep = none ∧ (0xFFFE : Word) = (if s.flags.df then 0 - BitVec.ofNat 16 (Width.word.bits / 8)
      else BitVec.ofNat 16 (Width.word.bits / 8)) ∧
    (0x2000 : Word) = (match s.pfx.seg with | some sr => s.sregs.get sr | none => s.sregs.ds) := by decide

/-- The machine behind REP or REPNE. -/
def repState (z : Bool) (set : List (State → State)) : State :=
  { startWith set with pfx := { Pfx.none with rep := some z } }

/-- CX = 0; CX = 1 with a comparison that ends the loop; CX = 1 with one that does not. -/
theorem witness_RepIteration :
    ((repState true []).pfx.rep = some true ∧ (repState true []).regs.cx = 0) ∧
    (let s := repState true [reg .cx 1, reg .ax 1, bytes 0x30000 [0]]
     s.regs.cx ≠ 0 ∧ ∃ u, exec (.scas .byte) { s with pfx := { s.pfx with rep := none } } = .next u ∧
       u.flags.zf ≠ true) ∧
    (let s := repState true [reg .cx 1, bytes 0x30000 [0]]
     s.regs.cx ≠ 0 ∧ ∃ u, exec (.scas .byte) { s with pfx := { s.pfx with rep := none } } = .next u ∧
       u.flags.zf = true) := by
  refine ⟨by decide, ⟨by decide, _, rfl, by decide⟩, by decide, _, rfl, by decide⟩

/-- A fill of FFFFH bytes from ES:FFFFH. -/
theorem witness_RepStosbFills :
    let s := { repState true [reg .cx 0xFFFF, reg .di 0xFFFF, half .ax 0x55] with cont := some (.stos .byte) }
    s.pfx.rep = some true ∧ s.cont = some (.stos .byte) ∧ s.run = .running ∧ Quiet s ∧ s.inhibit = false ∧
      s.flags.tf = false ∧ s.flags.df = false :=
  ⟨by decide, by decide, by decide, ⟨rfl, rfl, rfl, rfl, rfl, rfl, rfl, rfl⟩, by decide, by decide, by decide⟩

theorem witness_ReturnForms :
    let s := startWith [reg .sp 0xFFFE, bytes 0x4FFFE [0x34, 0x12], bytes 0x40000 [0x00, 0x50]]
    (0x1234 : Word) = s.lreadWord s.sregs.ss s.regs.sp ∧ (0x5000 : Word) = s.lreadWord s.sregs.ss (s.regs.sp + 2) := by
  decide

theorem witness_CallReturnRoundTrip :
    (∃ t, exec (.callNear 0xFFFF) (startWith [reg .sp 1]) = .next t) ∧
    ∃ t, exec (.callFar 0 0xFFFF) (startWith [reg .sp 1]) = .next t := ⟨⟨_, rfl⟩, _, rfl⟩

theorem witness_ConditionalJumps_NegatedConditionalJumps :
    ∃ taken : Out, taken = .next { start with ip := start.ip + (0x80 : Byte).signExtend 16, queue := [] } := ⟨_, rfl⟩

theorem witness_CompareThenJump :
    let s := startWith [reg .ax 0x8000, reg .bx 0x7FFF]
    s.readRM .word (.reg .ax) = 0x8000 ∧ s.readReg .word .bx = 0x7FFF ∧
      ∃ t, exec (.cmpRmReg .fromReg .word .bx (.reg .ax)) s = .next t := ⟨by decide, by decide, _, rfl⟩

theorem witness_LoopForms :
    ∃ u go : State, u = { start with regs := { start.regs with cx := start.regs.cx - 1 } } ∧
      go = { u with ip := start.ip + (0xFE : Byte).signExtend 16, queue := [] } ∧ u.regs.cx = 0xFFFF :=
  ⟨_, _, rfl, rfl, by decide⟩

/-- The last element of the table, and the three types of the short forms. -/
def vectors : State := startWith [flag .ofl, bytes 0x0000C [1, 2, 3, 4, 5, 6, 7, 8], bytes 0x003FC [1, 2, 3, 4]]

theorem vectorReady_of (n : Byte) (s : State) (h : s.vectorWritten n = true) : VectorReady n s :=
  (s.vectorWritten_iff n).1 h

theorem not_stackOnVector_of (n : Byte) (s : State) (h : s.stackHitsVector n = false) : ¬ StackOnVector n s := by
  rw [← s.stackHitsVector_iff n, h]
  exact Bool.false_ne_true

theorem witness_InterruptEntry :
    (VectorReady 0xFF vectors ∧ ¬ StackOnVector 0xFF vectors) ∧ (VectorReady 3 vectors ∧ ¬ StackOnVector 3 vectors) ∧
    (vectors.flags.ofl = true ∧ VectorReady 4 vectors ∧ ¬ StackOnVector 4 vectors) ∧ start.flags.ofl = false :=
  ⟨⟨vectorReady_of _ _ (by decide), not_stackOnVector_of _ _ (by decide)⟩,
    ⟨vectorReady_of _ _ (by decide), not_stackOnVector_of _ _ (by decide)⟩,
    ⟨by decide, vectorReady_of _ _ (by decide), not_stackOnVector_of _ _ (by decide)⟩, by decide⟩

/-- The lowest of the six bytes is the highest byte of the element, and an element with one byte missing. -/
theorem witness_InterruptRefusals :
    (let s := startWith [seg .ss 0, reg .sp 9]
     StackOnVector 0 s) ∧
    (let s := startWith [bytes 0x00100 [1, 2, 3]]
     ¬ StackOnVector 0x40 s ∧ ¬ VectorReady 0x40 s) := by
  refine ⟨(State.stackHitsVector_iff _ _).1 (by decide), not_stackOnVector_of _ _ (by decide), ?_⟩
  rw [← State.vectorWritten_iff]
  decide

theorem witness_InterruptReturn :
    (0x0FD7 : Word) = (startWith [bytes 0x40104 [0xD7, 0x0F]]).lreadWord 0x4000 (0x100 + 4) ∧
    ∃ t, exec (.intType 0xFF) vectors = .next t := ⟨by decide, exists_next (by decide)⟩

theorem witness_HaltWaitEscape :
    start.input.testHigh = false ∧
    ({ start with input := { EnvInput.quiescent with testHigh := true } } : State).input.testHigh = true := by decide

theorem witness_PrefixForms :
    start.pfx.rep = none ∧ start.pfx.lock = false ∧ start.pfx.seg = none ∧
    (let s : State := { start with pfx := { seg := some .es, rep := some false, lock := true } }
     s.pfx.rep ≠ none ∧ s.pfx.lock = true ∧ s.pfx.seg ≠ none) := by decide

/-- A NOP; the same with a queued byte that memory no longer holds; the same behind REP; an empty queue. -/
theorem witness_StepRunsDecoded :
    (let s := boot [0x90, 0x90, 0x90, 0x90, 0x90, 0x90] []
     s.cont = none ∧ s.run = .running ∧ s.bus.owner = .cpu ∧ s.bus.rq0 = false ∧ s.bus.rq1 = false ∧
       s.par.memMap = [] ∧ s.par.ioMap = [] ∧ s.takeInput.input.Undisturbed ∧ s.queue = [] ∧
       decode s.takeInput.fetchWindow = .ok (.xchgAcc .ax, [0x90, 0x90, 0x90, 0x90, 0x90])) ∧
    (let s : State := { boot [0x90, 0x90, 0x90, 0x90, 0x90, 0x90] [] with queue := [some 0xF8] }
     decode s.takeInput.fetchWindow = .ok (.clc, [0x90, 0x90, 0x90, 0x90, 0x90])) ∧
    (let s : State := { boot [0x90, 0x90, 0x90, 0x90, 0x90, 0x90] [] with pfx := { Pfx.none with rep := some true } }
     (s.pfx.rep.isSome && !isStringPrimitive (.xchgAcc .ax) && !isPrefixByte (.xchgAcc .ax)) = true) :=
  ⟨⟨rfl, rfl, rfl, rfl, rfl, rfl, rfl, ⟨rfl, rfl, rfl, rfl, rfl, rfl, rfl⟩, rfl, rfl⟩, rfl, rfl⟩

theorem inv_boot (code : List Byte) (set : List (State → State)) (h : Memory.wf (startWith set).mem = true)
    (h1 : (startWith set).inhibit = false) (h2 : (startWith set).queue = []) (h3 : (startWith set).cont = none)
    (h4 : (startWith set).run = .running) (h5 : BusOk (startWith set).par.strap (startWith set).bus)
    (h6 : Memory.wf (startWith set).bus.ioMem = true) :
    Inv (boot code set) := by
  have e : ∀ (k : Nat) (l : List Byte) (s : State), storeCode k l s = { s with mem := (storeCode k l s).mem } := by
    intro k l
    induction l generalizing k with
    | nil => intro s; rfl
    | cons b r ih => intro s; rw [storeCode, ih]; rfl
  have w := storeCode_wf 0 code (startWith set) h
  rw [boot, e]
  exact
    { memory := w
      inhibit := h1
      queue := by simp [h2]
      ports := h6
      progress := .inl h3
      waiting := fun h => by simp [h4] at h
      asleep := fun h => by simp [h4] at h
      restart := fun h => by simp [h4] at h
      held := fun h => by simp [h4] at h
      bus := h5 }

theorem witness_StepKeepsInv :
    Inv (boot [0xF4] []) ∧ ∃ t, step (boot [0xF4] []) = .next t :=
  ⟨inv_boot _ _ rfl rfl rfl rfl rfl ⟨.inl rfl, rfl, rfl⟩ rfl, exists_next (by decide)⟩

/-- RESET HIGH, with a master of the system bus that writes; its end, without an NMI edge, with one taken first, with
one left latched, and with a HOLD and each kind of NMI; an NMI that is entered when the bus is back; a store cut off
before and behind its first cycle. -/
theorem witness_ResetEvent :
    (let s : State := env { EnvInput.quiescent with reset := true, systemWrites := [.memory 0x500 7] } (maximum start)
     s.takeInput.input.reset = true ∧ s.par.memMap = [] ∧ s.par.strap = .maximum ∧
       s.takeInput.input.systemWrites = [.memory 0x500 7]) ∧
    (let s : State := { start with run := .heldInReset }
     s.run = .heldInReset ∧ s.takeInput.input.Undisturbed ∧ s.takeInput.input.nmiLate = false ∧ s.par.memMap = []) ∧
    (∀ first : Bool, let e := { EnvInput.quiescent with nmiLate := true, nmiFirst := first }
     let s : State := { start with run := .heldInReset, env := [e] }
     e = s.takeInput.input ∧ e.Undisturbed ∧ e.nmiLate = true ∧ e.nmiFirst = first) ∧
    (∀ late first : Bool, let e := { EnvInput.quiescent with hold := true, nmiLate := late, nmiFirst := first }
     let s : State := { start with run := .heldInReset, env := [e] }
     e = s.takeInput.input ∧ e.reset = false ∧ e.resetAfter = none ∧ e.hold = true ∧ s.par.strap = .minimum ∧
       e.busWrites = []) ∧
    (let s : State := { start with run := .restarting, nmi := true, bus := { start.bus with owner := .hold } }
     s.run = .restarting ∧ s.nmi = true ∧ s.inhibit = false ∧ s.cont = none ∧ s.par.strap = .minimum ∧
       s.bus.owner = .hold ∧ s.par.memMap = [] ∧ s.takeInput.input.Undisturbed ∧
       s.takeInput.input.nmiLate = false) ∧
    (∀ k, k < 2 → let s : State := { start with input := { EnvInput.quiescent with resetAfter := some k } }
     (phys (s.memSeg (.direct 1)) (s.ea (.direct 1))).getLsbD 0 = true ∧ s.input.gaps = [] ∧ s.par.memMap = [] ∧
       s.input.resetAfter = some k) :=
  ⟨⟨rfl, rfl, rfl, rfl⟩, ⟨rfl, ⟨rfl, rfl, rfl, rfl, rfl, rfl, rfl⟩, rfl, rfl⟩,
    fun _ => ⟨rfl, ⟨rfl, rfl, rfl, rfl, rfl, rfl, rfl⟩, rfl, rfl⟩, fun _ _ => ⟨rfl, rfl, rfl, rfl, rfl, rfl⟩,
    ⟨rfl, rfl, rfl, rfl, rfl, rfl, rfl, ⟨rfl, rfl, rfl, rfl, rfl, rfl, rfl⟩, rfl⟩,
    fun _ _ => ⟨show (phys 0x2000 1).getLsbD 0 = true by decide, rfl, rfl, rfl⟩⟩

/-- One state for each clause. -/
theorem witness_RecognitionPoint :
    (start.calm = true ∧ start.cont = none) ∧
    ({ start with inhibit := true } : State).inhibit = true ∧
    (let s : State := { start with nmi := true }
     s.calm = true ∧ s.inhibit = false ∧ s.input.nmiLate = false ∧ s.nmi = true) ∧
    (let s : State := { startWith [flag .ifl] with input := { EnvInput.quiescent with intr := true, inta := 0xFF } }
     s.calm = true ∧ s.inhibit = false ∧ s.input.nmiLate = false ∧ s.nmi = false ∧ s.input.intr = true ∧
       s.flags.ifl = true) ∧
    (start.inhibit = false ∧ start.input.nmiLate = false ∧ start.nmi = false ∧
      (start.input.intr = false ∨ start.flags.ifl = false)) ∧
    (let s : State := { start with input := { EnvInput.quiescent with nmiLate := true } }
     s.calm = true ∧ s.cont = none ∧ s.inhibit = false ∧ s.input.nmiLate = true) := by decide

theorem witness_InhibitWindow :
    (∃ t, exec (.movSregRm .ss (.reg .ax)) start = .next t ∧ t.cont = none) ∧
    (∃ t, exec (.popSreg .es) start = .next t ∧ t.cont = none) ∧ ∃ t, exec .sti start = .next t ∧ t.cont = none :=
  ⟨⟨_, rfl, rfl⟩, ⟨_, rfl, rfl⟩, _, rfl, rfl⟩

/-- A halted machine for ever; one that an NMI and one that an INTR ends, and one that INTR with IF = 0 does not; a WAIT
for ever. -/
theorem witness_HaltedState :
    (let s : State := { start with run := .halted }
     s.run = .halted ∧ s.inhibit = false ∧ Quiet s ∧ Reaches s s) ∧
    (∀ (e : EnvInput) (i : Bool), e ∈ [{ EnvInput.quiescent with nmiEdge := true },
      { EnvInput.quiescent with intr := true }] →
     let s : State := { startWith (if i then [flag .ifl] else []) with run := .halted, env := [e] }
     s.run = .halted ∧ s.inhibit = false ∧ s.cont = none ∧ s.bus.owner = .cpu ∧ s.bus.rq0 = false ∧
       s.bus.rq1 = false ∧ s.par.memMap = [] ∧ s.takeInput.input.Undisturbed ∧ s.takeInput.input.nmiLate = false ∧
       s.nmi = false ∧ s.flags.ifl = i ∧ s.takeInput.input = e) ∧
    (let s : State :=
      { start with run := .waiting, cont := some .wait, rest := { EnvInput.quiescent with testHigh := true } }
     s.run = .waiting ∧ s.cont = some .wait ∧ s.inhibit = false ∧ s.pfx.rep = none ∧
       Forever { EnvInput.quiescent with testHigh := true } s ∧ Reaches s s) := by
  refine ⟨⟨rfl, rfl, ⟨rfl, rfl, rfl, rfl, rfl, rfl, rfl, rfl⟩, .refl _⟩, ?_,
    ⟨rfl, rfl, rfl, rfl, ⟨rfl, rfl, rfl, rfl, rfl, rfl, rfl, rfl⟩, .refl _⟩⟩
  intro e i h
  simp only [List.mem_cons, List.not_mem_nil, or_false] at h
  cases i <;> rcases h with rfl | rfl <;>
    exact ⟨rfl, rfl, rfl, rfl, rfl, rfl, rfl, ⟨rfl, rfl, rfl, rfl, rfl, rfl, rfl⟩, rfl, rfl, rfl, rfl⟩

/-- A repeated MOVSB and a WAIT, each with an NMI, with an INTR, and with neither. -/
theorem witness_InterruptedRepeat :
    ∀ n r : Bool,
      let s : State := { repState true [reg .cx 5, flag .ifl] with
        cont := some (.movs .byte), nmi := n, input := { EnvInput.quiescent with intr := r } }
      let w : State := { startWith [flag .ifl] with
        cont := some .wait, nmi := n, input := { EnvInput.quiescent with intr := r } }
      (s.calm = true ∧ s.cont = some (.movs .byte) ∧ s.inhibit = false ∧ s.input.nmiLate = false ∧
        isStringPrimitive (.movs .byte) = true ∧ s.pfx.rep.isSome = true ∧ s.nmi = n ∧ s.input.intr = r ∧
        s.flags.ifl = true) ∧
      (w.calm = true ∧ w.cont = some .wait ∧ w.inhibit = false ∧ w.input.nmiLate = false ∧ w.pfx = Pfx.none ∧
        w.nmi = n ∧ w.input.intr = r ∧ w.flags.ifl = true) := by decide

/-- A grant in each mode, with a write to memory and to a port of RAM, one of them for a request recorded before; LOCK
in each mode; a second pulse; a queue of six bytes in hold acknowledge; a gap before the second cycle of INC. -/
theorem witness_BusRequests :
    (let e : EnvInput := { EnvInput.quiescent with hold := true, busWrites := [.memory 0xFFFFF 1] }
     let s : State := env e start
     e = s.takeInput.input ∧ e.reset = false ∧ e.resetAfter = none ∧ s.run ≠ .heldInReset ∧ s.bus.owner = .cpu ∧
       s.pfx.lock = false ∧ e.euGoes = false ∧ s.par.strap = .minimum ∧ e.hold = true ∧ e.systemWrites = []) ∧
    (let e : EnvInput := { EnvInput.quiescent with hold := true, busWrites := [.port 0xFFFF 1] }
     let s : State := env e (ports 0xFFFF 0xFFFF .ram start)
     e = s.takeInput.input ∧ s.par.strap = .minimum ∧ e.hold = true ∧ e.systemWrites = [] ∧
       s.portRegion ((0xFFFF : Word).setWidth 20) = .ram) ∧
    (let e : EnvInput := { EnvInput.quiescent with rq0 := true }
     let s : State := env e (maximum { start with bus := { start.bus with rq1 := true } })
     e = s.takeInput.input ∧ s.run ≠ .heldInReset ∧ s.bus.owner = .cpu ∧ s.pfx.lock = false ∧
       s.par.strap = .maximum ∧ s.bus.rq0 = false ∧ e.rq0 = true ∧ s.bus.rq1 = true) ∧
    (let e : EnvInput := { EnvInput.quiescent with hold := true, rq1 := true }
     let s : State := env e { boot [0x90] [] with pfx := { Pfx.none with lock := true } }
     e = s.takeInput.input ∧ s.run ≠ .heldInReset ∧ s.bus.owner = .cpu ∧ s.pfx.lock = true ∧
       (∃ t, step s = .next t) ∧ ∃ t, step (maximum s) = .next t) ∧
    (let e : EnvInput := { EnvInput.quiescent with rq0 := true }
     let s : State := env e (maximum { boot [0x90] [] with bus := { start.bus with owner := .rq0 } })
     e = s.takeInput.input ∧ s.bus.owner = .rq0 ∧ s.bus.rq0 = false ∧ s.bus.rq1 = false ∧ e.rq1 = false ∧
       ∃ t, step s = .next t) ∧
    (let e : EnvInput := { EnvInput.quiescent with hold := true, euGoes := true }
     let s : State := env e { start with bus := { start.bus with owner := .hold } }
     e = s.takeInput.input ∧ s.run = .running ∧ s.par.strap = .minimum ∧ s.bus.owner = .hold ∧ s.cont = none ∧
       s.pfx = Pfx.none ∧ s.inhibit = false ∧ s.nmi = false ∧ e.nmiEdge = false ∧ e.nmiLate = false ∧
       e.intr = false ∧ s.flags.tf = false ∧
       ((encode (.movRegImm .word .ax 0xFFFF) ++ [1, 2, 3]).map some).length = 6 ∧
       decode (knownBytes ([0x8B, 0x07, 1, 2, 3, 4].map some)) =
         .ok (.movRmReg .toReg .word .ax (.mem (.ind .bx)), [1, 2, 3, 4])) ∧
    (∀ l : Bool, let s : State := { start with
       mem := [(0x20000, 0xFF)]
       pfx := { Pfx.none with lock := l }
       input := { EnvInput.quiescent with gaps :=
         [{ localWrites := [], systemWrites := [] }, { localWrites := [.memory 0x20001 7], systemWrites := [] }] } }
     (0x20000 : PhysAddr) = phys (s.memSeg (.direct 0)) (s.ea (.direct 0)) ∧ s.cell 0x20000 = some 0xFF ∧
       s.par.memMap = [] ∧ s.input.resetAfter = none) := by
  refine ⟨⟨rfl, rfl, rfl, by decide, rfl, rfl, rfl, rfl, rfl, rfl⟩, ⟨rfl, rfl, rfl, rfl, rfl⟩,
    ⟨rfl, by decide, rfl, rfl, rfl, rfl, rfl, rfl⟩,
    ⟨rfl, by decide, rfl, rfl, exists_next (by decide), exists_next (by decide)⟩,
    ⟨rfl, rfl, rfl, rfl, rfl, exists_next (by decide)⟩,
    ⟨rfl, rfl, rfl, rfl, rfl, rfl, rfl, rfl, rfl, rfl, rfl, rfl, rfl, rfl⟩, by decide⟩

theorem witness_OnlyTheseWrite :
    (∃ t, exec (.jmpFar 0 0) start = .next t ∧ t.sregs ≠ start.sregs) ∧
    (∃ t, exec .popf (startWith [bytes 0x40100 [0xFF, 0xFF]]) = .next t ∧ t.flags.tf ≠ start.flags.tf) ∧
    (∃ t, exec .sti start = .next t ∧ t.flags.ifl ≠ start.flags.ifl) ∧
    (∃ t, exec .std start = .next t ∧ t.flags.df ≠ start.flags.df) ∧
    (∃ t, exec (.inVar .byte) { start with ioIn := [1] } = .next t ∧ t.ioIn ≠ [1]) ∧
    ∃ t, exec (.outVar .byte) start = .next t ∧ t.ioOut ≠ start.ioOut :=
  ⟨⟨_, rfl, by decide⟩, ⟨_, rfl, by decide⟩, ⟨_, rfl, by decide⟩, ⟨_, rfl, by decide⟩, ⟨_, rfl, by decide⟩, _, rfl,
    by decide⟩

/-- A store over the last byte of the window, and an empty queue. -/
theorem witness_QueuedBytes :
    (let old : State := { boot [0, 1, 2, 3, 4, 5] [] with queue := List.replicate 6 none }
     let new := bytes 0x10105 [9] old
     5 < 6 ∧ new.par.memMap = [] ∧ old.queue = List.replicate 6 none ∧ new.queue = List.replicate 6 none ∧
       new.streamIp = old.streamIp ∧ new.sregs.cs = old.sregs.cs ∧ old.cell (old.streamAddr 5) = some 5 ∧
       new.cell (new.streamAddr 5) = some 9) ∧
    (let s := boot [0, 1, 2, 3, 4, 5] []
     5 < 6 ∧ s.par.memMap = [] ∧ s.queue = [] ∧ s.cell (s.streamAddr 5) = some 5) := by decide

/-- An even and an odd address, a read and a write, and a state without gaps; a word of a device at an even and at an
odd address; a port of RAM. -/
theorem witness_BusCycles :
    (phys (start.sregs.get .ds) 0x0200).getLsbD 0 = false ∧ (phys (start.sregs.get .ss) 0xFFFF).getLsbD 0 = true ∧
    (∃ (k : BusKind) (d : PhysAddr → Byte), k = .readMemory ∧ d = start.readByte) ∧
    (∃ (k : BusKind) (d : PhysAddr → Byte), k = .writeMemory ∧ d = start.readByte) ∧
    start.calm = true ∧
    (∀ o : Word, o = 0 ∨ o = 0xFFFF →
      let s : State := region 0x20000 0x2FFFF .device (memInputs [0x34, 0x12] start)
      s.input.gaps = [] ∧ s.input.resetAfter = none ∧
        s.region (phys (s.memSeg (.direct o)) (s.ea (.direct o))) = .device ∧
        s.region (phys (s.memSeg (.direct o)) (s.ea (.direct o) + 1)) = .device ∧
        s.bus.memIn = 0x34 :: 0x12 :: []) ∧
    (let s : State := ports 0 0xFF .ram start
     s.input.gaps = [] ∧ s.input.resetAfter = none ∧ s.portRegion ((0xFF : Byte).setWidth 20) = .ram ∧
       ∃ t, runBus (.outFixed .byte 0xFF) s = .next t) :=
  ⟨by decide, by decide, ⟨_, _, rfl, rfl⟩, ⟨_, _, rfl, rfl⟩, rfl,
    by rintro o (rfl | rfl) <;> exact ⟨rfl, rfl, rfl, rfl, rfl⟩, rfl, rfl, rfl, exists_next (by decide)⟩

end Sys2Proof.Machine.Tests
end

section
/-! Proofs of the arithmetic family: CBW and CWD (`spec/41_arithmetic.md`). -/

namespace Sys2Proof.Machine

/-- The sign extension keeps the signed value: it loses no bit, since a byte is no wider than a word. -/
theorem sext16_toInt (d : Byte) : (sext16 d).toInt = d.toInt :=
  BitVec.toInt_signExtend_of_le (by decide)

/-! ## A word written to AX or DX -/

theorem State.writeReg_word_ax (s : State) (v : Word) :
    s.writeReg .word .ax v = { s with regs := { s.regs with ax := v } } := rfl

theorem State.writeReg_word_dx (s : State) (v : Word) :
    s.writeReg .word .dx v = { s with regs := { s.regs with dx := v } } := rfl

/-! ## CBW and CWD -/

theorem decode_cbw (r : List Byte) : decode (0x98 :: r) = .ok (.cbw, r) := rfl

theorem decode_cwd (r : List Byte) : decode (0x99 :: r) = .ok (.cwd, r) := rfl

theorem exec_cbw (s : State) : exec .cbw s = .next (s.writeReg .word .ax (sext16 (s.regs.get8 .ax))) := rfl

theorem exec_cwd (s : State) :
    exec .cwd s = .next (s.writeReg .word .dx (if s.regs.ax.msb then 0xFFFF else 0)) := rfl

/-- Settles O27: CBW writes the sign extension of AL to AX, CWD the sign word of AX to DX. -/
theorem signExtension : Obligations.SignExtension := by
  refine ⟨decode_cbw, decode_cwd, fun s => ⟨⟨sext16 (s.regs.get8 .ax), ?cbw, sext16_toInt _⟩, ?cwd⟩⟩
  case cbw => rw [exec_cbw, State.writeReg_word_ax]
  case cwd => rw [exec_cwd, State.writeReg_word_dx]

end Sys2Proof.Machine
end

section
/-! Proofs of the control transfer family: the conditional jumps and the loops (`spec/44_control_transfer.md`). -/

namespace Sys2Proof.Machine

/-! ## The first bytes 70 to 7F -/

/-- Row 7 of the opcode map holds the sixteen conditional jumps, each with one displacement byte. -/
theorem decode_jcc (c : BitVec 4) (d : Byte) (r : List Byte) :
    decode ((0x7#4 ++ c) :: d :: r) = .ok (jccOf c.toNat d, r) := by
  have high : (0x7#4 ++ c).extractLsb' 4 4 = 0x7#4 := BitVec.extractLsb'_append_eq_left
  have low : (0x7#4 ++ c).extractLsb' 0 4 = c := BitVec.extractLsb'_append_eq_right
  show decodeOp (0x7#4 ++ c) (d :: r) = _
  rw [decodeOp, high, low]
  rfl

/-! ## A short transfer under a condition -/

/-- A conditional jump whose test computes the condition `p` jumps when `p` holds and else changes nothing (R263). -/
theorem jumpIf_eq_ite {c : Bool} {p : Prop} [Decidable p] (h : c = true ↔ p) (d : Byte) (s : State) :
    jumpIf c d s = if p then { s with ip := s.ip + d.signExtend 16, queue := [] } else s := by
  by_cases hp : p
  · rw [if_pos hp, h.2 hp]
    rfl
  · rw [if_neg hp, Bool.eq_false_iff.2 (mt h.1 hp)]
    rfl

/-- `jumpIf_eq_ite` as the outcome of an instruction that is only such a jump. -/
theorem next_jumpIf {c : Bool} {p : Prop} [Decidable p] (h : c = true ↔ p) (d : Byte) (s : State) :
    (.next (jumpIf c d s) : Out) =
      if p then .next { s with ip := s.ip + d.signExtend 16, queue := [] } else .next s := by
  rw [jumpIf_eq_ite h, apply_ite Host.Outcome.next]

/-! ## The conditional jumps -/

/-- Settles O39: each even code selects its jump, and the test that the jump runs computes its condition. -/
theorem conditionalJumps : Obligations.ConditionalJumps := by
  rintro d r s _ rfl
  refine ⟨decode_jcc 0x4 d r, next_jumpIf ?je d s, decode_jcc 0xC d r, next_jumpIf ?jl d s,
    decode_jcc 0xE d r, next_jumpIf ?jle d s, decode_jcc 0x2 d r, next_jumpIf ?jb d s,
    decode_jcc 0x6 d r, next_jumpIf ?jbe d s, decode_jcc 0xA d r, next_jumpIf ?jp d s,
    decode_jcc 0x0 d r, next_jumpIf ?jo d s, decode_jcc 0x8 d r, next_jumpIf ?js d s⟩
  case je | jb | jp | jo | js => exact Iff.rfl
  case jl => exact bne_iff_ne
  case jle => rw [Bool.or_eq_true, bne_iff_ne]
  case jbe => exact Bool.or_eq_true_iff

/-- Settles O40: each odd code selects its jump, and the test that the jump runs computes the negated condition. -/
theorem negatedConditionalJumps : Obligations.NegatedConditionalJumps := by
  rintro d r s _ rfl
  refine ⟨decode_jcc 0x5 d r, next_jumpIf ?jne d s, decode_jcc 0xD d r, next_jumpIf ?jnl d s,
    decode_jcc 0xF d r, next_jumpIf ?jnle d s, decode_jcc 0x3 d r, next_jumpIf ?jnb d s,
    decode_jcc 0x7 d r, next_jumpIf ?jnbe d s, decode_jcc 0xB d r, next_jumpIf ?jnp d s,
    decode_jcc 0x1 d r, next_jumpIf ?jno d s, decode_jcc 0x9 d r, next_jumpIf ?jns d s⟩
  case jne | jnb | jnp | jno | jns => exact Iff.of_eq (Bool.not_eq_true' _)
  case jnl => exact beq_iff_eq
  case jnle => rw [Bool.and_eq_true, Bool.not_eq_true', beq_iff_eq]
  case jnbe => rw [Bool.and_eq_true, Bool.not_eq_true', Bool.not_eq_true']

/-! ## The loops -/

theorem decode_loop (d : Byte) (r : List Byte) : decode (0xE2 :: d :: r) = .ok (.loop d, r) := rfl

theorem decode_loopz (d : Byte) (r : List Byte) : decode (0xE1 :: d :: r) = .ok (.loopz d, r) := rfl

theorem decode_loopnz (d : Byte) (r : List Byte) : decode (0xE0 :: d :: r) = .ok (.loopnz d, r) := rfl

theorem decode_jcxz (d : Byte) (r : List Byte) : decode (0xE3 :: d :: r) = .ok (.jcxz d, r) := rfl

/-- The count is used up exactly when CX was 1: a CX of 0 wraps to FFFFH and the loop goes on. -/
theorem decCx_cx_ne_zero_iff (s : State) : (s.decCx.regs.cx != 0) = true ↔ s.regs.cx ≠ 1 := by
  have : s.decCx.regs.cx = 0 ↔ s.regs.cx = 1 := sub_eq_zero
  rw [bne_iff_ne, Ne, this]

/-- Settles O42: the loops are conditional jumps from the state with CX counted down, JCXZ one from the state itself. -/
theorem loopForms : Obligations.LoopForms := by
  rintro d r s _ _ rfl rfl
  refine ⟨decode_loop d r, congrArg _ (jumpIf_eq_ite ?loop d s.decCx),
    decode_loopz d r, congrArg _ (jumpIf_eq_ite ?loopz d s.decCx),
    decode_loopnz d r, congrArg _ (jumpIf_eq_ite ?loopnz d s.decCx),
    decode_jcxz d r, congrArg _ (jumpIf_eq_ite ?jcxz d s)⟩
  case loop => exact decCx_cx_ne_zero_iff s
  case loopz => rw [Bool.and_eq_true, decCx_cx_ne_zero_iff]
  case loopnz => rw [Bool.and_eq_true, decCx_cx_ne_zero_iff, Bool.not_eq_true']
  case jcxz => exact beq_iff_eq

end Sys2Proof.Machine
end

section
/-! Proofs about the machine: the invariant holds right after reset and every step keeps it (`spec/10_state.md`). -/

namespace Sys2Proof.Machine

/-- Settles O50. -/
theorem resetMeetsInv : Obligations.ResetMeetsInv where
  memory := rfl
  inhibit := rfl
  queue := by decide
  ports := rfl
  progress := .inl rfl
  waiting := nofun
  asleep := by rintro (h | h | h) <;> cases h
  restart := nofun
  held := nofun
  bus := ⟨.inl rfl, rfl, rfl⟩

/-! ## What keeps the invariant -/

/-- The bus is used, nothing else happens: the invariant looks at nothing that this changes but the form of memory and
ports. -/
theorem Inv.onBus {s t : State} (h : Inv s) (b : OnBus s t) : Inv t where
  memory := b.mem h.memory
  inhibit := b.inhibit.trans h.inhibit
  queue := b.queue ▸ h.queue
  ports := b.ports h.ports
  progress := by
    have hp := h.progress
    simpa only [ProgressOk, b.cont, b.run, b.pfx] using hp
  waiting := by rw [b.run, b.cont]; exact h.waiting
  asleep := by rw [b.run, b.cont, b.pfx]; exact h.asleep
  restart := by rw [b.run, b.nmi]; exact h.restart
  held := by rw [b.run, b.queue, b.nmi, b.owner, b.rq0, b.rq1]; exact h.held
  bus := by
    have hb := h.bus
    simpa only [BusOk, b.par, b.owner, b.rq0, b.rq1] using hb

/-- The inputs of a step are taken: only the input, its list, the draw number and the outputs are new. -/
theorem Inv.takeInput {s : State} (h : Inv s) : Inv s.takeInput := by
  unfold State.takeInput
  split <;> exact ⟨h.memory, h.inhibit, h.queue, h.ports, h.progress, h.waiting, h.asleep, h.restart, h.held, h.bus⟩

/-- A step that RESET ends leaves the invariant, if memory and ports are in their form. -/
theorem inv_enterReset {s : State} (hm : Memory.wf s.mem = true) (hp : Memory.wf s.bus.ioMem = true) :
    Inv s.enterReset where
  memory := hm
  inhibit := rfl
  queue := Nat.zero_le _
  ports := hp
  progress := .inl rfl
  waiting := nofun
  asleep _ := ⟨rfl, rfl⟩
  restart := nofun
  held _ := ⟨rfl, rfl, rfl, rfl, rfl⟩
  bus := by
    unfold BusOk
    split
    · exact ⟨.inl rfl, rfl, rfl⟩
    · exact ⟨nofun, fun _ => rfl, fun _ => rfl⟩

/-- The machine is awake: not in reset, and not waiting for the bus behind a RESET. In these run states the NMI latch
is free. -/
def Awake (s : State) : Prop := s.run ≠ .heldInReset ∧ s.run ≠ .restarting

theorem Inv.withNmi {s : State} (h : Inv s) (a : Awake s) (n : Bool) : Inv { s with nmi := n } :=
  ⟨h.memory, h.inhibit, h.queue, h.ports, h.progress, h.waiting, h.asleep, fun hr => absurd hr a.2,
    fun hr => absurd hr a.1, h.bus⟩

/-- An edge only sets the latch. -/
theorem Inv.latch {s : State} (h : Inv s) (a : s.run ≠ .heldInReset) (b : Bool) : Inv (s.latch b) :=
  ⟨h.memory, h.inhibit, h.queue, h.ports, h.progress, h.waiting, h.asleep,
    fun hr => by simp [State.latch, h.restart hr], fun hr => absurd hr a, h.bus⟩

/-- Out of reset the queue may be any of at most six bytes. -/
theorem Inv.withQueue {s : State} (h : Inv s) (a : s.run ≠ .heldInReset) {q : List (Option Byte)}
    (hq : q.length ≤ maxBytes) : Inv { s with queue := q } :=
  ⟨h.memory, h.inhibit, hq, h.ports, h.progress, h.waiting, h.asleep, h.restart, fun hr => absurd hr a, h.bus⟩

/-- Nothing in progress and the CPU running: the invariant is the form of memory and ports, the queue and the bus. -/
theorem Inv.ofRunning {s : State} (hm : Memory.wf s.mem = true) (hi : s.inhibit = false)
    (hq : s.queue.length ≤ maxBytes) (hp : Memory.wf s.bus.ioMem = true) (hc : s.cont = none) (hr : s.run = .running)
    (hb : BusOk s.par.strap s.bus) : Inv s where
  memory := hm
  inhibit := hi
  queue := hq
  ports := hp
  progress := .inl hc
  waiting := by rw [hr]; exact nofun
  asleep := by rw [hr]; rintro (h | h | h) <;> cases h
  restart := by rw [hr]; exact nofun
  held := by rw [hr]; exact nofun
  bus := hb

theorem BusOk.of_eq {p : Strap} {b c : BusState} (h : BusOk p b) (ho : c.owner = b.owner) (h0 : c.rq0 = b.rq0)
    (h1 : c.rq1 = b.rq1) : BusOk p c := by simpa only [BusOk, ho, h0, h1] using h

/-! ## The end of a step -/

/-- A RESET that went HIGH in the step ends it, so only the form of memory and ports still matters. -/
def EndsInReset (s : State) : Prop :=
  s.input.resetAfter.isSome = true ∧ Memory.wf s.mem = true ∧ Memory.wf s.bus.ioMem = true

/-- What an activity may leave before the step is closed. -/
def Closable (s : State) : Prop := EndsInReset s ∨ Inv s ∧ Awake s

theorem EndsInReset.closed {s : State} (h : EndsInReset s) : Inv s.closeStep := by
  obtain ⟨hr, hm, hp⟩ := h
  rw [State.closeStep, if_pos hr]
  exact inv_enterReset hm hp

theorem Inv.closed {s : State} (h : Inv s) : Inv s.closeStep := by
  unfold State.closeStep
  split
  · exact inv_enterReset h.memory h.ports
  · exact h

theorem Closable.closed {s : State} : Closable s → Inv s.closeStep
  | .inl h => h.closed
  | .inr h => h.1.closed

theorem CutOff.endsInReset {s u : State} (h : CutOff s u) (hm : Memory.wf s.mem = true)
    (hp : Memory.wf s.bus.ioMem = true) : EndsInReset u := ⟨h.behind, h.mem hm, h.ports hp⟩

theorem Closable.memory {s : State} : Closable s → Memory.wf s.mem = true
  | .inl h => h.2.1
  | .inr h => h.1.memory

theorem Closable.ports {s : State} : Closable s → Memory.wf s.bus.ioMem = true
  | .inl h => h.2.2
  | .inr h => h.1.ports

/-- The invariant has the inhibit bit clear, so a recognition point may clear it. -/
theorem Inv.closable {s : State} (h : Inv s) (a : Awake s) : Closable { s with inhibit := false } :=
  .inr ⟨⟨h.memory, rfl, h.queue, h.ports, h.progress, h.waiting, h.asleep, h.restart, h.held, h.bus⟩, a⟩

theorem Closable.withNmi {s : State} (n : Bool) : Closable s → Closable { s with nmi := n }
  | .inl h => .inl h
  | .inr h => .inr ⟨h.1.withNmi h.2 n, h.2⟩

theorem unlessCut_cases {f : State → Out} {s t : State} (h : unlessCut f s = .next t) :
    s.cut = true ∧ t = s ∨ f s = .next t := by
  unfold unlessCut at h
  split at h
  · next hc => cases h; exact .inl ⟨hc, rfl⟩
  · exact .inr h

/-! ## Interrupt entries and the recognition point -/

theorem settle_cont (s : State) : s.settle.cont = none := by
  unfold State.settle
  split
  · rfl
  · next h => simpa using h

/-- Settling leaves alone what the invariant says of a machine with nothing in progress. -/
theorem settle_kept (s : State) :
    s.settle.mem = s.mem ∧ s.settle.bus = s.bus ∧ s.settle.input = s.input ∧ s.settle.inhibit = s.inhibit ∧
      s.settle.par = s.par := by
  unfold State.settle
  split <;> exact ⟨rfl, rfl, rfl, rfl, rfl⟩

/-- An entry from a state with nothing in progress leaves the CPU running with nothing in progress, unless a RESET cuts
it off. -/
theorem enter_closable {ack : Bool} {n : Byte} {s v : State} (hm : Memory.wf s.mem = true)
    (hp : Memory.wf s.bus.ioMem = true) (hc : s.cont = none)
    (hs : s.input.resetAfter.isSome = true ∨ s.inhibit = false ∧ BusOk s.par.strap s.bus)
    (h : enter ack n s = .next v) : Closable v := by
  rcases enter_next h with hcut | ⟨u, r, m, hsu, hr, hrv, hmm⟩
  · exact .inl (hcut.endsInReset hm hp)
  · obtain ⟨run, queue, -, -, -, cont, inhibit, -, input, -, -, par, bus, -⟩ := interrupt_frame hr
    have ports : Memory.wf v.bus.ioMem = true := hrv.ports (by simpa only [bus] using hsu.ports hp)
    rcases hs with hres | ⟨hi, hb⟩
    · refine .inl ⟨?_, hrv.mem (hmm hm), ports⟩
      rw [hrv.resetAfter, input, hsu.resetAfter]
      exact hres
    · have hrun : v.run = .running := hrv.run.trans run
      refine .inr ⟨.ofRunning (hrv.mem (hmm hm)) ?_ ?_ ports ?_ hrun ?_, by rw [hrun]; exact nofun, by
        rw [hrun]; exact nofun⟩
      · exact hrv.inhibit.trans (inhibit.trans (hsu.inhibit.trans hi))
      · rw [hrv.queue, queue]; exact Nat.zero_le _
      · exact hrv.cont.trans (cont.trans (hsu.cont.trans hc))
      · rw [hrv.par, par, hsu.par]
        refine hb.of_eq ?_ ?_ ?_
        · rw [hrv.owner, bus, hsu.owner]
        · rw [hrv.rq0, bus, hsu.rq0]
        · rw [hrv.rq1, bus, hsu.rq1]

/-- The recognition point keeps the invariant and clears the inhibit bit. -/
theorem boundary_closable {tf : Bool} {s t : State} (hs : Closable { s with inhibit := false })
    (h : boundary tf s = .next t) : Closable t := by
  refine boundary_induct (P := Closable) h hs (fun _ n hu => hu.withNmi n) fun u v ack n m hu he => ?_
  obtain ⟨hm, hb, hi, hn, hp⟩ := settle_kept u
  have hm' : Memory.wf u.settle.mem = true := by rw [hm]; exact hu.memory
  have hp' : Memory.wf u.settle.bus.ioMem = true := by rw [hb]; exact hu.ports
  refine enter_closable (s := { u.settle with nmi := m }) hm' hp' (settle_cont u) ?_ he
  show u.settle.input.resetAfter.isSome = true ∨ u.settle.inhibit = false ∧ BusOk u.settle.par.strap u.settle.bus
  rw [hb, hi, hn, hp]
  exact hu.imp And.left fun h => ⟨h.1.inhibit, h.1.bus⟩

/-! ## One instruction -/

/-- What holds where an instruction begins: nothing is in progress, and the machine waits only to take a WAIT again. -/
structure Begins (i : Instr) (s : State) : Prop where
  memory : Memory.wf s.mem = true
  ports : Memory.wf s.bus.ioMem = true
  inhibit : s.inhibit = false
  cont : s.cont = none
  run : s.run = .running ∨ i = .wait ∧ s.run = .waiting
  bus : BusOk s.par.strap s.bus

theorem Begins.onBus {i : Instr} {s t : State} (h : Begins i s) (b : OnBus s t) : Begins i t :=
  ⟨b.mem h.memory, b.ports h.ports, b.inhibit.trans h.inhibit, b.cont.trans h.cont, by rw [b.run]; exact h.run, by
    rw [b.par]; exact h.bus.of_eq b.owner b.rq0 b.rq1⟩

theorem Begins.running {i : Instr} {s : State} (h : Begins i s) (hi : i ≠ .wait) : s.run = .running :=
  h.run.resolve_right fun hw => hi hw.1

/-- What is in progress behind a meaning, and in which run state. -/
def Progress (i : Instr) (t : State) : Prop :=
  (t.cont = none ∧ (t.run = .running ∨ t.run = .halted ∧ isPrefixByte i = false)) ∨
    (t.cont = some .wait ∧ t.run = .waiting ∧ isPrefixByte i = false) ∨
    (t.cont = some i ∧ isStringPrimitive i = true ∧ t.run = .running ∧ t.pfx.rep.isSome = true)

theorem ordinary_ne_wait {i : Instr} (h : ordinary i = true) : i ≠ .wait := by rintro rfl; cases h

/-- A meaning leaves nothing in progress but a WAIT or a repeated string primitive (R231, R308). -/
theorem Kind.progress {i : Instr} {s t : State} (k : Kind i s t) (h : Begins i s) : Progress i t := by
  cases k with
  | plain o p => exact .inl ⟨p.cont.trans h.cont, .inl (p.run.trans (h.running (ordinary_ne_wait o)))⟩
  | entry o n u p e =>
    obtain ⟨run, -, -, -, -, cont, -⟩ := interrupt_frame e
    exact .inl ⟨cont.trans (p.cont.trans h.cont), .inl run⟩
  | string hi c once p e =>
    have hr : s.run = .running := h.running (by rintro rfl; cases hi)
    subst e
    unfold repeated
    split
    · exact .inl ⟨p.cont.trans h.cont, .inl (p.run.trans hr)⟩
    · next z hz =>
      split
      · exact .inl ⟨h.cont, .inl hr⟩
      · dsimp only
        split
        · exact .inl ⟨p.cont.trans h.cont, .inl (p.run.trans hr)⟩
        · refine .inr (.inr ⟨rfl, hi, p.run.trans hr, ?_⟩)
          rw [State.repeatAgain_pfx, State.decCx_pfx, p.pfx, hz]
          rfl
  | pfx hi p e => subst e; exact .inl ⟨h.cont, .inl (h.running (by rintro rfl; cases hi))⟩
  | hlt hi e => subst hi e; exact .inl ⟨h.cont, .inr ⟨rfl, rfl⟩⟩
  | passed hi e => subst hi e; exact .inl ⟨h.cont, .inl rfl⟩
  | waits hi e => subst hi e; exact .inr (.inl ⟨rfl, rfl, rfl⟩)

/-- Only an instruction with a recognition point behind it sets the inhibit bit. -/
theorem Kind.prefix_inhibit {i : Instr} {s t : State} (k : Kind i s t) (hi : isPrefixByte i = true) :
    t.inhibit = s.inhibit := by
  cases k with
  | plain o _ => cases i <;> cases hi <;> cases o
  | entry o _ _ _ _ => cases i <;> cases hi <;> cases o
  | string h _ _ _ _ => cases i <;> cases hi <;> cases h
  | pfx _ _ e => subst e; rfl
  | hlt h _ => subst h; cases hi
  | passed h _ => subst h; cases hi
  | waits h _ => subst h; cases hi

/-- The queue behind a meaning is the one before it, or was emptied. -/
theorem Kind.queue {i : Instr} {s t : State} (k : Kind i s t) : t.queue = s.queue ∨ t.queue = [] := by
  cases k with
  | plain _ p => exact p.queue
  | entry _ _ _ _ e => exact .inr (interrupt_frame e).2.1
  | string _ c once p e =>
    subst e
    unfold repeated
    split
    · exact p.queue
    · split
      · exact .inl rfl
      · dsimp only
        split <;> exact p.queue
  | pfx _ _ e => subst e; exact .inl rfl
  | hlt _ e => subst e; exact .inl rfl
  | passed _ e => subst e; exact .inl rfl
  | waits _ e => subst e; exact .inl rfl

theorem Kind.queue_length {i : Instr} {s t : State} (k : Kind i s t) (h : s.queue.length ≤ maxBytes) :
    t.queue.length ≤ maxBytes := by
  rcases k.queue with e | e <;> rw [e]
  · exact h
  · exact Nat.zero_le _

/-- The prefixes end where nothing is in progress, and what an activity may leave is left. -/
theorem endPrefixes_closable {i : Instr} {s : State} (hm : Memory.wf s.mem = true)
    (hp : Memory.wf s.bus.ioMem = true) (hq : s.queue.length ≤ maxBytes) (hb : BusOk s.par.strap s.bus)
    (h : Progress i s) : Closable { s.endPrefixes with inhibit := false } := by
  refine .inr ?_
  rcases h with ⟨hc, hr⟩ | ⟨hc, hr, -⟩ | ⟨hc, hi, hr, hx⟩
  · have e : s.endPrefixes = { s with pfx := Pfx.none } := by simp [State.endPrefixes, hc]
    rw [e]
    refine ⟨⟨hm, rfl, hq, hp, .inl hc, ?_, fun _ => ⟨hc, rfl⟩, ?_, ?_, hb⟩, ?_, ?_⟩ <;>
      rcases hr with hr | ⟨hr, -⟩ <;> dsimp only <;> rw [hr] <;> exact nofun
  · have e : s.endPrefixes = s := by simp [State.endPrefixes, hc]
    rw [e]
    refine ⟨⟨hm, rfl, hq, hp, .inr (.inl ⟨hc, hr⟩), fun _ => hc, ?_, ?_, ?_, hb⟩, ?_, ?_⟩ <;> dsimp only <;> rw [hr]
    · rintro (h | h | h) <;> cases h
    all_goals exact nofun
  · have e : s.endPrefixes = s := by simp [State.endPrefixes, hc]
    rw [e]
    refine ⟨⟨hm, rfl, hq, hp, .inr (.inr ⟨i, hc, hi, hr, hx⟩), ?_, ?_, ?_, ?_, hb⟩, ?_, ?_⟩ <;> dsimp only <;> rw [hr]
    · exact nofun
    · rintro (h | h | h) <;> cases h
    all_goals exact nofun

/-- What lies behind a meaning: for a prefix byte nothing, else the recognition point. -/
theorem finish_closable {i : Instr} {tf : Bool} {s t : State} (hm : Memory.wf s.mem = true)
    (hp : Memory.wf s.bus.ioMem = true) (hq : s.queue.length ≤ maxBytes) (hb : BusOk s.par.strap s.bus)
    (hi : isPrefixByte i = true → s.inhibit = false) (hpr : Progress i s) (h : finish i tf s = .next t) :
    Closable t := by
  unfold finish at h
  split at h
  · next hpf =>
    cases h
    have hstr : isStringPrimitive i = false := by cases i <;> first | rfl | cases hpf
    have hr : s.cont = none ∧ s.run = .running := by
      rcases hpr with ⟨hc, hr | ⟨-, hn⟩⟩ | ⟨-, -, hn⟩ | ⟨-, hn, -⟩
      · exact ⟨hc, hr⟩
      · rw [hpf] at hn; cases hn
      · rw [hpf] at hn; cases hn
      · rw [hstr] at hn; cases hn
    have a : Awake s := by rw [Awake, hr.2]; exact ⟨nofun, nofun⟩
    exact .inr ⟨(Inv.ofRunning hm (hi hpf) hq hp hr.1 hr.2 hb).latch a.1 _, a⟩
  · exact boundary_closable (endPrefixes_closable hm hp hq hb hpr) h

theorem endPrefixes_endsInReset {s : State} (h : EndsInReset s) :
    EndsInReset { s.endPrefixes with inhibit := false } := by
  unfold State.endPrefixes
  split <;> exact h

/-- Behind a RESET nothing that may still happen in the step matters. -/
theorem finish_endsInReset {i : Instr} {tf : Bool} {s t : State} (hs : EndsInReset s) (h : finish i tf s = .next t) :
    Closable t := by
  unfold finish at h
  split at h
  · cases h; exact .inl hs
  · exact boundary_closable (.inl (endPrefixes_endsInReset hs)) h

/-- Behind a meaning from `v`, on the bus or not, up to the recognition point. -/
theorem Kind.closable {i : Instr} {tf : Bool} {v r w t : State} {m : List Host.Cell} (k : Kind i v r)
    (hv : Begins i v) (hvq : v.queue.length ≤ maxBytes) (hm : Memory.wf m = true) (hw : OnBus { r with mem := m } w)
    {q : List (Option Byte)} (hq : q.length ≤ w.queue.length) (h : finish i tf { w with queue := q } = .next t) :
    Closable t := by
  obtain ⟨-, hbus, hpar, -⟩ := k.kept
  have hp := k.progress hv
  refine finish_closable (s := { w with queue := q }) (hw.mem hm) (hw.ports ?_) ?_ ?_ ?_ ?_ h
  · rw [hbus]; exact hv.ports
  · refine Nat.le_trans hq ?_
    rw [hw.queue]
    exact k.queue_length hvq
  · have hb := hv.bus
    rw [← hbus, ← hpar] at hb
    show BusOk w.par.strap w.bus
    rw [hw.par]
    exact hb.of_eq hw.owner hw.rq0 hw.rq1
  · intro hi
    exact hw.inhibit.trans ((k.prefix_inhibit hi).trans hv.inhibit)
  · simpa only [Progress, hw.cont, hw.run, hw.pfx] using hp

/-- One instruction keeps the invariant. -/
theorem runInstr_closable {i : Instr} {n : Nat} {s t : State} (hs : Begins i s) (h : runInstr i n s = .next t) :
    Closable t := by
  unfold runInstr at h
  split at h
  · cases h
  · obtain ⟨u, hu, h2⟩ := andThen_next h
    have hb : Begins i { s.note [] (takeOps n) with queue := padQueue maxBytes s.queue }.tick :=
      ⟨hs.memory, hs.ports, hs.inhibit, hs.cont, hs.run, hs.bus.of_eq rfl rfl rfl⟩
    rcases runBus_next hu with hcut | ⟨v, r, m, hsv, k, hru, hmm⟩
    · have he := hcut.endsInReset hb.memory hb.ports
      rcases unlessCut_cases h2 with ⟨-, rfl⟩ | h2
      · exact .inl he
      · exact finish_endsInReset (s := settleQueue _ u) he h2
    · have hv := hb.onBus hsv
      have hvq : v.queue.length ≤ maxBytes := by rw [hsv.queue]; exact (padQueue_length _ _).le
      rcases unlessCut_cases h2 with ⟨hcut, rfl⟩ | h2
      · refine .inl ⟨cut_resetAfter hcut, hru.mem (hmm hb.memory), hru.ports ?_⟩
        rw [k.kept.2.1]
        exact hv.ports
      · exact k.closable hv hvq (hmm hb.memory) hru (settleQueue_length _ u) h2

/-! ## Bus requests and hold acknowledge -/

/-- Arbitration under a strap gives the bus to the CPU or to a master of that mode (R345, R349). -/
theorem arbitrate_busOk {s : State} (h : BusOk s.par.strap s.bus) : BusOk s.arbitrate.par.strap s.arbitrate.bus := by
  unfold State.arbitrate
  split
  · next e =>
    simp only [BusOk, e, State.arbitrateHold]
    split <;> simp
  · next e =>
    simp only [BusOk, e] at h ⊢
    obtain ⟨hn, h0, h1⟩ := h
    unfold State.arbitratePulses
    dsimp only
    generalize (decide (s.bus.owner = .rq0) && s.input.rq0 || decide (s.bus.owner = .rq1) && s.input.rq1 ||
      decide (s.bus.owner = .hold)) = back
    have keeps : (if back then .cpu else s.bus.owner) = BusOwner.cpu ∨
        (if back then .cpu else s.bus.owner) = s.bus.owner := by cases back <;> simp
    generalize (if back = true then BusOwner.cpu else s.bus.owner) = o at keeps ⊢
    split
    · split
      · exact ⟨by simp, fun _ => rfl, by simp⟩
      · split <;> simp
    · rcases keeps with rfl | rfl
      · simp
      · refine ⟨hn, fun ho => ?_, fun ho => ?_⟩ <;> dsimp only at ho ⊢
        · simp [h0 ho, ho]
        · simp [h1 ho, ho]

/-- Arbitration leaves alone what is not the bus. -/
theorem Inv.arbitrate {s : State} (h : Inv s) (a : s.run ≠ .heldInReset) : Inv s.arbitrate := by
  have hb := arbitrate_busOk h.bus
  obtain ⟨o, x, y, e⟩ := s.arbitrate_eq
  rw [e] at hb ⊢
  exact ⟨h.memory, h.inhibit, h.queue, h.ports, h.progress, h.waiting, h.asleep, h.restart, fun hr => absurd hr a, hb⟩

theorem arbitrate_kept (s : State) :
    s.arbitrate.run = s.run ∧ s.arbitrate.cont = s.cont ∧ s.arbitrate.nmi = s.nmi ∧ s.arbitrate.input = s.input := by
  obtain ⟨o, x, y, e⟩ := s.arbitrate_eq
  rw [e]
  exact ⟨rfl, rfl, rfl, rfl⟩

/-- An instruction may begin where the invariant holds: the one in progress, or any when there is none. -/
theorem Inv.begins {s : State} (h : Inv s) (hr : s.run ≠ .halted) (a : Awake s) {i : Instr}
    (hi : s.cont = none ∨ s.cont = some i) (ip : Word) (q : List (Option Byte)) :
    Begins i { s with ip := ip, cont := none, queue := q } where
  memory := h.memory
  ports := h.ports
  inhibit := h.inhibit
  cont := rfl
  run := by
    show s.run = .running ∨ i = .wait ∧ s.run = .waiting
    rcases h.progress with hc | ⟨hc, hw⟩ | ⟨j, -, -, hw, -⟩
    · cases e : s.run with
      | running => exact .inl rfl
      | waiting => rw [h.waiting e] at hc; cases hc
      | halted => exact absurd e hr
      | heldInReset => exact absurd e a.1
      | restarting => exact absurd e a.2
    · rw [hc] at hi
      simp only [reduceCtorEq, Option.some.injEq, false_or] at hi
      exact .inr ⟨hi.symm, hw⟩
    · exact .inl hw
  bus := h.bus

/-- The instruction of a step keeps the invariant. -/
theorem instruction_closable {s t : State} (h : Inv s) (hr : s.run ≠ .halted) (a : Awake s)
    (ht : instruction s = .next t) : Closable t := by
  unfold instruction at ht
  split at ht
  · next i hc => exact runInstr_closable (h.begins hr a (.inr hc) _ s.queue) ht
  · next hc =>
    split at ht
    · cases ht
    · next i rest _ =>
      have hb := h.begins hr a (i := i) (.inl hc) (s.ip + BitVec.ofNat 16 (maxBytes - rest.length))
        (s.queue.drop (maxBytes - rest.length))
      rw [← hc] at hb
      exact runInstr_closable hb ht

/-- An instruction in hold acknowledge keeps the invariant, executed or not. -/
theorem runHeld_closable {i : Instr} {n : Nat} {s stay t : State} (hs : Begins i s) (hy : Closable stay)
    (h : runHeld i n s stay = .next t) : Closable t := by
  unfold runHeld at h
  split at h
  · cases h; exact hy
  · split at h
    · next r he =>
      split at h
      · have hb : Begins i { s with queue := padQueue maxBytes s.queue }.tick :=
          ⟨hs.memory, hs.ports, hs.inhibit, hs.cont, hs.run, hs.bus⟩
        have k := exec_kind i he
        exact k.closable hb (padQueue_length _ _).le (k.mem hs.memory) (r.note_onBus [] _)
          (q := trimQueue r.queue) (trimQueue_length _) h
      · cases h; exact hy
    · cases h; exact hy
    · cases h; exact hy

theorem heldInstruction_closable {s t : State} (h : Inv s) (hr : s.run ≠ .halted) (a : Awake s)
    (ht : heldInstruction s = .next t) : Closable t := by
  have hy : Closable (s.latch s.input.nmiLate) := .inr ⟨h.latch a.1 _, a⟩
  unfold heldInstruction at ht
  split at ht
  · next i hc => exact runHeld_closable (h.begins hr a (.inr hc) _ s.queue) hy ht
  · next hc =>
    split at ht
    · cases ht; exact hy
    · next i rest _ =>
      have hb := h.begins hr a (i := i) (.inl hc) (s.ip + BitVec.ofNat 16 ((knownBytes s.queue).length - rest.length))
        (s.queue.drop ((knownBytes s.queue).length - rest.length))
      rw [← hc] at hb
      exact runHeld_closable hb hy ht

/-- A step of hold acknowledge ends with the invariant if the machine, with the late NMI edge latched, has it. -/
theorem holdStep_closed {s t : State} (h : Inv (s.latch s.input.nmiLate))
    (ht : holdStep s = .next t) : Inv t.closeStep := by
  unfold holdStep at ht
  dsimp only at ht
  have hw' : Inv ((masterWrites s.input.busWrites s).latch s.input.nmiLate) := by
    rw [masterWrites_eq]
    exact h.onBus (.update _ _ _ _ _ _ _ _ _ (fun hm => masterWrites_wf _ s hm) fun hp => masterWrites_ports _ s hp)
  split at ht
  · next hx =>
    simp only [State.executes, Bool.and_eq_true, Bool.or_eq_true, beq_iff_eq] at hx
    generalize masterWrites s.input.busWrites s = u at hx hw' ht
    have au : Awake u := by rcases hx.2 with e | e <;> rw [Awake, e] <;> exact ⟨nofun, nofun⟩
    have hu : Inv u := hw'.withNmi (s := u.latch _) au u.nmi
    have hh : u.run ≠ .halted := by rcases hx.2 with e | e <;> rw [e] <;> nofun
    exact (heldInstruction_closable hu hh au ht).closed
  · cases ht
    exact hw'.closed

/-- The queue at a grant holds at most six bytes (R40). -/
theorem pinQueue_length (s : State) (n : Nat) : (s.pinQueue n).queue.length ≤ maxBytes := by
  simp only [State.pinQueue, List.length_map, List.length_take, State.fetchWindow_length]
  exact Nat.min_le_right _ _

theorem grantStep_closed {n : Nat} {before s t : State} (h : Inv (s.latch s.input.nmiLate)) (a : s.run ≠ .heldInReset)
    (ht : grantStep n before s = .next t) : Inv t.closeStep := by
  unfold grantStep at ht
  split at ht
  · exact holdStep_closed h ht
  · exact holdStep_closed (s := s.pinQueue n) (h.withQueue (s := s.latch _) a (pinQueue_length s n)) ht

/-! ## Reset and the whole step -/

/-- The machine that has left reset, before anyone asks for the bus. -/
theorem inv_leaveReset {s : State} (hm : Memory.wf s.mem = true) (hp : Memory.wf s.bus.ioMem = true) :
    Inv s.leaveReset :=
  .ofRunning hm rfl (Nat.zero_le _) hp rfl rfl (inv_enterReset hm hp).bus

/-- The end of the internal reset sequence leaves the invariant (R430, R445, R349). -/
theorem endReset_closed {s t : State} (hm : Memory.wf s.mem = true) (hp : Memory.wf s.bus.ioMem = true)
    (ht : endReset s = .next t) : Inv t.closeStep := by
  have h1 : Inv s.leaveReset.arbitrate := (inv_leaveReset hm hp).arbitrate nofun
  obtain ⟨hrun, hcont, -, hin⟩ := arbitrate_kept s.leaveReset
  have a1 : Awake s.leaveReset.arbitrate := by rw [Awake, hrun]; exact ⟨nofun, nofun⟩
  have hpfx : s.leaveReset.arbitrate.pfx = Pfx.none := by
    obtain ⟨o, x, y, e⟩ := s.leaveReset.arbitrate_eq
    rw [e]; rfl
  unfold endReset at ht
  dsimp only at ht
  generalize s.leaveReset.arbitrate = u at *
  split at ht
  · refine grantStep_closed ?_ ?_ ht
    · have hc : u.cont = none := hcont
      have hi : u.input = s.input := hin
      by_cases hf : (s.input.nmiLate && s.input.nmiFirst) = true
      · rw [if_pos hf]
        refine ⟨h1.memory, h1.inhibit, h1.queue, h1.ports, .inl hc, nofun, fun _ => ⟨hc, hpfx⟩, fun _ => ?_, nofun,
          h1.bus⟩
        rw [Bool.and_eq_true] at hf
        simp [State.latch, hi, hf.1]
      · rw [if_neg hf]
        exact Inv.ofRunning (s := State.latch { u with run := .running } u.input.nmiLate) h1.memory h1.inhibit h1.queue
          h1.ports hc rfl h1.bus
    · dsimp only
      split <;> nofun
  · split at ht
    · split at ht
      · exact (enter_closable h1.memory h1.ports hcont (.inr ⟨h1.inhibit, h1.bus⟩) ht).closed
      · cases ht
        exact (h1.withNmi a1 true).closed
    · cases ht
      exact h1.closed

/-- The writes of masters of the system bus keep the invariant. -/
theorem Inv.behindSystemStep {s : State} (h : Inv s) (a : s.run ≠ .heldInReset) : Inv (systemStep s) := by
  have hm : Memory.wf (systemStep s).mem = true ∧ Memory.wf (systemStep s).bus.ioMem = true := by
    unfold systemStep
    split
    · split
      · exact ⟨masterWrites_wf _ _ h.memory, masterWrites_ports _ _ h.ports⟩
      · exact ⟨masterWrites_wf _ _ h.memory, masterWrites_ports _ _ h.ports⟩
    · exact ⟨h.memory, h.ports⟩
  obtain ⟨q, e, hq⟩ := systemStep_eq s
  have hql : q.length ≤ maxBytes := hq.elim (· ▸ h.queue) id
  have hb : OnBus { s with queue := q } (systemStep s) := by
    rw [e]
    exact .update { s with queue := q } _ _ _ _ _ _ _ _ (fun _ => hm.1) fun _ => hm.2
  exact (h.withQueue a hql).onBus hb

/-- One step behind its inputs ends with the invariant. -/
theorem stepInput_closed {s t : State} (h : Inv s) (ht : stepInput s = .next t) : Inv t.closeStep := by
  have hreset := systemStep_onBus (s := s.enterReset) (.inr rfl)
  have hre := (inv_enterReset h.memory h.ports).onBus hreset
  unfold stepInput at ht
  split at ht
  · cases ht
    exact hre.closed
  · split at ht
    · exact endReset_closed hre.memory hre.ports ht
    · next hr =>
      have h1 : Inv (systemStep (s.latch s.input.nmiEdge)) := (h.latch hr _).behindSystemStep hr
      have hr1 : (systemStep (s.latch s.input.nmiEdge)).run ≠ .heldInReset := by
        obtain ⟨q, e, -⟩ := systemStep_eq (s.latch s.input.nmiEdge)
        rw [e]; exact hr
      dsimp only at ht
      generalize systemStep (s.latch s.input.nmiEdge) = s1 at *
      have h2 := h1.arbitrate hr1
      have hr2 : s1.arbitrate.run ≠ .heldInReset := by rw [(arbitrate_kept s1).1]; exact hr1
      generalize s1.arbitrate = s2 at *
      split at ht
      · exact grantStep_closed (h2.latch hr2 _) hr2 ht
      · split at ht
        · next hh =>
          have a2 : Awake s2 := by rw [Awake, hh]; exact ⟨nofun, nofun⟩
          unfold haltedStep at ht
          split at ht
          · exact (boundary_closable ((h2.onBus (s2.note_onBus [haltCycle s2] [])).closable a2) ht).closed
          · exact (boundary_closable (h2.closable a2) ht).closed
        · split at ht
          · next hh =>
            refine (boundary_closable (s := { s2 with run := .running }) (.inr ⟨?_, nofun, nofun⟩) ht).closed
            exact .ofRunning h2.memory rfl h2.queue h2.ports (h2.asleep (.inr (.inr hh))).1 rfl h2.bus
          · next hh hrs => exact (instruction_closable h2 hh ⟨hr2, hrs⟩ ht).closed

/-- Settles O51: the invariant survives the inputs, the step and its end. -/
theorem stepKeepsInv : Obligations.StepKeepsInv := by
  intro s t h ht
  obtain ⟨u, hu, hc⟩ := andThen_next ht
  cases hc
  exact stepInput_closed h.takeInput hu

end Sys2Proof.Machine
end

section
/-! Proofs about the decoder: the parts of an encoding are read back one by one, and what is read is what was written
(`spec/30_encoding.md`). -/

namespace Sys2Proof

/-! ## Fields -/

@[simp] theorem RegField.ofCode_code (r : RegField) : RegField.ofCode r.code = r := by cases r <;> rfl

@[simp] theorem Base.ofCode_code (b : Base) : Base.ofCode b.code = b := by cases b <;> rfl

/-- A 3-bit value is one of eight. -/
theorem bv3_cases {P : BitVec 3 → Prop} (h0 : P 0) (h1 : P 1) (h2 : P 2) (h3 : P 3) (h4 : P 4) (h5 : P 5) (h6 : P 6)
    (h7 : P 7) : ∀ c, P c := by
  have h : ∀ c : BitVec 3, c = 0 ∨ c = 1 ∨ c = 2 ∨ c = 3 ∨ c = 4 ∨ c = 5 ∨ c = 6 ∨ c = 7 := by decide
  intro c
  rcases h c with rfl | rfl | rfl | rfl | rfl | rfl | rfl | rfl <;> assumption

@[simp] theorem RegField.code_ofCode (c : BitVec 3) : (RegField.ofCode c).code = c := by
  revert c; exact bv3_cases rfl rfl rfl rfl rfl rfl rfl rfl

@[simp] theorem Base.code_ofCode (c : BitVec 3) : (Base.ofCode c).code = c := by
  revert c; exact bv3_cases rfl rfl rfl rfl rfl rfl rfl rfl

/-- The fields of a second byte are the fields it was made of (R88). -/
theorem modRM_fields (md : BitVec 2) (mid rm : BitVec 3) :
    (modRM md mid rm).extractLsb' 6 2 = md ∧ (modRM md mid rm).extractLsb' 3 3 = mid ∧
      (modRM md mid rm).extractLsb' 0 3 = rm := by
  refine ⟨?_, ?_, ?_⟩ <;> ext i hi <;> simp [modRM] <;> grind

/-- A byte is the second byte of its fields. -/
theorem modRM_of_fields (b : Byte) :
    modRM (b.extractLsb' 6 2) (b.extractLsb' 3 3) (b.extractLsb' 0 3) = b := by
  ext i hi
  simp [modRM]
  grind

/-! ## Reading back what was written -/

theorem withWord_leBytes (v : Word) (r : List Byte) (k : Word → List Byte → Decoded) :
    withWord (leBytes v ++ r) k = k v r := by
  show k (leWord (wordLo v) (wordHi v)) r = _
  rw [Machine.leWord_lo_hi]

theorem withImm_immBytes (w : Width) (v : BitVec w.bits) (r : List Byte) (k : BitVec w.bits → List Byte → Decoded) :
    withImm w (immBytes w v ++ r) k = k v r := by
  cases w with
  | byte => rfl
  | word => exact withWord_leBytes v r k

/-- The reader of a second byte, on the second byte with these fields. -/
theorem withRM_modRM (md : BitVec 2) (mid : RegField) (c : BitVec 3) (l : List Byte)
    (k : RegField → RM → List Byte → Decoded) :
    withRM (modRM md mid.code c :: l) k =
      match md.toNat with
      | 0 => if Base.ofCode c = .bp then withWord l fun a r => k mid (.mem (.direct a)) r
        else k mid (.mem (.ind (Base.ofCode c))) l
      | 1 => withByte l fun d r => k mid (.mem (.disp8 (Base.ofCode c) d)) r
      | 2 => withWord l fun d r => k mid (.mem (.disp16 (Base.ofCode c) d)) r
      | _ => k mid (.reg (RegField.ofCode c)) l := by
  obtain ⟨h1, h2, h3⟩ := modRM_fields md mid.code c
  simp only [withRM, withByte, fieldAt, h1, h2, h3, RegField.ofCode_code] <;> rfl

/-- The second byte and the displacement of an operand are read back with the middle field (R88, R89). -/
theorem withRM_rmBytes (mid : RegField) {rm : RM} (h : rm.wf = true) (r : List Byte)
    (k : RegField → RM → List Byte → Decoded) : withRM (rmBytes mid.code rm ++ r) k = k mid rm r := by
  rcases rm with q | (a | b | ⟨b, d⟩ | ⟨b, d⟩)
  · refine (withRM_modRM 3 mid q.code r k).trans ?_
    rw [RegField.ofCode_code]
    rfl
  · refine (withRM_modRM 0 mid 6 (leBytes a ++ r) k).trans ?_
    exact withWord_leBytes a r fun a r => k mid (.mem (.direct a)) r
  · refine (withRM_modRM 0 mid b.code r k).trans ?_
    rw [Base.ofCode_code]
    exact if_neg (by rintro rfl; cases h)
  · refine (withRM_modRM 1 mid b.code (d :: r) k).trans ?_
    rw [Base.ofCode_code]
    rfl
  · refine (withRM_modRM 2 mid b.code (leBytes d ++ r) k).trans ?_
    rw [Base.ofCode_code]
    exact withWord_leBytes d r fun d r => k mid (.mem (.disp16 b d)) r

theorem withMem_memBytes (b0 : Byte) (mid : RegField) {m : MemOp} (h : m.wf = true) (r : List Byte)
    (k : RegField → MemOp → List Byte → Decoded) : withMem b0 (memBytes mid.code m ++ r) k = k mid m r :=
  withRM_rmBytes (rm := .mem m) mid h r _

/-- The immediate of `100000sw` is read as its first byte says (R84). -/
theorem withGrpImm_bytes (g : GrpImm) (r : List Byte) (k : GrpImm → List Byte → Decoded) :
    withGrpImm g.op (g.bytes ++ r) k = k g r := by
  rcases g with ⟨_ | _, d⟩ | d | d <;> simp only [GrpImm.op, GrpImm.bytes]
  · rfl
  · rfl
  · exact withWord_leBytes d r fun d r => k (.word d) r
  · rfl

/-! ## The opcode map by its first bytes (R96) -/

theorem decode_aluRmReg (f : RegField) (d : Dir) (w : Width) (l : List Byte) :
    decode (opDW (0#2 ++ f.code ++ 0#1) d.bit w :: l) =
      withRM l fun mid rm r => done (aluRmRegOf f d w mid rm) r := by
  cases f <;> cases d <;> cases w <;> rfl

theorem decode_aluAccImm (f : RegField) (w : Width) (l : List Byte) :
    decode (opW (0#2 ++ f.code ++ 2#2) w :: l) = withImm w l fun imm r => done (aluAccImmOf f w imm) r := by
  cases f <;> cases w <;> rfl

theorem decode_grpImm (g : GrpImm) (l : List Byte) : decode (g.op :: l) = decodeGrpImm g.op l := by
  rcases g with ⟨_ | _, d⟩ | d | d <;> simp only [GrpImm.op] <;> rfl

theorem decode_logicImm (w : Width) (l : List Byte) :
    decode (opW 0b1000000 w :: l) = decodeGrpImm (opW 0b1000000 w) l := by cases w <;> rfl

theorem decode_testRmReg (w : Width) (l : List Byte) :
    decode (opW 0b1000010 w :: l) = withRM l fun mid rm r => done (.testRmReg w mid rm) r := by cases w <;> rfl

theorem decode_xchgRmReg (w : Width) (l : List Byte) :
    decode (opW 0b1000011 w :: l) = withRM l fun mid rm r => done (.xchgRmReg w mid rm) r := by cases w <;> rfl

theorem decode_movRmReg (d : Dir) (w : Width) (l : List Byte) :
    decode (opDW 0b100010 d.bit w :: l) = withRM l fun mid rm r => done (.movRmReg d w mid rm) r := by
  cases d <;> cases w <;> rfl

theorem decode_8C (l : List Byte) :
    decode (0x8C :: l) = withRM l fun mid rm r =>
      match sregOfField mid with
      | some sr => done (.movRmSreg sr rm) r
      | none => .error (.undocumentedSubcode 0x8C mid) := rfl

theorem decode_lea (l : List Byte) : decode (0x8D :: l) = withMem 0x8D l fun mid m r => done (.lea mid m) r := rfl

theorem decode_8E (l : List Byte) :
    decode (0x8E :: l) = withRM l fun mid rm r =>
      match sregOfField mid with
      | some .cs => .error .csDestination
      | some sr => done (.movSregRm sr rm) r
      | none => .error (.undocumentedSubcode 0x8E mid) := rfl

theorem decode_popRm (l : List Byte) :
    decode (0x8F :: l) = withRM l fun mid rm r =>
      if mid = .ax then done (.popRm rm) r else .error (.undocumentedSubcode 0x8F mid) := rfl

theorem decode_callFar (l : List Byte) :
    decode (0x9A :: l) = withWord l fun o r => withWord r fun s r => done (.callFar o s) r := rfl

theorem decode_movAccMem (w : Width) (l : List Byte) :
    decode (opW 0b1010000 w :: l) = withWord l fun a r => done (.movAccMem w a) r := by cases w <;> rfl

theorem decode_movMemAcc (w : Width) (l : List Byte) :
    decode (opW 0b1010001 w :: l) = withWord l fun a r => done (.movMemAcc w a) r := by cases w <;> rfl

theorem decode_testAccImm (w : Width) (l : List Byte) :
    decode (opW 0b1010100 w :: l) = withImm w l fun imm r => done (.testAccImm w imm) r := by cases w <;> rfl

theorem decode_movRegImm (w : Width) (reg : RegField) (l : List Byte) :
    decode (((0b1011#4 ++ w.bit) ++ reg.code : Byte) :: l) =
      withImm w l fun imm r => done (.movRegImm w reg imm) r := by
  cases w <;> cases reg <;> rfl

theorem decode_retImm (l : List Byte) : decode (0xC2 :: l) = withWord l fun k r => done (.retImm k) r := rfl

theorem decode_les (l : List Byte) : decode (0xC4 :: l) = withMem 0xC4 l fun mid m r => done (.les mid m) r := rfl

theorem decode_lds (l : List Byte) : decode (0xC5 :: l) = withMem 0xC5 l fun mid m r => done (.lds mid m) r := rfl

theorem decode_movRmImm (w : Width) (l : List Byte) :
    decode (opW 0b1100011 w :: l) = withRM l fun mid rm r =>
      if mid = .ax then withImm w r fun imm r => done (.movRmImm w rm imm) r
      else .error (.undocumentedSubcode (opW 0b1100011 w) mid) := by cases w <;> rfl

theorem decode_retfImm (l : List Byte) : decode (0xCA :: l) = withWord l fun k r => done (.retfImm k) r := rfl

theorem decode_shift (c : ShiftCount) (w : Width) (l : List Byte) :
    decode (opDW 0b110100 c.bit w :: l) = withRM l fun mid rm r =>
      match mid with
      | .ax => done (.rolRm c w rm) r
      | .cx => done (.rorRm c w rm) r
      | .dx => done (.rclRm c w rm) r
      | .bx => done (.rcrRm c w rm) r
      | .sp => done (.shlRm c w rm) r
      | .bp => done (.shrRm c w rm) r
      | .si => .error (.undocumentedSubcode (opDW 0b110100 c.bit w) mid)
      | .di => done (.sarRm c w rm) r := by
  cases c <;> cases w <;> rfl

theorem decode_esc (hi : BitVec 3) (l : List Byte) :
    decode (((0b11011#5 ++ hi : Byte)) :: l) = withRM l fun mid rm r => done (.esc hi mid.code rm) r := by
  revert hi; exact bv3_cases rfl rfl rfl rfl rfl rfl rfl rfl

theorem decode_callNear (l : List Byte) : decode (0xE8 :: l) = withWord l fun d r => done (.callNear d) r := rfl

theorem decode_jmpNear (l : List Byte) : decode (0xE9 :: l) = withWord l fun d r => done (.jmpNear d) r := rfl

theorem decode_jmpFar (l : List Byte) :
    decode (0xEA :: l) = withWord l fun o r => withWord r fun s r => done (.jmpFar o s) r := rfl

theorem decode_grp3 (w : Width) (l : List Byte) :
    decode (opW 0b1111011 w :: l) = withRM l fun mid rm r =>
      match mid with
      | .ax => withImm w r fun imm r => done (.testRmImm w rm imm) r
      | .cx => .error (.undocumentedSubcode (opW 0b1111011 w) mid)
      | .dx => done (.notRm w rm) r
      | .bx => done (.negRm w rm) r
      | .sp => done (.mulRm w rm) r
      | .bp => done (.imulRm w rm) r
      | .si => done (.divRm w rm) r
      | .di => done (.idivRm w rm) r := by cases w <;> rfl

theorem decode_FE (l : List Byte) : decode (0xFE :: l) = decodeFE 0xFE l := rfl

theorem decode_FF (l : List Byte) : decode (0xFF :: l) = decodeFF 0xFF l := rfl

/-! ## Every encoding is read back -/

/-- The operand of an immediate form is read back, with the immediate's bytes left. -/
theorem withRM_rmBytes_append (mid : RegField) {rm : RM} (h : rm.wf = true) (l r : List Byte)
    (k : RegField → RM → List Byte → Decoded) : withRM ((rmBytes mid.code rm ++ l) ++ r) k = k mid rm (l ++ r) := by
  rw [List.append_assoc]
  exact withRM_rmBytes mid h _ k

/-- Settles O1: the first byte selects a row of the opcode map, and its fields are read back one by one. -/
theorem decodeOfEncode : Obligations.DecodeOfEncode := by
  intro i r h
  cases i with
  | movRmReg d w reg rm => exact (decode_movRmReg d w _).trans (withRM_rmBytes reg h r _)
  | movRmImm w rm imm =>
    exact (decode_movRmImm w _).trans ((withRM_rmBytes_append .ax h _ r _).trans (withImm_immBytes w imm r _))
  | movRegImm w reg imm => exact (decode_movRegImm w reg _).trans (withImm_immBytes w imm r _)
  | movAccMem w a => exact (decode_movAccMem w _).trans (withWord_leBytes a r _)
  | movMemAcc w a => exact (decode_movMemAcc w _).trans (withWord_leBytes a r _)
  | movSregRm sr rm =>
    rw [Instr.wf, Bool.and_eq_true] at h
    cases sr with
    | es => exact (decode_8E _).trans (withRM_rmBytes .ax h.2 r _)
    | cs => exact absurd h.1 (by decide)
    | ss => exact (decode_8E _).trans (withRM_rmBytes .dx h.2 r _)
    | ds => exact (decode_8E _).trans (withRM_rmBytes .bx h.2 r _)
  | movRmSreg sr rm =>
    cases sr with
    | es => exact (decode_8C _).trans (withRM_rmBytes .ax h r _)
    | cs => exact (decode_8C _).trans (withRM_rmBytes .cx h r _)
    | ss => exact (decode_8C _).trans (withRM_rmBytes .dx h r _)
    | ds => exact (decode_8C _).trans (withRM_rmBytes .bx h r _)
  | pushRm rm => exact (decode_FF _).trans (withRM_rmBytes .si h r _)
  | popRm rm => exact (decode_popRm _).trans (withRM_rmBytes .ax h r _)
  | xchgRmReg w reg rm => exact (decode_xchgRmReg w _).trans (withRM_rmBytes reg h r _)
  | pushReg reg | popReg reg | xchgAcc reg | incReg reg | decReg reg => cases reg <;> rfl
  | pushSreg sr | segOverride sr => cases sr <;> rfl
  | popSreg sr => cases sr <;> first | rfl | cases h
  | inFixed w _ | outFixed w _ | inVar w | outVar w | movs w | cmps w | scas w | lods w | stos w => cases w <;> rfl
  | lea reg m => exact (decode_lea _).trans (withMem_memBytes _ reg h r _)
  | lds reg m => exact (decode_lds _).trans (withMem_memBytes _ reg h r _)
  | les reg m => exact (decode_les _).trans (withMem_memBytes _ reg h r _)
  | addRmReg d w reg rm => exact (decode_aluRmReg .ax d w _).trans (withRM_rmBytes reg h r _)
  | orRmReg d w reg rm => exact (decode_aluRmReg .cx d w _).trans (withRM_rmBytes reg h r _)
  | adcRmReg d w reg rm => exact (decode_aluRmReg .dx d w _).trans (withRM_rmBytes reg h r _)
  | sbbRmReg d w reg rm => exact (decode_aluRmReg .bx d w _).trans (withRM_rmBytes reg h r _)
  | andRmReg d w reg rm => exact (decode_aluRmReg .sp d w _).trans (withRM_rmBytes reg h r _)
  | subRmReg d w reg rm => exact (decode_aluRmReg .bp d w _).trans (withRM_rmBytes reg h r _)
  | xorRmReg d w reg rm => exact (decode_aluRmReg .si d w _).trans (withRM_rmBytes reg h r _)
  | cmpRmReg d w reg rm => exact (decode_aluRmReg .di d w _).trans (withRM_rmBytes reg h r _)
  | addAccImm w imm => exact (decode_aluAccImm .ax w _).trans (withImm_immBytes w imm r _)
  | orAccImm w imm => exact (decode_aluAccImm .cx w _).trans (withImm_immBytes w imm r _)
  | adcAccImm w imm => exact (decode_aluAccImm .dx w _).trans (withImm_immBytes w imm r _)
  | sbbAccImm w imm => exact (decode_aluAccImm .bx w _).trans (withImm_immBytes w imm r _)
  | andAccImm w imm => exact (decode_aluAccImm .sp w _).trans (withImm_immBytes w imm r _)
  | subAccImm w imm => exact (decode_aluAccImm .bp w _).trans (withImm_immBytes w imm r _)
  | xorAccImm w imm => exact (decode_aluAccImm .si w _).trans (withImm_immBytes w imm r _)
  | cmpAccImm w imm => exact (decode_aluAccImm .di w _).trans (withImm_immBytes w imm r _)
  | addRmImm g rm =>
    exact (decode_grpImm g _).trans ((withRM_rmBytes_append .ax h _ r _).trans (withGrpImm_bytes g r _))
  | adcRmImm g rm =>
    exact (decode_grpImm g _).trans ((withRM_rmBytes_append .dx h _ r _).trans (withGrpImm_bytes g r _))
  | sbbRmImm g rm =>
    exact (decode_grpImm g _).trans ((withRM_rmBytes_append .bx h _ r _).trans (withGrpImm_bytes g r _))
  | subRmImm g rm =>
    exact (decode_grpImm g _).trans ((withRM_rmBytes_append .bp h _ r _).trans (withGrpImm_bytes g r _))
  | cmpRmImm g rm =>
    exact (decode_grpImm g _).trans ((withRM_rmBytes_append .di h _ r _).trans (withGrpImm_bytes g r _))
  | orRmImm w rm imm =>
    exact (decode_logicImm w _).trans
      ((withRM_rmBytes_append .cx h _ r _).trans (by
        cases w <;> exact withImm_immBytes _ imm r fun imm r => done (.orRmImm _ rm imm) r))
  | andRmImm w rm imm =>
    exact (decode_logicImm w _).trans
      ((withRM_rmBytes_append .sp h _ r _).trans (by
        cases w <;> exact withImm_immBytes _ imm r fun imm r => done (.andRmImm _ rm imm) r))
  | xorRmImm w rm imm =>
    exact (decode_logicImm w _).trans
      ((withRM_rmBytes_append .si h _ r _).trans (by
        cases w <;> exact withImm_immBytes _ imm r fun imm r => done (.xorRmImm _ rm imm) r))
  | testRmReg w reg rm => exact (decode_testRmReg w _).trans (withRM_rmBytes reg h r _)
  | testAccImm w imm => exact (decode_testAccImm w _).trans (withImm_immBytes w imm r _)
  | testRmImm w rm imm =>
    exact (decode_grp3 w _).trans ((withRM_rmBytes_append .ax h _ r _).trans (withImm_immBytes w imm r _))
  | notRm w rm => exact (decode_grp3 w _).trans (withRM_rmBytes .dx h r _)
  | negRm w rm => exact (decode_grp3 w _).trans (withRM_rmBytes .bx h r _)
  | mulRm w rm => exact (decode_grp3 w _).trans (withRM_rmBytes .sp h r _)
  | imulRm w rm => exact (decode_grp3 w _).trans (withRM_rmBytes .bp h r _)
  | divRm w rm => exact (decode_grp3 w _).trans (withRM_rmBytes .si h r _)
  | idivRm w rm => exact (decode_grp3 w _).trans (withRM_rmBytes .di h r _)
  | rolRm c w rm => exact (decode_shift c w _).trans (withRM_rmBytes .ax h r _)
  | rorRm c w rm => exact (decode_shift c w _).trans (withRM_rmBytes .cx h r _)
  | rclRm c w rm => exact (decode_shift c w _).trans (withRM_rmBytes .dx h r _)
  | rcrRm c w rm => exact (decode_shift c w _).trans (withRM_rmBytes .bx h r _)
  | shlRm c w rm => exact (decode_shift c w _).trans (withRM_rmBytes .sp h r _)
  | shrRm c w rm => exact (decode_shift c w _).trans (withRM_rmBytes .bp h r _)
  | sarRm c w rm => exact (decode_shift c w _).trans (withRM_rmBytes .di h r _)
  | incRm w rm =>
    cases w
    · exact (decode_FE _).trans (withRM_rmBytes .ax h r _)
    · exact (decode_FF _).trans (withRM_rmBytes .ax h r _)
  | decRm w rm =>
    cases w
    · exact (decode_FE _).trans (withRM_rmBytes .cx h r _)
    · exact (decode_FF _).trans (withRM_rmBytes .cx h r _)
  | callRm rm => exact (decode_FF _).trans (withRM_rmBytes .dx h r _)
  | callFarMem m => exact (decode_FF _).trans (withRM_rmBytes (rm := .mem m) .bx h r _)
  | jmpRm rm => exact (decode_FF _).trans (withRM_rmBytes .sp h r _)
  | jmpFarMem m => exact (decode_FF _).trans (withRM_rmBytes (rm := .mem m) .bp h r _)
  | callNear d => exact (decode_callNear _).trans (withWord_leBytes d r _)
  | jmpNear d => exact (decode_jmpNear _).trans (withWord_leBytes d r _)
  | callFar o s =>
    exact (decode_callFar _).trans ((withWord_leBytes o (leBytes s ++ r) _).trans (withWord_leBytes s r _))
  | jmpFar o s => exact (decode_jmpFar _).trans ((withWord_leBytes o (leBytes s ++ r) _).trans (withWord_leBytes s r _))
  | retImm k => exact (decode_retImm _).trans (withWord_leBytes k r _)
  | retfImm k => exact (decode_retfImm _).trans (withWord_leBytes k r _)
  | rep z => cases z <;> rfl
  | esc hi lo rm =>
    have := withRM_rmBytes (.ofCode lo) h r fun mid rm r => done (.esc hi mid.code rm) r
    rw [RegField.code_ofCode] at this
    exact (decode_esc hi _).trans this
  | _ => rfl

/-! ## What a reader has taken -/

section
variable {l : List Byte} {x : Instr × List Byte}

theorem withByte_ok {k : Byte → List Byte → Decoded} (h : withByte l k = .ok x) :
    ∃ b r, l = b :: r ∧ k b r = .ok x := by
  cases l with
  | nil => cases h
  | cons b r => exact ⟨b, r, rfl, h⟩

theorem withWord_ok {k : Word → List Byte → Decoded} (h : withWord l k = .ok x) :
    ∃ v r, l = leBytes v ++ r ∧ k v r = .ok x := by
  obtain ⟨lo, t, rfl, h1⟩ := withByte_ok h
  obtain ⟨hi, r, rfl, h⟩ := withByte_ok h1
  refine ⟨leWord lo hi, r, ?_, h⟩
  rw [leBytes, Machine.wordLo_leWord, Machine.wordHi_leWord]
  rfl

theorem withImm_ok {w : Width} {k : BitVec w.bits → List Byte → Decoded} (h : withImm w l k = .ok x) :
    ∃ v r, l = immBytes w v ++ r ∧ k v r = .ok x := by
  cases w with
  | byte => exact withByte_ok h
  | word => exact withWord_ok h

/-- The second byte and the displacement that were read are those of the operand and the middle field (R88). -/
theorem withRM_ok {k : RegField → RM → List Byte → Decoded} (h : withRM l k = .ok x) :
    ∃ mid rm r, rm.wf = true ∧ l = rmBytes mid.code rm ++ r ∧ k mid rm r = .ok x := by
  obtain ⟨b, t, rfl, h⟩ := withByte_ok h
  have hb := modRM_of_fields b
  generalize b.extractLsb' 6 2 = md at hb
  generalize b.extractLsb' 3 3 = c at hb
  generalize b.extractLsb' 0 3 = d at hb
  subst hb
  replace h : withRM (modRM md c d :: t) k = .ok x := h
  have e := withRM_modRM md (.ofCode c) d t k
  rw [RegField.code_ofCode] at e
  rw [e] at h
  have four : ∀ m : BitVec 2, m = 0 ∨ m = 1 ∨ m = 2 ∨ m = 3 := by decide
  rcases four md with rfl | rfl | rfl | rfl
  · replace h : (if Base.ofCode d = .bp then withWord t fun a r => k (.ofCode c) (.mem (.direct a)) r
        else k (.ofCode c) (.mem (.ind (Base.ofCode d))) t) = .ok x := h
    split at h
    · next hbp =>
      obtain ⟨a, r, rfl, h1⟩ := withWord_ok h
      refine ⟨.ofCode c, .mem (.direct a), r, rfl, ?_, h1⟩
      have hd : d = 6 := by rw [← Base.code_ofCode d, hbp]; rfl
      rw [RegField.code_ofCode, hd]
      rfl
    · next hbp =>
      refine ⟨.ofCode c, .mem (.ind (.ofCode d)), t, ?_, ?_, h⟩
      · show MemOp.wf (.ind (Base.ofCode d)) = true
        cases hc : Base.ofCode d <;> first | rfl | exact absurd hc hbp
      · simp [rmBytes, memBytes]
  · replace h : (withByte t fun v r => k (.ofCode c) (.mem (.disp8 (.ofCode d) v)) r) = .ok x := h
    obtain ⟨v, r, rfl, h1⟩ := withByte_ok h
    exact ⟨.ofCode c, .mem (.disp8 (.ofCode d) v), r, rfl, by simp [rmBytes, memBytes], h1⟩
  · replace h : (withWord t fun v r => k (.ofCode c) (.mem (.disp16 (.ofCode d) v)) r) = .ok x := h
    obtain ⟨v, r, rfl, h1⟩ := withWord_ok h
    exact ⟨.ofCode c, .mem (.disp16 (.ofCode d) v), r, rfl, by simp [rmBytes, memBytes], h1⟩
  · exact ⟨.ofCode c, .reg (.ofCode d), t, rfl, by simp [rmBytes], h⟩

theorem withMem_ok {b0 : Byte} {k : RegField → MemOp → List Byte → Decoded} (h : withMem b0 l k = .ok x) :
    ∃ mid m r, m.wf = true ∧ l = memBytes mid.code m ++ r ∧ k mid m r = .ok x := by
  obtain ⟨mid, rm, r, hw, e, h⟩ := withRM_ok h
  cases rm with
  | reg q => cases h
  | mem m => exact ⟨mid, m, r, hw, e, h⟩

/-- The immediate of `100000sw` that was read has this first byte (R84). -/
theorem withGrpImm_ok {b0 : Byte} {k : GrpImm → List Byte → Decoded} (h : withGrpImm b0 l k = .ok x)
    (hb : b0.extractLsb' 2 6 = 0b100000) : ∃ g r, b0 = g.op ∧ l = g.bytes ++ r ∧ k g r = .ok x := by
  have four : ∀ b : Byte, b.extractLsb' 2 6 = 0b100000 → b = 0x80 ∨ b = 0x81 ∨ b = 0x82 ∨ b = 0x83 := by decide
  rcases four b0 hb with rfl | rfl | rfl | rfl
  · obtain ⟨d, r, rfl, h⟩ := withByte_ok h
    exact ⟨.byte false d, r, rfl, rfl, h⟩
  · replace h : (withWord l fun d r => k (.word d) r) = .ok x := h
    obtain ⟨d, r, rfl, h1⟩ := withWord_ok h
    exact ⟨.word d, r, rfl, rfl, h1⟩
  · obtain ⟨d, r, rfl, h⟩ := withByte_ok h
    exact ⟨.byte true d, r, rfl, rfl, h⟩
  · obtain ⟨d, r, rfl, h⟩ := withByte_ok h
    exact ⟨.wordSx d, r, rfl, rfl, h⟩

end

/-! ## Whatever is read is what it encodes to -/

/-- The bytes `bs` are the encoding of the well-formed instruction `i`, with `r` behind it. -/
def Encodes (bs : List Byte) (i : Instr) (r : List Byte) : Prop := i.wf = true ∧ bs = encode i ++ r

/-- A byte with these halves. -/
theorem byte_of_nibbles {b : Byte} {m n : Nat} (hm : (b.extractLsb' 4 4).toNat = m)
    (hn : (b.extractLsb' 0 4).toNat = n) :
    b = BitVec.ofNat 8 (16 * m + n) := by
  subst hm hn
  apply BitVec.eq_of_toNat_eq
  have := b.isLt
  simp only [BitVec.extractLsb'_toNat, BitVec.toNat_ofNat, Nat.shiftRight_eq_div_pow]
  omega

theorem encode_aluRmRegOf (f : RegField) (d : Dir) (w : Width) (reg : RegField) (rm : RM) :
    encode (aluRmRegOf f d w reg rm) = opDW (0#2 ++ f.code ++ 0#1) d.bit w :: rmBytes reg.code rm ∧
      (aluRmRegOf f d w reg rm).wf = rm.wf := by cases f <;> exact ⟨rfl, rfl⟩

theorem encode_aluAccImmOf (f : RegField) (w : Width) (imm : BitVec w.bits) :
    encode (aluAccImmOf f w imm) = opW (0#2 ++ f.code ++ 2#2) w :: immBytes w imm ∧
      (aluAccImmOf f w imm).wf = true := by cases f <;> exact ⟨rfl, rfl⟩

section
variable {b0 : Byte} {l r : List Byte} {i : Instr}

theorem done_encodes {j : Instr} (h : done j l = .ok (i, r)) (hj : j.wf = true) (he : encode j = [b0]) :
    Encodes (b0 :: l) i r := by
  cases h
  exact ⟨hj, by rw [he]; rfl⟩

theorem byte_encodes {f : Byte → Instr} (h : withByte l (fun d r => done (f d) r) = .ok (i, r))
    (hf : ∀ d, (f d).wf = true) (he : ∀ d, encode (f d) = [b0, d]) : Encodes (b0 :: l) i r := by
  obtain ⟨d, t, rfl, h1⟩ := withByte_ok h
  cases h1
  exact ⟨hf d, by rw [he]; rfl⟩

theorem word_encodes {f : Word → Instr} (h : withWord l (fun d r => done (f d) r) = .ok (i, r))
    (hf : ∀ d, (f d).wf = true) (he : ∀ d, encode (f d) = b0 :: leBytes d) : Encodes (b0 :: l) i r := by
  obtain ⟨d, t, rfl, h1⟩ := withWord_ok h
  cases h1
  exact ⟨hf d, by rw [he]; rfl⟩

theorem words_encodes {f : Word → Word → Instr}
    (h : (withWord l fun o r => withWord r fun s r => done (f o s) r) = .ok (i, r))
    (hf : ∀ o s, (f o s).wf = true) (he : ∀ o s, encode (f o s) = b0 :: (leBytes o ++ leBytes s)) :
    Encodes (b0 :: l) i r := by
  obtain ⟨o, t, rfl, h1⟩ := withWord_ok h
  obtain ⟨s, t, rfl, h2⟩ := withWord_ok h1
  cases h2
  exact ⟨hf o s, by rw [he]; rfl⟩

theorem imm_encodes {w : Width} {f : BitVec w.bits → Instr} (h : withImm w l (fun d r => done (f d) r) = .ok (i, r))
    (hf : ∀ d, (f d).wf = true) (he : ∀ d, encode (f d) = b0 :: immBytes w d) : Encodes (b0 :: l) i r := by
  obtain ⟨d, t, rfl, h1⟩ := withImm_ok h
  cases h1
  exact ⟨hf d, by rw [he]; rfl⟩

theorem rm_encodes {f : RegField → RM → Instr} (h : withRM l (fun mid rm r => done (f mid rm) r) = .ok (i, r))
    (hf : ∀ mid rm, (f mid rm).wf = rm.wf) (he : ∀ mid rm, encode (f mid rm) = b0 :: rmBytes mid.code rm) :
    Encodes (b0 :: l) i r := by
  obtain ⟨mid, rm, t, hw, rfl, h1⟩ := withRM_ok h
  cases h1
  exact ⟨(hf mid rm).trans hw, by rw [he]; rfl⟩

theorem mem_encodes {b : Byte} {f : RegField → MemOp → Instr}
    (h : withMem b l (fun mid m r => done (f mid m) r) = .ok (i, r))
    (hf : ∀ mid m, (f mid m).wf = m.wf) (he : ∀ mid m, encode (f mid m) = b0 :: memBytes mid.code m) :
    Encodes (b0 :: l) i r := by
  obtain ⟨mid, m, t, hw, rfl, h1⟩ := withMem_ok h
  cases h1
  exact ⟨(hf mid m).trans hw, by rw [he]; rfl⟩

/-- The immediate behind an operand, for an instruction with this first byte. -/
theorem rmImm_encodes {w : Width} {mid : RegField} {rm : RM} {f : BitVec w.bits → Instr}
    (h : withImm w l (fun d r => done (f d) r) = .ok (i, r)) (hf : ∀ d, (f d).wf = true)
    (he : ∀ d, encode (f d) = b0 :: (rmBytes mid.code rm ++ immBytes w d)) :
    Encodes (b0 :: (rmBytes mid.code rm ++ l)) i r := by
  obtain ⟨d, t, rfl, h1⟩ := withImm_ok h
  cases h1
  exact ⟨hf d, by rw [he]; simp⟩

theorem rmGrpImm_encodes {mid : RegField} {rm : RM} {f : GrpImm → Instr} (hb : b0.extractLsb' 2 6 = 0b100000)
    (h : withGrpImm b0 l (fun g r => done (f g) r) = .ok (i, r)) (hf : ∀ g, (f g).wf = true)
    (he : ∀ g, encode (f g) = encRmImm mid.code g rm) : Encodes (b0 :: (rmBytes mid.code rm ++ l)) i r := by
  obtain ⟨g, t, rfl, rfl, h1⟩ := withGrpImm_ok h hb
  cases h1
  exact ⟨hf g, by rw [he]; simp [encRmImm]⟩

/-- First bytes 00 to 3F. -/
theorem decodeAlu_encodes (hb : b0.toNat < 0x40) (h : decodeAlu b0 l = .ok (i, r)) : Encodes (b0 :: l) i r := by
  unfold decodeAlu at h
  dsimp only at h
  split at h
  · next e =>
    have shape : ∀ b : Byte, b.toNat < 0x40 → (b.extractLsb' 0 3).toNat = 4 →
        opW (0#2 ++ (fieldAt 3 b).code ++ 2#2) .byte = b := by decide
    refine imm_encodes h (fun v => (encode_aluAccImmOf _ _ v).2) fun v => ?_
    rw [(encode_aluAccImmOf _ _ v).1, shape b0 hb e]
  · next e =>
    have shape : ∀ b : Byte, b.toNat < 0x40 → (b.extractLsb' 0 3).toNat = 5 →
        opW (0#2 ++ (fieldAt 3 b).code ++ 2#2) .word = b := by decide
    refine imm_encodes h (fun v => (encode_aluAccImmOf _ _ v).2) fun v => ?_
    rw [(encode_aluAccImmOf _ _ v).1, shape b0 hb e]
  · next e =>
    split at h
    · next h5 =>
      have shape : ∀ b : Byte, b.toNat < 0x40 → (b.extractLsb' 0 3).toNat = 6 → b.getLsbD 5 = true →
          encode (.segOverride (sregAt 3 b)) = [b] := by decide
      exact done_encodes h rfl (shape b0 hb e h5)
    · next h5 =>
      have shape : ∀ b : Byte, b.toNat < 0x40 → (b.extractLsb' 0 3).toNat = 6 → ¬ b.getLsbD 5 = true →
          encode (.pushSreg (sregAt 3 b)) = [b] := by decide
      exact done_encodes h rfl (shape b0 hb e h5)
  · next e =>
    have shape : ∀ b : Byte, b.toNat < 0x40 → (b.extractLsb' 0 3).toNat = 7 →
        b = 0#2 ++ (fieldAt 3 b).code ++ 7#3 := by decide
    have hb0 := shape b0 hb e
    split at h <;> next hf =>
      rw [hf] at hb0
      subst hb0
      first
      | exact done_encodes h rfl rfl
      | cases h
  · next n4 n5 n6 n7 =>
    have shape : ∀ b : Byte, b.toNat < 0x40 → ¬ (b.extractLsb' 0 3).toNat = 4 → ¬ (b.extractLsb' 0 3).toNat = 5 →
        ¬ (b.extractLsb' 0 3).toNat = 6 → ¬ (b.extractLsb' 0 3).toNat = 7 →
        opDW (0#2 ++ (fieldAt 3 b).code ++ 0#1) (dAt b).bit (wAt b) = b := by decide
    refine rm_encodes h (fun mid rm => (encode_aluRmRegOf _ _ _ mid rm).2) fun mid rm => ?_
    rw [(encode_aluRmRegOf _ _ _ mid rm).1, shape b0 hb n4 n5 n6 n7]

/-- First bytes 80 to 83. -/
theorem decodeGrpImm_encodes (hb : b0.extractLsb' 2 6 = 0b100000) (h : decodeGrpImm b0 l = .ok (i, r)) :
    Encodes (b0 :: l) i r := by
  have shape : ∀ b : Byte, b.extractLsb' 2 6 = 0b100000 → ¬ b.getLsbD 1 = true → opW 0b1000000 (wAt b) = b := by decide
  obtain ⟨mid, rm, t, hw, rfl, hk⟩ := withRM_ok h
  split at hk
  · exact rmGrpImm_encodes hb hk (fun _ => hw) fun _ => rfl
  · exact rmGrpImm_encodes hb hk (fun _ => hw) fun _ => rfl
  · exact rmGrpImm_encodes hb hk (fun _ => hw) fun _ => rfl
  · exact rmGrpImm_encodes hb hk (fun _ => hw) fun _ => rfl
  · exact rmGrpImm_encodes hb hk (fun _ => hw) fun _ => rfl
  all_goals
    split at hk
    · cases hk
    · next h1 => exact rmImm_encodes hk (fun _ => hw) fun d => by rw [encode, encGrp, shape b0 hb h1]; rfl

theorem code_of_sregOfField {mid : RegField} {sr : SReg} (h : sregOfField mid = some sr) :
    mid.code = 0#1 ++ sr.code := by
  cases mid <;> cases h <;> rfl

/-- First bytes 80 to 8F. -/
theorem decode8_encodes (hm : (b0.extractLsb' 4 4).toNat = 8)
    (h : decode8 b0 l (b0.extractLsb' 0 4).toNat = .ok (i, r)) : Encodes (b0 :: l) i r := by
  unfold decode8 at h
  split at h
  · next e => cases byte_of_nibbles hm e; exact decodeGrpImm_encodes rfl h
  · next e => cases byte_of_nibbles hm e; exact decodeGrpImm_encodes rfl h
  · next e => cases byte_of_nibbles hm e; exact decodeGrpImm_encodes rfl h
  · next e => cases byte_of_nibbles hm e; exact decodeGrpImm_encodes rfl h
  · next e => cases byte_of_nibbles hm e; exact rm_encodes h (fun _ _ => rfl) fun _ _ => rfl
  · next e => cases byte_of_nibbles hm e; exact rm_encodes h (fun _ _ => rfl) fun _ _ => rfl
  · next e => cases byte_of_nibbles hm e; exact rm_encodes h (fun _ _ => rfl) fun _ _ => rfl
  · next e => cases byte_of_nibbles hm e; exact rm_encodes h (fun _ _ => rfl) fun _ _ => rfl
  · next e =>
    cases byte_of_nibbles hm e
    obtain ⟨mid, rm, t, hw, rfl, hk⟩ := withRM_ok h
    split at hk
    · next sr hs => cases hk; exact ⟨hw, by rw [code_of_sregOfField hs]; rfl⟩
    · cases hk
  · next e => cases byte_of_nibbles hm e; exact mem_encodes h (fun _ _ => rfl) fun _ _ => rfl
  · next e =>
    cases byte_of_nibbles hm e
    obtain ⟨mid, rm, t, hw, rfl, hk⟩ := withRM_ok h
    split at hk
    · cases hk
    · next sr hc hs =>
      cases hk
      refine ⟨?_, by rw [code_of_sregOfField hs]; rfl⟩
      have : sr ≠ .cs := hc
      simp [Instr.wf, this, hw]
    · cases hk
  · next e =>
    cases byte_of_nibbles hm e
    obtain ⟨mid, rm, t, hw, rfl, hk⟩ := withRM_ok h
    split at hk
    · next hmid => cases hk; subst hmid; exact ⟨hw, rfl⟩
    · cases hk
  · next n0 n1 n2 n3 n4 n5 n6 n7 n12 n13 n14 n15 =>
    have shape : ∀ b : Byte, (b.extractLsb' 4 4).toNat = 8 → ¬ (b.extractLsb' 0 4).toNat < 8 →
        ¬ 12 ≤ (b.extractLsb' 0 4).toNat → opDW 0b100010 (dAt b).bit (wAt b) = b := by decide
    simp only [imp_false] at *
    have := (b0.extractLsb' 0 4).isLt
    refine rm_encodes h (fun _ _ => rfl) fun mid rm => ?_
    rw [encode, encRmReg, shape b0 hm (by omega) (by omega)]

/-- First bytes 90 to 9F. -/
theorem decode9_encodes (hm : (b0.extractLsb' 4 4).toNat = 9)
    (h : decode9 b0 l (b0.extractLsb' 0 4).toNat = .ok (i, r)) : Encodes (b0 :: l) i r := by
  unfold decode9 at h
  split at h
  · next e => cases byte_of_nibbles hm e; exact done_encodes h rfl rfl
  · next e => cases byte_of_nibbles hm e; exact done_encodes h rfl rfl
  · next e => cases byte_of_nibbles hm e; exact words_encodes h (fun _ _ => rfl) fun _ _ => rfl
  · next e => cases byte_of_nibbles hm e; exact done_encodes h rfl rfl
  · next e => cases byte_of_nibbles hm e; exact done_encodes h rfl rfl
  · next e => cases byte_of_nibbles hm e; exact done_encodes h rfl rfl
  · next e => cases byte_of_nibbles hm e; exact done_encodes h rfl rfl
  · next e => cases byte_of_nibbles hm e; exact done_encodes h rfl rfl
  · next n8 n9 n10 n11 n12 n13 n14 n15 =>
    have shape : ∀ b : Byte, (b.extractLsb' 4 4).toNat = 9 → ¬ 8 ≤ (b.extractLsb' 0 4).toNat →
        encode (.xchgAcc (fieldAt 0 b)) = [b] := by decide
    simp only [imp_false] at *
    have := (b0.extractLsb' 0 4).isLt
    exact done_encodes h rfl (shape b0 hm (by omega))

/-- First bytes A0 to AF. -/
theorem decodeA_encodes (hm : (b0.extractLsb' 4 4).toNat = 10)
    (h : decodeA b0 l (b0.extractLsb' 0 4).toNat = .ok (i, r)) : Encodes (b0 :: l) i r := by
  unfold decodeA at h
  split at h
  · next e => cases byte_of_nibbles hm e; exact word_encodes h (fun _ => rfl) fun _ => rfl
  · next e => cases byte_of_nibbles hm e; exact word_encodes h (fun _ => rfl) fun _ => rfl
  · next e => cases byte_of_nibbles hm e; exact word_encodes h (fun _ => rfl) fun _ => rfl
  · next e => cases byte_of_nibbles hm e; exact word_encodes h (fun _ => rfl) fun _ => rfl
  · next e => cases byte_of_nibbles hm e; exact done_encodes h rfl rfl
  · next e => cases byte_of_nibbles hm e; exact done_encodes h rfl rfl
  · next e => cases byte_of_nibbles hm e; exact done_encodes h rfl rfl
  · next e => cases byte_of_nibbles hm e; exact done_encodes h rfl rfl
  · next e => cases byte_of_nibbles hm e; exact imm_encodes h (fun _ => rfl) fun _ => rfl
  · next e => cases byte_of_nibbles hm e; exact imm_encodes h (fun _ => rfl) fun _ => rfl
  · next e => cases byte_of_nibbles hm e; exact done_encodes h rfl rfl
  · next e => cases byte_of_nibbles hm e; exact done_encodes h rfl rfl
  · next e => cases byte_of_nibbles hm e; exact done_encodes h rfl rfl
  · next e => cases byte_of_nibbles hm e; exact done_encodes h rfl rfl
  · next e => cases byte_of_nibbles hm e; exact done_encodes h rfl rfl
  · next e => cases byte_of_nibbles hm e; exact done_encodes h rfl rfl
  · cases h

/-- MOV of an immediate to an operand: the middle field is 000 (R107). -/
theorem movRmImm_encodes {w : Width} (hb : b0 = opW 0b1100011 w)
    (h : (withRM l fun mid rm r => if mid = .ax then withImm w r fun imm r => done (.movRmImm w rm imm) r
      else .error (.undocumentedSubcode b0 mid)) = .ok (i, r)) : Encodes (b0 :: l) i r := by
  obtain ⟨mid, rm, t, hw, rfl, hk⟩ := withRM_ok h
  split at hk
  · next hmid => subst hmid hb; exact rmImm_encodes hk (fun _ => hw) fun _ => rfl
  · cases hk

/-- First bytes C0 to CF. -/
theorem decodeC_encodes (hm : (b0.extractLsb' 4 4).toNat = 12)
    (h : decodeC b0 l (b0.extractLsb' 0 4).toNat = .ok (i, r)) : Encodes (b0 :: l) i r := by
  unfold decodeC at h
  split at h
  · next e => cases byte_of_nibbles hm e; exact word_encodes h (fun _ => rfl) fun _ => rfl
  · next e => cases byte_of_nibbles hm e; exact done_encodes h rfl rfl
  · next e => cases byte_of_nibbles hm e; exact mem_encodes h (fun _ _ => rfl) fun _ _ => rfl
  · next e => cases byte_of_nibbles hm e; exact mem_encodes h (fun _ _ => rfl) fun _ _ => rfl
  · next e => cases byte_of_nibbles hm e; exact movRmImm_encodes (w := .byte) rfl h
  · next e => cases byte_of_nibbles hm e; exact movRmImm_encodes (w := .word) rfl h
  · next e => cases byte_of_nibbles hm e; exact word_encodes h (fun _ => rfl) fun _ => rfl
  · next e => cases byte_of_nibbles hm e; exact done_encodes h rfl rfl
  · next e => cases byte_of_nibbles hm e; exact done_encodes h rfl rfl
  · next e => cases byte_of_nibbles hm e; exact byte_encodes h (fun _ => rfl) fun _ => rfl
  · next e => cases byte_of_nibbles hm e; exact done_encodes h rfl rfl
  · next e => cases byte_of_nibbles hm e; exact done_encodes h rfl rfl
  · cases h

/-- First bytes D0 to D3. -/
theorem decodeShift_encodes (hb : b0.extractLsb' 2 6 = 0b110100) (h : decodeShift b0 l = .ok (i, r)) :
    Encodes (b0 :: l) i r := by
  have shape : ∀ b : Byte, b.extractLsb' 2 6 = 0b110100 →
      opDW 0b110100 (ShiftCount.ofBit (b.getLsbD 1)).bit (wAt b) = b := by decide
  unfold decodeShift at h
  obtain ⟨mid, rm, t, hw, rfl, hk⟩ := withRM_ok h
  split at hk
  all_goals
    cases hk
    try exact ⟨hw, by rw [encode, encShift, shape b0 hb]; rfl⟩

theorem decodeAdjust_encodes {j : Instr} (h : decodeAdjust j l = .ok (i, r)) (hj : j.wf = true)
    (he : encode j = [b0, 0x0A]) : Encodes (b0 :: l) i r := by
  obtain ⟨b1, t, rfl, hk⟩ := withByte_ok h
  split at hk
  · next hb => cases hk; subst hb; exact ⟨hj, by rw [he]; rfl⟩
  · cases hk

/-- First bytes D0 to DF. -/
theorem decodeD_encodes (hm : (b0.extractLsb' 4 4).toNat = 13)
    (h : decodeD b0 l (b0.extractLsb' 0 4).toNat = .ok (i, r)) : Encodes (b0 :: l) i r := by
  unfold decodeD at h
  split at h
  · next e => cases byte_of_nibbles hm e; exact decodeShift_encodes rfl h
  · next e => cases byte_of_nibbles hm e; exact decodeShift_encodes rfl h
  · next e => cases byte_of_nibbles hm e; exact decodeShift_encodes rfl h
  · next e => cases byte_of_nibbles hm e; exact decodeShift_encodes rfl h
  · next e => cases byte_of_nibbles hm e; exact decodeAdjust_encodes h rfl rfl
  · next e => cases byte_of_nibbles hm e; exact decodeAdjust_encodes h rfl rfl
  · cases h
  · next e => cases byte_of_nibbles hm e; exact done_encodes h rfl rfl
  · next n0 n1 n2 n3 n4 n5 n6 n7 =>
    have shape : ∀ b : Byte, (b.extractLsb' 4 4).toNat = 13 → ¬ (b.extractLsb' 0 4).toNat < 8 →
        (0b11011#5 ++ b.extractLsb' 0 3 : Byte) = b := by decide
    simp only [imp_false] at *
    refine rm_encodes h (fun _ _ => rfl) fun mid rm => ?_
    rw [encode, shape b0 hm (by omega)]

/-- First bytes E0 to EF. -/
theorem decodeE_encodes (hm : (b0.extractLsb' 4 4).toNat = 14)
    (h : decodeE b0 l (b0.extractLsb' 0 4).toNat = .ok (i, r)) : Encodes (b0 :: l) i r := by
  unfold decodeE at h
  split at h
  · next e => cases byte_of_nibbles hm e; exact byte_encodes h (fun _ => rfl) fun _ => rfl
  · next e => cases byte_of_nibbles hm e; exact byte_encodes h (fun _ => rfl) fun _ => rfl
  · next e => cases byte_of_nibbles hm e; exact byte_encodes h (fun _ => rfl) fun _ => rfl
  · next e => cases byte_of_nibbles hm e; exact byte_encodes h (fun _ => rfl) fun _ => rfl
  · next e => cases byte_of_nibbles hm e; exact byte_encodes h (fun _ => rfl) fun _ => rfl
  · next e => cases byte_of_nibbles hm e; exact byte_encodes h (fun _ => rfl) fun _ => rfl
  · next e => cases byte_of_nibbles hm e; exact byte_encodes h (fun _ => rfl) fun _ => rfl
  · next e => cases byte_of_nibbles hm e; exact byte_encodes h (fun _ => rfl) fun _ => rfl
  · next e => cases byte_of_nibbles hm e; exact word_encodes h (fun _ => rfl) fun _ => rfl
  · next e => cases byte_of_nibbles hm e; exact word_encodes h (fun _ => rfl) fun _ => rfl
  · next e => cases byte_of_nibbles hm e; exact words_encodes h (fun _ _ => rfl) fun _ _ => rfl
  · next e => cases byte_of_nibbles hm e; exact byte_encodes h (fun _ => rfl) fun _ => rfl
  · next e => cases byte_of_nibbles hm e; exact done_encodes h rfl rfl
  · next e => cases byte_of_nibbles hm e; exact done_encodes h rfl rfl
  · next e => cases byte_of_nibbles hm e; exact done_encodes h rfl rfl
  · next e => cases byte_of_nibbles hm e; exact done_encodes h rfl rfl
  · cases h

/-- First bytes F6 and F7. -/
theorem decodeGrp3_encodes (hb : b0.extractLsb' 1 7 = 0b1111011) (h : decodeGrp3 b0 l = .ok (i, r)) :
    Encodes (b0 :: l) i r := by
  have shape : ∀ b : Byte, b.extractLsb' 1 7 = 0b1111011 → opW 0b1111011 (wAt b) = b := by decide
  obtain ⟨mid, rm, t, hw, rfl, hk⟩ := withRM_ok h
  split at hk
  · exact rmImm_encodes hk (fun _ => hw) fun _ => by rw [encode, encGrp, shape b0 hb]; rfl
  all_goals
    cases hk
    try exact ⟨hw, by rw [encode, shape b0 hb]; rfl⟩

theorem decodeFE_encodes (h : decodeFE 0xFE l = .ok (i, r)) : Encodes (0xFE :: l) i r := by
  obtain ⟨mid, rm, t, hw, rfl, hk⟩ := withRM_ok h
  split at hk
  all_goals
    cases hk
    try exact ⟨hw, rfl⟩

theorem decodeFF_encodes (h : decodeFF 0xFF l = .ok (i, r)) : Encodes (0xFF :: l) i r := by
  obtain ⟨mid, rm, t, hw, rfl, hk⟩ := withRM_ok h
  split at hk
  case h_4 | h_6 =>
    split at hk
    · cases hk
    · cases hk; exact ⟨hw, rfl⟩
  all_goals
    cases hk
    try exact ⟨hw, rfl⟩

/-- First bytes F0 to FF. -/
theorem decodeF_encodes (hm : (b0.extractLsb' 4 4).toNat = 15)
    (h : decodeF b0 l (b0.extractLsb' 0 4).toNat = .ok (i, r)) : Encodes (b0 :: l) i r := by
  unfold decodeF at h
  split at h
  · next e => cases byte_of_nibbles hm e; exact done_encodes h rfl rfl
  · next e => cases byte_of_nibbles hm e; exact done_encodes h rfl rfl
  · next e => cases byte_of_nibbles hm e; exact done_encodes h rfl rfl
  · next e => cases byte_of_nibbles hm e; exact done_encodes h rfl rfl
  · next e => cases byte_of_nibbles hm e; exact done_encodes h rfl rfl
  · next e => cases byte_of_nibbles hm e; exact decodeGrp3_encodes rfl h
  · next e => cases byte_of_nibbles hm e; exact decodeGrp3_encodes rfl h
  · next e => cases byte_of_nibbles hm e; exact done_encodes h rfl rfl
  · next e => cases byte_of_nibbles hm e; exact done_encodes h rfl rfl
  · next e => cases byte_of_nibbles hm e; exact done_encodes h rfl rfl
  · next e => cases byte_of_nibbles hm e; exact done_encodes h rfl rfl
  · next e => cases byte_of_nibbles hm e; exact done_encodes h rfl rfl
  · next e => cases byte_of_nibbles hm e; exact done_encodes h rfl rfl
  · next e => cases byte_of_nibbles hm e; exact decodeFE_encodes h
  · next e => cases byte_of_nibbles hm e; exact decodeFF_encodes h
  · cases h

/-- The conditional jump of a code has it as its low half (R98). -/
theorem encode_jccOf (n : BitVec 4) (d : Byte) :
    encode (jccOf n.toNat d) = [(0x7#4 ++ n : Byte), d] ∧ (jccOf n.toNat d).wf = true := by
  have all : ∀ P : BitVec 4 → Prop, (∀ k : Fin 16, P (.ofFin k)) → P n := fun P h => h n.toFin
  refine all (fun n => encode (jccOf n.toNat d) = [(0x7#4 ++ n : Byte), d] ∧ (jccOf n.toNat d).wf = true) ?_
  simp only [Fin.forall_fin_succ]
  refine ⟨?_, ?_, ?_, ?_, ?_, ?_, ?_, ?_, ?_, ?_, ?_, ?_, ?_, ?_, ?_, ?_, nofun⟩ <;> exact ⟨rfl, rfl⟩

/-- Rows 4 and 5 of the opcode map (R96): one instruction by bit 3, with the register in the low bits. -/
theorem regRow_encodes {f g : RegField → Instr} {m : Nat} (hm : (b0.extractLsb' 4 4).toNat = m)
    (hf : ∀ q, (f q).wf = true ∧ (g q).wf = true)
    (shape : ∀ b : Byte, (b.extractLsb' 4 4).toNat = m →
      encode (if b.getLsbD 3 = true then f (fieldAt 0 b) else g (fieldAt 0 b)) = [b])
    (h : (if b0.getLsbD 3 then done (f (fieldAt 0 b0)) l else done (g (fieldAt 0 b0)) l) = .ok (i, r)) :
    Encodes (b0 :: l) i r := by
  have hb := shape b0 hm
  split at h <;> next h3 =>
    simp only [h3, if_true, if_false, Bool.false_eq_true] at hb
    exact done_encodes h (by simp [hf]) hb

/-- Whatever one step of the decoder reads is the encoding of a well-formed instruction. -/
theorem decodeOp_encodes (h : decodeOp b0 l = .ok (i, r)) : Encodes (b0 :: l) i r := by
  have low : ∀ b : Byte, (b.extractLsb' 4 4).toNat < 4 → b.toNat < 0x40 := by decide
  unfold decodeOp at h
  split at h
  · next e => exact decodeAlu_encodes (low b0 (by omega)) h
  · next e => exact decodeAlu_encodes (low b0 (by omega)) h
  · next e => exact decodeAlu_encodes (low b0 (by omega)) h
  · next e => exact decodeAlu_encodes (low b0 (by omega)) h
  · next e => exact regRow_encodes (f := .decReg) (g := .incReg) e (fun _ => ⟨rfl, rfl⟩) (by decide) h
  · next e => exact regRow_encodes (f := .popReg) (g := .pushReg) e (fun _ => ⟨rfl, rfl⟩) (by decide) h
  · cases h
  · next e =>
    have shape : ∀ b : Byte, (b.extractLsb' 4 4).toNat = 7 → (0x7#4 ++ b.extractLsb' 0 4 : Byte) = b := by decide
    refine byte_encodes h (fun d => (encode_jccOf _ d).2) fun d => ?_
    rw [(encode_jccOf _ d).1, shape b0 e]
  · next e => exact decode8_encodes e h
  · next e => exact decode9_encodes e h
  · next e => exact decodeA_encodes e h
  · next e =>
    have shape : ∀ b : Byte, (b.extractLsb' 4 4).toNat = 11 →
        ((0b1011#4 ++ (if b.getLsbD 3 = true then Width.word else .byte).bit) ++ (fieldAt 0 b).code : Byte) = b := by
      decide
    have hb := shape b0 e
    split at h <;> next h3 =>
      simp only [h3, if_true, if_false, Bool.false_eq_true] at hb
      exact imm_encodes h (fun _ => rfl) fun v => by rw [encode, hb]
  · next e => exact decodeC_encodes e h
  · next e => exact decodeD_encodes e h
  · next e => exact decodeE_encodes e h
  · next e0 e1 e2 e3 e4 e5 e6 e7 e8 e9 e10 e11 e12 e13 e14 =>
    simp only [imp_false] at *
    have := (b0.extractLsb' 4 4).isLt
    exact decodeF_encodes (by omega) h

end

/-- Settles O2: each row of the opcode map reads the encoding of the instruction it gives. -/
theorem encodeOfDecode : Obligations.EncodeOfDecode := by
  intro bs i r h
  obtain ⟨b, t, rfl, hb⟩ := withByte_ok h
  exact decodeOp_encodes hb

end Sys2Proof
end

section
/-! Proofs about the encodings that the decoder refuses (R106 to R108): they are told by the first byte and the fields
of the second. -/

namespace Sys2Proof
open Machine

/-- The decoder answers an error. -/
def Fails (d : Decoded) : Prop := ∃ e, d = .error e

theorem fails_error (e : DecodeError) : Fails (.error e) := ⟨e, rfl⟩

theorem not_fails_done (i : Instr) (r : List Byte) : ¬ Fails (done i r) := nofun

theorem not_fails_withImm (w : Width) (f : BitVec w.bits → Instr) {l : List Byte} (h : 2 ≤ l.length) :
    ¬ Fails (withImm w l fun d r => done (f d) r) := by
  obtain ⟨a, b, t, rfl⟩ : ∃ a b t, l = a :: b :: t := by
    match l, h with
    | a :: b :: t, _ => exact ⟨a, b, t, rfl⟩
  cases w <;> exact not_fails_done _ _

theorem not_fails_withGrpImm (b0 : Byte) (f : GrpImm → Instr) {l : List Byte} (h : 2 ≤ l.length) :
    ¬ Fails (withGrpImm b0 l fun g r => done (f g) r) := by
  obtain ⟨a, b, t, rfl⟩ : ∃ a b t, l = a :: b :: t := by
    match l, h with
    | a :: b :: t, _ => exact ⟨a, b, t, rfl⟩
  unfold withGrpImm
  split <;> exact not_fails_done _ _

/-- The operand is a register. -/
def RM.isReg : RM → Bool
  | .reg _ => true
  | .mem _ => false

/-- A second byte with four bytes behind it is read with its displacement, and at least two bytes are left; its upper
two bits tell a register from memory (R88). -/
theorem withRM_reads (b1 b2 b3 b4 b5 : Byte) (r : List Byte) (k : RegField → RM → List Byte → Decoded) :
    ∃ rm l, rm.isReg = decide (192 ≤ b1.toNat) ∧ 2 ≤ l.length ∧
      withRM (b1 :: b2 :: b3 :: b4 :: b5 :: r) k = k (fieldAt 3 b1) rm l := by
  have md : ∀ b : Byte, decide (192 ≤ b.toNat) = decide (3 ≤ (b.extractLsb' 6 2).toNat) := by decide
  have hr : 2 ≤ (b4 :: b5 :: r).length := by simp
  rw [md]
  unfold withRM withByte
  dsimp only
  split
  · next e =>
    rw [e]
    split
    · exact ⟨.mem (.direct (leWord b2 b3)), b4 :: b5 :: r, rfl, hr, rfl⟩
    · exact ⟨.mem (.ind _), b2 :: b3 :: b4 :: b5 :: r, rfl, by simp, rfl⟩
  · next e => rw [e]; exact ⟨.mem (.disp8 _ b2), b3 :: b4 :: b5 :: r, rfl, by simp, rfl⟩
  · next e => rw [e]; exact ⟨.mem (.disp16 _ (leWord b2 b3)), b4 :: b5 :: r, rfl, hr, rfl⟩
  · next n0 n1 n2 =>
    simp only [imp_false] at *
    exact ⟨.reg _, b2 :: b3 :: b4 :: b5 :: r, (decide_eq_true (by omega)).symm, by simp, rfl⟩

section
variable {b0 b1 b2 b3 b4 b5 : Byte} {r : List Byte} {d : Decoded}

theorem never_refused (hb : refusedBytes b0 b1 = false) (h : ¬ Fails d) : Fails d ↔ refusedBytes b0 b1 = true := by
  simp [hb, h]

theorem always_refused (hb : refusedBytes b0 b1 = true) (h : Fails d) : Fails d ↔ refusedBytes b0 b1 = true := by
  simp [hb, h]

/-- First bytes of which no encoding is refused. -/
theorem refusedBytes_eq_false
    (h : b0.toNat < 0x60 ∧ b0.toNat ≠ 0x0F ∨ 0x70 ≤ b0.toNat ∧ b0.toNat < 0x82 ∨ 0x84 ≤ b0.toNat ∧ b0.toNat < 0x8C ∨
      0x90 ≤ b0.toNat ∧ b0.toNat < 0xC0 ∨ 0xD8 ≤ b0.toNat ∧ b0.toNat < 0xF1) : refusedBytes b0 b1 = false := by
  simp [refusedBytes]
  omega

/-- First bytes that are refused with anything behind them (R108). -/
theorem refusedBytes_listed
    (h : 0x60 ≤ b0.toNat ∧ b0.toNat ≤ 0x6F ∨ b0.toNat = 0xC0 ∨ b0.toNat = 0xC1 ∨ b0.toNat = 0xC8 ∨ b0.toNat = 0xC9 ∨
      b0.toNat = 0xF1) : refusedBytes b0 b1 = true := by
  rcases h with ⟨h, h'⟩ | h | h | h | h | h
  · simp [refusedBytes, h, h']
  all_goals simp [refusedBytes, h]

theorem toNat_of_nibbles {m : Nat} (hm : (b0.extractLsb' 4 4).toNat = m) :
    b0.toNat = 16 * m + (b0.extractLsb' 0 4).toNat := by
  subst hm
  have := b0.isLt
  simp only [BitVec.extractLsb'_toNat, Nat.shiftRight_eq_div_pow]
  omega

/-- A form with a second byte is refused by the middle field and by whether the operand is a register. -/
theorem rm_refused {k : RegField → RM → List Byte → Decoded} (R : RegField → Bool → Bool)
    (hb : ∀ b1 : Byte, refusedBytes b0 b1 = R (fieldAt 3 b1) (decide (192 ≤ b1.toNat)))
    (hk : ∀ mid rm l, 2 ≤ l.length → (Fails (k mid rm l) ↔ R mid rm.isReg = true)) :
    Fails (withRM (b1 :: b2 :: b3 :: b4 :: b5 :: r) k) ↔ refusedBytes b0 b1 = true := by
  obtain ⟨rm, l, hreg, hl, e⟩ := withRM_reads b1 b2 b3 b4 b5 r k
  rw [e, hb, ← hreg]
  exact hk _ rm l hl

theorem rm_never_refused (hb : refusedBytes b0 b1 = false) (f : RegField → RM → Instr) :
    Fails (withRM (b1 :: b2 :: b3 :: b4 :: b5 :: r) fun mid rm l => done (f mid rm) l) ↔ refusedBytes b0 b1 = true := by
  obtain ⟨rm, l, -, -, e⟩ := withRM_reads b1 b2 b3 b4 b5 r fun mid rm l => done (f mid rm) l
  exact never_refused hb (by rw [e]; exact not_fails_done _ _)

/-- The forms that need an address are refused for a register (R107). -/
theorem mem_refused (hb : ∀ b1 : Byte, refusedBytes b0 b1 = decide (192 ≤ b1.toNat)) (f : RegField → MemOp → Instr) :
    Fails (withMem b0 (b1 :: b2 :: b3 :: b4 :: b5 :: r) fun mid m l => done (f mid m) l) ↔
      refusedBytes b0 b1 = true := by
  refine rm_refused (fun _ isReg => isReg) hb fun mid rm l _ => ?_
  cases rm with
  | reg q => exact iff_of_true (fails_error _) rfl
  | mem m => exact iff_of_false (not_fails_done _ _) Bool.false_ne_true

end

theorem movRmImm_refused {w : Width} {b0 b1 b2 b3 b4 b5 : Byte} {r : List Byte}
    (hb : ∀ b1 : Byte, refusedBytes b0 b1 = (fieldAt 3 b1 != .ax)) :
    Fails (withRM (b1 :: b2 :: b3 :: b4 :: b5 :: r) fun mid rm l =>
      if mid = .ax then withImm w l fun imm l => done (.movRmImm w rm imm) l
      else .error (.undocumentedSubcode b0 mid)) ↔ refusedBytes b0 b1 = true := by
  refine rm_refused (fun mid _ => mid != .ax) hb fun mid rm l hl => ?_
  split
  · next h => exact iff_of_false (not_fails_withImm _ _ hl) (by simp [h])
  · next h => exact iff_of_true (fails_error _) (by simpa using h)

/-- Rows 80 to 83: the logic operations have no form with `s` (R108). -/
theorem decodeGrpImm_refused {b0 b1 b2 b3 b4 b5 : Byte} {r : List Byte}
    (hb : ∀ b1 : Byte, refusedBytes b0 b1 = (b0.getLsbD 1 && [.cx, .sp, .si].contains (fieldAt 3 b1))) :
    Fails (decodeGrpImm b0 (b1 :: b2 :: b3 :: b4 :: b5 :: r)) ↔ refusedBytes b0 b1 = true := by
  refine rm_refused (fun mid _ => b0.getLsbD 1 && [.cx, .sp, .si].contains mid) hb fun mid rm l hl => ?_
  split
  · exact iff_of_false (not_fails_withGrpImm _ _ hl) (by simp)
  · exact iff_of_false (not_fails_withGrpImm _ _ hl) (by simp)
  · exact iff_of_false (not_fails_withGrpImm _ _ hl) (by simp)
  · exact iff_of_false (not_fails_withGrpImm _ _ hl) (by simp)
  · exact iff_of_false (not_fails_withGrpImm _ _ hl) (by simp)
  all_goals
    split
    · next h1 => exact iff_of_true (fails_error _) (by simp [h1])
    · next h1 =>
        exact iff_of_false (not_fails_withImm _ _ hl) (by rw [Bool.eq_false_iff.mpr h1]; exact Bool.false_ne_true)

/-- First bytes 80 to 8F. -/
theorem decode8_refused {b0 b1 b2 b3 b4 b5 : Byte} {r : List Byte} (hm : (b0.extractLsb' 4 4).toNat = 8) :
    Fails (decode8 b0 (b1 :: b2 :: b3 :: b4 :: b5 :: r) (b0.extractLsb' 0 4).toNat) ↔ refusedBytes b0 b1 = true := by
  unfold decode8
  split
  · next e => cases byte_of_nibbles hm e; exact decodeGrpImm_refused (by decide)
  · next e => cases byte_of_nibbles hm e; exact decodeGrpImm_refused (by decide)
  · next e => cases byte_of_nibbles hm e; exact decodeGrpImm_refused (by decide)
  · next e => cases byte_of_nibbles hm e; exact decodeGrpImm_refused (by decide)
  · next e => cases byte_of_nibbles hm e; exact rm_never_refused rfl _
  · next e => cases byte_of_nibbles hm e; exact rm_never_refused rfl _
  · next e => cases byte_of_nibbles hm e; exact rm_never_refused rfl _
  · next e => cases byte_of_nibbles hm e; exact rm_never_refused rfl _
  · next e =>
    cases byte_of_nibbles hm e
    refine rm_refused (fun mid _ => (sregOfField mid).isNone) (by decide) fun mid rm l _ => ?_
    split
    · next h => exact iff_of_false (not_fails_done _ _) (by simp [h])
    · next h => exact iff_of_true (fails_error _) (by simp [h])
  · next e => cases byte_of_nibbles hm e; exact mem_refused (by decide) _
  · next e =>
    cases byte_of_nibbles hm e
    refine rm_refused (fun mid _ => (sregOfField mid).all (· == .cs)) (by decide) fun mid rm l _ => ?_
    split
    · next h => exact iff_of_true (fails_error _) (by simp [h])
    · next sr hc h => exact iff_of_false (not_fails_done _ _) (by simpa [h] using hc)
    · next h => exact iff_of_true (fails_error _) (by simp [h])
  · next e =>
    cases byte_of_nibbles hm e
    refine rm_refused (fun mid _ => mid != .ax) (by decide) fun mid rm l _ => ?_
    split
    · next h => exact iff_of_false (not_fails_done _ _) (by simp [h])
    · next h => exact iff_of_true (fails_error _) (by simpa using h)
  · next =>
    simp only [imp_false] at *
    have := (b0.extractLsb' 0 4).isLt
    exact rm_never_refused (refusedBytes_eq_false (by rw [toNat_of_nibbles hm]; omega)) _

/-- First bytes A0 to AF. -/
theorem decodeA_refused {b0 b1 b2 b3 b4 b5 : Byte} {r : List Byte} (hm : (b0.extractLsb' 4 4).toNat = 10) :
    Fails (decodeA b0 (b1 :: b2 :: b3 :: b4 :: b5 :: r) (b0.extractLsb' 0 4).toNat) ↔ refusedBytes b0 b1 = true := by
  have := (b0.extractLsb' 0 4).isLt
  refine never_refused (refusedBytes_eq_false (by rw [toNat_of_nibbles hm]; omega)) ?_
  unfold decodeA
  split
  case h_17 => exfalso; simp only [imp_false] at *; omega
  all_goals exact not_fails_done _ _

/-- First bytes C0 to CF. -/
theorem decodeC_refused {b0 b1 b2 b3 b4 b5 : Byte} {r : List Byte} (hm : (b0.extractLsb' 4 4).toNat = 12) :
    Fails (decodeC b0 (b1 :: b2 :: b3 :: b4 :: b5 :: r) (b0.extractLsb' 0 4).toNat) ↔ refusedBytes b0 b1 = true := by
  unfold decodeC
  split
  · next e => cases byte_of_nibbles hm e; exact never_refused rfl (not_fails_done _ _)
  · next e => cases byte_of_nibbles hm e; exact never_refused rfl (not_fails_done _ _)
  · next e => cases byte_of_nibbles hm e; exact mem_refused (by decide) _
  · next e => cases byte_of_nibbles hm e; exact mem_refused (by decide) _
  · next e => cases byte_of_nibbles hm e; exact movRmImm_refused (w := .byte) (by decide)
  · next e => cases byte_of_nibbles hm e; exact movRmImm_refused (w := .word) (by decide)
  · next e => cases byte_of_nibbles hm e; exact never_refused rfl (not_fails_done _ _)
  · next e => cases byte_of_nibbles hm e; exact never_refused rfl (not_fails_done _ _)
  · next e => cases byte_of_nibbles hm e; exact never_refused rfl (not_fails_done _ _)
  · next e => cases byte_of_nibbles hm e; exact never_refused rfl (not_fails_done _ _)
  · next e => cases byte_of_nibbles hm e; exact never_refused rfl (not_fails_done _ _)
  · next e => cases byte_of_nibbles hm e; exact never_refused rfl (not_fails_done _ _)
  · simp only [imp_false] at *
    have := (b0.extractLsb' 0 4).isLt
    have hb := toNat_of_nibbles hm
    exact always_refused (refusedBytes_listed (by omega)) (fails_error _)

/-- First bytes D0 to D3. -/
theorem decodeShift_refused {b0 b1 b2 b3 b4 b5 : Byte} {r : List Byte}
    (hb : ∀ b1 : Byte, refusedBytes b0 b1 = (fieldAt 3 b1 == .si)) :
    Fails (decodeShift b0 (b1 :: b2 :: b3 :: b4 :: b5 :: r)) ↔ refusedBytes b0 b1 = true := by
  unfold decodeShift
  refine rm_refused (fun mid _ => mid == .si) hb fun mid rm l hl => ?_
  split
  case h_7 => exact iff_of_true (fails_error _) rfl
  all_goals exact iff_of_false (not_fails_done _ _) (by decide)

theorem decodeAdjust_refused {b0 b1 b2 b3 b4 b5 : Byte} {r : List Byte} (i : Instr)
    (hb : ∀ b1 : Byte, refusedBytes b0 b1 = (b1 != 0x0A)) :
    Fails (decodeAdjust i (b1 :: b2 :: b3 :: b4 :: b5 :: r)) ↔ refusedBytes b0 b1 = true := by
  rw [hb]
  unfold decodeAdjust withByte
  dsimp only
  split
  · next h => exact iff_of_false (not_fails_done _ _) (by simp [h])
  · next h => exact iff_of_true (fails_error _) (by simpa using h)

/-- First bytes D0 to DF. -/
theorem decodeD_refused {b0 b1 b2 b3 b4 b5 : Byte} {r : List Byte} (hm : (b0.extractLsb' 4 4).toNat = 13) :
    Fails (decodeD b0 (b1 :: b2 :: b3 :: b4 :: b5 :: r) (b0.extractLsb' 0 4).toNat) ↔ refusedBytes b0 b1 = true := by
  unfold decodeD
  split
  · next e => cases byte_of_nibbles hm e; exact decodeShift_refused (by decide)
  · next e => cases byte_of_nibbles hm e; exact decodeShift_refused (by decide)
  · next e => cases byte_of_nibbles hm e; exact decodeShift_refused (by decide)
  · next e => cases byte_of_nibbles hm e; exact decodeShift_refused (by decide)
  · next e => cases byte_of_nibbles hm e; exact decodeAdjust_refused _ (by decide)
  · next e => cases byte_of_nibbles hm e; exact decodeAdjust_refused _ (by decide)
  · next e => cases byte_of_nibbles hm e; exact always_refused rfl (fails_error _)
  · next e => cases byte_of_nibbles hm e; exact never_refused rfl (not_fails_done _ _)
  · simp only [imp_false] at *
    have := (b0.extractLsb' 0 4).isLt
    exact rm_never_refused (refusedBytes_eq_false (by rw [toNat_of_nibbles hm]; omega)) _

/-- First bytes E0 to EF. -/
theorem decodeE_refused {b0 b1 b2 b3 b4 b5 : Byte} {r : List Byte} (hm : (b0.extractLsb' 4 4).toNat = 14) :
    Fails (decodeE b0 (b1 :: b2 :: b3 :: b4 :: b5 :: r) (b0.extractLsb' 0 4).toNat) ↔ refusedBytes b0 b1 = true := by
  have := (b0.extractLsb' 0 4).isLt
  refine never_refused (refusedBytes_eq_false (by rw [toNat_of_nibbles hm]; omega)) ?_
  unfold decodeE
  split
  case h_17 => exfalso; simp only [imp_false] at *; omega
  all_goals exact not_fails_done _ _

/-- First bytes F6 and F7. -/
theorem decodeGrp3_refused {b0 b1 b2 b3 b4 b5 : Byte} {r : List Byte}
    (hb : ∀ b1 : Byte, refusedBytes b0 b1 = (fieldAt 3 b1 == .cx)) :
    Fails (decodeGrp3 b0 (b1 :: b2 :: b3 :: b4 :: b5 :: r)) ↔ refusedBytes b0 b1 = true := by
  refine rm_refused (fun mid _ => mid == .cx) hb fun mid rm l hl => ?_
  split
  case h_1 => exact iff_of_false (not_fails_withImm _ _ hl) (by decide)
  case h_2 => exact iff_of_true (fails_error _) rfl
  all_goals exact iff_of_false (not_fails_done _ _) (by decide)

theorem decodeFE_refused {b1 b2 b3 b4 b5 : Byte} {r : List Byte} :
    Fails (decodeFE 0xFE (b1 :: b2 :: b3 :: b4 :: b5 :: r)) ↔ refusedBytes 0xFE b1 = true := by
  refine rm_refused (fun mid _ => mid != .ax && mid != .cx) (by decide) fun mid rm l hl => ?_
  split
  case h_1 | h_2 => exact iff_of_false (not_fails_done _ _) (by decide)
  all_goals exact iff_of_true (fails_error _) rfl

theorem decodeFF_refused {b1 b2 b3 b4 b5 : Byte} {r : List Byte} :
    Fails (decodeFF 0xFF (b1 :: b2 :: b3 :: b4 :: b5 :: r)) ↔ refusedBytes 0xFF b1 = true := by
  refine rm_refused (fun mid isReg => mid == .di || ([.bx, .bp].contains mid && isReg)) (by decide)
    fun mid rm l hl => ?_
  split
  case h_4 | h_6 =>
    split
    · exact iff_of_true (fails_error _) rfl
    · exact iff_of_false (not_fails_done _ _) Bool.false_ne_true
  case h_8 => exact iff_of_true (fails_error _) rfl
  all_goals exact iff_of_false (not_fails_done _ _) Bool.false_ne_true

/-- First bytes F0 to FF. -/
theorem decodeF_refused {b0 b1 b2 b3 b4 b5 : Byte} {r : List Byte} (hm : (b0.extractLsb' 4 4).toNat = 15) :
    Fails (decodeF b0 (b1 :: b2 :: b3 :: b4 :: b5 :: r) (b0.extractLsb' 0 4).toNat) ↔ refusedBytes b0 b1 = true := by
  unfold decodeF
  split
  case h_6 e => cases byte_of_nibbles hm e; exact decodeGrp3_refused (by decide)
  case h_7 e => cases byte_of_nibbles hm e; exact decodeGrp3_refused (by decide)
  case h_14 e => cases byte_of_nibbles hm e; exact decodeFE_refused
  case h_15 e => cases byte_of_nibbles hm e; exact decodeFF_refused
  case h_16 =>
    simp only [imp_false] at *
    have := (b0.extractLsb' 0 4).isLt
    have hb := toNat_of_nibbles hm
    exact always_refused (refusedBytes_listed (by omega)) (fails_error _)
  all_goals
    next e => cases byte_of_nibbles hm e; exact never_refused rfl (not_fails_done _ _)

/-- Of the first bytes 00 to 3F only 0F is refused, POP CS (R106). -/
theorem decodeAlu_refused {b0 b1 b2 b3 b4 b5 : Byte} {r : List Byte} (hb : b0.toNat < 0x40) :
    Fails (decodeAlu b0 (b1 :: b2 :: b3 :: b4 :: b5 :: r)) ↔ refusedBytes b0 b1 = true := by
  by_cases h : b0.toNat = 0x0F
  · cases BitVec.eq_of_toNat_eq (y := 0x0F#8) h
    exact always_refused rfl (fails_error _)
  have hf : refusedBytes b0 b1 = false := refusedBytes_eq_false (by omega)
  unfold decodeAlu
  dsimp only
  split
  · exact never_refused hf (not_fails_done _ _)
  · exact never_refused hf (not_fails_done _ _)
  · split <;> exact never_refused hf (not_fails_done _ _)
  · next e =>
    have popCs : ∀ b : Byte, b.toNat < 0x40 → (b.extractLsb' 0 3).toNat = 7 → fieldAt 3 b = .cx → b.toNat = 0x0F := by
      decide
    split
    case h_2 hc => exact absurd (popCs b0 hb e hc) h
    all_goals exact never_refused hf (not_fails_done _ _)
  · exact rm_never_refused hf _

/-- Each row of the opcode map refuses its own. -/
theorem decodeOp_refused {b0 b1 b2 b3 b4 b5 : Byte} {r : List Byte} :
    Fails (decodeOp b0 (b1 :: b2 :: b3 :: b4 :: b5 :: r)) ↔ refusedBytes b0 b1 = true := by
  have low : ∀ b : Byte, (b.extractLsb' 4 4).toNat < 4 → b.toNat < 0x40 := by decide
  have lt := (b0.extractLsb' 0 4).isLt
  unfold decodeOp
  split
  · next e => exact decodeAlu_refused (low b0 (by omega))
  · next e => exact decodeAlu_refused (low b0 (by omega))
  · next e => exact decodeAlu_refused (low b0 (by omega))
  · next e => exact decodeAlu_refused (low b0 (by omega))
  · next e =>
    have hb := toNat_of_nibbles e
    split <;> exact never_refused (refusedBytes_eq_false (by omega)) (not_fails_done _ _)
  · next e =>
    have hb := toNat_of_nibbles e
    split <;> exact never_refused (refusedBytes_eq_false (by omega)) (not_fails_done _ _)
  · next e =>
    have hb := toNat_of_nibbles e
    exact always_refused (refusedBytes_listed (by omega)) (fails_error _)
  · next e =>
    have hb := toNat_of_nibbles e
    exact never_refused (refusedBytes_eq_false (by omega)) (not_fails_done _ _)
  · next e => exact decode8_refused e
  · next e =>
    have hb := toNat_of_nibbles e
    refine never_refused (refusedBytes_eq_false (by omega)) ?_
    unfold decode9
    split <;> exact not_fails_done _ _
  · next e => exact decodeA_refused e
  · next e =>
    have hb := toNat_of_nibbles e
    split <;> exact never_refused (refusedBytes_eq_false (by omega)) (not_fails_done _ _)
  · next e => exact decodeC_refused e
  · next e => exact decodeD_refused e
  · next e => exact decodeE_refused e
  · next =>
    simp only [imp_false] at *
    have := (b0.extractLsb' 4 4).isLt
    exact decodeF_refused (by omega)

/-- Settles O3: row by row of the opcode map. -/
theorem refusedEncodings : Obligations.RefusedEncodings :=
  fun _ _ _ _ _ _ _ => decodeOp_refused

/-- Settles O4: the decoder is run on each word. -/
theorem decodedWords : Obligations.DecodedWords := ⟨rfl, rfl, rfl, rfl, rfl, rfl, rfl, rfl⟩

end Sys2Proof
end

section
/-! Proofs about addresses, registers and data transfer (`spec/10_state.md`, `spec/20_memory.md`,
`spec/40_data_transfer.md`). -/

namespace Sys2Proof.Machine

/-! ## Effective addresses -/

theorem Regs.base_toNat (g : Regs) (b : Base) : (g.base b).toNat = baseSum g b % 2 ^ 16 := by
  cases b <;> simp [Regs.base, baseSum, BitVec.toNat_add] <;> exact (Nat.mod_eq_of_lt (BitVec.isLt _)).symm

/-- The displacement byte counts as a signed number, modulo 2^16 (R93). -/
theorem add_sext16_toNat (v : Word) (d : Byte) :
    ((v + sext16 d).toNat : Int) = ((v.toNat : Int) + d.toInt) % 2 ^ 16 := by
  have h := sext16_toInt d
  rw [BitVec.toInt_eq_toNat_cond (sext16 d)] at h
  have := (sext16 d).isLt
  rw [BitVec.toNat_add]
  split at h <;> omega

theorem State.memSeg_of_none {s : State} (h : s.pfx.seg = none) (m : MemOp) :
    s.memSeg m = s.sregs.get (MemOp.segment m) := by
  simp [State.memSeg, State.segOf, h]

theorem Base.segment_bp {b : Base} (h : b = .bpSi ∨ b = .bpDi ∨ b = .bp) : Base.segment b = .ss := by
  rcases h with rfl | rfl | rfl <;> rfl

theorem Base.segment_not_bp {b : Base} (h : ¬ (b = .bpSi ∨ b = .bpDi ∨ b = .bp)) : Base.segment b = .ds := by
  cases b <;> simp at h <;> rfl

theorem MemOp.segment_of_usesBp {m : MemOp} (h : UsesBp m) : MemOp.segment m = .ss := by
  cases m with
  | direct a => exact h.elim
  | ind b => exact Base.segment_bp h
  | disp8 b d => exact Base.segment_bp h
  | disp16 b d => exact Base.segment_bp h

theorem MemOp.segment_of_not_usesBp {m : MemOp} (h : ¬ UsesBp m) : MemOp.segment m = .ds := by
  cases m with
  | direct a => rfl
  | ind b => exact Base.segment_not_bp h
  | disp8 b d => exact Base.segment_not_bp h
  | disp16 b d => exact Base.segment_not_bp h

/-- Settles O5. -/
theorem effectiveAddress : Obligations.EffectiveAddress := by
  intro s
  refine ⟨fun seg o => ?_, fun a => rfl, fun b => s.regs.base_toNat b, fun b d => ?_, fun b d => ?_, fun m sr h => ?_,
    fun m h hb => ?_, fun m h hb => ?_⟩
  · rw [phys_toNat, Nat.mul_comm]
  · rw [State.ea, add_sext16_toNat, Regs.base_toNat]
    omega
  · rw [State.ea, BitVec.toNat_add, Regs.base_toNat, Nat.mod_add_mod]
  · simp [State.memSeg, State.segOf, h]
  · rw [State.memSeg_of_none h, MemOp.segment_of_usesBp hb]; rfl
  · rw [State.memSeg_of_none h, MemOp.segment_of_not_usesBp hb]; rfl

/-! ## Registers -/

/-- Settles O6. -/
theorem byteRegisterAliasing : Obligations.ByteRegisterAliasing := by
  refine ⟨fun g => ?_, fun lo hi => ?_, fun r v s => ?_, fun r v s => ?_⟩
  · exact ⟨(leWord_lo_hi g.ax).symm, (leWord_lo_hi g.cx).symm, (leWord_lo_hi g.dx).symm, (leWord_lo_hi g.bx).symm⟩
  · rw [leWord_toNat]; omega
  · exact ⟨_, rfl, s.writeReg_regWritten .byte r v, rfl⟩
  · exact ⟨_, rfl, s.writeReg_regWritten .word r v, rfl⟩

/-- Everything a write of a segment register does (R25). -/
theorem SRegs.set_written (g : SRegs) (r : SReg) (v : Word) : SRegWritten r v g (g.set r v) := by
  refine ⟨by cases r <;> rfl, fun r' h => ?_⟩
  cases r <;> cases r' <;> first | rfl | exact absurd rfl h

/-! ## A store is in no register -/

section
variable (s : State) (w : Width) (seg o : Word) (v : BitVec w.bits)

theorem State.lwrite_ea (m : MemOp) : (s.lwrite w seg o v).ea m = s.ea m := by
  cases w <;> cases m <;> rfl

theorem State.lwrite_memSeg (m : MemOp) : (s.lwrite w seg o v).memSeg m = s.memSeg m := by cases w <;> rfl

end

/-- Settles O7: a read behind the write of the same word gives it back, wherever its two bytes lie. -/
theorem storedThenLoaded : Obligations.StoredThenLoaded := by
  intro w r r' m s t h
  cases h
  refine ⟨_, rfl, ?_⟩
  have hread : (s.writeRM w (.mem m) (s.readReg w r)).readRM w (.mem m) = s.readReg w r := by
    simp only [State.writeRM, State.readRM, State.lwrite_ea, State.lwrite_memSeg, State.lread_lwrite]
  rw [hread]
  have hregs : (s.writeRM w (.mem m) (s.readReg w r)).regs = s.regs := by simp [State.writeRM]
  have := (s.writeRM w (.mem m) (s.readReg w r)).writeReg_regWritten w r' (s.readReg w r)
  rwa [hregs] at this

/-! ## MOV -/

/-- Settles O8: each form is one write of a register or memory operand. -/
theorem movForms : Obligations.MovForms := by
  intro w reg rm imm addr sr s
  exact ⟨⟨_, rfl, s.writeRM_dest w rm _⟩, ⟨_, rfl, s.writeReg_dest w reg _⟩, ⟨_, rfl, s.writeRM_dest w rm imm⟩,
    ⟨_, rfl, s.writeReg_dest w reg imm⟩, ⟨_, rfl, s.writeReg_dest w .ax _⟩,
    ⟨_, rfl, s.writeRM_dest w (.mem (.direct addr)) _⟩, ⟨_, rfl, s.writeRM_dest .word rm _⟩⟩

/-- Settles O9. -/
theorem segmentLoads : Obligations.SegmentLoads := by
  intro sr rm reg m s
  refine ⟨fun h => ⟨_, if_neg h, s.sregs.set_written sr _, rfl⟩,
    fun h => ⟨_, if_neg h, s.sregs.set_written sr _, ?_, rfl⟩, ⟨_, rfl, ?_, s.sregs.set_written .ds _, rfl⟩,
    ⟨_, rfl, ?_, s.sregs.set_written .es _, rfl⟩, rfl, rfl⟩
  · exact s.writeReg_regWritten .word .sp _
  · exact s.writeReg_regWritten .word reg _
  · exact s.writeReg_regWritten .word reg _

/-! ## Stack -/

theorem State.decSp_get (s : State) (r : RegField) :
    s.decSp.regs.get r = if r = .sp then s.regs.sp - 2 else s.regs.get r := by
  split
  · next h => subst h; rfl
  · next h => exact s.regs.get_set_other _ h

/-- Only the operand SP is another one behind the decrement: no address depends on SP (R89). -/
theorem State.decSp_readRM (s : State) (rm : RM) :
    s.decSp.readRM .word rm = if rm = .reg .sp then s.regs.sp - 2 else s.readRM .word rm := by
  cases rm with
  | reg r =>
    refine (s.decSp_get r).trans ?_
    simp only [RM.reg.injEq]
    rfl
  | mem m =>
    have hea : s.decSp.ea m = s.ea m := by
      cases m with
      | direct a => rfl
      | ind b | disp8 b _ | disp16 b _ => cases b <;> rfl
    rw [if_neg (by simp), State.readRM, hea]
    rfl

/-- The nine flag bits of a FLAGS word are the flags it loads (R27). -/
theorem Flags.ofImage_bits {img : Word} {f : Flags} (h : Flags.ofImage img = f) :
    img.getLsbD 0 = f.cf ∧ img.getLsbD 2 = f.pf ∧ img.getLsbD 4 = f.af ∧ img.getLsbD 6 = f.zf ∧
      img.getLsbD 7 = f.sf ∧ img.getLsbD 8 = f.tf ∧ img.getLsbD 9 = f.ifl ∧ img.getLsbD 10 = f.df ∧
      img.getLsbD 11 = f.ofl := by
  subst h
  exact ⟨rfl, rfl, rfl, rfl, rfl, rfl, rfl, rfl, rfl⟩

/-- Settles O10. -/
theorem pushForms : Obligations.PushForms := by
  intro rm reg sr s
  refine ⟨⟨_, rfl, ?_⟩, ⟨_, rfl, ?_⟩, ⟨_, rfl, s.push_pushed _⟩,
    ⟨_, _, rfl, s.push_pushed _, Flags.ofImage_bits (Flags.ofImage_flagsImage s)⟩⟩
  · rw [← State.decSp_readRM]; exact s.push_pushed _
  · rw [← State.decSp_get]; exact s.push_pushed _

/-- Settles O11. -/
theorem popForms : Obligations.PopForms := by
  rintro rm reg s _ rfl
  exact ⟨⟨_, rfl, (s.addSp 2).writeRM_dest .word rm _⟩, ⟨_, rfl, (s.addSp 2).writeReg_dest .word reg _⟩,
    ⟨_, _, rfl, rfl, rfl, rfl, rfl, rfl, rfl, rfl, rfl, rfl, rfl, rfl⟩⟩

/-- The word on top of the stack behind a push is the one pushed. -/
theorem State.top_push (s : State) (v : Word) : (s.push v).top = v :=
  State.lread_lwrite s.decSp .word s.sregs.ss (s.regs.sp - 2) v

/-- Popping takes SP back to where it was before the push. -/
theorem State.push_addSp_regs (s : State) (v : Word) : ((s.push v).addSp 2).regs = s.regs := by
  show { s.regs with sp := s.regs.sp - 2 + 2 } = s.regs
  rw [BitVec.sub_add_cancel]

/-- Settles O12. -/
theorem pushPopRoundTrip : Obligations.PushPopRoundTrip := by
  intro s t
  refine ⟨fun r r' hr _ h => ?_, fun h f => ?_⟩
  · cases h
    refine ⟨_, rfl, ?_, rfl⟩
    have hw := State.writeReg_regWritten ((s.push (s.decSp.regs.get r)).addSp 2) .word r' (s.decSp.regs.get r)
    rw [State.push_addSp_regs, State.decSp_get, if_neg hr] at hw
    rw [State.top_push, State.decSp_get, if_neg hr]
    exact hw
  · cases h
    refine ⟨_, rfl, ?_, s.push_addSp_regs s.flagsImage⟩
    exact (congrArg Flags.ofImage (s.top_push s.flagsImage)).trans (Flags.ofImage_flagsImage s)

/-! ## XCHG -/

/-- Settles O13: the operand was read before either write. -/
theorem xchgForms : Obligations.XchgForms := by
  intro w reg r m s
  refine ⟨⟨_, rfl, ?_, ?_, ?_⟩, ⟨_, (s.writeReg w r (s.readReg w reg)).regs, rfl, s.writeReg_regWritten w r _, ?_, ?_⟩,
    ⟨_, (s.writeReg .word .ax (s.regs.get reg)).regs, rfl, s.writeReg_regWritten .word .ax _, ?_, rfl⟩⟩
  · have h := s.lwrite_stored w (s.memSeg m) (s.ea m) (s.readReg w reg)
    cases w <;> exact h
  · have h := (s.writeRM w (.mem m) (s.readReg w reg)).writeReg_regWritten w reg (s.readRM w (.mem m))
    cases w <;> exact h
  · cases w <;> rfl
  · exact State.writeReg_regWritten _ w reg _
  · cases w <;> rfl
  · exact State.writeReg_regWritten _ .word reg _

/-! ## Ports -/

/-- Everything a read of a device does: the inputs it takes, the low port first, and the value when they are listed
(R15, R450). -/
theorem State.portRead_reads (s : State) (w : Width) (p : Word) :
    (s.portRead w p).2 = { s with ioIn := s.ioIn.drop (w.bits / 8) } ∧
      ∀ lo hi r, (w = .byte → s.ioIn = lo :: r → (s.portRead w p).1.toNat = lo.toNat) ∧
        (w = .word → s.ioIn = lo :: hi :: r → (s.portRead w p).1.toNat = lo.toNat + 256 * hi.toNat) := by
  cases w with
  | byte =>
    refine ⟨?_, fun lo hi r => ⟨fun _ h => ?_, nofun⟩⟩
    · show { s with ioIn := s.ioIn.tail } = { s with ioIn := s.ioIn.drop 1 }
      rw [List.drop_one]
    · show (s.ioIn.headD _).toNat = _
      rw [h]
      rfl
  | word =>
    refine ⟨?_, fun lo hi r => ⟨nofun, fun _ h => ?_⟩⟩
    · show { s with ioIn := s.ioIn.tail.tail } = { s with ioIn := s.ioIn.drop 2 }
      rw [← List.drop_one, ← List.drop_one, List.drop_drop]
    · show (leWord (s.ioIn.headD _) (s.ioIn.tail.headD _)).toNat = _
      rw [h]
      exact leWord_toNat lo hi

/-- What IN leaves: AL or AX written with what was read, and the inputs used up. -/
theorem State.in_written (s : State) (w : Width) (p : Word) :
    RegWritten w .ax (s.portRead w p).1 s.regs ((s.portRead w p).2.writeReg w .ax (s.portRead w p).1).regs ∧
      (s.portRead w p).2.writeReg w .ax (s.portRead w p).1 =
        { s with regs := ((s.portRead w p).2.writeReg w .ax (s.portRead w p).1).regs,
                 ioIn := s.ioIn.drop (w.bits / 8) } := by
  have h := (s.portRead_reads w p).1
  refine ⟨?_, ?_⟩
  · have hw := (s.portRead w p).2.writeReg_regWritten w .ax (s.portRead w p).1
    rw [h] at hw ⊢
    exact hw
  · rw [h]
    cases w <;> rfl

/-- A fixed port is its byte, zero-extended (R65). -/
theorem fixedPort_eq (port : Byte) : port.setWidth 16 = BitVec.ofNat 16 port.toNat := by
  apply BitVec.eq_of_toNat_eq
  simp

theorem fixedPort_succ (port : Byte) : port.setWidth 16 + 1 = BitVec.ofNat 16 (port.toNat + 1) := by
  apply BitVec.eq_of_toNat_eq
  simp [BitVec.toNat_add]

/-- Settles O14. -/
theorem portForms : Obligations.PortForms := by
  intro w port s
  have reads := fun p : Word =>
    (⟨_, _, rfl, (s.in_written w p).1, (s.in_written w p).2, (s.portRead_reads w p).2⟩ :
      ∃ t v, Host.Outcome.next ((s.portRead w p).2.writeReg w .ax (s.portRead w p).1) = (.next t : Out) ∧
        RegWritten w .ax v s.regs t.regs ∧ t = { s with regs := t.regs, ioIn := s.ioIn.drop (w.bits / 8) } ∧
        ∀ lo hi r, (w = .byte → s.ioIn = lo :: r → v.toNat = lo.toNat) ∧
          (w = .word → s.ioIn = lo :: hi :: r → v.toNat = lo.toNat + 256 * hi.toNat))
  rw [← fixedPort_eq, ← fixedPort_succ]
  exact ⟨reads _, reads _, rfl, rfl, rfl, rfl⟩

/-! ## XLAT, LEA, LAHF, SAHF -/

/-- Settles O15. -/
theorem xlatLeaLahfSahf : Obligations.XlatLeaLahfSahf := by
  intro reg m s
  refine ⟨⟨_, s.regs.bx + (s.regs.get8 .ax).setWidth 16, rfl, ?_, s.writeReg_dest .byte .ax _⟩,
    ⟨_, rfl, s.writeReg_dest .word reg _⟩, ⟨_, wordLo s.flagsImage, rfl, s.writeReg_dest .byte .sp _, ?_⟩,
    ⟨_, rfl, rfl, rfl, rfl, rfl, rfl, rfl, rfl, rfl, rfl⟩⟩
  · simp [BitVec.toNat_add]
  · obtain ⟨cf, pf, af, zf, sf, -⟩ := Flags.ofImage_bits (Flags.ofImage_flagsImage s)
    simp only [wordLo, BitVec.getLsbD_setWidth]
    exact ⟨sf, zf, af, pf, cf⟩

end Sys2Proof.Machine
end

section
/-! Proofs about the arithmetic instructions (`spec/41_arithmetic.md`): the results in plain numbers, the flags by the
laws of `Laws/Flags`, the frame by the laws of `Laws/Operands`. -/

namespace Sys2Proof.Machine

/-! ## ADD, ADC, SUB, SBB, CMP -/

/-- The difference as a number modulo 2^n (R18). -/
theorem subResult_emod {n : Nat} (hn : n = 8 ∨ n = 16) (a b : BitVec n) (c : Bool) :
    ((subResult a b c).toNat : Int) = ((a.toNat : Int) - b.toNat - c.toNat) % 2 ^ n := by
  have h := subResult_toNat hn a b c
  have hc := Bool.toNat_le c
  have ha := a.isLt
  have hb := b.isLt
  rcases hn with rfl | rfl <;> omega

section
variable (w : Width) (dst : RM) (a b : BitVec w.bits) (c : Bool) (s : State)

/-- Flags and destination of an addition. -/
theorem addsTo_written :
    AddsTo w dst a b c s (.next ({ s with flags := s.flags.ofAdd a b c }.writeRM w dst (addResult a b c))) :=
  ⟨_, _, _, rfl, s.flags.ofAdd_flags (width_bits_cases w) a b c, addResult_toNat (width_bits_cases w) a b c,
    State.writeRM_dest _ w dst _⟩

/-- Flags and destination of a subtraction. -/
theorem subsTo_written :
    SubsTo w dst a b c s (.next ({ s with flags := s.flags.ofSub a b c }.writeRM w dst (subResult a b c))) :=
  ⟨_, _, _, rfl, s.flags.ofSub_flags (width_bits_cases w) a b c, subResult_emod (width_bits_cases w) a b c,
    State.writeRM_dest _ w dst _⟩

theorem compares_written : Compares a b s (.next { s with flags := s.flags.ofSub a b false }) :=
  ⟨_, rfl, s.flags.ofSub_flags (width_bits_cases w) a b false, rfl⟩

end

/-- Settles O16: every form is one addition into its destination. -/
theorem addForms : Obligations.AddForms := by
  intro w reg rm imm d8 d16 sx s
  exact ⟨addsTo_written w rm _ _ _ s, addsTo_written w (.reg reg) _ _ _ s, addsTo_written .byte rm _ _ _ s,
    addsTo_written .word rm _ _ _ s, addsTo_written .word rm _ _ _ s, addsTo_written w (.reg .ax) _ _ _ s,
    addsTo_written w rm _ _ _ s, addsTo_written w (.reg reg) _ _ _ s, addsTo_written .byte rm _ _ _ s,
    addsTo_written .word rm _ _ _ s, addsTo_written .word rm _ _ _ s, addsTo_written w (.reg .ax) _ _ _ s⟩

/-- Settles O17: every form is one subtraction into its destination. -/
theorem subForms : Obligations.SubForms := by
  intro w reg rm imm d8 d16 sx s
  exact ⟨subsTo_written w rm _ _ _ s, subsTo_written w (.reg reg) _ _ _ s, subsTo_written .byte rm _ _ _ s,
    subsTo_written .word rm _ _ _ s, subsTo_written .word rm _ _ _ s, subsTo_written w (.reg .ax) _ _ _ s,
    subsTo_written w rm _ _ _ s, subsTo_written w (.reg reg) _ _ _ s, subsTo_written .byte rm _ _ _ s,
    subsTo_written .word rm _ _ _ s, subsTo_written .word rm _ _ _ s, subsTo_written w (.reg .ax) _ _ _ s⟩

/-- Settles O18. -/
theorem cmpForms : Obligations.CmpForms := by
  intro w reg rm imm d8 d16 sx s
  exact ⟨compares_written w _ _ s, compares_written w _ _ s, compares_written .byte _ _ s, compares_written .word _ _ s,
    compares_written .word _ _ s, compares_written w _ _ s⟩

/-! ## INC, DEC, NEG -/

theorem one_toNat (w : Width) : (1 : BitVec w.bits).toNat = 1 := by cases w <;> rfl

/-- INC of an operand: the flags of adding one, CF kept. -/
theorem inc_written (w : Width) (rm : RM) (s : State) :
    ∃ t f v, exec (.incRm w rm) s = .next t ∧ AddFlagsNoCarry (s.readRM w rm) 1 false s.flags f ∧
      f.cf = s.flags.cf ∧ v.toNat = ((s.readRM w rm).toNat + 1) % 2 ^ w.bits ∧
      DestWritten w rm v { s with flags := f } t := by
  refine ⟨_, (s.flags.ofAdd (s.readRM w rm) 1 false).keepCf s.flags, _, rfl,
    (s.flags.ofAdd_flags (width_bits_cases w) (s.readRM w rm) 1 false).1, rfl, ?_,
    State.writeRM_dest _ w rm _⟩
  rw [addResult_toNat (width_bits_cases w), one_toNat]
  rfl

/-- DEC of an operand: the flags of subtracting one, CF kept. -/
theorem dec_written (w : Width) (rm : RM) (s : State) :
    ∃ t f v, exec (.decRm w rm) s = .next t ∧ SubFlagsNoCarry (s.readRM w rm) 1 false s.flags f ∧
      f.cf = s.flags.cf ∧ (v.toNat : Int) = ((s.readRM w rm).toNat - 1 : Int) % 2 ^ w.bits ∧
      DestWritten w rm v { s with flags := f } t := by
  refine ⟨_, (s.flags.ofSub (s.readRM w rm) 1 false).keepCf s.flags, _, rfl,
    (s.flags.ofSub_flags (width_bits_cases w) (s.readRM w rm) 1 false).1, rfl, ?_,
    State.writeRM_dest _ w rm _⟩
  rw [subResult_emod (width_bits_cases w), one_toNat]
  simp

/-- Settles O19. -/
theorem incDecNegForms : Obligations.IncDecNegForms := by
  intro w reg rm s
  exact ⟨inc_written w rm s, inc_written .word (.reg reg) s, dec_written w rm s, dec_written .word (.reg reg) s,
    subsTo_written w rm 0 _ false s⟩

/-! ## MUL, IMUL -/

/-- A product of two operands of at most 16 bits needs no more than 32. -/
theorem product_toNat {n : Nat} (hn : n ≤ 16) (a b : BitVec n) :
    (a.setWidth 32 * b.setWidth 32).toNat = a.toNat * b.toNat ∧ a.toNat * b.toNat < 2 ^ (2 * n) := by
  have hab : a.toNat * b.toNat < 2 ^ (2 * n) := by
    rw [Nat.two_mul, Nat.pow_add]
    exact Nat.mul_lt_mul'' a.isLt b.isLt
  have hn' : 2 ^ (2 * n) ≤ 2 ^ 32 := Nat.pow_le_pow_right (by decide) (by omega)
  have ha : a.toNat < 2 ^ 32 := lt_of_lt_of_le a.isLt (Nat.pow_le_pow_right (by decide) (by omega))
  have hb : b.toNat < 2 ^ 32 := lt_of_lt_of_le b.isLt (Nat.pow_le_pow_right (by decide) (by omega))
  refine ⟨?_, hab⟩
  rw [BitVec.toNat_mul, BitVec.toNat_setWidth, BitVec.toNat_setWidth, Nat.mod_eq_of_lt ha, Nat.mod_eq_of_lt hb,
    Nat.mod_eq_of_lt (by omega)]

theorem append_toNat (h l : Word) : (h ++ l).toNat = h.toNat * 2 ^ 16 + l.toNat := by
  rw [BitVec.toNat_append, ← Nat.shiftLeft_add_eq_or_of_lt l.isLt, Nat.shiftLeft_eq]

theorem upper_ne_zero_iff (h l : Word) : 2 ^ 16 ≤ h.toNat * 2 ^ 16 + l.toNat ↔ h ≠ 0 := by
  have := l.isLt
  have h0 : (0 : Word).toNat = 0 := rfl
  rw [ne_eq, ← BitVec.toNat_inj, h0]
  omega

/-- DX and AX hold the two halves of a product. -/
theorem halves_append (p : BitVec 32) : ((p >>> 16).setWidth 16 ++ p.setWidth 16 : BitVec (16 + 16)) = p := by
  apply BitVec.eq_of_toNat_eq
  rw [append_toNat]
  have := p.isLt
  simp only [BitVec.toNat_setWidth, BitVec.toNat_ushiftRight, Nat.shiftRight_eq_div_pow]
  omega

/-- The low half of a word of 32 bits is the same number modulo 2^16. -/
theorem setWidth_ofInt (p : Int) : (BitVec.ofInt 32 p).setWidth 16 = BitVec.ofInt 16 p := by
  apply BitVec.eq_of_toNat_eq
  simp only [BitVec.toNat_setWidth, BitVec.toNat_ofInt]
  omega

/-- A number is the signed value of its low bits if and only if it is in range. -/
theorem ofInt_toInt_ne {n : Nat} (hn : n = 8 ∨ n = 16) (p : Int) :
    (p != (BitVec.ofInt n p).toInt) = true ↔ OutOfRange n p := by
  rw [bne_iff_ne, BitVec.toInt_ofInt, OutOfRange, Int.bmod]
  rcases hn with rfl | rfl <;> split <;> omega

theorem mulByte (rm : RM) (s : State) :
    ∃ t, exec (.mulRm .byte rm) s = .next t ∧
      t.regs.ax.toNat = (s.regs.get8 .ax).toNat * (s.readRM .byte rm).toNat ∧
      (t.flags.cf = true ↔ 2 ^ 8 ≤ t.regs.ax.toNat) ∧ t.flags.ofl = t.flags.cf ∧ ControlKept s.flags t.flags ∧
      t = { s with regs := { s.regs with ax := t.regs.ax }, flags := t.flags } := by
  obtain ⟨hp, hlt⟩ := product_toNat (n := 8) (by decide) (s.regs.get8 .ax) (s.readRM .byte rm)
  have hax : (BitVec.setWidth 16 ((s.regs.get8 .ax).setWidth 32 * BitVec.setWidth 32 (s.readRM .byte rm))).toNat =
      (s.regs.get8 .ax).toNat * (s.readRM .byte rm).toNat := by
    rw [BitVec.toNat_setWidth, hp, Nat.mod_eq_of_lt hlt]
  exact ⟨_, rfl, hax, decide_eq_true_iff.trans (iff_of_eq (congrArg _ hax.symm)), rfl, ⟨rfl, rfl, rfl⟩, rfl⟩

theorem mulWord (rm : RM) (s : State) :
    ∃ t, exec (.mulRm .word rm) s = .next t ∧
      t.regs.dx.toNat * 2 ^ 16 + t.regs.ax.toNat = s.regs.ax.toNat * (s.readRM .word rm).toNat ∧
      (t.flags.cf = true ↔ t.regs.dx ≠ 0) ∧ t.flags.ofl = t.flags.cf ∧ ControlKept s.flags t.flags ∧
      t = { s with regs := { s.regs with ax := t.regs.ax, dx := t.regs.dx }, flags := t.flags } := by
  obtain ⟨hp, -⟩ := product_toNat (n := 16) (by decide) s.regs.ax (s.readRM .word rm)
  have hboth := halves_append (s.regs.ax.setWidth 32 * BitVec.setWidth 32 (s.readRM .word rm))
  have hsum := congrArg BitVec.toNat hboth
  rw [append_toNat, hp] at hsum
  refine ⟨_, rfl, hsum, decide_eq_true_iff.trans ?_, rfl, ⟨rfl, rfl, rfl⟩, rfl⟩
  show 2 ^ 16 ≤ s.regs.ax.toNat * (s.readRM .word rm).toNat ↔ _
  rw [← hsum]
  exact upper_ne_zero_iff _ _

theorem imulByte (rm : RM) (s : State) :
    ∃ t, exec (.imulRm .byte rm) s = .next t ∧
      t.regs.ax.toInt = (s.regs.get8 .ax).toInt * (s.readRM .byte rm).toInt ∧
      (t.flags.cf = true ↔ OutOfRange 8 t.regs.ax.toInt) ∧ t.flags.ofl = t.flags.cf ∧
      ControlKept s.flags t.flags ∧ t = { s with regs := { s.regs with ax := t.regs.ax }, flags := t.flags } := by
  have hle := BitVec.toInt_mul_toInt_le (x := s.regs.get8 .ax) (y := s.readRM .byte rm)
  have hge := BitVec.le_toInt_mul_toInt (x := s.regs.get8 .ax) (y := s.readRM .byte rm)
  have hax : (BitVec.setWidth 16 (BitVec.ofInt 32 ((s.regs.get8 .ax).toInt * (s.readRM .byte rm).toInt))).toInt =
      (s.regs.get8 .ax).toInt * (s.readRM .byte rm).toInt := by
    rw [setWidth_ofInt, BitVec.toInt_ofInt_eq_self (by decide)] <;> omega
  exact ⟨_, rfl, hax, (ofInt_toInt_ne (.inl rfl) _).trans (iff_of_eq (congrArg _ hax.symm)), rfl, ⟨rfl, rfl, rfl⟩, rfl⟩

theorem imulWord (rm : RM) (s : State) :
    ∃ t, exec (.imulRm .word rm) s = .next t ∧
      (t.regs.dx ++ t.regs.ax).toInt = s.regs.ax.toInt * (s.readRM .word rm).toInt ∧
      (t.flags.cf = true ↔ OutOfRange 16 (t.regs.dx ++ t.regs.ax).toInt) ∧ t.flags.ofl = t.flags.cf ∧
      ControlKept s.flags t.flags ∧
      t = { s with regs := { s.regs with ax := t.regs.ax, dx := t.regs.dx }, flags := t.flags } := by
  have hle := BitVec.toInt_mul_toInt_le (x := s.regs.ax) (y := s.readRM .word rm)
  have hge := BitVec.le_toInt_mul_toInt (x := s.regs.ax) (y := s.readRM .word rm)
  have hboth := halves_append (BitVec.ofInt 32 (s.regs.ax.toInt * (s.readRM .word rm).toInt))
  have hint := congrArg BitVec.toInt hboth
  rw [BitVec.toInt_ofInt_eq_self (by decide) (by omega) (by omega)] at hint
  exact ⟨_, rfl, hint, (ofInt_toInt_ne (.inr rfl) _).trans (iff_of_eq (congrArg _ hint.symm)), rfl,
    ⟨rfl, rfl, rfl⟩, rfl⟩

/-- Settles O20. -/
theorem mulForms : Obligations.MulForms := fun rm s => ⟨mulByte rm s, mulWord rm s, imulByte rm s, imulWord rm s⟩

/-! ## DIV, IDIV -/

section
variable {w : Width} {rm : RM} {s : State}

theorem exec_divRm_completes (hd : (s.readRM w rm).toNat ≠ 0)
    (hq : (s.dividend w).toNat / (s.readRM w rm).toNat < 2 ^ w.bits) :
    exec (.divRm w rm) s = .next (s.withQuotient w
      (BitVec.ofNat w.bits ((s.dividend w).toNat / (s.readRM w rm).toNat))
      (BitVec.ofNat w.bits ((s.dividend w).toNat % (s.readRM w rm).toNat))) :=
  if_neg fun h => by
    rcases (s.divTraps_iff w rm).mp h with h | h <;> omega

theorem exec_idivRm_completes (hd : (s.readRM w rm).toInt ≠ 0)
    (hlo : (s.idivRange w).1 ≤ (s.signedDividend w).tdiv (s.readRM w rm).toInt)
    (hhi : (s.signedDividend w).tdiv (s.readRM w rm).toInt ≤ (s.idivRange w).2) :
    exec (.idivRm w rm) s = .next (s.withQuotient w
      (BitVec.ofInt w.bits ((s.signedDividend w).tdiv (s.readRM w rm).toInt))
      (BitVec.ofInt w.bits ((s.signedDividend w).tmod (s.readRM w rm).toInt))) :=
  if_neg fun h => by
    rcases (s.idivTraps_iff w rm).mp h with h | h | h <;> omega

end

theorem dividend_byte_toNat (s : State) : (s.dividend .byte).toNat = s.regs.ax.toNat := by
  have := s.regs.ax.isLt
  rw [State.dividend, BitVec.toNat_setWidth]
  omega

/-- Quotient and remainder in `n` bits make up the dividend when the quotient fits. -/
theorem ofNat_div_mod {n N d : Nat} (hd : d ≠ 0) (hdn : d < 2 ^ n) (hq : N / d < 2 ^ n) :
    (BitVec.ofNat n (N / d)).toNat * d + (BitVec.ofNat n (N % d)).toNat = N ∧ (BitVec.ofNat n (N % d)).toNat < d := by
  have hr : N % d < d := Nat.mod_lt N (Nat.pos_of_ne_zero hd)
  rw [BitVec.toNat_ofNat, BitVec.toNat_ofNat, Nat.mod_eq_of_lt hq, Nat.mod_eq_of_lt (hr.trans hdn)]
  exact ⟨Nat.div_add_mod' N d, hr⟩

/-- Truncated quotient and remainder in `n` bits make up the dividend when the quotient fits. -/
theorem ofInt_tdiv_tmod {n : Nat} {N d : Int} (hn : 0 < n) (hd : d ≠ 0) (hdn : d.natAbs ≤ 2 ^ (n - 1))
    (hlo : -2 ^ (n - 1) ≤ N.tdiv d) (hhi : N.tdiv d < 2 ^ (n - 1)) :
    (BitVec.ofInt n (N.tdiv d)).toInt * d + (BitVec.ofInt n (N.tmod d)).toInt = N ∧
      (BitVec.ofInt n (N.tmod d)).toInt.natAbs < d.natAbs ∧
      ((BitVec.ofInt n (N.tmod d)).toInt = 0 ∨ (BitVec.ofInt n (N.tmod d)).toInt.sign = N.sign) := by
  have hr : (N.tmod d).natAbs < d.natAbs := by
    rw [Int.natAbs_tmod]
    exact Nat.mod_lt _ (Int.natAbs_pos.mpr hd)
  have hr' : ((N.tmod d).natAbs : Int) < 2 ^ (n - 1) := by exact_mod_cast hr.trans_le hdn
  rw [BitVec.toInt_ofInt_eq_self hn hlo hhi, BitVec.toInt_ofInt_eq_self hn (by omega) (by omega)]
  refine ⟨Int.tdiv_mul_add_tmod N d, hr, ?_⟩
  have hs := Int.sign_tmod N d
  split at hs
  · exact .inl (Int.sign_eq_zero_iff_zero.mp hs)
  · exact .inr hs

theorem toInt_natAbs_le {n : Nat} (hn : n = 8 ∨ n = 16) (x : BitVec n) : x.toInt.natAbs ≤ 2 ^ (n - 1) := by
  have h1 := BitVec.toInt_lt (x := x)
  have h2 := BitVec.le_toInt x
  rcases hn with rfl | rfl <;> omega

theorem LeastQuotient.byte_eq (q : LeastQuotient) : q.byte = if q = .symmetric then -127 else -128 := by
  cases q <;> rfl

theorem LeastQuotient.word_eq (q : LeastQuotient) : q.word = if q = .symmetric then -32767 else -32768 := by
  cases q <;> rfl

/-- Settles O21. -/
theorem divForms : Obligations.DivForms := by
  intro rm s
  refine ⟨fun hd hq => ?_, fun hd hq => ?_, fun hd hlo hhi => ?_, fun hd hlo hhi => ?_⟩
  · rw [← dividend_byte_toNat] at hq ⊢
    have hq' : (s.dividend .byte).toNat / (s.readRM .byte rm).toNat < 2 ^ 8 := by omega
    obtain ⟨hsum, hr⟩ := ofNat_div_mod hd (s.readRM .byte rm).isLt hq'
    exact ⟨_, _, _, exec_divRm_completes hd hq', rfl, hsum, hr, ⟨rfl, rfl, rfl⟩, rfl⟩
  · have hq' : (s.dividend .word).toNat / (s.readRM .word rm).toNat < 2 ^ 16 := Nat.lt_succ_of_le hq
    obtain ⟨hsum, hr⟩ := ofNat_div_mod hd (s.readRM .word rm).isLt hq'
    exact ⟨_, exec_divRm_completes hd hq', hsum, hr, ⟨rfl, rfl, rfl⟩, rfl⟩
  · rw [← LeastQuotient.byte_eq] at hlo
    have hmin : -128 ≤ s.par.idivMinQ8.byte := by cases s.par.idivMinQ8 <;> decide
    obtain ⟨hsum, hr, hsign⟩ := ofInt_tdiv_tmod (n := 8) (by decide) hd (toInt_natAbs_le (.inl rfl) _)
      (by omega) (Int.lt_add_one_of_le hhi)
    exact ⟨_, _, _, exec_idivRm_completes hd hlo hhi, rfl, hsum, hr, hsign, ⟨rfl, rfl, rfl⟩, rfl⟩
  · rw [← LeastQuotient.word_eq] at hlo
    have hmin : -32768 ≤ s.par.idivMinQ16.word := by cases s.par.idivMinQ16 <;> decide
    obtain ⟨hsum, hr, hsign⟩ := ofInt_tdiv_tmod (n := 16) (by decide) hd (toInt_natAbs_le (.inr rfl) _)
      (by omega) (Int.lt_add_one_of_le hhi)
    exact ⟨_, exec_idivRm_completes hd hlo hhi, hsum, hr, hsign, ⟨rfl, rfl, rfl⟩, rfl⟩

/-- The offset a divide error pushes, by the parameter (R387, D13). -/
theorem State.divideReturn_eq (s : State) (n : Nat) :
    s.divideReturn n = if s.par.divFaultReturn = .next then s.ip else s.instrStart n := by
  unfold State.divideReturn
  cases s.par.divFaultReturn <;> rfl

theorem State.divideFaulted_byte (s : State) (n : Nat) :
    ∃ x f, ControlKept s.flags f ∧ s.divideFaulted .byte n =
      { s with regs := { s.regs with ax := x }, flags := f, ip := s.divideReturn n } :=
  ⟨_, s.freeStatus, ⟨rfl, rfl, rfl⟩, rfl⟩

theorem State.divideFaulted_word (s : State) (n : Nat) :
    ∃ x y f, ControlKept s.flags f ∧ s.divideFaulted .word n =
      { s with regs := { s.regs with ax := x, dx := y }, flags := f, ip := s.divideReturn n } :=
  ⟨_, _, s.freeStatus, ⟨rfl, rfl, rfl⟩, rfl⟩

theorem exec_divRm_traps {w : Width} {rm : RM} {s : State}
    (h : s.readRM w rm = 0 ∨ 2 ^ w.bits ≤ (s.dividend w).toNat / (s.readRM w rm).toNat) :
    exec (.divRm w rm) s = exec (.intType 0) (s.divideFaulted w (encode (.divRm w rm)).length) :=
  if_pos ((s.divTraps_iff w rm).mpr (h.imp (fun h => by rw [h]; cases w <;> rfl) id))

theorem exec_idivRm_traps {w : Width} {rm : RM} {s : State}
    (h : s.readRM w rm = 0 ∨ (s.idivRange w).2 < (s.signedDividend w).tdiv (s.readRM w rm).toInt ∨
      (s.signedDividend w).tdiv (s.readRM w rm).toInt < (s.idivRange w).1) :
    exec (.idivRm w rm) s = exec (.intType 0) (s.divideFaulted w (encode (.idivRm w rm)).length) :=
  if_pos ((s.idivTraps_iff w rm).mpr (h.imp (fun h => by rw [h]; cases w <;> rfl) Or.symm))

/-- Settles O22: where the test of the model holds, the machine is the faulted one, and it takes type 0. -/
theorem divideError : Obligations.DivideError := by
  rintro rm s ret min8 min16 hret rfl rfl
  have hret' : ret = s.divideReturn := funext fun n => (hret n).trans (s.divideReturn_eq n).symm
  subst hret'
  rw [← LeastQuotient.byte_eq, ← LeastQuotient.word_eq]
  refine ⟨fun h => ?_, fun h => ?_, fun h => ?_, fun h => ?_⟩
  · obtain ⟨x, f, hf, e⟩ := s.divideFaulted_byte (encode (.divRm .byte rm)).length
    rw [← dividend_byte_toNat] at h
    exact ⟨x, f, hf, e ▸ exec_divRm_traps h⟩
  · obtain ⟨x, y, f, hf, e⟩ := s.divideFaulted_word (encode (.divRm .word rm)).length
    exact ⟨x, y, f, hf, e ▸ exec_divRm_traps h⟩
  · obtain ⟨x, f, hf, e⟩ := s.divideFaulted_byte (encode (.idivRm .byte rm)).length
    exact ⟨x, f, hf, e ▸ exec_idivRm_traps h⟩
  · obtain ⟨x, y, f, hf, e⟩ := s.divideFaulted_word (encode (.idivRm .word rm)).length
    exact ⟨x, y, f, hf, e ▸ exec_idivRm_traps h⟩

/-! ## AAM, AAD -/

theorem ofNat_byte_toNat {n : Nat} (h : n < 256) : (BitVec.ofNat 8 n).toNat = n := by
  rw [BitVec.toNat_ofNat]
  exact Nat.mod_eq_of_lt h

/-- Settles O23. -/
theorem aamAadForms : Obligations.AamAadForms := by
  intro s
  have hal := (s.regs.get8 .ax).isLt
  refine ⟨⟨_, _, _, rfl, rfl, ofNat_byte_toNat (by omega), ofNat_byte_toNat (by omega), ?_, ⟨rfl, rfl, rfl⟩, rfl⟩,
    ⟨_, _, rfl, rfl, ?_, ?_, ⟨rfl, rfl, rfl⟩, rfl⟩⟩
  · exact s.flags.setSZP_result _
  · simp [BitVec.toNat_add, BitVec.toNat_mul]
  · exact s.flags.setSZP_result (s.regs.get8 .sp * 10 + s.regs.get8 .ax)

/-! ## AAA, AAS, DAA, DAS -/

/-- The condition of the low-digit adjust (R164, R165, R174, R175). -/
theorem lowDigitAdjusts_iff (al : Byte) (af : Bool) : lowDigitAdjusts al af = true ↔ 9 < al.toNat % 16 ∨ af = true := by
  rw [lowDigitAdjusts, Bool.or_eq_true, decide_eq_true_eq]

theorem lowDigitAdjusts_eq {al : Byte} {af adj : Bool} (h : adj = true ↔ 9 < al.toNat % 16 ∨ af = true) :
    lowDigitAdjusts al af = adj := by
  rw [Bool.eq_iff_iff, h, lowDigitAdjusts_iff]

theorem lowDigit_toNat (x : Byte) : (x &&& 0x0F).toNat = x.toNat % 16 := by
  rw [BitVec.toNat_and]
  exact Nat.and_two_pow_sub_one_eq_mod x.toNat 4

/-- Settles O24. -/
theorem asciiAdjustForms : Obligations.AsciiAdjustForms := by
  intro s adj hadj
  have e := lowDigitAdjusts_eq hadj
  have hal := (s.regs.get8 .ax).isLt
  have hah := (s.regs.get8 .sp).isLt
  refine ⟨⟨_, _, _, rfl, rfl, ?_, fun h => ?_, e, e, ⟨rfl, rfl, rfl⟩, rfl⟩,
    ⟨_, _, _, rfl, rfl, ?_, fun h => ?_, e, e, ⟨rfl, rfl, rfl⟩, rfl⟩⟩
  · rw [e, lowDigit_toNat]
    cases adj <;> simp [BitVec.toNat_add]
  · rw [e]
    cases adj with
    | false => exact (Nat.mod_eq_of_lt hah).symm
    | true =>
      have hlt : ¬ 0xFA ≤ (s.regs.get8 .ax).toNat := by simpa using h
      simp only [if_true, if_neg hlt, BitVec.toNat_add]
      rfl
  · rw [e, lowDigit_toNat]
    cases adj <;> simp [BitVec.toNat_sub]
    omega
  · rw [e]
    cases adj with
    | false => simp only [Bool.false_eq_true, if_false, Bool.toNat_false]; omega
    | true =>
      have hlt : ¬ (s.regs.get8 .ax).toNat < 6 := by simpa using h
      simp only [if_true, if_neg hlt, BitVec.toNat_sub]
      show _ = (_ + 256 - 1) % 256
      simp
      omega

/-- Everything the second adjust of DAA and DAS does; AL and CF are those of the rule when the state can come from
packed BCD bytes, or when the oldest published algorithm agrees (D31). -/
theorem State.decimalSecond_written (s : State) (bcd : Bool) (al al1 al2 : Byte) (adj : Bool) :
    ∃ v, RegWritten .byte .ax v s.regs (s.decimalSecond bcd al al1 al2 adj).regs ∧
      ResultFlags 8 v.toNat (s.decimalSecond bcd al al1 al2 adj).flags ∧
      (s.decimalSecond bcd al al1 al2 adj).flags.af = adj ∧
      ControlKept s.flags (s.decimalSecond bcd al al1 al2 adj).flags ∧
      s.decimalSecond bcd al al1 al2 adj =
        { s with regs := (s.decimalSecond bcd al al1 al2 adj).regs,
                 flags := (s.decimalSecond bcd al al1 al2 adj).flags } ∧
      ∀ high : Bool, (high = true ↔ 0x99 < al.toNat ∨ s.flags.cf = true) →
        (bcd = true ∨ (high = true ↔ 0x9F < al1.toNat ∨ s.flags.cf = true)) →
        (s.decimalSecond bcd al al1 al2 adj).flags.cf = high ∧ v = if high = true then al2 else al1 := by
  refine ⟨_, s.writeReg_regWritten .byte .ax _, s.flags.setSZP_result _, rfl, ⟨rfl, rfl, rfl⟩, rfl,
    fun high hrule hsettled => ?_⟩
  have e : (decide (0x99 < al.toNat) || s.flags.cf) = high := by
    rw [Bool.eq_iff_iff, hrule, Bool.or_eq_true, decide_eq_true_eq]
  have e' : (bcd || high == (decide (0x9F < al1.toNat) || s.flags.cf)) = true := by
    rcases hsettled with h | h
    · rw [h]; rfl
    · rw [Bool.or_eq_true, beq_iff_eq, Bool.eq_iff_iff (a := high), h, Bool.or_eq_true, decide_eq_true_eq]
      exact .inr Iff.rfl
  unfold State.decimalSecond
  dsimp only
  rw [e, e']
  exact ⟨rfl, rfl⟩

section
variable {s : State} {adj : Bool} (h : lowDigitAdjusts (s.regs.get8 .ax) s.flags.af = adj)
include h

theorem exec_daa : exec .daa s = .next (s.decimalSecond (bcdSum (s.regs.get8 .ax) s.flags.cf s.flags.af)
    (s.regs.get8 .ax) (if adj = true then s.regs.get8 .ax + 6 else s.regs.get8 .ax)
    ((if adj = true then s.regs.get8 .ax + 6 else s.regs.get8 .ax) + 0x60) adj) := by subst h; rfl

theorem exec_das : exec .das s = .next (s.decimalSecond (bcdDifference (s.regs.get8 .ax) s.flags.cf s.flags.af)
    (s.regs.get8 .ax) (if adj = true then s.regs.get8 .ax - 6 else s.regs.get8 .ax)
    ((if adj = true then s.regs.get8 .ax - 6 else s.regs.get8 .ax) - 0x60) adj) := by subst h; rfl

end

theorem ite_add_toNat (c : Bool) (x y : Byte) :
    (if c = true then x + y else x).toNat = (x.toNat + y.toNat * c.toNat) % 256 := by
  cases c
  · exact (Nat.mod_eq_of_lt x.isLt).symm
  · simp [BitVec.toNat_add]

theorem ite_sub_toNat (c : Bool) (x y : Byte) :
    (if c = true then x - y else x).toNat = (x.toNat + 256 - y.toNat * c.toNat) % 256 := by
  have := x.isLt
  have := y.isLt
  cases c <;> simp [BitVec.toNat_sub] <;> omega

/-- Settles O25. -/
theorem decimalAdjustForms : Obligations.DecimalAdjustForms := by
  rintro s adj al rfl hadj
  have e := lowDigitAdjusts_eq hadj
  constructor
  · rw [exec_daa e]
    obtain ⟨v, hreg, hres, haf, hctl, heq, hv⟩ := s.decimalSecond_written _ _ _ _ adj
    refine ⟨_, v, rfl, hreg, hres, haf, hctl, heq, fun al1 high hal1 hrule hold => ?_⟩
    have h1 := (ite_add_toNat adj (s.regs.get8 .ax) 6).trans hal1.symm
    obtain ⟨hcf, rfl⟩ := hv high hrule (.inr (by rw [h1]; exact hold))
    exact ⟨hcf, (ite_add_toNat high _ 0x60).trans (by rw [h1]; rfl)⟩
  · rw [exec_das e]
    obtain ⟨v, hreg, hres, haf, hctl, heq, hv⟩ := s.decimalSecond_written _ _ _ _ adj
    refine ⟨_, v, rfl, hreg, hres, haf, hctl, heq, fun al1 high hal1 hrule hold => ?_⟩
    have h1 := (ite_sub_toNat adj (s.regs.get8 .ax) 6).trans hal1.symm
    obtain ⟨hcf, rfl⟩ := hv high hrule (.inr (by rw [h1]; exact hold))
    exact ⟨hcf, (ite_sub_toNat high _ 0x60).trans (by rw [h1]; rfl)⟩

/-! ## Packed BCD

The bytes have the digits `xh xl` and `yh yl`; `r`, CF and AF are the binary sum or difference and its carries. -/

section
variable {xh xl yh yl c : Nat} {r : Byte} {cf af adj high : Bool} (hx : xh < 10 ∧ xl < 10) (hy : yh < 10 ∧ yl < 10)
  (hc : c ≤ 1)
include hx hy hc

theorem bcdSum_of_digits (hr : r.toNat = (xh * 16 + xl + (yh * 16 + yl) + c) % 256)
    (hcf : cf = true ↔ 256 ≤ xh * 16 + xl + (yh * 16 + yl) + c) (haf : af = true ↔ 16 ≤ xl + yl + c) :
    bcdSum r cf af = true := by
  simp only [bcdSum]
  cases cf <;> cases af <;> simp at hcf haf ⊢ <;> omega

theorem sum_digits (hr : r.toNat = (xh * 16 + xl + (yh * 16 + yl) + c) % 256)
    (hcf : cf = true ↔ 256 ≤ xh * 16 + xl + (yh * 16 + yl) + c) (haf : af = true ↔ 16 ≤ xl + yl + c)
    (hadj : adj = true ↔ 9 < r.toNat % 16 ∨ af = true) (hhigh : high = true ↔ 0x99 < r.toNat ∨ cf = true) :
    ∃ zh zl, ((r.toNat + 6 * adj.toNat) % 256 + 0x60 * high.toNat) % 256 = zh * 16 + zl ∧ zh < 10 ∧ zl < 10 ∧
      zh * 10 + zl + 100 * high.toNat = xh * 10 + xl + (yh * 10 + yl) + c := by
  have hsum : r.toNat + 256 * cf.toNat = xh * 16 + xl + (yh * 16 + yl) + c := by
    cases cf <;> simp at hcf ⊢ <;> omega
  have hlow : r.toNat % 16 + 16 * af.toNat = xl + yl + c := by
    cases af <;> simp at haf ⊢ <;> omega
  have hadj' : adj = true ↔ 10 ≤ xl + yl + c := by
    rw [hadj]; cases af <;> simp at haf hlow ⊢ <;> omega
  have hhigh' : high = true ↔ 10 ≤ xh + yh + adj.toNat := by
    rw [hhigh]; cases adj <;> cases cf <;> simp at hadj' hcf ⊢ <;> omega
  refine ⟨xh + yh + adj.toNat - 10 * high.toNat, xl + yl + c - 10 * adj.toNat, ?_⟩
  clear hcf haf hadj hhigh hlow
  cases adj <;> cases high <;> simp at hadj' hhigh' ⊢ <;> omega

theorem bcdDifference_of_digits (hr : r.toNat = (512 + (xh * 16 + xl) - (yh * 16 + yl) - c) % 256)
    (hcf : cf = true ↔ xh * 16 + xl < yh * 16 + yl + c) (haf : af = true ↔ xl < yl + c) :
    bcdDifference r cf af = true := by
  simp only [bcdDifference]
  cases cf <;> cases af <;> simp at hcf haf ⊢ <;> omega

theorem difference_digits (hr : r.toNat = (512 + (xh * 16 + xl) - (yh * 16 + yl) - c) % 256)
    (hcf : cf = true ↔ xh * 16 + xl < yh * 16 + yl + c) (haf : af = true ↔ xl < yl + c)
    (hadj : adj = true ↔ 9 < r.toNat % 16 ∨ af = true) (hhigh : high = true ↔ 0x99 < r.toNat ∨ cf = true) :
    ∃ zh zl, ((r.toNat + 256 - 6 * adj.toNat) % 256 + 256 - 0x60 * high.toNat) % 256 = zh * 16 + zl ∧ zh < 10 ∧
      zl < 10 ∧ xh * 10 + xl + 100 * high.toNat = zh * 10 + zl + (yh * 10 + yl) + c := by
  have hdiff : r.toNat + (yh * 16 + yl) + c = xh * 16 + xl + 256 * cf.toNat := by
    cases cf <;> simp at hcf ⊢ <;> omega
  have hlow : r.toNat % 16 + yl + c = xl + 16 * af.toNat := by
    cases af <;> simp at haf ⊢ <;> omega
  have hadj' : adj = true ↔ xl < yl + c := by
    rw [hadj]; cases af <;> simp at haf hlow ⊢ <;> omega
  have hhigh' : high = true ↔ xh < yh + adj.toNat := by
    rw [hhigh]; cases adj <;> cases cf <;> simp at hadj' hcf ⊢ <;> omega
  refine ⟨xh + 10 * high.toNat - yh - adj.toNat, xl + 10 * adj.toNat - yl - c, ?_⟩
  clear hcf haf hadj hhigh hlow
  cases adj <;> cases high <;> simp at hadj' hhigh' ⊢ <;> omega

end

/-- What ADC of an immediate to AL leaves, as DAA reads it. -/
theorem adc_left {s t : State} {b : Byte} (h : exec (.adcAccImm .byte b) s = .next t) :
    (t.regs.get8 .ax).toNat = ((s.regs.get8 .ax).toNat + b.toNat + s.flags.cf.toNat) % 256 ∧
      AddFlags (s.regs.get8 .ax) b s.flags.cf s.flags t.flags := by
  cases h
  exact ⟨(congrArg BitVec.toNat (Regs.get8_set8_same _ .ax _)).trans (addResult_toNat (.inl rfl) _ _ _),
    s.flags.ofAdd_flags (.inl rfl) _ _ _⟩

/-- What SBB of an immediate from AL leaves, as DAS reads it. -/
theorem sbb_left {s t : State} {b : Byte} (h : exec (.sbbAccImm .byte b) s = .next t) :
    (t.regs.get8 .ax).toNat = (512 + (s.regs.get8 .ax).toNat - b.toNat - s.flags.cf.toNat) % 256 ∧
      SubFlags (s.regs.get8 .ax) b s.flags.cf s.flags t.flags := by
  cases h
  exact ⟨(congrArg BitVec.toNat (Regs.get8_set8_same _ .ax _)).trans (subResult_toNat (.inl rfl) _ _ _),
    s.flags.ofSub_flags (.inl rfl) _ _ _⟩

/-- Settles O26: the rule is exact where packed BCD bytes were added or subtracted. -/
theorem packedBcd : Obligations.PackedBcd := by
  intro s t b x y ha hb hx hy
  have hc := Bool.toNat_le s.flags.cf
  have dx : x / 10 < 10 ∧ x % 10 < 10 := by omega
  have dy : y / 10 < 10 ∧ y % 10 < 10 := by omega
  have hadj := lowDigitAdjusts_iff (t.regs.get8 .ax) t.flags.af
  have hhigh : (decide (0x99 < (t.regs.get8 .ax).toNat) || t.flags.cf) = true ↔
      0x99 < (t.regs.get8 .ax).toNat ∨ t.flags.cf = true := by rw [Bool.or_eq_true, decide_eq_true_eq]
  refine ⟨fun h => ?_, fun h => ?_⟩
  · obtain ⟨hr, ⟨-, -, haf, -⟩, hcf⟩ := adc_left h
    rw [ha, hb] at hr hcf haf
    replace haf : t.flags.af = true ↔ 16 ≤ x % 10 + y % 10 + s.flags.cf.toNat := by rw [haf]; omega
    obtain ⟨v, hreg, -, -, -, -, hv⟩ := t.decimalSecond_written _ _ _ _ (lowDigitAdjusts (t.regs.get8 .ax) t.flags.af)
    obtain ⟨hcf', rfl⟩ := hv _ hhigh (.inl (bcdSum_of_digits dx dy hc hr hcf haf))
    obtain ⟨zh, zl, hz, hzh, hzl, hsum⟩ := sum_digits dx dy hc hr hcf haf hadj hhigh
    refine ⟨_, zh * 10 + zl, exec_daa rfl, ?_, by omega, by rw [hcf']; omega⟩
    rw [hreg.1, ite_add_toNat, ite_add_toNat]
    exact hz.trans (by omega)
  · obtain ⟨hr, ⟨-, -, haf, -⟩, hcf⟩ := sbb_left h
    rw [ha, hb] at hr hcf haf
    replace haf : t.flags.af = true ↔ x % 10 < y % 10 + s.flags.cf.toNat := by rw [haf]; omega
    obtain ⟨v, hreg, -, -, -, -, hv⟩ := t.decimalSecond_written _ _ _ _ (lowDigitAdjusts (t.regs.get8 .ax) t.flags.af)
    obtain ⟨hcf', rfl⟩ := hv _ hhigh (.inl (bcdDifference_of_digits dx dy hc hr hcf haf))
    obtain ⟨zh, zl, hz, hzh, hzl, hsum⟩ := difference_digits dx dy hc hr hcf haf hadj hhigh
    refine ⟨_, zh * 10 + zl, exec_das rfl, ?_, by omega, by rw [hcf']; omega⟩
    rw [hreg.1, ite_sub_toNat, ite_sub_toNat]
    exact hz.trans (by omega)

end Sys2Proof.Machine
end

section
/-! Proofs about the logic, shift and rotate instructions (`spec/42_logic.md`): each shift is followed from one step of
R202 to R208 to any count by induction on the count. -/

namespace Sys2Proof.Machine

/-! ## AND, OR, XOR, TEST, NOT -/

section
variable (w : Width) (dst : RM) (v : BitVec w.bits) (s : State)

/-- Flags and destination of a logic operation. -/
theorem logicTo_written :
    LogicTo w dst v s (.next ({ s with flags := s.flags.ofLogic (s.freeFlag 4) v }.writeRM w dst v)) :=
  ⟨_, _, rfl, s.flags.ofLogic_flags _ v, State.writeRM_dest _ w dst v⟩

theorem logicTests_written : LogicTests v s (.next { s with flags := s.flags.ofLogic (s.freeFlag 4) v }) :=
  ⟨_, rfl, s.flags.ofLogic_flags _ v, rfl⟩

end

/-- Settles O28: every form is one logic operation into its destination. -/
theorem logicForms : Obligations.LogicForms := by
  intro w reg rm imm s
  exact ⟨logicTo_written w rm _ s, logicTo_written w (.reg reg) _ s, logicTo_written w rm _ s,
    logicTo_written w (.reg .ax) _ s, logicTo_written w rm _ s, logicTo_written w (.reg reg) _ s,
    logicTo_written w rm _ s, logicTo_written w (.reg .ax) _ s, logicTo_written w rm _ s,
    logicTo_written w (.reg reg) _ s, logicTo_written w rm _ s, logicTo_written w (.reg .ax) _ s,
    logicTests_written w _ s, logicTests_written w _ s, logicTests_written w _ s,
    ⟨_, _, rfl, BitVec.toNat_not, s.writeRM_dest w rm _⟩⟩

/-! ## The instructions on their operand -/

theorem shiftRM_zero (op : ShiftOp) {c : ShiftCount} (w : Width) (rm : RM) {s : State} (h : s.shiftCount c = 0) :
    shiftRM op c w rm s = s := if_pos h

/-- A shift by a count of at least one: flags and destination. -/
theorem shiftRM_dest (op : ShiftOp) {c : ShiftCount} (w : Width) (rm : RM) {s : State} (h : 1 ≤ s.shiftCount c) :
    DestWritten w rm (op.iter (s.shiftCount c) (s.readRM w rm) s.flags.cf).1
      { s with
        flags := op.flags (s.freeFlag 11) (s.freeFlag 4) s.flags (s.shiftCount c) (s.readRM w rm)
          (op.iter (s.shiftCount c) (s.readRM w rm) s.flags.cf).1
          (op.iter (s.shiftCount c) (s.readRM w rm) s.flags.cf).2 } (shiftRM op c w rm s) := by
  rw [shiftRM, if_neg (by omega)]
  exact State.writeRM_dest _ w rm _

theorem two_le_bits (w : Width) : 2 ≤ w.bits := by cases w <;> decide

/-! ## SHL, SHR, SAR by any count -/

section
variable {n : Nat} (x : BitVec n) (cf : Bool) (k : Nat)

theorem shl_iter : (ShiftOp.shl.iter k x cf).1 = x <<< k := by
  induction k with
  | zero => simp [ShiftOp.iter_zero]
  | succ k ih => rw [ShiftOp.iter_succ', ShiftOp.step1, ih, BitVec.shiftLeft_add]

theorem shr_iter : (ShiftOp.shr.iter k x cf).1 = x >>> k := by
  induction k with
  | zero => simp [ShiftOp.iter_zero]
  | succ k ih => rw [ShiftOp.iter_succ', ShiftOp.step1, ih, BitVec.shiftRight_add]

/-- One step of SAR keeps the sign. -/
theorem sar_step (hn : 2 ≤ n) : x >>> 1 ||| bitAt x.msb (n - 1) = x.sshiftRight 1 := by
  ext i hi
  simp only [bitAt, BitVec.getElem_or, BitVec.getElem_ushiftRight, BitVec.getElem_sshiftRight,
    BitVec.getElem_shiftLeft, BitVec.getElem_setWidth, BitVec.getLsbD_ofBool]
  by_cases h : i = n - 1
  · subst h
    simp [show ¬ 1 + (n - 1) < n by omega, BitVec.getLsbD_of_ge x (1 + (n - 1)) (by omega)]
  · have h1 : i < n - 1 := by omega
    have h2 : 1 + i < n := by omega
    simp [h1, h2]

theorem sar_iter (hn : 2 ≤ n) : (ShiftOp.sar.iter k x cf).1 = x.sshiftRight k := by
  induction k with
  | zero => simp [ShiftOp.iter_zero]
  | succ k ih => rw [ShiftOp.iter_succ', ShiftOp.step1, ih, BitVec.sshiftRight_add, sar_step _ hn]

/-- CF behind SHL is the bit that left last. -/
theorem shl_carry (hn : 2 ≤ n) (hk : 1 ≤ k) :
    (ShiftOp.shl.iter k x cf).2 = (decide (k ≤ n) && x.toNat.testBit (n - k)) := by
  obtain ⟨k, rfl⟩ : ∃ j, k = j + 1 := ⟨k - 1, by omega⟩
  rw [ShiftOp.iter_succ', ShiftOp.step1, shl_iter, BitVec.msb_eq_getLsbD_last, BitVec.getLsbD_shiftLeft,
    ← BitVec.testBit_toNat]
  by_cases h : k + 1 ≤ n
  · simp [h, show n - 1 < n by omega, show ¬ n - 1 < k by omega, show n - 1 - k = n - (k + 1) by omega]
  · simp [h, show n - 1 < k by omega]

theorem shr_carry (hk : 1 ≤ k) : (ShiftOp.shr.iter k x cf).2 = x.toNat.testBit (k - 1) := by
  obtain ⟨k, rfl⟩ : ∃ j, k = j + 1 := ⟨k - 1, by omega⟩
  rw [ShiftOp.iter_succ', ShiftOp.step1, shr_iter, BitVec.getLsbD_ushiftRight, BitVec.testBit_toNat]
  rfl

theorem getLsbD_zero_iff (hn : n = 8 ∨ n = 16) : x.getLsbD 0 = true ↔ x.toInt % 2 = 1 := by
  rw [← BitVec.testBit_toNat, Nat.testBit_zero, decide_eq_true_eq]
  rcases toInt_cases x with ⟨-, h⟩ | ⟨-, h⟩ <;> rw [h] <;> rcases hn with rfl | rfl <;> omega

theorem sar_carry (hn : n = 8 ∨ n = 16) (hk : 1 ≤ k) :
    (ShiftOp.sar.iter k x cf).2 = true ↔ x.toInt / 2 ^ (k - 1) % 2 = 1 := by
  obtain ⟨k, rfl⟩ : ∃ j, k = j + 1 := ⟨k - 1, by omega⟩
  rw [ShiftOp.iter_succ', ShiftOp.step1, sar_iter x cf k (by omega), getLsbD_zero_iff _ hn, BitVec.toInt_sshiftRight,
    Int.shiftRight_eq_div_pow]
  simp

end

/-- Settles O29. -/
theorem shiftForms : Obligations.ShiftForms := by
  rintro c w rm s k _ _ hk rfl rfl
  obtain rfl : k = s.shiftCount c := by rw [hk]; cases c <;> rfl
  refine ⟨fun h => ?_, fun h => ⟨?_, ?_, ?_⟩⟩
  · exact ⟨congrArg Host.Outcome.next (shiftRM_zero .shl w rm h), congrArg Host.Outcome.next (shiftRM_zero .shr w rm h),
      congrArg Host.Outcome.next (shiftRM_zero .sar w rm h)⟩
  · refine ⟨_, _, _, rfl, ?_, ?_, fun h1 => ?_, ?_, ?_, shiftRM_dest .shl w rm h⟩
    · rw [shl_iter, BitVec.toNat_shiftLeft, Nat.shiftLeft_eq]
    · exact shl_carry _ _ _ (two_le_bits w) h
    · exact (if_pos h1).trans (congrFun (congrFun Bool.bne_eq_xor.symm _) _)
    · exact s.flags.setSZP_result _
    · exact ⟨rfl, rfl, rfl⟩
  · refine ⟨_, _, _, rfl, ?_, ?_, fun h1 => ?_, ?_, ?_, shiftRM_dest .shr w rm h⟩
    · rw [shr_iter, BitVec.toNat_ushiftRight, Nat.shiftRight_eq_div_pow]
    · exact shr_carry _ _ _ h
    · exact if_pos h1
    · exact s.flags.setSZP_result _
    · exact ⟨rfl, rfl, rfl⟩
  · refine ⟨_, _, _, rfl, ?_, ?_, fun h1 => ?_, ?_, ?_, shiftRM_dest .sar w rm h⟩
    · rw [sar_iter _ _ _ (two_le_bits w), BitVec.toInt_sshiftRight, Int.shiftRight_eq_div_pow]
      simp
    · exact sar_carry _ _ _ (width_bits_cases w) h
    · exact if_pos h1
    · exact s.flags.setSZP_result _
    · exact ⟨rfl, rfl, rfl⟩

/-! ## Rotations by any count -/

theorem succ_mod_cases {n : Nat} (hn : 2 ≤ n) (k : Nat) :
    (k + 1) % n = k % n + 1 ∧ k % n + 1 < n ∨ (k + 1) % n = 0 ∧ k % n + 1 = n := by
  have hlt := Nat.mod_lt k (show n > 0 by omega)
  have h := Nat.mod_add_mod k n 1
  by_cases e : k % n + 1 < n
  · exact .inl ⟨by rw [← h, Nat.mod_eq_of_lt e], e⟩
  · have e' : k % n + 1 = n := by omega
    exact .inr ⟨by rw [← h, e', Nat.mod_self], e'⟩

section
variable {n : Nat} (x : BitVec n) (cf : Bool) (k : Nat) (hn : 2 ≤ n)
include hn

theorem rotateLeft_succ : x.rotateLeft (k + 1) = (x.rotateLeft k).rotateLeft 1 := by
  ext i hi
  have h1 : 1 % n = 1 := Nat.mod_eq_of_lt (by omega)
  simp only [BitVec.getElem_rotateLeft, h1]
  rcases succ_mod_cases hn k with ⟨e, hlt⟩ | ⟨e, hlt⟩ <;> simp only [e] <;> grind

theorem rotateRight_succ : x.rotateRight (k + 1) = (x.rotateRight k).rotateRight 1 := by
  ext i hi
  have h1 : 1 % n = 1 := Nat.mod_eq_of_lt (by omega)
  simp only [BitVec.getElem_rotateRight, h1]
  rcases succ_mod_cases hn k with ⟨e, hlt⟩ | ⟨e, hlt⟩ <;> simp only [e] <;> grind

/-- One step of ROL: every bit moves up by one, and the last goes round to bit 0 and CF. -/
theorem rol_step : x <<< 1 ||| bitAt x.msb 0 = x.rotateLeft 1 := by
  ext i hi
  have h1 : 1 % n = 1 := Nat.mod_eq_of_lt (by omega)
  simp only [bitAt, BitVec.getElem_or, BitVec.getElem_rotateLeft, BitVec.getElem_shiftLeft, BitVec.getElem_setWidth,
    BitVec.getLsbD_ofBool, h1, BitVec.msb_eq_getLsbD_last]
  grind

theorem ror_step : x >>> 1 ||| bitAt (x.getLsbD 0) (n - 1) = x.rotateRight 1 := by
  ext i hi
  have h1 : 1 % n = 1 := Nat.mod_eq_of_lt (by omega)
  simp only [bitAt, BitVec.getElem_or, BitVec.getElem_rotateRight, BitVec.getElem_shiftLeft, BitVec.getElem_setWidth,
    BitVec.getElem_ushiftRight, BitVec.getLsbD_ofBool, h1]
  grind

theorem rotateLeft_one_bit : (x.rotateLeft 1).getLsbD 0 = x.msb := by
  have h1 : 1 % n = 1 := Nat.mod_eq_of_lt (by omega)
  rw [BitVec.getLsbD_rotateLeft, h1, BitVec.msb_eq_getLsbD_last]
  rfl

theorem rotateRight_one_msb : (x.rotateRight 1).msb = x.getLsbD 0 := by
  have h1 : 1 % n = 1 := Nat.mod_eq_of_lt (by omega)
  rw [BitVec.msb_eq_getLsbD_last, BitVec.getLsbD_rotateRight, h1]
  simp [show n - 1 < n by omega]

omit hn in
theorem rotate_zero : x.rotateLeft 0 = x ∧ x.rotateRight 0 = x := by
  constructor <;> ext i hi
  · simp [BitVec.getElem_rotateLeft]
  · simp [BitVec.getElem_rotateRight, hi]

theorem rol_iter : (ShiftOp.rol.iter k x cf).1 = x.rotateLeft k := by
  induction k with
  | zero => simp [ShiftOp.iter_zero, rotate_zero x]
  | succ k ih => rw [ShiftOp.iter_succ', ShiftOp.step1, ih, rotateLeft_succ x k hn, rol_step _ hn]

theorem ror_iter : (ShiftOp.ror.iter k x cf).1 = x.rotateRight k := by
  induction k with
  | zero => simp [ShiftOp.iter_zero, rotate_zero x]
  | succ k ih => rw [ShiftOp.iter_succ', ShiftOp.step1, ih, rotateRight_succ x k hn, ror_step _ hn]

theorem rol_carry (hk : 1 ≤ k) : (ShiftOp.rol.iter k x cf).2 = (x.rotateLeft k).getLsbD 0 := by
  obtain ⟨k, rfl⟩ : ∃ j, k = j + 1 := ⟨k - 1, by omega⟩
  rw [ShiftOp.iter_succ', ShiftOp.step1, rol_iter x cf k hn, rotateLeft_succ x k hn, rotateLeft_one_bit _ hn]

theorem ror_carry (hk : 1 ≤ k) : (ShiftOp.ror.iter k x cf).2 = (x.rotateRight k).msb := by
  obtain ⟨k, rfl⟩ : ∃ j, k = j + 1 := ⟨k - 1, by omega⟩
  rw [ShiftOp.iter_succ', ShiftOp.step1, ror_iter x cf k hn, rotateRight_succ x k hn, rotateRight_one_msb _ hn]

/-- One step of RCL is one rotation of the ring of CF above the operand. -/
theorem rcl_step : BitVec.ofBool x.msb ++ (x <<< 1 ||| bitAt cf 0) = (BitVec.ofBool cf ++ x).rotateLeft 1 := by
  ext i hi
  have h1 : 1 % (1 + n) = 1 := Nat.mod_eq_of_lt (by omega)
  simp only [bitAt, BitVec.getElem_append, BitVec.getElem_or, BitVec.getElem_rotateLeft, BitVec.getElem_shiftLeft,
    BitVec.getElem_setWidth, BitVec.getLsbD_ofBool, BitVec.getElem_ofBool, h1, BitVec.msb_eq_getLsbD_last]
  grind

theorem rcr_step :
    BitVec.ofBool (x.getLsbD 0) ++ (x >>> 1 ||| bitAt cf (n - 1)) = (BitVec.ofBool cf ++ x).rotateRight 1 := by
  ext i hi
  have h1 : 1 % (1 + n) = 1 := Nat.mod_eq_of_lt (by omega)
  simp only [bitAt, BitVec.getElem_append, BitVec.getElem_or, BitVec.getElem_rotateRight, BitVec.getElem_shiftLeft,
    BitVec.getElem_setWidth, BitVec.getElem_ushiftRight, BitVec.getLsbD_ofBool, BitVec.getElem_ofBool, h1]
  rcases lt_trichotomy i (n - 1) with h | rfl | h
  · simp [h, show i < n by omega, show 1 + i < n by omega]
  · simp [show n - 1 < n by omega, BitVec.getLsbD_of_ge x (1 + (n - 1)) (by omega), show ¬ 1 + (n - 1) < n by omega]
  · obtain rfl : i = n := by omega
    simp [show 0 < i by omega]

theorem rcl_iter :
    BitVec.ofBool (ShiftOp.rcl.iter k x cf).2 ++ (ShiftOp.rcl.iter k x cf).1 =
      (BitVec.ofBool cf ++ x).rotateLeft k := by
  induction k with
  | zero => simp [ShiftOp.iter_zero, rotate_zero (BitVec.ofBool cf ++ x)]
  | succ k ih => rw [ShiftOp.iter_succ', ShiftOp.step1, rotateLeft_succ _ k (by omega), ← ih, rcl_step _ _ hn]

theorem rcr_iter :
    BitVec.ofBool (ShiftOp.rcr.iter k x cf).2 ++ (ShiftOp.rcr.iter k x cf).1 =
      (BitVec.ofBool cf ++ x).rotateRight k := by
  induction k with
  | zero => simp [ShiftOp.iter_zero, rotate_zero (BitVec.ofBool cf ++ x)]
  | succ k ih => rw [ShiftOp.iter_succ', ShiftOp.step1, rotateRight_succ _ k (by omega), ← ih, rcr_step _ _ hn]

end

/-- Settles O30. -/
theorem rotateForms : Obligations.RotateForms := by
  rintro c w rm s k _ _ hk rfl rfl
  obtain rfl : k = s.shiftCount c := by rw [hk]; cases c <;> rfl
  have hn := two_le_bits w
  refine ⟨fun h => ⟨congrArg Host.Outcome.next (shiftRM_zero .rol w rm h),
    congrArg Host.Outcome.next (shiftRM_zero .ror w rm h)⟩, fun h => ⟨?_, ?_⟩⟩
  · have hd := shiftRM_dest .rol w rm h
    rw [rol_iter _ _ _ hn, rol_carry _ _ _ hn h] at hd
    refine ⟨_, _, rfl, fun h1 => ?_, hd⟩
    exact (if_pos h1).trans (congrFun (congrFun Bool.bne_eq_xor.symm _) _)
  · have hd := shiftRM_dest .ror w rm h
    rw [ror_iter _ _ _ hn, ror_carry _ _ _ hn h] at hd
    refine ⟨_, _, rfl, fun h1 => ?_, hd⟩
    exact (if_pos h1).trans (congrFun (congrFun Bool.bne_eq_xor.symm _) _)

/-- Settles O31. -/
theorem rotateCarryForms : Obligations.RotateCarryForms := by
  rintro c w rm s k _ _ hk rfl rfl
  obtain rfl : k = s.shiftCount c := by rw [hk]; cases c <;> rfl
  have hn := two_le_bits w
  refine ⟨fun h => ⟨congrArg Host.Outcome.next (shiftRM_zero .rcl w rm h),
    congrArg Host.Outcome.next (shiftRM_zero .rcr w rm h)⟩, fun h => ⟨?_, ?_⟩⟩
  · refine ⟨_, _, _, _, rfl, rcl_iter _ s.flags.cf _ hn, fun h1 => ?_, shiftRM_dest .rcl w rm h⟩
    exact (if_pos h1).trans (congrFun (congrFun Bool.bne_eq_xor.symm _) _)
  · refine ⟨_, _, _, _, rfl, rcr_iter _ s.flags.cf _ hn, fun h1 => ?_, shiftRM_dest .rcr w rm h⟩
    exact (if_pos h1).trans (congrFun (congrFun Bool.bne_eq_xor.symm _) _)

end Sys2Proof.Machine
end

section
/-! Proofs about control transfer and interrupt entries (`spec/44_control_transfer.md`, `spec/60_exceptions.md`). -/

namespace Sys2Proof.Machine

/-! ## Words on the stack -/

/-- Two offsets of one segment are two bytes of memory. -/
theorem phys_ne (s : Word) {a b : Word} (h : a ≠ b) : phys s a ≠ phys s b := by
  intro e
  have h1 := congrArg BitVec.toNat e
  rw [phys_toNat, phys_toNat] at h1
  have := a.isLt
  have := b.isLt
  exact h (BitVec.eq_of_toNat_eq (by omega))

/-- A push leaves every word of the stack segment that lies clear of the one it stores. -/
theorem State.lreadWord_push (s : State) (v o : Word) (h : o ≠ s.regs.sp - 2 ∧ o ≠ s.regs.sp - 1)
    (h' : o + 1 ≠ s.regs.sp - 2 ∧ o + 1 ≠ s.regs.sp - 1) :
    (s.push v).lreadWord s.sregs.ss o = s.lreadWord s.sregs.ss o := by
  have byte : ∀ x : Word, x ≠ s.regs.sp - 2 ∧ x ≠ s.regs.sp - 1 →
      (s.push v).lreadByte s.sregs.ss x = s.lreadByte s.sregs.ss x := by
    intro x hx
    have hc := s.push_cell v (phys s.sregs.ss x) (by
      rintro k (rfl | rfl)
      · exact phys_ne _ hx.2
      · exact phys_ne _ hx.1)
    rw [State.lreadByte, State.readByte, hc]
    rfl
  rw [State.lreadWord, byte o h, byte _ h']
  rfl

/-- The word that was on top is the next one behind a pop of what was pushed on it. -/
theorem State.next_top (s : State) (v : Word) : ((s.push v).addSp 2).top = s.top := by
  have e : s.regs.sp - 2 + 2 = s.regs.sp := by bv_omega
  show (s.push v).lreadWord s.sregs.ss (s.regs.sp - 2 + 2) = _
  rw [e]
  exact s.lreadWord_push v _ ⟨by bv_omega, by bv_omega⟩ ⟨by bv_omega, by bv_omega⟩

/-- The word below the top is two pops away behind a push. -/
theorem State.third_top (s : State) (v : Word) : (((s.push v).addSp 2).addSp 2).top = (s.addSp 2).top := by
  have e : s.regs.sp - 2 + 2 + 2 = s.regs.sp + 2 := by bv_omega
  show (s.push v).lreadWord s.sregs.ss (s.regs.sp - 2 + 2 + 2) = _
  rw [e]
  exact s.lreadWord_push v _ ⟨by bv_omega, by bv_omega⟩ ⟨by bv_omega, by bv_omega⟩

/-! ## Jumps, calls and returns -/

/-- Settles O35: each jump is the exact next state of its rule. -/
theorem jumpForms : Obligations.JumpForms := fun _ _ _ _ _ _ _ => ⟨rfl, rfl, rfl, rfl, rfl⟩

/-- Settles O36: the operand was read before the push. -/
theorem callForms : Obligations.CallForms := by
  intro d rm off seg m s
  exact ⟨⟨_, rfl, s.push_pushed s.ip⟩, ⟨_, rfl, s.push_pushed s.ip⟩,
    ⟨_, _, rfl, s.push_pushed s.sregs.cs, (s.push s.sregs.cs).push_pushed s.ip⟩,
    ⟨_, _, rfl, s.push_pushed s.sregs.cs, (s.push s.sregs.cs).push_pushed s.ip⟩⟩

/-- What an intersegment return leaves: two words popped. -/
theorem State.returnFar_eq (s : State) :
    s.returnFar =
      { s with
        ip := s.lreadWord s.sregs.ss s.regs.sp
        sregs := { s.sregs with cs := s.lreadWord s.sregs.ss (s.regs.sp + 2) }
        regs := { s.regs with sp := s.regs.sp + 4 }
        queue := [] } := by
  have e : s.regs.sp + 2 + 2 = s.regs.sp + 4 := by bv_omega
  rw [← e]
  rfl

/-- Settles O37. -/
theorem returnForms : Obligations.ReturnForms := by
  rintro k s _ _ rfl rfl
  refine ⟨rfl, rfl, congrArg Host.Outcome.next s.returnFar_eq, congrArg Host.Outcome.next ?_⟩
  rw [s.returnFar_eq]
  rfl

/-- Settles O38: the return pops what the call pushed. -/
theorem callReturnRoundTrip : Obligations.CallReturnRoundTrip := by
  intro d off seg s t
  refine ⟨fun h => ?_, fun h => ?_⟩
  · cases h
    exact ⟨_, rfl, s.top_push s.ip, s.push_addSp_regs s.ip, rfl, rfl⟩
  · cases h
    have hcs : (((s.push s.sregs.cs).push s.ip).addSp 2).top = s.sregs.cs :=
      ((s.push s.sregs.cs).next_top s.ip).trans (s.top_push s.sregs.cs)
    refine ⟨_, rfl, (s.push s.sregs.cs).top_push s.ip, ?_, ?_, rfl⟩
    · have e : s.regs.sp - 2 - 2 + 2 + 2 = s.regs.sp := by bv_omega
      show { s.regs with sp := s.regs.sp - 2 - 2 + 2 + 2 } = s.regs
      rw [e]
    · exact congrArg (fun c => { s.sregs with cs := c }) hcs

/-! ## Jumps behind CMP -/

/-- The flags of a comparison tell how the operands compare, unsigned by CF and signed by SF against OF. -/
theorem SubFlags.order {n : Nat} (hn : n = 8 ∨ n = 16) {a b : BitVec n} {f f' : Flags} (h : SubFlags a b false f f') :
    (f'.zf = true ↔ a = b) ∧ (f'.cf = true ↔ a.toNat < b.toNat) ∧ (f'.sf ≠ f'.ofl ↔ a.toInt < b.toInt) := by
  obtain ⟨⟨⟨hz, hs, -⟩, ho, -, -⟩, hc⟩ := h
  have ha := a.isLt
  have hb := b.isLt
  refine ⟨?_, by simpa using hc, ?_⟩
  · rw [hz, decide_eq_true_eq, ← BitVec.toNat_inj, Bool.toNat_false]
    rcases hn with rfl | rfl <;> omega
  · rw [Bool.toNat_false, Nat.sub_zero] at hs
    rw [ne_eq, Bool.eq_iff_iff, ho, hs, decide_eq_true_eq, Bool.toNat_false, OutOfRange]
    clear hc ho hs hz
    rcases toInt_cases a with ⟨ma, ea⟩ | ⟨ma, ea⟩ <;> rcases toInt_cases b with ⟨mb, eb⟩ | ⟨mb, eb⟩ <;>
      have msa := msb_iff a <;> have msb := msb_iff b <;> rw [ma] at msa <;> rw [mb] at msb <;> rw [ea, eb] <;>
      rcases hn with rfl | rfl <;> simp at ha hb msa msb ⊢ <;> omega

theorem jumpIf_next {c : Bool} {p : Prop} [Decidable p] (h : c = true ↔ p) (d : Byte) (s : State) :
    (.next (jumpIf c d s) : Out) = .next (if p then { s with ip := s.ip + d.signExtend 16, queue := [] } else s) :=
  congrArg Host.Outcome.next (jumpIf_eq_ite h d s)

/-- Settles O41. -/
theorem compareThenJump : Obligations.CompareThenJump := by
  rintro w reg rm d s t a b _ rfl rfl h rfl
  have hf : SubFlags (s.readRM w rm) (s.readReg w reg) false s.flags t.flags := by
    cases h
    exact s.flags.ofSub_flags (width_bits_cases w) _ _ false
  obtain ⟨hz, hc, hl⟩ := hf.order (width_bits_cases w)
  generalize s.readRM w rm = a at *
  generalize s.readReg w reg = b at *
  have heq : a = b ↔ a.toNat = b.toNat := BitVec.toNat_inj.symm
  have heq' : a = b ↔ a.toInt = b.toInt := BitVec.toInt_inj.symm
  refine ⟨jumpIf_next hz d t, jumpIf_next hc d t, jumpIf_next ?jbe d t, jumpIf_next ?jl d t, jumpIf_next ?jle d t,
    jumpIf_next ?jne d t, jumpIf_next ?jnb d t, jumpIf_next ?jnbe d t, jumpIf_next ?jnl d t, jumpIf_next ?jnle d t⟩
  case jbe => rw [Bool.or_eq_true, hc, hz, heq]; omega
  case jl => rw [bne_iff_ne, hl]
  case jle => rw [Bool.or_eq_true, bne_iff_ne, hl, hz, heq']; omega
  case jne => rw [Bool.not_eq_true', ← Bool.not_eq_true, hz]
  case jnb => rw [Bool.not_eq_true', ← Bool.not_eq_true, hc]; omega
  case jnbe =>
    rw [Bool.and_eq_true, Bool.not_eq_true', Bool.not_eq_true', ← Bool.not_eq_true, ← Bool.not_eq_true, hc, hz, heq]
    omega
  case jnl => rw [beq_iff_eq, ← not_ne_iff (a := t.flags.sf), hl]; omega
  case jnle => rw [Bool.and_eq_true, Bool.not_eq_true', ← Bool.not_eq_true, beq_iff_eq,
    ← not_ne_iff (a := t.flags.sf), hl, hz, heq']; omega

/-! ## Interrupt entries and IRET -/

theorem vectorAddr_toNat (n : Byte) {k : Nat} (h : k < 4) : (vectorAddr n k).toNat = 4 * n.toNat + k := by
  have := n.isLt
  rw [vectorAddr, BitVec.toNat_ofNat]
  omega

/-- The pushes of an entry that do not overlap the element leave its bytes as they were, so they are read as written. -/
theorem State.pushFrame_vector {n : Byte} {s : State} (hready : VectorReady n s)
    (hclear : ¬ StackOnVector n s) {k : Nat}
    (hk : k < 4) : s.cell (vectorAddr n k) = some (s.tick.pushFrame.readByte (vectorAddr n k)) := by
  obtain ⟨b, hb⟩ := Option.isSome_iff_exists.mp (hready k hk)
  have hcell : s.tick.pushFrame.cell (vectorAddr n k) = s.cell (vectorAddr n k) :=
    s.tick.pushFrame_cell _ fun j h1 h6 e =>
      hclear ⟨j, h1, h6, k, hk, (congrArg BitVec.toNat e.symm).trans (vectorAddr_toNat n hk)⟩
  have hb' : s.cell (vectorAddr n k) = some b := hb
  rw [State.readByte_of_cell (hcell.trans hb'), hb']

/-- An entry whose element is written and clear of the stack completes with the sequence of R386. -/
theorem interrupt_entered {n : Byte} {s : State} (hready : VectorReady n s) (hclear : ¬ StackOnVector n s) :
    ∃ u, interrupt n s = .next u ∧ Entered n s u := by
  have h1 : ¬ s.stackHitsVector n = true := by rwa [State.stackHitsVector_iff]
  have h2 : s.vectorWritten n = true := by rwa [State.vectorWritten_iff]
  refine ⟨_, (if_neg h1).trans (if_pos h2), s.tick.flagsImage, _, _, _, _, _, Flags.ofImage_flagsImage s.tick,
    s.tick.push_pushed _, State.push_pushed _ s.sregs.cs, State.push_pushed _ s.ip, ?_, ?_, ?_, ?_, rfl⟩
  · exact (State.pushFrame_vector hready hclear (k := 0) (by decide)).trans (congrArg some (wordLo_leWord _ _).symm)
  · exact (State.pushFrame_vector hready hclear (k := 1) (by decide)).trans (congrArg some (wordHi_leWord _ _).symm)
  · exact (State.pushFrame_vector hready hclear (k := 2) (by decide)).trans (congrArg some (wordLo_leWord _ _).symm)
  · exact (State.pushFrame_vector hready hclear (k := 3) (by decide)).trans (congrArg some (wordHi_leWord _ _).symm)

/-- Settles O43. -/
theorem interruptEntry : Obligations.InterruptEntry := by
  intro n s
  refine ⟨interrupt_entered, interrupt_entered, fun h hr hc => ?_, fun h => if_neg (by rw [h]; decide)⟩
  rw [show exec .into s = interrupt 4 s from if_pos h]
  exact interrupt_entered hr hc

/-- Settles O44. -/
theorem interruptRefusals : Obligations.InterruptRefusals := by
  intro n s
  rw [← State.stackHitsVector_iff, ← State.vectorWritten_iff]
  exact ⟨fun h => if_pos h, fun h h' => (if_neg h).trans (if_neg h')⟩

theorem State.returnInterrupt_regs (s : State) :
    s.returnInterrupt.regs = { s.regs with sp := s.regs.sp + 2 + 2 + 2 } := rfl

/-- The three words an entry pushed, from the top: IP, CS and FLAGS. -/
theorem State.pushFrame_words (s : State) :
    s.pushFrame.top = s.ip ∧ (s.pushFrame.addSp 2).top = s.sregs.cs ∧
      ((s.pushFrame.addSp 2).addSp 2).top = s.flagsImage := by
  have flags : ({ s.push s.flagsImage with flags := { s.flags with ifl := false, tf := false } } : State).top =
      s.flagsImage := s.top_push s.flagsImage
  exact ⟨State.top_push _ s.ip, (State.next_top _ s.ip).trans (State.top_push _ s.sregs.cs),
    (State.third_top _ s.ip).trans ((State.next_top _ s.sregs.cs).trans flags)⟩

/-- Settles O45: behind an entry the three words on the stack are those it pushed. -/
theorem interruptReturn : Obligations.InterruptReturn := by
  refine ⟨?_, fun n s t h => ?_⟩
  · rintro s _ rfl
    have e : s.regs.sp + 2 + 2 + 2 = s.regs.sp + 6 ∧ s.regs.sp + 2 + 2 = s.regs.sp + 4 := ⟨by bv_omega, by bv_omega⟩
    rw [← e.1, ← e.2]
    exact ⟨_, rfl, rfl, rfl, rfl, rfl, rfl, rfl, rfl, rfl, rfl, rfl⟩
  · have hregs := (interrupt_frame h).2.2.2.1
    obtain ⟨-, -, rfl⟩ := interrupt_next h
    obtain ⟨hip, hcs, himg⟩ := s.tick.pushFrame_words
    refine ⟨_, rfl, hip, ?_, ?_, ?_⟩
    · exact congrArg (fun c => { s.sregs with cs := c }) hcs
    · have e : s.regs.sp - 2 - 2 - 2 + 2 + 2 + 2 = s.regs.sp := by bv_omega
      rw [State.returnInterrupt_regs, hregs, e]
    · exact (congrArg Flags.ofImage himg).trans (Flags.ofImage_flagsImage s.tick)

end Sys2Proof.Machine
end

section
/-! Proofs about the string primitives, processor control and prefixes (`spec/43_string.md`,
`spec/45_processor_control.md`), and about what only some instructions write (`spec/10_state.md`). -/

namespace Sys2Proof.Machine

/-! ## String primitives -/

theorem repeated_of_none (c : Bool) (i : Instr) (once : State → State) {s : State} (h : s.pfx.rep = none) :
    repeated c i once s = once s := by
  unfold repeated
  rw [h]

theorem State.stringStep_eq (s : State) (w : Width) :
    s.stringStep w = if s.flags.df then 0 - BitVec.ofNat 16 (w.bits / 8) else BitVec.ofNat 16 (w.bits / 8) := by
  unfold State.stringStep
  cases w <;> cases s.flags.df <;> rfl

section
variable (w : Width) (s : State)

theorem movsOnce_eq :
    movsOnce w s = { s with
      mem := (s.lwrite w s.sregs.es s.regs.di (s.sourceElement w)).mem
      regs := { s.regs with si := s.regs.si + s.stringStep w, di := s.regs.di + s.stringStep w } } := by
  cases w <;> rfl

theorem stosOnce_eq :
    stosOnce w s = { s with
      mem := (s.lwrite w s.sregs.es s.regs.di (s.readReg w .ax)).mem
      regs := { s.regs with di := s.regs.di + s.stringStep w } } := by
  cases w <;> rfl

theorem lodsOnce_eq :
    lodsOnce w s = { s with
      regs := { (s.writeReg w .ax (s.sourceElement w)).regs with si := s.regs.si + s.stringStep w } } := by
  cases w <;> rfl

end

theorem next_once {c : Bool} {i : Instr} {once : State → State} {s : State} (h : s.pfx.rep = none) :
    (.next (repeated c i once s) : Out) = .next (once s) := congrArg Host.Outcome.next (repeated_of_none c i once h)

/-- Settles O32. -/
theorem stringOnce : Obligations.StringOnce := by
  intro w s sz src hrep hsz hsrc
  obtain rfl : sz = s.stringStep w := hsz.trans (s.stringStep_eq w).symm
  obtain rfl : src = s.segOf .ds := by
    rw [hsrc, State.segOf]
    cases s.pfx.seg <;> rfl
  refine ⟨⟨_, next_once hrep, ?_, movsOnce_eq w s⟩, ⟨_, s.draws + 1, _, next_once hrep, rfl, ?_, rfl⟩,
    ⟨_, next_once hrep, ?_, rfl⟩, ⟨_, _, next_once hrep, s.writeReg_regWritten w .ax _, lodsOnce_eq w s⟩,
    ⟨_, next_once hrep, ?_, stosOnce_eq w s⟩⟩
  · rw [movsOnce_eq]
    exact s.lwrite_stored w _ _ _
  · exact s.flags.ofSub_flags (width_bits_cases w) _ _ false
  · exact s.flags.ofSub_flags (width_bits_cases w) _ _ false
  · rw [stosOnce_eq]
    exact s.lwrite_stored w _ _ _

/-! ## REP -/

/-- The primitive as it runs without REP. -/
def State.withoutRep (s : State) : State := { s with pfx := { s.pfx with rep := none } }

/-- A meaning that neither looks at REP nor changes CX or IP. -/
def IgnoresRep (once : State → State) : Prop :=
  ∀ s : State, once s = { once s.withoutRep with pfx := s.pfx } ∧ (once s).regs.cx = s.regs.cx ∧ (once s).ip = s.ip

theorem movsOnce_ignoresRep (w : Width) : IgnoresRep (movsOnce w) := by
  intro s
  cases w <;> exact ⟨rfl, rfl, rfl⟩

theorem cmpsOnce_ignoresRep (w : Width) : IgnoresRep (cmpsOnce w) := by
  intro s
  cases w <;> exact ⟨rfl, rfl, rfl⟩

theorem scasOnce_ignoresRep (w : Width) : IgnoresRep (scasOnce w) := by
  intro s
  cases w <;> exact ⟨rfl, rfl, rfl⟩

theorem lodsOnce_ignoresRep (w : Width) : IgnoresRep (lodsOnce w) := by
  intro s
  cases w <;> exact ⟨rfl, rfl, rfl⟩

theorem stosOnce_ignoresRep (w : Width) : IgnoresRep (stosOnce w) := by
  intro s
  cases w <;> exact ⟨rfl, rfl, rfl⟩

section
variable {compares : Bool} {i : Instr} {once : State → State} {s : State} {z : Bool} (hrep : s.pfx.rep = some z)
include hrep

theorem repeated_of_zero (hcx : s.regs.cx = 0) : repeated compares i once s = s := by
  unfold repeated
  rw [hrep]
  exact if_pos hcx

/-- One pass of the loop of R231 with CX not 0. -/
theorem repeated_of_pos (hcx : s.regs.cx ≠ 0) :
    repeated compares i once s =
      if compares && (once s).flags.zf != z then (once s).decCx else (once s).decCx.repeatAgain i := by
  unfold repeated
  rw [hrep]
  exact if_neg hcx

end

/-- What R231 says of one pass, for a primitive that runs `once` and whose ZF can end the loop as `compares` says. -/
theorem pass_of_repeated {p : Prop} {compares : Bool} {i : Instr} {once : State → State} {s : State} {z : Bool}
    (hi : ∀ t, exec i t = .next (repeated compares i once t)) (honce : IgnoresRep once) (hp : compares = true ↔ p)
    (hrep : s.pfx.rep = some z) :
    (s.regs.cx = 0 → exec i s = .next s) ∧
    (s.regs.cx ≠ 0 → ∃ u v, exec i { s with pfx := { s.pfx with rep := none } } = .next u ∧
      v = { u with pfx := s.pfx, regs := { u.regs with cx := s.regs.cx - 1 } } ∧
      (p ∧ u.flags.zf ≠ z → exec i s = .next v) ∧
      (¬ (p ∧ u.flags.zf ≠ z) → exec i s = .next { v with ip := s.ip - 1, cont := some i })) := by
  obtain ⟨heq, hcx, hip⟩ := honce s
  refine ⟨fun h => by rw [hi, repeated_of_zero hrep h], fun h => ⟨once s.withoutRep, _, ?_, rfl, ?_, ?_⟩⟩
  · exact (hi s.withoutRep).trans (next_once rfl)
  all_goals
    intro hend
    have hzf : (once s).flags.zf = (once s.withoutRep).flags.zf := congrArg (fun t => t.flags.zf) heq
    have hdec : (once s).decCx =
        { once s.withoutRep with
          pfx := s.pfx, regs := { (once s.withoutRep).regs with cx := s.regs.cx - 1 } } := by
      rw [State.decCx, hcx, heq]
    rw [hi, repeated_of_pos hrep h, hzf, hdec]
  · rw [if_pos (by rw [Bool.and_eq_true, hp, bne_iff_ne]; exact hend)]
  · rw [if_neg (by rw [Bool.and_eq_true, hp, bne_iff_ne]; exact hend), State.repeatAgain]
    have hip' : (once s.withoutRep).ip = s.ip := (congrArg State.ip heq).symm.trans hip
    rw [hip']

/-- Settles O33. -/
theorem repIteration : Obligations.RepIteration := by
  rintro w z s i hrep (rfl | rfl | rfl | rfl | rfl)
  · exact pass_of_repeated (fun _ => rfl) (movsOnce_ignoresRep w) (by simp) hrep
  · exact pass_of_repeated (fun _ => rfl) (cmpsOnce_ignoresRep w) (by simp) hrep
  · exact pass_of_repeated (fun _ => rfl) (scasOnce_ignoresRep w) (by simp) hrep
  · exact pass_of_repeated (fun _ => rfl) (lodsOnce_ignoresRep w) (by simp) hrep
  · exact pass_of_repeated (fun _ => rfl) (stosOnce_ignoresRep w) (by simp) hrep

/-! ## Flag instructions, HLT, WAIT, ESC, prefixes -/

/-- Settles O46. -/
theorem flagInstructions : Obligations.FlagInstructions :=
  fun _ _ => ⟨rfl, rfl, rfl, rfl, rfl, rfl, rfl, rfl, rfl, rfl, rfl, rfl, rfl, rfl⟩

/-- Settles O47. -/
theorem haltWaitEscape : Obligations.HaltWaitEscape := by
  intro hi lo rm s
  refine ⟨rfl, fun h => if_neg (by rw [h]; decide), fun h => if_pos h, ?_⟩
  cases rm <;> rfl

/-- Settles O48: each prefix is refused exactly when one of its kind pends. -/
theorem prefixForms : Obligations.PrefixForms := by
  intro z sr s
  refine ⟨fun h => if_neg ?_, fun h => if_pos ?_, fun h => if_neg ?_, fun h => if_pos h, fun h => if_neg ?_,
    fun h => if_pos ?_⟩
  · simp [h]
  · exact Option.isSome_iff_ne_none.mpr h
  · simp [h]
  · simp [h]
  · exact Option.isSome_iff_ne_none.mpr h

end Sys2Proof.Machine
end

section
/-! Proofs about what only some instructions write: segment registers, TF, IF, DF and the I/O space
(`spec/10_state.md`, `spec/20_memory.md`). -/

namespace Sys2Proof.Machine

/-- From `s` to `t` TF, IF, DF and the I/O space are as before. -/
structure ControlAndPortsKept (s t : State) : Prop where
  tf : t.flags.tf = s.flags.tf
  ifl : t.flags.ifl = s.flags.ifl
  df : t.flags.df = s.flags.df
  ioIn : t.ioIn = s.ioIn
  ioOut : t.ioOut = s.ioOut

/-- From `s` to `t` the segment registers are as before too. -/
structure DataOnly (s t : State) : Prop extends ControlAndPortsKept s t where
  sregs : t.sregs = s.sregs

theorem DataOnly.refl (s : State) : DataOnly s s := ⟨⟨rfl, rfl, rfl, rfl, rfl⟩, rfl⟩

theorem ControlAndPortsKept.trans {s t u : State} (h : ControlAndPortsKept s t) (h' : ControlAndPortsKept t u) :
    ControlAndPortsKept s u :=
  ⟨h'.tf.trans h.tf, h'.ifl.trans h.ifl, h'.df.trans h.df, h'.ioIn.trans h.ioIn, h'.ioOut.trans h.ioOut⟩

theorem DataOnly.trans {s t u : State} (h : DataOnly s t) (h' : DataOnly t u) : DataOnly s u :=
  ⟨h.toControlAndPortsKept.trans h'.toControlAndPortsKept, h'.sregs.trans h.sregs⟩

section
variable {s t : State} {a b c d e f : Prop}

theorem DataOnly.only (h : DataOnly s t) :
    (t.sregs ≠ s.sregs → a) ∧ (t.flags.tf ≠ s.flags.tf → b) ∧ (t.flags.ifl ≠ s.flags.ifl → c) ∧
      (t.flags.df ≠ s.flags.df → d) ∧ (t.ioIn ≠ s.ioIn → e) ∧ (t.ioOut ≠ s.ioOut → f) :=
  ⟨absurd h.sregs, absurd h.tf, absurd h.ifl, absurd h.df, absurd h.ioIn, absurd h.ioOut⟩

theorem ControlAndPortsKept.only (h : ControlAndPortsKept s t) (ha : a) :
    (t.sregs ≠ s.sregs → a) ∧ (t.flags.tf ≠ s.flags.tf → b) ∧ (t.flags.ifl ≠ s.flags.ifl → c) ∧
      (t.flags.df ≠ s.flags.df → d) ∧ (t.ioIn ≠ s.ioIn → e) ∧ (t.ioOut ≠ s.ioOut → f) :=
  ⟨fun _ => ha, absurd h.tf, absurd h.ifl, absurd h.df, absurd h.ioIn, absurd h.ioOut⟩

/-- An interrupt entry behind data only clears TF and IF. -/
theorem DataOnly.entry {n : Byte} {u : State} (h : DataOnly s u) (hn : interrupt n u = .next t) (ha : a)
    (hb : t.flags.tf = false → b) (hc : t.flags.ifl = false → c) :
    (t.sregs ≠ s.sregs → a) ∧ (t.flags.tf ≠ s.flags.tf → b) ∧ (t.flags.ifl ≠ s.flags.ifl → c) ∧
      (t.flags.df ≠ s.flags.df → d) ∧ (t.ioIn ≠ s.ioIn → e) ∧ (t.ioOut ≠ s.ioOut → f) := by
  obtain ⟨-, -, hf, -, -, -, -, -, -, -, -, -, -, hin, hout⟩ := interrupt_frame hn
  rw [hf] at hb hc ⊢
  exact ⟨fun _ => ha, fun _ => hb rfl, fun _ => hc rfl, absurd h.df, absurd (hin.trans h.ioIn),
    absurd (hout.trans h.ioOut)⟩

end

/-! ## The shared operations -/

theorem State.lwrite_data (s : State) (w : Width) (seg o : Word) (v : BitVec w.bits) :
    DataOnly s (s.lwrite w seg o v) := by cases w <;> exact ⟨⟨rfl, rfl, rfl, rfl, rfl⟩, rfl⟩

theorem State.writeReg_data (s : State) (w : Width) (r : RegField) (v : BitVec w.bits) :
    DataOnly s (s.writeReg w r v) := by cases w <;> exact ⟨⟨rfl, rfl, rfl, rfl, rfl⟩, rfl⟩

theorem State.writeRM_data (s : State) (w : Width) (rm : RM) (v : BitVec w.bits) : DataOnly s (s.writeRM w rm v) := by
  cases rm with
  | reg r => exact s.writeReg_data w r v
  | mem m => exact s.lwrite_data w _ _ v

theorem State.flags_data (s : State) {f : Flags} (h : ControlKept s.flags f) : DataOnly s { s with flags := f } :=
  ⟨⟨h.1, h.2.1, h.2.2, rfl, rfl⟩, rfl⟩

theorem AluOp.flags_control {n : Nat} (op : AluOp) (free : Bool) (f : Flags) (a b : BitVec n) :
    ControlKept f (op.flags free f a b) := by cases op <;> exact ⟨rfl, rfl, rfl⟩

theorem ShiftOp.flags_control {n : Nat} (op : ShiftOp) (freeOf freeAf : Bool) (f : Flags) (k : Nat) (x r : BitVec n)
    (cf : Bool) : ControlKept f (op.flags freeOf freeAf f k x r cf) := by cases op <;> exact ⟨rfl, rfl, rfl⟩

theorem aluApply_data (op : AluOp) (w : Width) (a b : BitVec w.bits) (wr : State → BitVec w.bits → State) (s : State)
    (h : ∀ s v, DataOnly s (wr s v)) : DataOnly s (aluApply op w a b wr s) := by
  have hf := s.flags_data (op.flags_control (s.freeFlag 4) s.flags a b)
  simp only [aluApply]
  split
  · exact hf.trans (h _ _)
  · exact hf

theorem aluRmReg_data (op : AluOp) (d : Dir) (w : Width) (reg : RegField) (rm : RM) (s : State) :
    DataOnly s (aluRmReg op d w reg rm s) := by
  cases d
  · exact aluApply_data _ _ _ _ _ _ fun s => s.writeRM_data w rm
  · exact aluApply_data _ _ _ _ _ _ fun s => s.writeReg_data w reg

theorem aluRmImm_data (op : AluOp) (w : Width) (rm : RM) (imm : BitVec w.bits) (s : State) :
    DataOnly s (aluRmImm op w rm imm s) := aluApply_data _ _ _ _ _ _ fun s => s.writeRM_data w rm

theorem aluAccImm_data (op : AluOp) (w : Width) (imm : BitVec w.bits) (s : State) :
    DataOnly s (aluAccImm op w imm s) := aluApply_data _ _ _ _ _ _ fun s => s.writeReg_data w .ax

theorem shiftRM_data (op : ShiftOp) (c : ShiftCount) (w : Width) (rm : RM) (s : State) :
    DataOnly s (shiftRM op c w rm s) := by
  simp only [shiftRM]
  split
  · exact .refl s
  · exact (s.flags_data (op.flags_control ..)).trans (State.writeRM_data _ _ _ _)

theorem incRM_data (w : Width) (rm : RM) (s : State) : DataOnly s (incRM w rm s) :=
  (s.flags_data (f := (s.flags.ofAdd (s.readRM w rm) 1 false).keepCf s.flags) ⟨rfl, rfl, rfl⟩).trans
    (State.writeRM_data _ w rm _)

theorem decRM_data (w : Width) (rm : RM) (s : State) : DataOnly s (decRM w rm s) :=
  (s.flags_data (f := (s.flags.ofSub (s.readRM w rm) 1 false).keepCf s.flags) ⟨rfl, rfl, rfl⟩).trans
    (State.writeRM_data _ w rm _)

theorem State.withProduct_data (s : State) (w : Width) (p : BitVec 32) (u : Bool) :
    DataOnly s (s.withProduct w p u) := by
  cases w <;> exact ⟨⟨rfl, rfl, rfl, rfl, rfl⟩, rfl⟩

theorem State.withQuotient_data (s : State) (w : Width) (q r : BitVec w.bits) : DataOnly s (s.withQuotient w q r) := by
  cases w <;> exact ⟨⟨rfl, rfl, rfl, rfl, rfl⟩, rfl⟩

theorem State.divideFaulted_data (s : State) (w : Width) (n : Nat) : DataOnly s (s.divideFaulted w n) := by
  cases w <;> exact ⟨⟨rfl, rfl, rfl, rfl, rfl⟩, rfl⟩

theorem jumpIf_data (c : Bool) (d : Byte) (s : State) : DataOnly s (jumpIf c d s) := by
  cases c <;> exact ⟨⟨rfl, rfl, rfl, rfl, rfl⟩, rfl⟩

theorem repeated_data {once : State → State} {s : State} (c : Bool) (i : Instr) (h : DataOnly s (once s)) :
    DataOnly s (repeated c i once s) := by
  simp only [repeated]
  split
  · exact h
  · split
    · exact .refl s
    · split <;> exact ⟨⟨h.tf, h.ifl, h.df, h.ioIn, h.ioOut⟩, h.sregs⟩

theorem movsOnce_data (w : Width) (s : State) : DataOnly s (movsOnce w s) := by
  cases w <;> exact ⟨⟨rfl, rfl, rfl, rfl, rfl⟩, rfl⟩

theorem cmpsOnce_data (w : Width) (s : State) : DataOnly s (cmpsOnce w s) := by
  cases w <;> exact ⟨⟨rfl, rfl, rfl, rfl, rfl⟩, rfl⟩

theorem scasOnce_data (w : Width) (s : State) : DataOnly s (scasOnce w s) := by
  cases w <;> exact ⟨⟨rfl, rfl, rfl, rfl, rfl⟩, rfl⟩

theorem lodsOnce_data (w : Width) (s : State) : DataOnly s (lodsOnce w s) := by
  cases w <;> exact ⟨⟨rfl, rfl, rfl, rfl, rfl⟩, rfl⟩

theorem stosOnce_data (w : Width) (s : State) : DataOnly s (stosOnce w s) := by
  cases w <;> exact ⟨⟨rfl, rfl, rfl, rfl, rfl⟩, rfl⟩

theorem State.push_data (s : State) (v : Word) : DataOnly s (s.push v) := ⟨⟨rfl, rfl, rfl, rfl, rfl⟩, rfl⟩

/-- Settles O58: every instruction outside the lists is made of operations that leave these parts alone. -/
theorem onlyTheseWrite : Obligations.OnlyTheseWrite := by
  intro i s t h
  cases i with
  | movRmReg d w reg rm =>
    cases d <;> cases h
    · exact (s.writeRM_data _ _ _).only
    · exact (s.writeReg_data _ _ _).only
  | movRmImm w rm imm => cases h; exact (s.writeRM_data _ _ _).only
  | movRegImm w reg imm => cases h; exact (s.writeReg_data _ _ _).only
  | movAccMem w addr => cases h; exact (s.writeReg_data _ _ _).only
  | movMemAcc w addr => cases h; exact (s.lwrite_data _ _ _ _).only
  | movSregRm sr rm =>
    cases sr <;> cases h <;> exact ControlAndPortsKept.only ⟨rfl, rfl, rfl, rfl, rfl⟩ (.inl ⟨_, _, rfl⟩)
  | movRmSreg sr rm => cases h; exact (s.writeRM_data _ _ _).only
  | pushRm _ | pushReg _ | pushSreg _ | pushf => cases h; exact (s.push_data _).only
  | popRm rm =>
    cases h
    exact (DataOnly.trans ⟨⟨rfl, rfl, rfl, rfl, rfl⟩, rfl⟩ ((s.addSp 2).writeRM_data .word rm s.top)).only
  | popSreg sr =>
    cases sr <;> cases h <;> exact ControlAndPortsKept.only ⟨rfl, rfl, rfl, rfl, rfl⟩ (.inr (.inl ⟨_, rfl⟩))
  | xchgRmReg w reg rm => cases h; exact ((s.writeRM_data _ _ _).trans (State.writeReg_data _ _ _ _)).only
  | lds r m => cases h; exact ControlAndPortsKept.only ⟨rfl, rfl, rfl, rfl, rfl⟩ (by simp)
  | les r m => cases h; exact ControlAndPortsKept.only ⟨rfl, rfl, rfl, rfl, rfl⟩ (by simp)
  | callFar _ _ | callFarMem _ | jmpFar _ _ | jmpFarMem _ | retf | retfImm _ =>
    cases h; exact ControlAndPortsKept.only ⟨rfl, rfl, rfl, rfl, rfl⟩ (by simp)
  | inFixed w p | inVar w =>
    cases h
    cases w <;> exact ⟨absurd rfl, absurd rfl, absurd rfl, absurd rfl, fun _ => by simp, absurd rfl⟩
  | outFixed w p | outVar w => cases h; cases w <;> simp
  | iret => cases h; exact ⟨by simp, by simp, by simp, by simp, absurd rfl, absurd rfl⟩
  | popf | cli | sti | cld | std => cases h; simp
  | addRmReg d w reg rm | adcRmReg d w reg rm | subRmReg d w reg rm | sbbRmReg d w reg rm | cmpRmReg d w reg rm
  | andRmReg d w reg rm | orRmReg d w reg rm | xorRmReg d w reg rm =>
    cases h; exact (aluRmReg_data _ _ _ _ _ s).only
  | testRmReg w reg rm => cases h; exact (aluRmReg_data _ _ _ _ _ s).only
  | addRmImm g rm | adcRmImm g rm | subRmImm g rm | sbbRmImm g rm | cmpRmImm g rm =>
    cases h; exact (aluRmImm_data _ _ _ _ s).only
  | andRmImm w rm imm | testRmImm w rm imm | orRmImm w rm imm | xorRmImm w rm imm =>
    cases h; exact (aluRmImm_data _ _ _ _ s).only
  | addAccImm w imm | adcAccImm w imm | subAccImm w imm | sbbAccImm w imm | cmpAccImm w imm | andAccImm w imm
  | testAccImm w imm | orAccImm w imm | xorAccImm w imm => cases h; exact (aluAccImm_data _ _ _ s).only
  | incRm w rm => cases h; exact (incRM_data w rm s).only
  | incReg reg => cases h; exact (incRM_data .word (.reg reg) s).only
  | decRm w rm => cases h; exact (decRM_data w rm s).only
  | decReg reg => cases h; exact (decRM_data .word (.reg reg) s).only
  | negRm w rm =>
    cases h
    exact ((s.flags_data (f := s.flags.ofSub 0 (s.readRM w rm) false) ⟨rfl, rfl, rfl⟩).trans
      (State.writeRM_data _ w rm _)).only
  | mulRm w rm | imulRm w rm => cases h; exact (s.withProduct_data _ _ _).only
  | divRm w rm =>
    simp only [exec, execDivRm] at h
    split at h
    · exact (s.divideFaulted_data _ _).entry h (by simp) (by simp) (by simp)
    · cases h; exact (s.withQuotient_data _ _ _).only
  | idivRm w rm =>
    simp only [exec, execIdivRm] at h
    split at h
    · exact (s.divideFaulted_data _ _).entry h (by simp) (by simp) (by simp)
    · cases h; exact (s.withQuotient_data _ _ _).only
  | notRm w rm => cases h; exact (s.writeRM_data _ _ _).only
  | shlRm c w rm | shrRm c w rm | sarRm c w rm | rolRm c w rm | rorRm c w rm | rclRm c w rm | rcrRm c w rm =>
    cases h; exact (shiftRM_data _ _ _ _ s).only
  | rep z =>
    simp only [exec, execRep] at h
    split at h <;> cases h
    exact DataOnly.only ⟨⟨rfl, rfl, rfl, rfl, rfl⟩, rfl⟩
  | lock =>
    simp only [exec, execLock] at h
    split at h <;> cases h
    exact DataOnly.only ⟨⟨rfl, rfl, rfl, rfl, rfl⟩, rfl⟩
  | segOverride sr =>
    simp only [exec, execSegOverride] at h
    split at h <;> cases h
    exact DataOnly.only ⟨⟨rfl, rfl, rfl, rfl, rfl⟩, rfl⟩
  | movs w => cases h; exact (repeated_data _ _ (movsOnce_data w s)).only
  | cmps w => cases h; exact (repeated_data _ _ (cmpsOnce_data w s)).only
  | scas w => cases h; exact (repeated_data _ _ (scasOnce_data w s)).only
  | lods w => cases h; exact (repeated_data _ _ (lodsOnce_data w s)).only
  | stos w => cases h; exact (repeated_data _ _ (stosOnce_data w s)).only
  | je _ | jl _ | jle _ | jb _ | jbe _ | jp _ | jo _ | js _ | jne _ | jnl _ | jnle _ | jnb _ | jnbe _ | jnp _ | jno _
  | jns _ | jcxz _ => cases h; exact (jumpIf_data _ _ s).only
  | loop _ | loopz _ | loopnz _ =>
    cases h; exact (DataOnly.trans ⟨⟨rfl, rfl, rfl, rfl, rfl⟩, rfl⟩ (jumpIf_data _ _ s.decCx)).only
  | intType n => exact (DataOnly.refl s).entry h (by simp) (by simp) (by simp)
  | int3 => exact (DataOnly.refl s).entry h (by simp) (by simp) (by simp)
  | into =>
    simp only [exec, execInto] at h
    split at h
    · exact (DataOnly.refl s).entry h (by simp) (by simp) (by simp)
    · cases h; exact (DataOnly.refl s).only
  | wait =>
    simp only [exec, execWait] at h
    split at h <;> cases h <;> exact DataOnly.only ⟨⟨rfl, rfl, rfl, rfl, rfl⟩, rfl⟩
  | esc hi lo rm => cases rm <;> cases h <;> exact (DataOnly.refl s).only
  | _ => cases h; exact DataOnly.only ⟨⟨rfl, rfl, rfl, rfl, rfl⟩, rfl⟩

end Sys2Proof.Machine
end

section
/-! Proofs about the recognition point that nothing disturbs: which entries it comes to, its order, the window of the
inhibit bit, and interrupts between iterations (`spec/60_exceptions.md`). -/

namespace Sys2Proof.Machine

/-! ## Entries at a recognition point -/

/-- The entries of the recognition point before a late edge: NMI or INTR, then the single-step trap. -/
def plainEntries (tf : Bool) (s : State) : Out := andThen (plainExternal s) (plainStep tf)

theorem plainBoundary_open {s : State} (h : s.inhibit = false) (tf : Bool) :
    plainBoundary tf s = andThen (plainEntries tf s) plainLate := by
  simp [plainBoundary, plainEntries, h]

/-- The recognition point finds NMI and takes it. -/
theorem plainExternal_nmi {s : State} (h : s.nmi = true) :
    plainExternal s = interrupt 2 { s.settle with nmi := false } := by simp [plainExternal, h]

theorem plainExternal_intr {s : State} (h : s.nmi = false) (hi : s.input.intr = true) (hf : s.flags.ifl = true) :
    plainExternal s = interrupt s.input.inta s.settle := by simp [plainExternal, h, hi, hf]

theorem plainExternal_none {s : State} (h : s.nmi = false) (hi : s.input.intr = false ∨ s.flags.ifl = false) :
    plainExternal s = .next s := by
  rcases hi with hi | hi <;> simp [plainExternal, h, hi]

/-- With no edge pending or arriving, the recognition point ends. -/
theorem plainLate_none {s : State} (h : s.nmi = false) (hl : s.input.nmiLate = false) : plainLate s = .next s := by
  simp [plainLate, hl, h]

/-- A late edge is entered from where an earlier entry went. -/
theorem plainLate_edge {s : State} (h : s.nmi = false) (hl : s.input.nmiLate = true) (hc : s.cont = none) :
    plainLate s = interrupt 2 s := by
  have e : ({ (s.latch true).settle with nmi := false } : State) = s := by
    rw [State.settle_of_none (s.latch true) hc, ← h]
    rfl
  have hn : (s.latch true).nmi = true := by simp [State.latch]
  simp only [plainLate, hl, hn, if_true, e]

/-- Behind an entry no late edge is pending when none was before it. -/
theorem interrupt_plainLate {n : Byte} {u : State} (h : u.nmi = false) (hl : u.input.nmiLate = false) :
    andThen (interrupt n u) plainLate = interrupt n u := by
  cases hu : interrupt n u with
  | next v =>
    obtain ⟨-, -, -, -, -, -, -, hn, hi, -⟩ := interrupt_frame hu
    exact plainLate_none (hn.trans h) (by rw [hi]; exact hl)
  | fault r => rfl
  | refused r => rfl

/-- The single-step trap behind an entry is entered from where that one went. -/
theorem interrupt_plainStep {n : Byte} {u : State} (h : u.cont = none) :
    andThen (interrupt n u) (plainStep true) = andThen (interrupt n u) (interrupt 1) := by
  cases hu : interrupt n u with
  | next v =>
    obtain ⟨-, -, -, -, -, hc, -⟩ := interrupt_frame hu
    simp only [andThen_of_next, plainStep, if_true, State.settle_of_none v (hc.trans h)]
  | fault r => rfl
  | refused r => rfl

/-- Two entries one behind the other leave no late edge pending when none was before them. -/
theorem interrupts_plainLate {n : Byte} {u : State} (h : u.nmi = false) (hl : u.input.nmiLate = false) :
    andThen (andThen (interrupt n u) (interrupt 1)) plainLate = andThen (interrupt n u) (interrupt 1) := by
  cases hu : interrupt n u with
  | next v =>
    obtain ⟨-, -, -, -, -, -, -, hn, hi, -⟩ := interrupt_frame hu
    exact interrupt_plainLate (hn.trans h) (by rw [hi]; exact hl)
  | fault r => rfl
  | refused r => rfl

theorem settle_nmi (s : State) : s.settle.nmi = s.nmi := by
  simp only [State.settle]
  split <;> rfl

/-- A recognition point that takes an external interrupt, and the single-step trap behind it when `tf` says so. -/
theorem silent_boundary_entry {s u : State} {n : Byte} (hc : s.calm = true) (hi : s.inhibit = false)
    (he : plainExternal s = interrupt n u) (hn : u.nmi = false) (hl : u.input.nmiLate = false) (hu : u.cont = none) :
    silent (boundary false s) = silent (exec (.intType n) u) ∧
    silent (boundary true s) = andThen (exec (.intType n) u) fun v => silent (exec (.intType 1) v) := by
  have hf : plainEntries false s = interrupt n u := (andThen_next_right _).trans he
  have ht : plainEntries true s = andThen (interrupt n u) (interrupt 1) := by
    rw [plainEntries, he, interrupt_plainStep hu]
  constructor
  · rw [silent_boundary hc, plainBoundary_open hi, hf, interrupt_plainLate hn hl]
    rfl
  · rw [silent_boundary hc, plainBoundary_open hi, ht, interrupts_plainLate hn hl]
    exact (andThen_silent (interrupt n u) (interrupt 1)).symm

/-- A recognition point at which nothing is pending does nothing. -/
theorem boundary_idle {s : State} (hc : s.cut = false) (hi : s.inhibit = false) (hl : s.input.nmiLate = false)
    (hn : s.nmi = false) (he : s.input.intr = false ∨ s.flags.ifl = false) : boundary false s = .next s := by
  have hx : recogniseExternal s = .next s := by
    rcases he with he | he <;> simp [recogniseExternal, hn, he]
  simp [boundary, hi, hx, unlessCut, hc, recogniseStep, recogniseLate, hl, hn]

/-- Nor does anything but the single-step trap come of it when the instruction began with TF = 1. -/
theorem silent_boundary_step {s : State} (hc : s.calm = true) (hi : s.inhibit = false) (hl : s.input.nmiLate = false)
    (hn : s.nmi = false) (he : s.input.intr = false ∨ s.flags.ifl = false) :
    silent (boundary true s) = silent (exec (.intType 1) s.settle) := by
  have ht : plainEntries true s = interrupt 1 s.settle := by
    rw [plainEntries, plainExternal_none hn he]; rfl
  obtain ⟨-, -, hin, -, -⟩ := settle_kept s
  rw [silent_boundary hc, plainBoundary_open hi, ht,
    interrupt_plainLate ((settle_nmi s).trans hn) (by rw [hin]; exact hl)]
  rfl

/-! ## A late edge -/

/-- The machine with another late edge of the environment. -/
def State.withLate (s : State) (b : Bool) : State := { s with input := { s.input with nmiLate := b } }

theorem State.settle_withLate (s : State) (b : Bool) : (s.withLate b).settle = s.settle.withLate b := by
  simp only [State.settle]
  show (if s.cont.isSome then _ else _) = _
  split <;> rfl

/-- No entry looks at the late edge. -/
theorem interrupt_withLate (n : Byte) (s : State) (b : Bool) :
    interrupt n (s.withLate b) = mapNext (·.withLate b) (interrupt n s) := by
  have e1 : (s.withLate b).stackHitsVector n = s.stackHitsVector n := rfl
  have e2 : (s.withLate b).vectorWritten n = s.vectorWritten n := rfl
  simp only [interrupt, e1, e2]
  split
  · rfl
  · split <;> rfl

theorem plainExternal_withLate (s : State) (b : Bool) :
    plainExternal (s.withLate b) = mapNext (·.withLate b) (plainExternal s) := by
  simp only [plainExternal, State.settle_withLate]
  show (if s.nmi then interrupt 2 (State.withLate { s.settle with nmi := false } b) else
    if s.input.intr && s.flags.ifl then interrupt s.input.inta (s.settle.withLate b) else _) = _
  split
  · exact interrupt_withLate _ _ _
  · split
    · exact interrupt_withLate _ _ _
    · rfl

theorem plainStep_withLate (tf : Bool) (s : State) (b : Bool) :
    plainStep tf (s.withLate b) = mapNext (·.withLate b) (plainStep tf s) := by
  simp only [plainStep, State.settle_withLate]
  split
  · exact interrupt_withLate _ _ _
  · rfl

theorem plainEntries_withLate (tf : Bool) (s : State) (b : Bool) :
    plainEntries tf (s.withLate b) = mapNext (·.withLate b) (plainEntries tf s) := by
  simp only [plainEntries, plainExternal_withLate]
  cases plainExternal s with
  | next u => exact plainStep_withLate tf u b
  | fault r => rfl
  | refused r => rfl

/-- The entries leave nothing pending, nothing in progress and the inputs as they are. -/
theorem plainEntries_next {tf : Bool} {s u : State} (hc : s.cont = none) (h : plainEntries tf s = .next u) :
    u.nmi = false ∧ u.cont = none ∧ u.input = s.input := by
  obtain ⟨v, h1, h2⟩ := andThen_next h
  have hv : v.nmi = false ∧ v.cont = none ∧ v.input = s.input := by
    simp only [plainExternal, State.settle_of_none s hc] at h1
    split at h1
    · obtain ⟨-, -, -, -, -, kc, -, kn, ki, -⟩ := interrupt_frame h1
      exact ⟨kn, kc.trans hc, ki⟩
    · next hn =>
      have hn : s.nmi = false := by simpa using hn
      split at h1
      · obtain ⟨-, -, -, -, -, kc, -, kn, ki, -⟩ := interrupt_frame h1
        exact ⟨kn.trans hn, kc.trans hc, ki⟩
      · cases h1; exact ⟨hn, hc, rfl⟩
  obtain ⟨hn, hvc, hi⟩ := hv
  simp only [plainStep, State.settle_of_none v hvc] at h2
  split at h2
  · obtain ⟨-, -, -, -, -, kc, -, kn, ki, -⟩ := interrupt_frame h2
    exact ⟨kn.trans hn, kc.trans hvc, ki.trans hi⟩
  · cases h2; exact ⟨hn, hvc, hi⟩

/-- The entry of a late edge, with the inputs of the step. -/
def lateEntry (s u : State) : Out := interrupt 2 { u with input := s.input }

theorem lateEntry_blind (s : State) : Blind (lateEntry s) := fun c q u =>
  interrupt_blind 2 c q { u with input := s.input }

/-- A recognition point with a late edge is one without it, and the entry of the edge behind it. -/
theorem plainBoundary_late {s : State} (hi : s.inhibit = false) (hl : s.input.nmiLate = true) (hc : s.cont = none)
    (tf : Bool) : plainBoundary tf s = andThen (plainBoundary tf (s.withLate false)) (lateEntry s) := by
  rw [plainBoundary_open hi, plainBoundary_open (s := s.withLate false) hi, plainEntries_withLate]
  cases h : plainEntries tf s with
  | fault r => rfl
  | refused r => rfl
  | next u =>
    obtain ⟨hn, huc, hui⟩ := plainEntries_next hc h
    have e : ({ u.withLate false with input := s.input } : State) = u := by rw [← hui]; rfl
    simp only [mapNext, andThen_of_next]
    rw [plainLate_edge hn (by rw [hui]; exact hl) huc, plainLate_none (s := u.withLate false) hn rfl, andThen_of_next,
      lateEntry, e]

/-- Settles O53. -/
theorem recognitionPoint : Obligations.RecognitionPoint := by
  intro tf s hc hcont
  have hs : s.settle = s := s.settle_of_none hcont
  refine ⟨fun hi => by simp [boundary, hi, State.latch],
    fun hi hl => ⟨fun hn => ?_, fun hn hin hf => ?_, fun hn he => ?_⟩,
    fun hi hl => ?_⟩
  · exact silent_boundary_entry (u := { s with nmi := false }) hc hi (by rw [plainExternal_nmi hn, hs]) rfl hl hcont
  · exact silent_boundary_entry hc hi (by rw [plainExternal_intr hn hin hf, hs]) hn hl hcont
  · refine ⟨boundary_idle (State.cut_of_calm hc) hi hl hn he, ?_⟩
    rw [silent_boundary_step hc hi hl hn he, hs]
  · have hc' : (s.withLate false).calm = true := hc
    show _ = andThen (boundary tf (s.withLate false)) fun u => silent (lateEntry s u)
    rw [andThen_silent, silent_andThen (g := lateEntry s) (lateEntry_blind s) fun _ _ => rfl, silent_boundary hc',
      ← silent_andThen (lateEntry_blind s) fun _ _ => rfl, ← plainBoundary_late hi hl hcont, silent_boundary hc]

/-- Settles O56. -/
theorem interruptedRepeat : Obligations.InterruptedRepeat := by
  intro i s u hc hcont hi hl hu
  have hs : u = s.settle := by
    have hsome : s.cont.isSome = true := by rw [hcont]; rfl
    rcases hu with ⟨-, hp, rfl⟩ | ⟨-, hr, rfl⟩
    · simp only [State.settle, hsome, if_true, hp]
    · have hp : s.pfx ≠ Pfx.none := fun e => by rw [e] at hr; cases hr
      simp only [State.settle, hsome, if_true, if_neg hp]
  subst hs
  obtain ⟨-, -, hin', -, -⟩ := settle_kept s
  have hl' : s.settle.input.nmiLate = false := by rw [hin']; exact hl
  refine ⟨fun hn => ?_, fun hn hin hf => ?_, fun hn he => ?_⟩
  · exact (silent_boundary_entry (u := { s.settle with nmi := false }) hc hi (plainExternal_nmi hn) rfl hl'
      (settle_cont s)).1
  · exact (silent_boundary_entry hc hi (plainExternal_intr hn hin hf) ((settle_nmi s).trans hn) hl' (settle_cont s)).1
  · exact ⟨boundary_idle (State.cut_of_calm hc) hi hl hn he, silent_boundary_step hc hi hl hn he⟩

/-- MOV and POP to a segment register and STI set the inhibit bit. -/
theorem exec_sets_inhibit {i : Instr} {s t : State}
    (hi : (∃ sr rm, i = .movSregRm sr rm) ∨ (∃ sr, i = .popSreg sr) ∨ i = .sti) (h : exec i s = .next t) :
    t.inhibit = true ∧ isPrefixByte i = false := by
  rcases hi with ⟨sr, rm, rfl⟩ | ⟨sr, rfl⟩ | rfl
  · cases sr <;> cases h <;> exact ⟨rfl, rfl⟩
  · cases sr <;> cases h <;> exact ⟨rfl, rfl⟩
  · cases h; exact ⟨rfl, rfl⟩

/-- Settles O54. -/
theorem inhibitWindow : Obligations.InhibitWindow := by
  intro i tf s t u hi h hc hu
  obtain ⟨hin, hp⟩ := exec_sets_inhibit hi h
  have he : t.endPrefixes = { t with pfx := Pfx.none } := by simp [State.endPrefixes, hc]
  have hb : t.endPrefixes.inhibit = true := by rw [he]; exact hin
  simp only [finish, hp, Bool.false_eq_true, if_false, boundary, hb, if_true]
  rw [he, hu]
  rfl

end Sys2Proof.Machine
end

section
/-! Proofs about steps that nothing from outside disturbs: the step runs the decoded instruction, the halted machine, a
WAIT that waits for ever, and a REP STOSB to its end. -/

namespace Sys2Proof.Machine

/-! ## A step of a machine that is alone on its bus -/

/-- The inputs of a step change nothing but the inputs, the outputs and the draw number. -/
theorem State.takeInput_eq (s : State) :
    s.takeInput = { s with
      bus := { s.bus with cycles := [], queueOps := [] }
      draws := s.draws + 1
      input := s.takeInput.input
      env := s.takeInput.env } := by
  unfold State.takeInput
  split <;> rfl

/-- The CPU has the bus, no request for it is recorded or comes in the next step, nothing disturbs that step, and memory
is RAM everywhere. -/
structure Alone (s : State) : Prop where
  owner : s.bus.owner = .cpu
  rq0 : s.bus.rq0 = false
  rq1 : s.bus.rq1 = false
  ram : s.par.memMap = []
  input : s.takeInput.input.Undisturbed

/-- The machine at the start of its next step, the NMI edge of the step latched. -/
def State.begun (s : State) : State := s.takeInput.latch s.takeInput.input.nmiEdge

theorem State.begun_eq (s : State) :
    s.begun = { s with
      bus := { s.bus with cycles := [], queueOps := [] }
      draws := s.draws + 1
      input := s.takeInput.input
      env := s.takeInput.env
      nmi := s.nmi || s.takeInput.input.nmiEdge } := by
  rw [State.begun, State.takeInput_eq]
  rfl

theorem Alone.calm {s : State} (h : Alone s) : s.begun.calm = true := by
  obtain ⟨-, hr, -, -, -, -, hg⟩ := h.input
  rw [State.calm_iff, State.begun_eq]
  exact ⟨hg, hr, h.ram⟩

theorem Alone.step_eq {s : State} (h : Alone s) (hr : s.run ≠ .heldInReset) (hs : s.run ≠ .restarting) :
    step s = andThen (if s.run = .halted then boundary false s.begun else instruction s.begun) fun t =>
      .next t.closeStep := by
  have e := s.takeInput_eq
  have hrun : s.takeInput.run = s.run := by rw [e]
  rw [step, cycle, stepInput_of_undisturbed (by rwa [hrun]) (by rwa [hrun]) (by rw [e]; exact h.owner)
    (by rw [e]; exact h.rq0) (by rw [e]; exact h.rq1) h.input, hrun]
  rfl

/-- A step of the halted machine is its recognition point, outputs apart. -/
theorem Alone.silent_step_halted {s : State} (h : Alone s) (hr : s.run = .halted) :
    silent (step s) = silent (boundary false s.begun) := by
  rw [h.step_eq (by rw [hr]; decide) (by rw [hr]; decide), if_pos hr]
  exact silent_closed fun t ht => boundary_calm ht h.calm

/-- With nothing pending it does not even put anything out. -/
theorem Alone.step_halted_idle {s : State} (h : Alone s) (hr : s.run = .halted) (hi : s.inhibit = false)
    (hl : s.takeInput.input.nmiLate = false) (hn : s.begun.nmi = false)
    (he : s.takeInput.input.intr = false ∨ s.flags.ifl = false) : step s = .next s.begun := by
  have e := s.begun_eq
  rw [h.step_eq (by rw [hr]; decide) (by rw [hr]; decide), if_pos hr,
    boundary_idle (State.cut_of_calm h.calm) (by rw [e]; exact hi) (by rw [e]; exact hl) hn (by rw [e]; exact he),
    andThen_of_next, State.closeStep_of_none ((State.calm_iff _).1 h.calm).2.1]

/-- A step that runs an instruction is its meaning and what lies behind it, outputs apart. -/
theorem Alone.silent_step_instruction {s s2 s3 : State} {i : Instr} {n : Nat} (h : Alone s) (hp : s.par.ioMap = [])
    (hrun : s.run = .running ∨ s.run = .waiting) (hi : instruction s.begun = runInstr i n s2)
    (hin : s2.input = s.begun.input) (hpar : s2.par = s.par)
    (h3 : s3 = { s2 with queue := padQueue maxBytes s2.queue }.tick) :
    silent (step s) =
      if s2.pfx.rep.isSome && !isStringPrimitive i && !isPrefixByte i then .refused .repBeforeNonString
      else silent (andThen (exec i s3) fun t => finish i s2.flags.tf (settleQueue s3 t)) := by
  have hc : s2.calm = true := State.calm_of h.calm hin (by rw [hpar, State.begun_eq])
  have hp2 : s2.par.ioMap = [] := by rw [hpar]; exact hp
  rw [h.step_eq (by rcases hrun with e | e <;> rw [e] <;> decide) (by rcases hrun with e | e <;> rw [e] <;> decide),
    if_neg (by rcases hrun with e | e <;> rw [e] <;> decide), hi,
    silent_closed fun t ht => runInstr_calm ht hc hp2, silent_runInstr hc hp2 h3]

/-- An outcome known but for its outputs. -/
theorem next_of_silent {o : Out} {u : State} (h : silent o = silent (.next u)) : ∃ c q, o = .next (u.putOut c q) := by
  cases o with
  | next t =>
    refine ⟨t.bus.cycles, t.bus.queueOps, congrArg Host.Outcome.next ?_⟩
    have e : t.putOut [] [] = u.putOut [] [] := by simpa [silent, andThen, State.putOut] using h
    calc t = (t.putOut [] []).putOut t.bus.cycles t.bus.queueOps := rfl
      _ = (u.putOut [] []).putOut t.bus.cycles t.bus.queueOps := by rw [e]
      _ = u.putOut t.bus.cycles t.bus.queueOps := rfl
  | fault r => cases h
  | refused r => cases h

/-- With an empty queue the fetch window is the bytes of memory at CS:IP. -/
theorem State.fetchWindow_of_empty {s : State} (hq : s.queue = []) (hm : s.par.memMap = []) :
    s.fetchWindow = (List.range 6).map fun k => s.readByte (s.streamAddr k) := by
  apply List.ext_getElem?
  intro k
  by_cases hk : k < 6
  · have hk' : k < maxBytes := hk
    rw [State.fetchWindow, hq, padQueue_nil, State.windowBytes_getElem? _ _ _ _ (by simpa using hk'),
      State.fetchByte_of_ram hm, List.getElem?_map, List.getElem?_range hk, List.getElem?_replicate,
      if_pos hk', Nat.zero_add]
    rfl
  · rw [List.getElem?_eq_none (by simpa [maxBytes] using hk), List.getElem?_eq_none (by simpa using hk)]

/-- Settles O49. -/
theorem stepRunsDecoded : Obligations.StepRunsDecoded := by
  refine ⟨fun s s1 i rest hcont hrun ho h0 h1 hm hp hs1 hu hd => ?_, fun s hcont hq hm => ?_⟩
  · subst hs1
    have h : Alone s := ⟨ho, h0, h1, hm, hu⟩
    have hd' : decode s.begun.fetchWindow = .ok (i, rest) := by
      rw [State.begun, State.fetchWindow_latch]; exact hd
    have hc' : s.begun.cont = none := by rw [State.begun_eq]; exact hcont
    have hi : instruction s.begun = runInstr i (6 - rest.length)
        { s.begun with
          ip := s.begun.ip + BitVec.ofNat 16 (6 - rest.length), queue := s.begun.queue.drop (6 - rest.length) } := by
      simp only [instruction, hc', hd']
      rfl
    rw [h.silent_step_instruction hp (.inl hrun) hi rfl (by rw [State.begun_eq]) rfl, State.begun_eq,
      State.takeInput_eq]
    rfl
  · rw [State.fetchWindow_of_empty hq hm]
    simp only [State.streamAddr, State.streamIp, hcont, Option.isSome_none, Bool.false_eq_true, if_false]

/-! ## The halted machine -/

/-- A machine to which the environment says `e` for ever. -/
theorem Forever.takeInput {e : EnvInput} {s : State} (h : Forever e s) :
    s.takeInput = { s with
      bus := { s.bus with cycles := [], queueOps := [] }, draws := s.draws + 1, input := e } := by
  obtain ⟨henv, rfl, -⟩ := h
  cases s
  cases henv
  rfl

theorem Forever.alone {e : EnvInput} {s : State} (h : Forever e s) (u : e.Undisturbed) : Alone s := by
  have hin : s.takeInput.input = e := by rw [h.takeInput]
  obtain ⟨-, -, -, ho, h0, h1, hm, -⟩ := h
  exact ⟨ho, h0, h1, hm, by rw [hin]; exact u⟩

/-- The machine behind `t` still hears `e` for ever when what `Forever` speaks of has not changed. -/
theorem Forever.of_kept {e : EnvInput} {s t : State} (h : Forever e s) (henv : t.env = s.env) (hrest : t.rest = s.rest)
    (hnmi : t.nmi = s.nmi) (ho : t.bus.owner = s.bus.owner) (h0 : t.bus.rq0 = s.bus.rq0) (h1 : t.bus.rq1 = s.bus.rq1)
    (hp : t.par = s.par) : Forever e t := by
  unfold Forever
  rw [henv, hrest, hnmi, ho, h0, h1, hp]
  exact h

theorem Unmoved.refl (s : State) : Unmoved s s := ⟨rfl, rfl, rfl, rfl, rfl, rfl, rfl, rfl, rfl, rfl⟩

theorem Unmoved.trans {s t u : State} (h : Unmoved s t) (h' : Unmoved t u) : Unmoved s u := by
  obtain ⟨a, b, c, d, e, f, g, i, j, k⟩ := h
  obtain ⟨a', b', c', d', e', f', g', i', j', k'⟩ := h'
  exact ⟨a'.trans a, b'.trans b, c'.trans c, d'.trans d, e'.trans e, f'.trans f, g'.trans g, i'.trans i, j'.trans j,
    k'.trans k⟩

theorem quiescent_undisturbed : EnvInput.quiescent.Undisturbed := ⟨rfl, rfl, rfl, rfl, rfl, rfl, rfl⟩

/-- A property of a machine that its next step keeps while only time passes is one of all its steps. -/
theorem reaches_unmoved {P : State → Prop}
    (hstep : ∀ s, P s → ∃ t, step s = .next t ∧ P t ∧ Unmoved s t ∧ t.mem = s.mem) {s t : State} (hs : P s)
    (h : Reaches s t) : P t ∧ Unmoved s t ∧ t.mem = s.mem := by
  induction h with
  | refl => exact ⟨hs, .refl s, rfl⟩
  | tail _ hu ih =>
    obtain ⟨hp, hm, hmem⟩ := ih
    obtain ⟨v, hv, pv, mv, memv⟩ := hstep _ hp
    rw [hu] at hv
    cases hv
    exact ⟨pv, hm.trans mv, memv.trans hmem⟩

/-- Halted, with nothing pending now or ever. -/
def HaltedForGood (s : State) : Prop := s.run = .halted ∧ s.inhibit = false ∧ Quiet s

theorem HaltedForGood.step {s : State} (h : HaltedForGood s) :
    ∃ t, step s = .next t ∧ HaltedForGood t ∧ Unmoved s t ∧ t.mem = s.mem := by
  obtain ⟨hr, hi, hq⟩ := h
  have e : s.begun = { s with
      bus := { s.bus with cycles := [], queueOps := [] }, draws := s.draws + 1, input := EnvInput.quiescent } := by
    rw [State.begun, hq.takeInput]
    exact State.latch_false _
  obtain ⟨-, -, hn, -⟩ := id hq
  refine ⟨s.begun, (hq.alone quiescent_undisturbed).step_halted_idle hr hi (by rw [hq.takeInput]; rfl)
    (by rw [e]; exact hn) (.inl (by rw [hq.takeInput]; rfl)), ?_⟩
  rw [e]
  exact ⟨⟨hr, hi, hq.of_kept rfl rfl rfl rfl rfl rfl rfl⟩, .refl s, rfl⟩

/-! ## A WAIT that waits -/

/-- The machine that takes the instruction in progress again, its draw number and its queue as a meaning finds them. -/
def State.retaken (s : State) : State :=
  { s.begun with
    ip := s.ip + 1, cont := none, draws := s.draws + 2, queue := padQueue maxBytes s.queue }

/-- A step that takes the instruction in progress again, outputs apart. -/
theorem Alone.silent_step_again {s : State} {i : Instr} (h : Alone s) (hp : s.par.ioMap = [])
    (hrun : s.run = .running ∨ s.run = .waiting) (hc : s.cont = some i)
    (hrep : (s.pfx.rep.isSome && !isStringPrimitive i && !isPrefixByte i) = false) :
    silent (step s) =
      silent (andThen (exec i s.retaken) fun t => finish i s.flags.tf (settleQueue s.retaken t)) := by
  have hc' : s.begun.cont = some i := by rw [State.begun_eq]; exact hc
  have hi : instruction s.begun = runInstr i 0 { s.begun with ip := s.begun.ip + 1, cont := none } := by
    simp only [instruction, hc']
  rw [h.silent_step_instruction hp hrun hi rfl (by rw [State.begun_eq]) (s3 := s.retaken)
    (by rw [State.retaken, State.begun_eq]; rfl)]
  rw [State.begun_eq] at *
  rw [if_neg (by rw [hrep]; decide)]

theorem Forever.retaken_eq {e : EnvInput} {s : State} (h : Forever e s) (he : e.nmiEdge = false) :
    s.retaken = { s with
      bus := { s.bus with cycles := [], queueOps := [] }
      draws := s.draws + 2
      input := e
      ip := s.ip + 1
      cont := none
      queue := padQueue maxBytes s.queue } := by
  rw [State.retaken, State.begun_eq, h.takeInput, he, Bool.or_false]

/-- Behind a meaning that is in progress still, with nothing pending, nothing more happens. -/
theorem finish_idle {i : Instr} {tf : Bool} {s : State} (hp : isPrefixByte i = false) (hcut : s.cut = false)
    (htf : (tf && s.run != .waiting) = false) (hi : s.inhibit = false)
    (hl : s.input.nmiLate = false) (hn : s.nmi = false) (he : s.input.intr = false) :
    finish i tf s = .next s.endPrefixes := by
  have e : s.endPrefixes = { s with pfx := s.endPrefixes.pfx } := by
    unfold State.endPrefixes
    split <;> rfl
  simp only [finish, hp, Bool.false_eq_true, if_false, htf]
  rw [e]
  exact boundary_idle hcut hi hl hn (.inl he)

/-- An input of a quiet environment, TEST apart. -/
def EnvInput.Idle (e : EnvInput) : Prop := e.Undisturbed ∧ e.nmiEdge = false ∧ e.nmiLate = false ∧ e.intr = false

/-- The instruction in progress is taken again, and nothing else happens. -/
theorem Forever.step_again {e : EnvInput} {s t : State} {i : Instr} (hf : Forever e s) (he : e.Idle)
    (hrun : s.run = .running ∨ s.run = .waiting) (hc : s.cont = some i) (hp : isPrefixByte i = false)
    (hrep : (s.pfx.rep.isSome && !isStringPrimitive i && !isPrefixByte i) = false)
    (hx : exec i s.retaken = .next t) (htf : (s.flags.tf && t.run != .waiting) = false) (hi : t.inhibit = false)
    (hn : t.nmi = false) : ∃ c q, step s = .next ((settleQueue s.retaken t).endPrefixes.putOut c q) := by
  obtain ⟨hu, hedge, hlate, hintr⟩ := he
  have hin : t.input = e := by
    rw [(exec_kind i hx).kept.1, hf.retaken_eq hedge]
  have hcut : t.cut = false := by simp [State.cut, hin, hu.2.1]
  obtain ⟨-, -, -, -, -, -, -, hio⟩ := id hf
  have hs := (hf.alone hu).silent_step_again hio hrun hc hrep
  rw [hx, andThen_of_next, finish_idle hp (s := settleQueue s.retaken t) hcut htf hi (by rw [← hlate, ← hin]; rfl) hn
    (by rw [← hintr, ← hin]; rfl)] at hs
  exact next_of_silent hs

/-- Waiting for a TEST that is never LOW. -/
def WaitingForGood (s : State) : Prop :=
  s.run = .waiting ∧ s.cont = some .wait ∧ s.inhibit = false ∧ s.pfx.rep = none ∧
    Forever { EnvInput.quiescent with testHigh := true } s

theorem WaitingForGood.step {s : State} (h : WaitingForGood s) :
    ∃ t, step s = .next t ∧ WaitingForGood t ∧ Unmoved s t ∧ t.mem = s.mem := by
  obtain ⟨hr, hc, hi, hrep, hf⟩ := h
  have e := hf.retaken_eq rfl
  have hx : exec .wait s.retaken =
      .next { s.retaken with ip := s.retaken.ip - 1, run := .waiting, cont := some .wait } := by
    rw [e]
    rfl
  have hn : s.nmi = false := hf.2.2.1
  obtain ⟨c, q, ht⟩ := hf.step_again ⟨⟨rfl, rfl, rfl, rfl, rfl, rfl, rfl⟩, rfl, rfl, rfl⟩ (.inr hr) hc rfl
    (by rw [hrep]; rfl) hx (Bool.and_false _) (by rw [e]; exact hi) (by rw [e]; exact hn)
  refine ⟨_, ht, ?_⟩
  have hip : s.ip + 1 - 1 = s.ip := by bv_omega
  rw [e]
  exact ⟨⟨rfl, rfl, hi, hrep, hf.of_kept rfl rfl rfl rfl rfl rfl rfl⟩,
    ⟨rfl, rfl, hip, rfl, rfl, hr.symm, hc.symm, rfl, rfl, rfl⟩, rfl⟩

/-- An entry that ends the halt of a machine with nothing in progress. -/
theorem Alone.silent_step_halted_entry {s u : State} {n : Byte} (h : Alone s) (hr : s.run = .halted)
    (hi : s.inhibit = false) (he : plainExternal s.begun = interrupt n u) (hn : u.nmi = false)
    (hl : u.input.nmiLate = false) (hc : u.cont = none) : silent (step s) = silent (exec (.intType n) u) := by
  rw [h.silent_step_halted hr]
  exact (silent_boundary_entry h.calm (by rw [State.begun_eq]; exact hi) he hn hl hc).1

/-- Settles O55. -/
theorem haltedState : Obligations.HaltedState := by
  refine ⟨fun s hr hi hq t ht => ?_, fun s s1 hr hi hc ho h0 h1 hm hs1 hu hl => ?_, fun s hr hc hi hrep hf t ht => ?_⟩
  · obtain ⟨hp, hu, hmem⟩ := reaches_unmoved (P := HaltedForGood) (fun _ => HaltedForGood.step) ⟨hr, hi, hq⟩ ht
    obtain ⟨u, hstep, -⟩ := hp.step
    exact ⟨⟨u, hstep⟩, hp.1, hu, hmem⟩
  · subst hs1
    have h : Alone s := ⟨ho, h0, h1, hm, hu⟩
    have e := s.takeInput_eq
    have hc' : s.begun.cont = none := by rw [State.begun_eq]; exact hc
    have hset := State.settle_of_none _ hc'
    have hb : s.nmi = false → s.takeInput.input.nmiEdge = false → s.begun = s.takeInput := fun _ he => by
      rw [State.begun, he, State.latch_false]
    refine ⟨fun hn => ?_, fun hn he hin hf => ?_, fun hn he hin => ?_⟩
    · have hn' : s.begun.nmi = true := by
        rw [State.begun_eq]
        rcases hn with hn | hn <;> simp [hn]
      refine h.silent_step_halted_entry hr hi ?_ rfl hl (by rw [e]; exact hc)
      rw [plainExternal_nmi hn', hset]
      rfl
    · have hbe := hb hn he
      refine h.silent_step_halted_entry hr hi ?_ (by rw [e]; exact hn) hl (by rw [e]; exact hc)
      rw [plainExternal_intr (by rw [hbe, e]; exact hn) (by rw [hbe]; exact hin) (by rw [hbe, e]; exact hf), hset, hbe]
    · refine ⟨_, h.step_halted_idle hr hi hl (by rw [hb hn he, e]; exact hn) hin, ?_⟩
      rw [State.begun_eq]
      exact ⟨hr, .refl s, rfl⟩
  · obtain ⟨hp, hu, hmem⟩ := reaches_unmoved (P := WaitingForGood) (fun _ => WaitingForGood.step)
      ⟨hr, hc, hi, hrep, hf⟩ ht
    obtain ⟨u, hstep, -⟩ := hp.step
    exact ⟨⟨u, hstep⟩, hp.1, hu, hmem⟩

end Sys2Proof.Machine
end

section
/-! Proofs about a REP STOSB in progress: each pass of its loop is a step, and its end (`spec/43_string.md`). -/

namespace Sys2Proof.Machine

/-- A run goes on with its first step. -/
theorem Reaches.head {s t u : State} (h : step s = .next t) (ht : Reaches t u) : Reaches s u := by
  induction ht with
  | refl => exact .tail (.refl s) h
  | tail _ hv ih => exact .tail ih hv

/-- A REP STOSB is in progress upward, and nothing from outside comes. -/
structure Filling (s : State) : Prop where
  rep : ∃ z, s.pfx.rep = some z
  cont : s.cont = some (.stos .byte)
  run : s.run = .running
  quiet : Quiet s
  inhibit : s.inhibit = false
  tf : s.flags.tf = false
  df : s.flags.df = false

section
variable {s : State} (h : Filling s)
include h

/-- The next step is one pass of the loop. -/
theorem Filling.step_pass {t : State} (hx : exec (.stos .byte) s.retaken = .next t) (hi : t.inhibit = false)
    (hn : t.nmi = false) : ∃ c q, step s = .next ((settleQueue s.retaken t).endPrefixes.putOut c q) := by
  obtain ⟨z, hz⟩ := h.rep
  exact h.quiet.step_again ⟨quiescent_undisturbed, rfl, rfl, rfl⟩ (.inl h.run) h.cont rfl
    (by rw [hz]; rfl) hx (by rw [h.tf]; rfl) hi hn

/-- With CX = 0 the instruction ends. -/
theorem Filling.step_ends (hcx : s.regs.cx = 0) :
    ∃ t, step s = .next t ∧ t.cont = none ∧ t.pfx = Pfx.none ∧ t.ip = s.ip + 1 ∧ t.flags = s.flags ∧
      t.regs = s.regs ∧ t.sregs = s.sregs ∧ t.mem = s.mem := by
  obtain ⟨z, hz⟩ := h.rep
  obtain ⟨-, -, hn, -⟩ := id h.quiet
  have e := h.quiet.retaken_eq rfl
  have hx : exec (.stos .byte) s.retaken = .next s.retaken :=
    congrArg Host.Outcome.next (repeated_of_zero (z := z) (by rw [e]; exact hz) (by rw [e]; exact hcx))
  obtain ⟨c, q, ht⟩ := h.step_pass hx (by rw [e]; exact h.inhibit) (by rw [e]; exact hn)
  refine ⟨_, ht, ?_⟩
  rw [e]
  exact ⟨rfl, rfl, rfl, rfl, rfl, rfl, rfl⟩

/-- With CX not 0 a byte is filled and the loop goes on. -/
theorem Filling.step_fills (hcx : s.regs.cx ≠ 0) :
    ∃ t, step s = .next t ∧ Filling t ∧ t.ip = s.ip ∧ t.flags = s.flags ∧
      t.regs = { s.regs with cx := s.regs.cx - 1, di := s.regs.di + 1 } ∧ t.sregs = s.sregs ∧
      t.mem = (s.lwrite .byte s.sregs.es s.regs.di (s.regs.get8 .ax)).mem := by
  obtain ⟨z, hz⟩ := h.rep
  obtain ⟨-, -, hn, -⟩ := id h.quiet
  have e := h.quiet.retaken_eq rfl
  have hstep : s.retaken.stringStep .byte = 1 := by
    rw [State.stringStep_eq, e]
    simp only [h.df]
    rfl
  have hx : exec (.stos .byte) s.retaken = .next ((stosOnce .byte s.retaken).decCx.repeatAgain (.stos .byte)) :=
    congrArg Host.Outcome.next (repeated_of_pos (z := z) (by rw [e]; exact hz) (by rw [e]; exact hcx))
  rw [stosOnce_eq, hstep] at hx
  obtain ⟨c, q, ht⟩ := h.step_pass hx (by rw [e]; exact h.inhibit) (by rw [e]; exact hn)
  have hip : s.ip + 1 - 1 = s.ip := by bv_omega
  refine ⟨_, ht, ?_⟩
  rw [e]
  exact ⟨⟨⟨z, hz⟩, rfl, h.run, h.quiet.of_kept rfl rfl rfl rfl rfl rfl rfl, h.inhibit, h.tf, h.df⟩,
    hip, rfl, rfl, rfl, rfl⟩

end

/-- `t` is `s` with `n` bytes from `seg:off` upward filled with `v`. -/
def Filled (n : Nat) (seg off : Word) (v : Byte) (s t : State) : Prop :=
  (∀ k, k < n → t.cell (phys seg (off + BitVec.ofNat 16 k)) = some v) ∧
    ∀ a, (∀ k, k < n → a ≠ phys seg (off + BitVec.ofNat 16 k)) → t.cell a = s.cell a

/-- A byte stored, and those above it filled. -/
theorem Filled.succ {n : Nat} {seg off : Word} {v : Byte} {s t u : State} (hn : n < 2 ^ 16 - 1)
    (h : Stored .byte seg off v s t) (h' : Filled n seg (off + 1) v t u) : Filled (n + 1) seg off v s u := by
  obtain ⟨hother, hv⟩ := h
  obtain ⟨hin, hout⟩ := h'
  have next : ∀ k, off + 1 + BitVec.ofNat 16 k = off + BitVec.ofNat 16 (k + 1) := fun k => by bv_omega
  refine ⟨fun k hk => ?_, fun a ha => ?_⟩
  · cases k with
    | zero =>
      have e : off + BitVec.ofNat 16 0 = off := by bv_omega
      rw [e, hout, hv]
      exact fun j hj => phys_ne seg (by bv_omega)
    | succ k => rw [← next, hin k (by omega)]
  · rw [hout a fun k hk => next k ▸ ha (k + 1) (by omega)]
    refine hother a fun hm => ha 0 (by omega) ?_
    have e : off + BitVec.ofNat 16 0 = off := by bv_omega
    rw [e]
    simpa [storedAt] using hm

/-- The loop runs to its end, by induction on CX. -/
theorem Filling.runs_to_end {s : State} (h : Filling s) :
    ∃ t, Reaches s t ∧ t.cont = none ∧ t.pfx = Pfx.none ∧ t.ip = s.ip + 1 ∧ t.flags = s.flags ∧
      t.regs = { s.regs with cx := 0, di := s.regs.di + s.regs.cx } ∧ t.sregs = s.sregs ∧
      Filled s.regs.cx.toNat s.sregs.es s.regs.di (s.regs.get8 .ax) s t := by
  induction hn : s.regs.cx.toNat generalizing s with
  | zero =>
    have hcx : s.regs.cx = 0 := BitVec.eq_of_toNat_eq hn
    obtain ⟨t, ht, h1, h2, h3, h4, h5, h6, h7⟩ := h.step_ends hcx
    refine ⟨t, .tail (.refl s) ht, h1, h2, h3, h4, ?_, h6, fun k hk => absurd hk (Nat.not_lt_zero k), fun a _ => ?_⟩
    · have e : s.regs.di + 0 = s.regs.di := by bv_omega
      rw [h5, hcx, e, ← hcx]
    · rw [State.cell, h7]
      rfl
  | succ n ih =>
    have hcx : s.regs.cx ≠ 0 := fun e => by rw [e] at hn; cases hn
    obtain ⟨t, ht, hf, hip, hfl, hregs, hsregs, hmem⟩ := h.step_fills hcx
    have hn' : t.regs.cx.toNat = n := by rw [hregs]; bv_omega
    obtain ⟨u, hu, h1, h2, h3, h4, h5, h6, h7⟩ := ih hf hn'
    refine ⟨u, .head ht hu, h1, h2, by rw [h3, hip], h4.trans hfl, ?_, h6.trans hsregs, ?_⟩
    · have e : s.regs.di + 1 + (s.regs.cx - 1) = s.regs.di + s.regs.cx := by bv_omega
      rw [h5, hregs, e]
    · have hlt := s.regs.cx.isLt
      rw [hsregs, hregs] at h7
      refine Filled.succ (t := t) (by omega) ?_ h7
      have hs := s.lwrite_stored .byte s.sregs.es s.regs.di (s.regs.get8 .ax)
      simp only [Stored, State.cell] at hs ⊢
      rw [hmem]
      exact hs

/-- Settles O34. -/
theorem repStosbFills : Obligations.RepStosbFills := by
  intro s z hz hc hr hq hi htf hdf
  obtain ⟨t, ht, h1, h2, h3, h4, h5, h6, hin, hout⟩ := Filling.runs_to_end ⟨⟨z, hz⟩, hc, hr, hq, hi, htf, hdf⟩
  exact ⟨t, ht, h1, h2, h3, h4, h5, h6, hin, hout⟩

end Sys2Proof.Machine
end

section
/-! Proofs about the bytes of the queue behind a store (`spec/20_memory.md` R70,
`spec/70_reset_and_hazards.md` R440). -/

namespace Sys2Proof.Machine

/-- A byte that is memory's in the queue is fetched behind an instruction as its slot says. -/
theorem fetchWindow_settleQueue {old new : State} {k : Nat} (hk : k < 6) (hm : new.par.memMap = [])
    (hq : new.queue = List.replicate 6 none) :
    (settleQueue old new).fetchWindow[k]? =
      some ((slotAfter old new k none).getD (new.readByte (new.streamAddr k))) := by
  have hlen : (slotsAfter old new 0 new.queue).length = maxBytes := by simp [hq, maxBytes]
  have hslots : padQueue maxBytes (settleQueue old new).queue = slotsAfter old new 0 new.queue := by
    have h := padQueue_trimQueue (slotsAfter old new 0 new.queue)
    rw [hlen] at h
    exact h
  have hnone : new.queue[k]?.getD none = none := by
    rw [hq, List.getElem?_replicate]
    split <;> rfl
  have hfetch : (settleQueue old new).fetchByte ((settleQueue old new).streamAddr k) =
      new.readByte (new.streamAddr k) :=
    State.fetchByte_of_ram (s := settleQueue old new) hm _
  rw [State.fetchWindow, hslots, State.windowBytes_getElem? _ _ _ _ (by rw [hlen]; exact hk), Nat.zero_add, hfetch,
    slotsAfter_getElem? _ _ _ _ _ (by rw [hq]; simpa using hk), hnone, Nat.zero_add]
  rfl

/-- A slot that was memory's is memory's still, or holds the byte from before. -/
theorem slotAfter_none (old new : State) (k : Nat) :
    slotAfter old new k none = none ∨ slotAfter old new k none = some (old.readByte (new.streamAddr k)) := by
  simp only [slotAfter]
  split
  · exact .inl rfl
  · split
    · exact .inr rfl
    · exact .inl rfl

/-- Settles O59. -/
theorem queuedBytes : Obligations.QueuedBytes := by
  refine ⟨fun old new k b b' hk hm _ hq hip hcs hb hb' => ?_, fun s k b hk hm hq hb => ?_⟩
  · have haddr : old.streamAddr k = new.streamAddr k := by rw [State.streamAddr, State.streamAddr, hip, hcs]
    rw [fetchWindow_settleQueue hk hm hq]
    rcases slotAfter_none old new k with e | e
    · exact .inr (by rw [e, Option.getD_none, State.readByte_of_cell hb'])
    · exact .inl (by rw [e, Option.getD_some, ← haddr, State.readByte_of_cell hb])
  · rw [State.fetchWindow_of_empty hq hm, List.getElem?_map, List.getElem?_range hk, Option.map_some,
      State.readByte_of_cell hb]

end Sys2Proof.Machine
end

section
/-! Proofs about the bus cycles of an activity: their pins, and an instruction made cycle by cycle
(`spec/50_bus_interface.md`, `spec/20_memory.md`). -/

namespace Sys2Proof.Machine

/-! ## Addresses -/

/-- The byte behind an even address of a segment is the next one of memory, wherever the offset wraps (R57, R60). -/
theorem phys_succ_of_even {seg o : Word} (h : (phys seg o).getLsbD 0 = false) : phys seg o + 1 = phys seg (o + 1) := by
  have hb : (phys seg o).toNat % 2 = 0 := by
    simpa [BitVec.getLsbD, Nat.testBit_zero] using h
  have h1 := o.isLt
  have h2 : (o + 1).toNat = (o.toNat + 1) % 2 ^ 16 := by simp [BitVec.toNat_add]
  have h3 : (phys seg o + 1).toNat = ((phys seg o).toNat + 1) % 2 ^ 20 := by simp [BitVec.toNat_add]
  apply BitVec.eq_of_toNat_eq
  rw [phys_toNat] at *
  rw [h3]
  omega

/-- The second byte of a word at an odd address is at an even one (R60). -/
theorem phys_succ_of_odd {seg o : Word} (h : (phys seg o).getLsbD 0 = true) : (phys seg (o + 1)).getLsbD 0 = false := by
  have hb : (phys seg o).toNat % 2 = 1 := by
    simpa [BitVec.getLsbD, Nat.testBit_zero] using h
  have h1 := o.isLt
  have h2 : (o + 1).toNat = (o.toNat + 1) % 2 ^ 16 := by simp [BitVec.toNat_add]
  suffices h3 : (phys seg (o + 1)).toNat % 2 = 0 by simpa [BitVec.getLsbD, Nat.testBit_zero] using h3
  rw [phys_toNat] at *
  omega

/-! ## What the pins show of a cycle -/

/-- The cycle of a whole word at an even address. -/
theorem cycle_wide {s r v : State} {a : Access} {d : PhysAddr → Byte} (hw : a.wide = true)
    (hk : a.kind = .readMemory ∧ d = v.readByte ∨ a.kind = .writeMemory ∧ d = r.readByte) :
    a.cycle s r v =
      { kind := a.kind, addr := some a.addr, bhe := some false, seg := some (segmentStatus a.seg)
        high := some (d (a.addr + 1)), low := some (d a.addr)
        lock := decide (s.par.strap = .maximum) && s.pfx.lock } := by
  rcases hk with ⟨hk, rfl⟩ | ⟨hk, rfl⟩ <;>
    simp [Access.cycle, hk, hw, Access.datum, State.lockIn, BusKind.inta]

/-- The cycle of a byte at an odd address. -/
theorem cycle_odd {s r v : State} {a : Access} {d : PhysAddr → Byte} (hw : a.wide = false)
    (ha : a.addr.getLsbD 0 = true)
    (hk : a.kind = .readMemory ∧ d = v.readByte ∨ a.kind = .writeMemory ∧ d = r.readByte) :
    a.cycle s r v =
      { kind := a.kind, addr := some a.addr, bhe := some false, seg := some (segmentStatus a.seg)
        high := some (d a.addr), low := none, lock := decide (s.par.strap = .maximum) && s.pfx.lock } := by
  rcases hk with ⟨hk, rfl⟩ | ⟨hk, rfl⟩ <;>
    simp [Access.cycle, hk, hw, ha, Access.datum, State.lockIn, BusKind.inta]

/-- The cycle of a byte at an even address. -/
theorem cycle_even {s r v : State} {a : Access} {d : PhysAddr → Byte} (hw : a.wide = false)
    (ha : a.addr.getLsbD 0 = false)
    (hk : a.kind = .readMemory ∧ d = v.readByte ∨ a.kind = .writeMemory ∧ d = r.readByte) :
    a.cycle s r v =
      { kind := a.kind, addr := some a.addr, bhe := some true, seg := some (segmentStatus a.seg)
        high := none, low := some (d a.addr), lock := decide (s.par.strap = .maximum) && s.pfx.lock } := by
  have ha' : a.addr[0] = false := by simpa using ha
  rcases hk with ⟨hk, rfl⟩ | ⟨hk, rfl⟩ <;>
    simp [Access.cycle, hk, hw, ha', Access.datum, State.lockIn, BusKind.inta]

/-! ## An instruction made cycle by cycle -/

/-- No other master comes between the cycles of the step, and no RESET cuts them off. -/
def State.Unbroken (s : State) : Prop := s.input.gaps = [] ∧ s.input.resetAfter = none

theorem State.passGap_of_none {s : State} (h : s.input.gaps = []) (prev : Option Access) : s.passGap prev = s := by
  simp [State.passGap, h]

theorem State.countCycle_of_none {s : State} (h : s.input.resetAfter = none) : s.countCycle = s := by
  rw [State.countCycle, h]
  show ({ s with input := { s.input with resetAfter := none } } : State) = s
  rw [← h]

theorem State.cut_of_none {s : State} (h : s.input.resetAfter = none) : s.cut = false := by simp [State.cut, h]

theorem view_cons {s : State} (h : s.Unbroken) (a : Access) (l : List Access) (prev : Option Access) (v : State) :
    view (a :: l) prev s v = view l (some a) (a.lookDone s) (a.look s v) := by
  rw [view, State.passGap_of_none h.1]

/-- The next cycle is made when nothing comes before it. -/
theorem replay_cons {cur next : State} (h : cur.Unbroken) {s r v : State} {a : Access} (l : List Access)
    (prev : Option Access) (hn : a.perform r cur = next) (hin : next.input = cur.input) :
    replay s r v (a :: l) prev cur = replay s r v l (some a) (next.note [a.cycle s r v] []) := by
  have hcut : cur.cut = false := State.cut_of_none h.2
  have hc : (next.note [a.cycle s r v] []).input.resetAfter = none := by
    show next.input.resetAfter = none
    rw [hin]
    exact h.2
  simp only [replay, hcut, Bool.false_eq_true, if_false]
  rw [State.passGap_of_none h.1, hn, State.countCycle_of_none hc]

/-- The machine `cur` behind the cycles, with what the meaning has left elsewhere. -/
def State.landed (r cur : State) : State :=
  { r with mem := cur.mem, ioIn := cur.ioIn, ioOut := cur.ioOut, input := cur.input, bus := cur.bus }

/-- Any instruction but CMPS by its cycles. -/
theorem runByCycles_eq {i : Instr} {s : State} (hi : ∀ w, i ≠ .cmps w) :
    runByCycles i s = andThen (instrByCycles i s) fun r => .next (r.noteEnd (emptyOps r)) := by
  cases i
  case cmps w => exact absurd rfl (hi w)
  all_goals rfl

/-- An instruction by its cycles, when no RESET cuts them off. -/
theorem runByCycles_of_uncut {i : Instr} {s v r cur : State} (hi : ∀ w, i ≠ .cmps w)
    (hv : (view (s.accesses i) none s { s with ioIn := [] }).2 = v) (hp : v.pendingEntry i = none)
    (hx : exec i v = .next r) (hr : replay s r v (s.accesses i) none s = cur) (hc : cur.cut = false) :
    runByCycles i s = .next ((r.landed cur).note [] (emptyOps r)) := by
  have h1 : instrByCycles i s = .next (r.landed cur) := by
    simp only [instrByCycles, hv, hp, hx, performAll, andThen_of_next, hr, hc, Bool.false_eq_true, if_false]
    rfl
  have h2 : (r.landed cur).noteEnd (emptyOps (r.landed cur)) = (r.landed cur).note [] (emptyOps r) := by
    have hc' : (r.landed cur).cut = false := hc
    simp only [State.noteEnd, hc', Bool.false_eq_true, if_false]
    rfl
  rw [runByCycles_eq hi, h1, andThen_of_next, h2]

/-! ## HLT -/

/-- HLT makes the halt indication, by its cycles or in one go. -/
theorem runBus_hlt {s : State} (h : s.calm = true) :
    ∃ t, runBus .hlt s = .next t ∧ t.run = .halted ∧
      t.bus.cycles.map BusCycle.kind = s.bus.cycles.map BusCycle.kind ++ [.halt] := by
  by_cases hp : s.par.ioMap = []
  · refine ⟨_, runBus_of_calm h hp _, rfl, ?_⟩
    exact List.map_append ..
  · have hu : s.Unbroken := ⟨((State.calm_iff s).1 h).1, ((State.calm_iff s).1 h).2.1⟩
    have hrun : runBus .hlt s = runByCycles .hlt s := by simp [runBus, hp]
    rw [hrun, runByCycles_of_uncut (i := .hlt) nofun (by rw [State.accesses, view_cons hu]) rfl rfl
      (replay_cons hu [] none rfl rfl) (State.cut_of_none hu.2)]
    refine ⟨_, rfl, rfl, ?_⟩
    show ((s.bus.cycles ++ [_]) ++ []).map BusCycle.kind = _
    simp
    rfl

/-! ## A word read of a device -/

/-- The machine with other inputs of memory-mapped devices. -/
def State.withMemIn (s : State) (l : List Byte) : State := { s with bus := { s.bus with memIn := l } }

/-- A device answers a read with its next input. -/
theorem look_device {cur : State} {a : PhysAddr} {b : Byte} {l : List Byte} (hd : cur.region a = .device)
    (hm : cur.bus.memIn = b :: l) (v : State) : cur.look v a = v.writeByte a b := by
  simp [State.look, hd, hm]

theorem lookDone_device {cur : State} {a : PhysAddr} {b : Byte} {l : List Byte} (hd : cur.region a = .device)
    (hm : cur.bus.memIn = b :: l) : cur.lookDone a = cur.withMemIn l := by
  simp [State.lookDone, hd, hm, State.withMemIn]

section
variable {s : State} {a a' : PhysAddr} {lo hi : Byte} {l : List Byte} (hu : s.Unbroken) (hd : s.region a = .device)
  (hd' : s.region a' = .device) (hm : s.bus.memIn = lo :: hi :: l) (ha : a.getLsbD 0 = false → a + 1 = a')
include hu hd hd' hm ha

/-- What an instruction finds of a device word is its next two inputs, in one cycle or in two. -/
theorem view_deviceWord (sr : Option SReg) (v : State) :
    (view (operandAccesses .readMemory sr .word a a') none s v).2 = (v.writeByte a lo).writeByte a' hi := by
  have h1 := look_device hd hm
  have h2 := lookDone_device hd hm
  have h3 : ∀ v, (s.withMemIn (hi :: l)).look v a' = v.writeByte a' hi := look_device (l := l) hd' rfl
  have hg := State.passGap_of_none hu.1
  have hg' : ∀ prev, (s.withMemIn (hi :: l)).passGap prev = s.withMemIn (hi :: l) := State.passGap_of_none hu.1
  cases hodd : a.getLsbD 0 with
  | false =>
    simp only [operandAccesses, hodd, Bool.false_eq_true, if_false, view, hg, Access.look, Access.bytes, if_true,
      lookBytes, ha hodd, h1, h2, h3]
  | true =>
    simp only [operandAccesses, hodd, if_true, view, hg, Access.look, Access.lookDone, Access.bytes, Bool.false_eq_true,
      if_false, lookBytes, List.foldl, h1, h2, hg', h3]

/-- Its cycles use up these two inputs and change nothing else, what they put out apart. -/
theorem replay_deviceWord (sr : Option SReg) (s0 r v : State) :
    ∃ c q, replay s0 r v (operandAccesses .readMemory sr .word a a') none s = (s.withMemIn l).putOut c q := by
  have h2 := lookDone_device hd hm
  cases hodd : a.getLsbD 0 with
  | false =>
    have h3 : (s.withMemIn (hi :: l)).lookDone a' = s.withMemIn l := lookDone_device (l := l) hd' rfl
    simp only [operandAccesses, hodd, Bool.false_eq_true, if_false]
    rw [replay_cons hu (next := s.withMemIn l) [] none ?_ rfl]
    · exact ⟨_, _, rfl⟩
    · simp only [Access.perform, Access.lookDone, Access.bytes, if_true, ha hodd, List.foldl, h2, h3]
  | true =>
    simp only [operandAccesses, hodd, if_true]
    rw [replay_cons hu (next := s.withMemIn (hi :: l)) _ none ?_ rfl]
    · have h3 : ∀ c q, Access.perform
          { kind := .readMemory, addr := a', wide := false, seg := sr, part := 1, tied := false } r
          ((s.withMemIn (hi :: l)).note c q) = (s.withMemIn l).note c q := fun c q =>
        lookDone_device (cur := (s.withMemIn (hi :: l)).note c q) (l := l) hd' rfl
      rw [replay_cons (cur := (s.withMemIn (hi :: l)).note _ _) hu [] _ (h3 _ _) rfl]
      exact ⟨_, _, rfl⟩
    · simp only [Access.perform, Access.lookDone, Access.bytes, Bool.false_eq_true, if_false, List.foldl, h2]

end

theorem exec_load {v : State} {r : RegField} {rm : RM} {x : Word} (h : v.readRM .word rm = x) :
    exec (.movRmReg .toReg .word r rm) v = .next (v.writeReg .word r x) := by
  rw [← h]
  rfl

/-- A word read of a device takes its two inputs in order (D2, R60). -/
theorem runBus_loadDevice {s : State} {r : RegField} {m : MemOp} {lo hi : Byte} {l : List Byte} (hu : s.Unbroken)
    (hd : s.region (phys (s.memSeg m) (s.ea m)) = .device) (hd' : s.region (phys (s.memSeg m) (s.ea m + 1)) = .device)
    (hm : s.bus.memIn = lo :: hi :: l) :
    ∃ t, runBus (.movRmReg .toReg .word r (.mem m)) s = .next t ∧ RegWritten .word r (leWord lo hi) s.regs t.regs ∧
      t.bus.memIn = l ∧ t.mem = s.mem := by
  have hcalm : s.calm = false := by
    cases hc : s.calm with
    | false => rfl
    | true =>
      rw [State.region_of_ram ((State.calm_iff s).1 hc).2.2] at hd
      cases hd
  have hrun : ∀ i, runBus i s = runByCycles i s := fun i => by simp [runBus, hcalm]
  have hview := view_deviceWord hu hd hd' hm phys_succ_of_even (some (s.segReg (MemOp.segment m))) { s with ioIn := [] }
  have hv : (({ s with ioIn := [] } : State).writeByte (phys (s.memSeg m) (s.ea m)) lo).writeByte
      (phys (s.memSeg m) (s.ea m + 1)) hi =
        ({ s with ioIn := [] } : State).lwrite .word (s.memSeg m) (s.ea m) (leWord lo hi) := by
    simp only [State.lwrite, State.lwriteWord, State.lwriteByte, wordLo_leWord, wordHi_leWord]
  rw [hv] at hview
  have hread : (({ s with ioIn := [] } : State).lwrite .word (s.memSeg m) (s.ea m) (leWord lo hi)).readRM .word
      (.mem m) = leWord lo hi := by
    rw [State.readRM, State.lwrite_ea, State.lwrite_memSeg]
    exact State.lread_lwrite _ _ _ _ _
  obtain ⟨c, q, hc⟩ := replay_deviceWord hu hd hd' hm phys_succ_of_even (some (s.segReg (MemOp.segment m))) s
    ((({ s with ioIn := [] } : State).lwrite .word (s.memSeg m) (s.ea m) (leWord lo hi)).writeReg .word r
      (leWord lo hi))
    (({ s with ioIn := [] } : State).lwrite .word (s.memSeg m) (s.ea m) (leWord lo hi))
  rw [hrun, runByCycles_of_uncut (i := .movRmReg .toReg .word r (.mem m)) nofun hview rfl (exec_load hread)
    hc (State.cut_of_none hu.2)]
  exact ⟨_, rfl, State.writeReg_regWritten _ .word r _, rfl, rfl⟩

/-! ## A port of RAM -/

theorem portAddr_eq (p : Byte) : (p.setWidth 16).setWidth 20 = (p.setWidth 20 : PhysAddr) := by bv_omega

/-- With a port that is no device an instruction is made by its cycles. -/
theorem runBus_of_portRam {s : State} {x : PhysAddr} (h : s.portRegion x = .ram) (i : Instr) :
    runBus i s = runByCycles i s := by
  have hp : s.par.ioMap ≠ [] := fun e => by simp [State.portRegion, e, regionAt] at h
  simp [runBus, hp]

/-- The machine with a byte in a port of RAM. -/
def State.withPort (s : State) (x : PhysAddr) (b : Byte) : State :=
  { s with bus := { s.bus with ioMem := Memory.set s.bus.ioMem x.toNat b } }

theorem State.withPort_portCell (s : State) (x : PhysAddr) (b : Byte) : (s.withPort x b).portCell x = some b :=
  Memory.get_set_same _ _ _

section
variable {s : State} {p : Byte} (hu : s.Unbroken) (hr : s.portRegion (p.setWidth 20) = .ram)
include hu hr

/-- OUT of AL to a port of RAM puts the byte there. -/
theorem runBus_outRam :
    ∃ t, runBus (.outFixed .byte p) s = .next t ∧ t.Unbroken ∧ t.portRegion (p.setWidth 20) = .ram ∧
      t.portCell (p.setWidth 20) = some (s.regs.get8 .ax) ∧ t.ioIn = s.ioIn ∧ t.ioOut = s.ioOut ∧ t.mem = s.mem := by
  have hview : (view (s.accesses (.outFixed .byte p)) none s { s with ioIn := [] }).2 = { s with ioIn := [] } := by
    rw [State.accesses, portAccesses, operandAccesses, view_cons hu]
    rfl
  have hwrite : ∀ r : State, r.regs = s.regs →
      Access.perform
        { kind := .writeIo, addr := (p.setWidth 16).setWidth 20, wide := false, seg := none, part := 0, tied := false }
          r s =
        s.withPort (p.setWidth 20) (s.regs.get8 .ax) := fun r hregs => by
    rw [portAddr_eq]
    show s.portBusWrite (p.setWidth 20) (r.portDatum 0) = _
    simp only [State.portBusWrite, hr, State.portDatum, if_true, hregs]
    rfl
  rw [runBus_of_portRam hr, runByCycles_of_uncut (i := .outFixed .byte p) nofun hview rfl rfl
    (replay_cons hu [] none (hwrite _ rfl) rfl) (State.cut_of_none hu.2)]
  exact ⟨_, rfl, hu, hr, s.withPort_portCell _ _, rfl, rfl, rfl⟩

/-- IN from a port of RAM answers with its byte and uses no input. -/
theorem runBus_inRam {b : Byte} (hb : s.portCell (p.setWidth 20) = some b) :
    ∃ u, runBus (.inFixed .byte p) s = .next u ∧ RegWritten .byte .ax b s.regs u.regs ∧ u.ioIn = s.ioIn ∧
      u.ioOut = s.ioOut ∧ u.mem = s.mem := by
  have hview : (view (s.accesses (.inFixed .byte p)) none s { s with ioIn := [] }).2 = { s with ioIn := [b] } := by
    rw [State.accesses, portAccesses, operandAccesses, portAddr_eq, view_cons hu]
    show State.portLook s { s with ioIn := [] } (p.setWidth 20) = _
    simp only [State.portLook, State.portAnswer, hr, hb, Option.getD_some, List.nil_append]
  have hread : Access.perform
      { kind := .readIo, addr := (p.setWidth 16).setWidth 20, wide := false, seg := none, part := 0, tied := false }
        (({ s with ioIn := [] } : State).writeReg .byte .ax b) s = s := by
    rw [portAddr_eq]
    show s.portLookDone (p.setWidth 20) = s
    simp [State.portLookDone, hr]
  rw [runBus_of_portRam hr, runByCycles_of_uncut (i := .inFixed .byte p)
    (r := ({ s with ioIn := [] } : State).writeReg .byte .ax b) nofun hview rfl rfl
    (replay_cons hu [] none hread rfl) (State.cut_of_none hu.2)]
  exact ⟨_, rfl, State.writeReg_regWritten _ .byte .ax b, rfl, rfl, rfl⟩

end

/-- Settles O60. -/
theorem busCycles : Obligations.BusCycles := by
  refine ⟨fun s r v k sr o a d c ha hk hc => ?_, fun s r v c hc => ?_, fun s => runBus_hlt,
    fun s r m lo hi l hg hr hd hd' hm => runBus_loadDevice ⟨hg, hr⟩ hd hd' hm, fun s t p g hg hr hp ht => ?_⟩
  · subst ha hc
    refine ⟨fun he => ?_, fun ho => ?_⟩
    · have hs := phys_succ_of_even he
      simp only [State.memoryAccesses, operandAccesses, he, Bool.false_eq_true, if_false, List.map_cons, List.map_nil]
      rw [cycle_even rfl he hk, cycle_wide rfl hk, hs]
      exact ⟨rfl, rfl⟩
    · simp only [State.memoryAccesses, operandAccesses, ho, if_true, List.map_cons, List.map_nil]
      rw [cycle_odd rfl ho hk, cycle_odd rfl ho hk, cycle_even rfl (phys_succ_of_odd ho) hk]
      exact ⟨rfl, rfl⟩
  · subst hc
    simp [ackAccesses, Access.cycle, State.lockIn, BusKind.inta]
  · obtain ⟨t', hout, hu, hr', hcell, hin, hout', hmem⟩ := runBus_outRam ⟨hg, hr⟩ hp
    obtain rfl : t' = t := by rw [hout] at ht; cases ht; rfl
    obtain ⟨u, hu, hreg, h1, h2, h3⟩ := runBus_inRam (s := { t' with regs := g }) hu hr' hcell
    exact ⟨u, hu, hreg, h1.trans hin, h2.trans hout', h3.trans hmem⟩

end Sys2Proof.Machine
end

section
/-! Proofs about RESET: the machine dormant, the end of the reset sequence, and an instruction that RESET cuts off
(`spec/70_reset_and_hazards.md`). -/

namespace Sys2Proof.Machine

/-! ## Writes of other masters -/

/-- From `s` to `t` every byte of memory and of a port that `l` does not write is as before. -/
def WrittenBy (l : List MasterWrite) (s t : State) : Prop :=
  (∀ a : PhysAddr, (∀ b, .memory a b ∉ l) → t.cell a = s.cell a) ∧
    ∀ p : Word, (∀ b, .port p b ∉ l) → t.portCell (p.setWidth 20) = s.portCell (p.setWidth 20)

theorem masterWrites_writtenBy (l : List MasterWrite) (s : State) : WrittenBy l s (masterWrites l s) :=
  ⟨fun a h => masterWrites_cell l s a h, fun p h => masterWrites_portCell l s p h⟩

theorem WrittenBy.of_kept {l : List MasterWrite} {s t u : State} (h : WrittenBy l s t) (hm : u.mem = t.mem)
    (hp : u.bus.ioMem = t.bus.ioMem) : WrittenBy l s u := by
  simp only [WrittenBy, State.cell, State.portCell, hm, hp]
  exact h

theorem WrittenBy.refl (l : List MasterWrite) (s : State) : WrittenBy l s s := ⟨fun _ _ => rfl, fun _ _ => rfl⟩

theorem WrittenBy.trans {l l' : List MasterWrite} {s t u : State} (h : WrittenBy l s t) (h' : WrittenBy l' t u) :
    WrittenBy (l' ++ l) s u :=
  ⟨fun a ha => (h'.1 a fun b hb => ha b (List.mem_append_left _ hb)).trans
      (h.1 a fun b hb => ha b (List.mem_append_right _ hb)),
    fun p hp => (h'.2 p fun b hb => hp b (List.mem_append_left _ hb)).trans
      (h.2 p fun b hb => hp b (List.mem_append_right _ hb))⟩

theorem systemStep_writtenBy (s : State) : WrittenBy s.input.systemWrites s (systemStep s) := by
  simp only [systemStep]
  split
  · split
    · exact masterWrites_writtenBy _ s
    · exact (masterWrites_writtenBy _ { s with queue := padQueue maxBytes s.queue }).of_kept rfl rfl
  · exact .refl _ s

/-- Another master's write to RAM is there behind it. -/
theorem foreignWrite_cell_same {s : State} {a : PhysAddr} (h : s.region a = .ram) (b : Byte) :
    (masterWrites [.memory a b] s).cell a = some b := by
  simp only [masterWrites, State.masterWrite, State.foreignWrite, h]
  exact s.cell_writeByte_same a b

/-- And one to a port of RAM. -/
theorem foreignPortWrite_portCell_same {s : State} {p : Word} (h : s.portRegion (p.setWidth 20) = .ram) (b : Byte) :
    (masterWrites [.port p b] s).portCell (p.setWidth 20) = some b := by
  simp only [masterWrites, State.masterWrite, State.foreignPortWrite, h]
  exact Memory.get_set_same _ _ _

/-! ## RESET HIGH -/

/-- The machine while RESET is HIGH, masters of the system bus having written. -/
theorem systemStep_enterReset (s : State) :
    ∃ m p, systemStep s.enterReset =
      { s.enterReset with mem := m, bus := { s.enterReset.bus with ioMem := p } } := by
  have h : s.enterReset.held = false := rfl
  simp only [systemStep]
  split
  · rw [if_pos (by simp [State.enterReset])]
    exact ⟨_, _, masterWrites_eq _ _⟩
  · exact ⟨_, _, rfl⟩

/-- Of a machine that is dormant the end of a step changes nothing but what is clear already. -/
theorem closeStep_kept (s : State) :
    s.closeStep.mem = s.mem ∧ s.closeStep.bus.ioMem = s.bus.ioMem ∧ s.closeStep.ioIn = s.ioIn ∧
      s.closeStep.ioOut = s.ioOut := by
  unfold State.closeStep
  split <;> exact ⟨rfl, rfl, rfl, rfl⟩

theorem closeStep_dormant {s : State} (hr : s.run = .heldInReset) (ho : s.bus.owner = .cpu) (h0 : s.bus.rq0 = false)
    (h1 : s.bus.rq1 = false) :
    s.closeStep.run = .heldInReset ∧ s.closeStep.bus.owner = .cpu ∧ s.closeStep.bus.rq0 = false ∧
      s.closeStep.bus.rq1 = false := by
  unfold State.closeStep
  split
  · exact ⟨rfl, rfl, rfl, rfl⟩
  · exact ⟨hr, ho, h0, h1⟩

/-- A step with RESET HIGH. -/
theorem step_reset {s : State} (h : s.takeInput.input.reset = true) :
    step s = .next (systemStep s.takeInput.enterReset).closeStep := by
  simp [step, cycle, stepInput, h]

/-- While RESET is HIGH a master of the system bus of a maximum mode machine writes its RAM. -/
theorem systemStep_enterReset_cell {s : State} {a : PhysAddr} {b : Byte} (hm : s.par.memMap = [])
    (hs : s.par.strap = .maximum) (hw : s.input.systemWrites = [.memory a b]) :
    (systemStep s.enterReset).cell a = some b := by
  have hg : s.enterReset.systemGap none = true := by simp [State.systemGap, State.enterReset, hs, Pfx.none]
  have hw' : s.enterReset.input.systemWrites = [.memory a b] := hw
  have hr : (s.enterReset.run == .heldInReset) = true := rfl
  simp only [systemStep, hg, hw', hr, Bool.or_true, if_true, List.isEmpty_cons, Bool.not_false, Bool.and_self]
  exact foreignWrite_cell_same (State.region_of_ram (s := s.enterReset) hm a) b

/-! ## The end of the reset sequence -/

/-- The step behind RESET. -/
theorem step_leaveReset {s : State} (hr : s.run = .heldInReset) (h : s.takeInput.input.reset = false)
    (hw : systemStep s.takeInput.enterReset = s.takeInput.enterReset) :
    step s = andThen (endReset s.takeInput.enterReset) fun t => .next t.closeStep := by
  have hrun : s.takeInput.run = .heldInReset := by rw [State.takeInput_eq]; exact hr
  simp only [step, cycle, stepInput, h, hrun, hw, Bool.false_eq_true, if_false, if_true]

/-- The machine behind RESET, the bus its own. -/
theorem leaveReset_restarted (s : State) : RestartedFrom s s.takeInput.enterReset.leaveReset := by
  rw [State.takeInput_eq]
  exact ⟨rfl, rfl, rfl, rfl, rfl, rfl, rfl, rfl, rfl, rfl, rfl, rfl⟩

/-- Execution begins at FFFF0H (R430). -/
theorem startAddr_leaveReset (s : State) : phys s.leaveReset.sregs.cs s.leaveReset.ip = 0xFFFF0 := by
  show phys 0xFFFF 0 = 0xFFFF0
  decide

/-- What the registers of R430 ask of a machine, whatever its latch and its bus. -/
theorem RestartedFrom.of_kept {s u v : State} (h : RestartedFrom s u) (hv : v = { u with
    nmi := v.nmi, bus := { u.bus with owner := v.bus.owner, rq0 := v.bus.rq0, rq1 := v.bus.rq1 } }) :
    RestartedFrom s v := by
  rw [hv]
  exact h

theorem RestartedFrom.withNmi {s u : State} (h : RestartedFrom s u) (n : Bool) :
    RestartedFrom s { u with nmi := n } := h

/-- With no request for the bus the reset sequence ends with the bus the CPU's own. -/
theorem endReset_undisturbed {s : State} (u : s.input.Undisturbed) :
    endReset s.enterReset =
      if s.input.nmiLate then
        if s.input.nmiFirst then enter false 2 s.enterReset.leaveReset
        else .next { s.enterReset.leaveReset with nmi := true }
      else .next s.enterReset.leaveReset := by
  have ha : s.enterReset.leaveReset.arbitrate = s.enterReset.leaveReset :=
    State.arbitrate_of_cpu (s := s.enterReset.leaveReset) rfl rfl rfl u
  have hh : s.enterReset.leaveReset.held = false := rfl
  simp only [endReset, ha, hh, Bool.false_eq_true, if_false]
  rfl

/-- A RESET that nothing else comes with ends in the first instruction, or in the entry of an NMI. -/
theorem step_leaveReset_undisturbed {s : State} (hr : s.run = .heldInReset) (u : s.takeInput.input.Undisturbed) :
    step s = andThen (endReset s.takeInput.enterReset) fun t => .next t.closeStep :=
  step_leaveReset hr u.1 (systemStep_of_none (s := s.takeInput.enterReset) u.2.2.2.2.2.1)

theorem closeStep_leaveReset {s : State} (u : s.input.Undisturbed) (n : Bool) :
    ({ s.enterReset.leaveReset with nmi := n } : State).closeStep = { s.enterReset.leaveReset with nmi := n } :=
  State.closeStep_of_none (s := { s.enterReset.leaveReset with nmi := n }) u.2.1

/-- The machine with its bus with `o`, and these requests recorded. -/
def State.withBus (s : State) (o : BusOwner) (r0 r1 : Bool) : State :=
  { s with bus := { s.bus with owner := o, rq0 := r0, rq1 := r1 } }

/-- HOLD in the minimum mode takes the bus of a machine whose CPU has it, and keeps it. -/
theorem arbitrate_hold {s : State} (hs : s.par.strap = .minimum) (hh : s.input.hold = true)
    (ho : s.held = true ∨ s.pfx.lock = false) : s.arbitrate = s.withBus .hold false false := by
  have e : s.arbitrateHold = .hold := by
    rcases ho with ho | ho <;> simp [State.arbitrateHold, hh, ho]
  simp only [State.arbitrate, hs, e]
  rfl

theorem endReset_of_held {s s1 : State} (h : s.leaveReset.arbitrate = s1) (hh : s1.held = true) :
    endReset s = grantStep 0 s.leaveReset
      { s1 with run := if s.input.nmiLate && s.input.nmiFirst then .restarting else .running } := by
  rw [endReset, h, if_pos hh]

/-- In the step of the grant the queue is pinned. -/
theorem grantStep_first {n : Nat} {before s : State} (h : before.held = false) :
    grantStep n before s = holdStep (s.pinQueue n) := by
  simp [grantStep, h]

/-- With an empty queue the EU has nothing to go on with in hold acknowledge. -/
theorem holdStep_empty {s : State} (hq : s.queue = []) (hc : s.cont = none) (hw : s.input.busWrites = []) :
    holdStep s = .next (s.latch s.input.nmiLate) := by
  have hd : decode (knownBytes []) = .error .truncated := rfl
  simp only [holdStep, hw, masterWrites, heldInstruction, hc, hq, hd]
  split <;> rfl

theorem pinQueue_empty {s : State} (hq : s.queue = []) : s.pinQueue 0 = s := by
  have h : ((s.fetchWindow.take (max 0 s.queue.length)).map some) = s.queue := by simp [hq]
  rw [State.pinQueue, h]

/-- The step behind RESET with HOLD. -/
theorem step_leaveReset_hold {s : State} (hr : s.run = .heldInReset) (h : s.takeInput.input.reset = false)
    (hra : s.takeInput.input.resetAfter = none) (hh : s.takeInput.input.hold = true) (hs : s.par.strap = .minimum)
    (hw : s.takeInput.input.busWrites = []) :
    ∃ t, step s = .next t ∧ RestartedFrom s { t with run := .running } ∧ t.bus.owner = .hold ∧
      t.nmi = s.takeInput.input.nmiLate ∧
      t.run = if s.takeInput.input.nmiLate && s.takeInput.input.nmiFirst then .restarting else .running := by
  have hp : s.takeInput.par.strap = .minimum := by rw [State.takeInput_eq]; exact hs
  have hsys : systemStep s.takeInput.enterReset = s.takeInput.enterReset := by
    simp [systemStep, State.systemGap, State.enterReset, hp]
  have harb := arbitrate_hold (s := s.takeInput.enterReset.leaveReset) hp hh (.inr rfl)
  rw [step_leaveReset hr h hsys, endReset_of_held harb rfl, grantStep_first rfl, pinQueue_empty rfl,
    holdStep_empty (by rfl) (by rfl) (by exact hw), andThen_of_next, State.closeStep_of_none (by exact hra)]
  exact ⟨_, rfl, (leaveReset_restarted s).of_kept rfl, rfl, Bool.false_or _, rfl⟩

/-! ## An NMI entered when the bus is back -/

/-- The bus comes back in the minimum mode when HOLD goes LOW. -/
theorem arbitrate_release {s : State} (hs : s.par.strap = .minimum) (hh : s.input.hold = false) :
    s.arbitrate = s.withBus .cpu false false := by
  have e : s.arbitrateHold = .cpu := by simp [State.arbitrateHold, hh]
  simp only [State.arbitrate, hs, e]
  rfl

/-- The machine running, with its bus its own. -/
def State.awakened (s : State) : State := { s.withBus .cpu false false with run := .running }

/-- A machine that is to enter an NMI before its first instruction does so when the bus comes back. -/
theorem step_restarting {s : State} (hr : s.run = .restarting) (hs : s.par.strap = .minimum)
    (u : s.takeInput.input.Undisturbed) :
    step s = andThen (boundary false s.begun.awakened) fun t => .next t.closeStep := by
  have hrun : s.takeInput.run = .restarting := by rw [State.takeInput_eq]; exact hr
  have hpar : s.begun.par.strap = .minimum := by rw [State.begun_eq]; exact hs
  have hsys : systemStep s.begun = s.begun := systemStep_of_none (s := s.begun) u.2.2.2.2.2.1
  have harb : s.begun.arbitrate = s.begun.withBus .cpu false false := arbitrate_release hpar u.2.2.1
  have hheld : (s.begun.withBus .cpu false false).held = false := rfl
  have hrun' : (s.begun.withBus .cpu false false).run = .restarting := hrun
  have hb : s.takeInput.latch s.takeInput.input.nmiEdge = s.begun := rfl
  simp [step, cycle, stepInput, u.1, hrun, hb, hsys, harb, hheld, hrun', State.awakened]

theorem silent_step_restarting {s : State} (hr : s.run = .restarting) (hn : s.nmi = true) (hi : s.inhibit = false)
    (hc : s.cont = none) (hs : s.par.strap = .minimum) (hm : s.par.memMap = []) (u : s.takeInput.input.Undisturbed)
    (hl : s.takeInput.input.nmiLate = false) :
    silent (step s) = silent (exec (.intType 2) { s.takeInput.awakened with nmi := false }) := by
  have e := s.begun_eq
  have hcalm : s.begun.awakened.calm = true := by
    rw [State.calm_iff]
    exact ⟨u.2.2.2.2.2.2, u.2.1, by rw [e]; exact hm⟩
  have hcont : s.begun.awakened.cont = none := by rw [e]; exact hc
  have hnmi : s.begun.awakened.nmi = true := by
    rw [e]
    simp [State.awakened, State.withBus, hn]
  have hent : plainExternal s.begun.awakened = interrupt 2 { s.takeInput.awakened with nmi := false } := by
    rw [plainExternal_nmi hnmi, State.settle_of_none _ hcont]
    rfl
  have hc' : s.takeInput.cont = none := by rw [State.takeInput_eq]; exact hc
  rw [step_restarting hr hs u, silent_closed fun t ht => boundary_calm ht hcalm]
  exact (silent_boundary_entry hcalm (by rw [e]; exact hi) hent rfl hl hc').1

/-! ## A store that RESET cuts off -/

/-- An instruction by its cycles, when RESET cuts them off. -/
theorem runByCycles_of_cut {i : Instr} {s v r cur : State} (hi : ∀ w, i ≠ .cmps w)
    (hv : (view (s.accesses i) none s { s with ioIn := [] }).2 = v) (hp : v.pendingEntry i = none)
    (hx : exec i v = .next r) (hr : replay s r v (s.accesses i) none s = cur) (hc : cur.cut = true) :
    runByCycles i s = .next cur.enterReset := by
  have h1 : instrByCycles i s = .next cur.enterReset := by
    simp only [instrByCycles, hv, hp, hx, performAll, andThen_of_next, hr, hc, if_true]
  have h2 : cur.enterReset.noteEnd (emptyOps cur.enterReset) = cur.enterReset := by
    have hc' : cur.enterReset.cut = true := hc
    simp only [State.noteEnd, hc', if_true]
  rw [runByCycles_eq hi, h1, andThen_of_next, h2]

/-- The cycles of a store tell the instruction nothing. -/
theorem view_write {s : State} (hg : s.input.gaps = []) (sr : Option SReg) (w : Width) (a a' : PhysAddr) (v : State) :
    (view (operandAccesses .writeMemory sr w a a') none s v).2 = v := by
  have h := State.passGap_of_none hg
  cases w with
  | byte => rfl
  | word =>
    cases ho : a.getLsbD 0 <;>
      simp only [operandAccesses, ho, view, h, Access.look, Access.lookDone, if_true, Bool.false_eq_true, if_false]

/-- The cycles of a store of a word at an odd address, cut off before the first or between the two. -/
theorem replay_cutStore {s r : State} {a a' : PhysAddr} {k : Nat} (hg : s.input.gaps = []) (hm : s.par.memMap = [])
    (hk : s.input.resetAfter = some k) (h2 : k < 2) (ha : a.getLsbD 0 = true) (sr : Option SReg) (s0 v : State) :
    ∃ cur, replay s0 r v (operandAccesses .writeMemory sr .word a a') none s = cur ∧ cur.cut = true ∧
      cur.mem = if k = 0 then s.mem else (s.writeByte a (r.readByte a)).mem := by
  have hpass := State.passGap_of_none hg none
  obtain rfl | rfl : k = 0 ∨ k = 1 := by omega
  · have hcut : s.cut = true := by simp [State.cut, hk]
    refine ⟨s, ?_, hcut, rfl⟩
    simp only [operandAccesses, ha, if_true, replay, hcut]
  · have hcut : s.cut = false := by simp [State.cut, hk]
    have hw := State.busWrite_of_ram hm a (r.readByte a)
    have hcut' : ∀ c, ((s.writeByte a (r.readByte a)).note c []).countCycle.cut = true := fun c => by
      simp [State.cut, State.countCycle, State.note, State.writeByte, hk]
    simp only [operandAccesses, ha, if_true, replay, hcut, Bool.false_eq_true, if_false, hpass, Access.perform,
      Access.bytes, List.foldl, hw, hcut']
    exact ⟨_, rfl, hcut' _, rfl⟩

/-- RESET between the two cycles of a store of a word at an odd address leaves its low byte; before them, nothing. -/
theorem runBus_cutStore {s : State} {r : RegField} {m : MemOp} {k : Nat}
    (ha : (phys (s.memSeg m) (s.ea m)).getLsbD 0 = true) (hg : s.input.gaps = []) (hm : s.par.memMap = [])
    (hk : s.input.resetAfter = some k) (h2 : k < 2) :
    ∃ t, runBus (.movRmReg .fromReg .word r (.mem m)) s = .next t ∧ t.run = .heldInReset ∧
      (∀ x, x ≠ phys (s.memSeg m) (s.ea m) → t.cell x = s.cell x) ∧
      t.cell (phys (s.memSeg m) (s.ea m)) =
        if k = 0 then s.cell (phys (s.memSeg m) (s.ea m)) else some (wordLo (s.regs.get r)) := by
  have hcalm : s.calm = false := by simp [State.calm, hk]
  have hrun : ∀ i, runBus i s = runByCycles i s := fun i => by simp [runBus, hcalm]
  obtain ⟨cur, hcur, hcut, hmem⟩ := replay_cutStore
    (r := ({ s with ioIn := [] } : State).lwrite .word (s.memSeg m) (s.ea m) (s.regs.get r))
    (a' := phys (s.memSeg m) (s.ea m + 1)) hg hm hk h2 ha (some (s.segReg (MemOp.segment m))) s
    { s with ioIn := [] }
  have hx : exec (.movRmReg .fromReg .word r (.mem m)) { s with ioIn := [] } =
      .next (({ s with ioIn := [] } : State).lwrite .word (s.memSeg m) (s.ea m) (s.regs.get r)) := rfl
  have hlo : (({ s with ioIn := [] } : State).lwrite .word (s.memSeg m) (s.ea m) (s.regs.get r)).readByte
      (phys (s.memSeg m) (s.ea m)) = wordLo (s.regs.get r) :=
    State.readByte_of_cell (State.lwrite_stored _ .word _ _ _).2.1
  rw [hlo] at hmem
  have hview : (view (s.accesses (.movRmReg .fromReg .word r (.mem m))) none s { s with ioIn := [] }).2 =
      { s with ioIn := [] } :=
    view_write hg (some (s.segReg (MemOp.segment m))) .word (phys (s.memSeg m) (s.ea m))
      (phys (s.memSeg m) (s.ea m + 1)) _
  rw [hrun, runByCycles_of_cut (i := .movRmReg .fromReg .word r (.mem m)) nofun hview rfl hx hcur hcut]
  refine ⟨_, rfl, rfl, fun x hx => ?_, ?_⟩
  · show Memory.get cur.mem x.toNat = _
    rw [hmem]
    split
    · rfl
    · exact s.cell_writeByte_other _ hx
  · show Memory.get cur.mem _ = _
    rw [hmem]
    split
    · rfl
    · exact s.cell_writeByte_same _ _

/-- Settles O52. -/
theorem resetEvent : Obligations.ResetEvent := by
  refine ⟨⟨rfl, rfl, rfl, rfl, rfl, rfl, rfl, rfl, rfl⟩, fun s hr => ?_, fun s e hr he hu => ?_,
    fun s e hr he h hra hh hs hw => ?_, fun s s1 hr hn hi hc hs _ hm hs1 hu hl => ?_,
    fun s r m a k ha hodd hg hm hk h2 => ?_⟩
  · have e := s.takeInput_eq
    obtain ⟨m, p, hsys⟩ := systemStep_enterReset s.takeInput
    obtain ⟨kmem, kio, kin, kout⟩ := closeStep_kept (systemStep s.takeInput.enterReset)
    obtain ⟨dr, d0, d1, d2⟩ := closeStep_dormant (s := systemStep s.takeInput.enterReset) (by rw [hsys]; rfl)
      (by rw [hsys]; rfl) (by rw [hsys]; rfl) (by rw [hsys]; rfl)
    obtain ⟨wm, wp⟩ := (systemStep_writtenBy s.takeInput.enterReset).of_kept kmem kio
    refine ⟨_, step_reset hr, dr, d0, d1, d2, fun a ha => ?_, fun a b hm hs hw => ?_, fun p hp => ?_, ?_, ?_⟩
    · rw [wm a ha, State.takeInput_eq]
      rfl
    · have h := systemStep_enterReset_cell (s := s.takeInput) (by rw [e]; exact hm) (by rw [e]; exact hs) hw
      rw [State.cell] at h ⊢
      rw [kmem]
      exact h
    · rw [wp p hp, State.takeInput_eq]
      rfl
    · rw [kin, hsys, State.takeInput_eq]
      rfl
    · rw [kout, hsys, State.takeInput_eq]
      rfl
  · subst he
    have hstep := step_leaveReset_undisturbed hr hu
    rw [endReset_undisturbed hu] at hstep
    refine ⟨fun hl => ?_, fun hl hf => ?_, fun hl hf hm => ?_⟩
    · simp only [hl, Bool.false_eq_true, if_false, andThen_of_next] at hstep
      exact ⟨_, hstep.trans (congrArg Host.Outcome.next (closeStep_leaveReset hu false)), leaveReset_restarted s, rfl,
        rfl, rfl, rfl, startAddr_leaveReset _⟩
    · simp only [hl, hf, if_true, Bool.false_eq_true, if_false, andThen_of_next] at hstep
      exact ⟨_, hstep.trans (congrArg Host.Outcome.next (closeStep_leaveReset hu true)),
        (leaveReset_restarted s).withNmi true, rfl⟩
    · have hcalm : s.takeInput.enterReset.leaveReset.calm = true := by
        rw [State.calm_iff]
        exact ⟨hu.2.2.2.2.2.2, hu.2.1, by rw [State.takeInput_eq]; exact hm⟩
      simp only [hl, hf, if_true, enter_of_calm hcalm] at hstep
      refine ⟨_, leaveReset_restarted s, rfl, ?_⟩
      rw [hstep, silent_closed fun t ht => enterCalm_calm ht hcalm, silent_enterCalm]
      rfl
  · subst he
    exact step_leaveReset_hold hr h hra hh hs hw
  · subst hs1
    exact silent_step_restarting hr hn hi hc hs hm hu hl
  · subst ha
    exact runBus_cutStore hodd hg hm hk h2

end Sys2Proof.Machine
end

section
/-! Proofs about other masters of the bus: grants, requests recorded and given back, and what the EU does in hold
acknowledge (`spec/50_bus_interface.md`, `spec/20_memory.md`). -/

namespace Sys2Proof.Machine

/-! ## Arbitration -/

/-- RQ/GT in the maximum mode: the bus goes to the first master that asks for it or has asked for it. -/
theorem arbitrate_pulse {s : State} (hs : s.par.strap = .maximum) (ho : s.bus.owner = .cpu) (hl : s.pfx.lock = false)
    (h : s.bus.rq0 = true ∨ s.input.rq0 = true ∨ s.bus.rq1 = true ∨ s.input.rq1 = true) :
    s.arbitrate = s.withBus (if s.bus.rq0 || s.input.rq0 then .rq0 else .rq1) false
      ((s.bus.rq0 || s.input.rq0) && (s.bus.rq1 || s.input.rq1)) := by
  have e : s.arbitratePulses = { s.bus with
      owner := if s.bus.rq0 || s.input.rq0 then .rq0 else .rq1
      rq0 := false
      rq1 := (s.bus.rq0 || s.input.rq0) && (s.bus.rq1 || s.input.rq1) } := by
    cases h0 : s.bus.rq0 || s.input.rq0 with
    | true => simp [State.arbitratePulses, ho, hl, h0]
    | false =>
      have h1 : (s.bus.rq1 || s.input.rq1) = true := by
        simp only [Bool.or_eq_false_iff] at h0
        simpa [h0.1, h0.2] using h
      simp [State.arbitratePulses, ho, hl, h0, h1]
  simp only [State.arbitrate, hs, e]
  rfl

/-- Under LOCK the CPU keeps the bus; requests by a pulse are recorded. -/
theorem arbitrate_locked {s : State} (ho : s.bus.owner = .cpu) (hl : s.pfx.lock = true) :
    s.arbitrate = match s.par.strap with
      | .minimum => s.withBus .cpu false false
      | .maximum => s.withBus .cpu (s.bus.rq0 || s.input.rq0) (s.bus.rq1 || s.input.rq1) := by
  cases hs : s.par.strap with
  | minimum => simp [State.arbitrate, hs, State.arbitrateHold, State.held, ho, hl, State.withBus]
  | maximum => simp [State.arbitrate, hs, State.arbitratePulses, ho, hl, State.withBus]

/-- A second pulse of the master that has the bus gives it back. -/
theorem arbitrate_giveBack {s : State} (hs : s.par.strap = .maximum) (ho : s.bus.owner = .rq0) (h : s.input.rq0 = true)
    (h0 : s.bus.rq0 = false) (h1 : s.bus.rq1 = false) (hi : s.input.rq1 = false) :
    s.arbitrate = s.withBus .cpu false false := by
  cases hl : s.pfx.lock <;> simp [State.arbitrate, hs, State.arbitratePulses, ho, h, h0, h1, hi, hl, State.withBus]

/-! ## A step without RESET -/

/-- The machine behind the writes of masters of the system bus, before arbitration. -/
def State.arbitrating (s : State) : State := systemStep s.begun

/-- Up to arbitration only memory, ports, the queue and the latch can change. -/
theorem State.arbitrating_eq (s : State) : ∃ q, s.arbitrating = { s with
    mem := s.arbitrating.mem
    queue := q
    bus := { s.bus with cycles := [], queueOps := [], ioMem := s.arbitrating.bus.ioMem }
    draws := s.draws + 1
    input := s.takeInput.input
    env := s.takeInput.env
    nmi := s.nmi || s.takeInput.input.nmiEdge } := by
  obtain ⟨q, hq, -⟩ := systemStep_eq s.begun
  refine ⟨q, ?_⟩
  rw [State.arbitrating, hq, State.begun_eq]

/-- Which part of a step follows arbitration. -/
theorem step_awake {s : State} (h : s.takeInput.input.reset = false) (hr : s.run ≠ .heldInReset) :
    step s = andThen (
      if s.arbitrating.arbitrate.held then
        grantStep s.arbitrating.arbitrate.input.prefetched s.arbitrating s.arbitrating.arbitrate
      else if s.arbitrating.arbitrate.run = .halted then haltedStep s.arbitrating s.arbitrating.arbitrate
      else if s.arbitrating.arbitrate.run = .restarting then
        boundary false { s.arbitrating.arbitrate with run := .running }
      else instruction s.arbitrating.arbitrate) fun t => .next t.closeStep := by
  have hrun : s.takeInput.run ≠ .heldInReset := by rw [State.takeInput_eq]; exact hr
  simp only [step, cycle, stepInput, h, Bool.false_eq_true, if_false, if_neg hrun]
  rfl

/-! ## The grant -/

/-- A step of hold acknowledge in which the EU does not go on. -/
theorem holdStep_waits {s : State} (h : s.input.euGoes = false) :
    holdStep s = .next ((masterWrites s.input.busWrites s).latch s.input.nmiLate) := by
  rw [holdStep, h, Bool.false_and, if_neg Bool.false_ne_true]

/-- Another master's writes, and an edge, move nothing on. -/
theorem behindWrites (s : State) (l : List MasterWrite) (n : Bool) :
    Unmoved s ((masterWrites l s).latch n) ∧ ((masterWrites l s).latch n).bus.owner = s.bus.owner ∧
      ((masterWrites l s).latch n).bus.rq0 = s.bus.rq0 ∧ ((masterWrites l s).latch n).bus.rq1 = s.bus.rq1 ∧
      ((masterWrites l s).latch n).input = s.input := by
  rw [masterWrites_eq]
  exact ⟨.refl s, rfl, rfl, rfl, rfl⟩

/-- The machine in the step of a grant to `o`, before the writes of the master. -/
def State.grantedTo (s : State) (o : BusOwner) (a b : Bool) : State :=
  (s.arbitrating.withBus o a b).pinQueue s.takeInput.input.prefetched

theorem State.grantedTo_kept (s : State) (o : BusOwner) (a b : Bool) :
    Unmoved s (s.grantedTo o a b) ∧ (s.grantedTo o a b).par = s.par ∧
      (s.grantedTo o a b).input = s.takeInput.input ∧ (s.grantedTo o a b).bus.owner = o ∧
      (s.grantedTo o a b).bus.rq0 = a ∧ (s.grantedTo o a b).bus.rq1 = b ∧
      WrittenBy s.takeInput.input.systemWrites s (s.grantedTo o a b) := by
  obtain ⟨q, e⟩ := s.arbitrating_eq
  have hw : WrittenBy s.takeInput.input.systemWrites s.begun s.arbitrating := systemStep_writtenBy s.begun
  have hw' : WrittenBy s.takeInput.input.systemWrites s (s.grantedTo o a b) := by
    rw [State.begun_eq] at hw
    exact WrittenBy.of_kept (t := s.arbitrating) hw rfl rfl
  refine ⟨?_, ?_, ?_, rfl, rfl, rfl, hw'⟩
  all_goals rw [State.grantedTo, State.pinQueue, State.withBus, e]
  exact .refl s

section
variable {s : State} {o : BusOwner} {a b : Bool} (h : s.takeInput.input.reset = false)
  (ha : s.takeInput.input.resetAfter = none) (hr : s.run ≠ .heldInReset) (hc : s.bus.owner = .cpu)
  (hg : s.takeInput.input.euGoes = false) (harb : s.arbitrating.arbitrate = s.arbitrating.withBus o a b)
  (ho : o ≠ .cpu)
include h ha hr hc hg harb ho

/-- The step of a grant: other masters write, and that is all. -/
theorem step_granted :
    step s =
      .next ((masterWrites s.takeInput.input.busWrites (s.grantedTo o a b)).latch s.takeInput.input.nmiLate) := by
  obtain ⟨q, e⟩ := s.arbitrating_eq
  obtain ⟨-, -, hin, -⟩ := s.grantedTo_kept o a b
  have hheld : (s.arbitrating.withBus o a b).held = true := by simp [State.held, State.withBus, ho]
  have hfirst : s.arbitrating.held = false := by
    rw [e]
    simp [State.held, hc]
  have hpre : (s.arbitrating.withBus o a b).input.prefetched = s.takeInput.input.prefetched := by rw [e]; rfl
  have hstep := step_awake h hr
  rw [harb, if_pos hheld, grantStep_first hfirst, hpre] at hstep
  have hhold := holdStep_waits (s := s.grantedTo o a b) (by rw [hin]; exact hg)
  obtain ⟨-, -, -, -, hin'⟩ := behindWrites (s.grantedTo o a b) s.takeInput.input.busWrites s.takeInput.input.nmiLate
  rw [hin] at hhold hin'
  rw [hstep]
  show andThen (holdStep (s.grantedTo o a b)) _ = _
  rw [hhold, andThen_of_next, State.closeStep_of_none (by rw [hin']; exact ha)]

/-- What BusRequests says of a grant. -/
theorem granted_outcome :
    ∃ t, step s = .next t ∧ Unmoved s t ∧ t.bus.owner = o ∧ t.bus.rq0 = a ∧ t.bus.rq1 = b ∧
      WrittenBy (s.takeInput.input.busWrites ++ s.takeInput.input.systemWrites) s t ∧
      (∀ x v, s.par.memMap = [] → s.takeInput.input.busWrites = [.memory x v] → t.cell x = some v) ∧
      ∀ (p : Word) (v : Byte), s.portRegion (p.setWidth 20) = .ram → s.takeInput.input.busWrites = [.port p v] →
        t.portCell (p.setWidth 20) = some v := by
  obtain ⟨hu, hpar, hin, h1, h2, h3, hw⟩ := s.grantedTo_kept o a b
  obtain ⟨ku, k1, k2, k3, -⟩ := behindWrites (s.grantedTo o a b) s.takeInput.input.busWrites s.takeInput.input.nmiLate
  refine ⟨_, step_granted h ha hr hc hg harb ho, hu.trans ku, k1.trans h1, k2.trans h2, k3.trans h3,
    (hw.trans (masterWrites_writtenBy _ _)).of_kept rfl rfl, fun x v hm hb => ?_, fun p v hp hb => ?_⟩
  · rw [hb]
    exact foreignWrite_cell_same (State.region_of_ram (by rw [hpar]; exact hm) x) v
  · rw [hb]
    refine foreignPortWrite_portCell_same (s := s.grantedTo o a b) ?_ v
    rw [State.portRegion, hpar]
    exact hp

end

/-! ## Who has the bus, behind arbitration -/

/-- No RESET cuts the step off, and the bus is with `o`, with these requests recorded. -/
def BusWith (o : BusOwner) (a b : Bool) (s : State) : Prop :=
  s.bus.owner = o ∧ s.bus.rq0 = a ∧ s.bus.rq1 = b ∧ s.input.resetAfter = none

section
variable {o : BusOwner} {a b : Bool} {s t : State} (h : BusWith o a b s)
include h

theorem BusWith.onBus (hb : OnBus s t) : BusWith o a b t := by
  obtain ⟨h1, h2, h3, h4⟩ := h
  have h5 := hb.resetAfter
  rw [h4] at h5
  exact ⟨hb.owner.trans h1, hb.rq0.trans h2, hb.rq1.trans h3, by simpa using h5⟩

theorem BusWith.of_kept (hb : t.bus = s.bus) (hi : t.input = s.input) : BusWith o a b t := by
  rw [BusWith, hb, hi]
  exact h

theorem BusWith.not_cutOff : ¬ CutOff s t := fun hc => by
  have := hc.before
  rw [h.2.2.2] at this
  cases this

/-- An entry leaves it so. -/
theorem BusWith.enter {ack : Bool} {n : Byte} (he : enter ack n s = .next t) : BusWith o a b t := by
  rcases enter_next he with hc | ⟨v, r, m, hv, hr, ht, -⟩
  · exact absurd hc h.not_cutOff
  · obtain ⟨-, -, -, -, -, -, -, -, hi, -, -, -, hb, -⟩ := interrupt_frame hr
    exact ((h.onBus hv).of_kept (t := { r with mem := m }) hb hi).onBus ht

/-- A recognition point leaves it so. -/
theorem BusWith.boundary {tf : Bool} (he : boundary tf s = .next t) : BusWith o a b t :=
  boundary_induct (P := BusWith o a b) he (h.of_kept rfl rfl) (fun _ _ hu => hu.of_kept rfl rfl)
    fun u _ _ _ m hu hv => by
      obtain ⟨-, hb, hi, -, -⟩ := settle_kept u
      exact (hu.of_kept (t := { u.settle with nmi := m }) hb hi).enter hv

/-- What lies behind a meaning leaves it so. -/
theorem BusWith.finish {i : Instr} {tf : Bool} (he : finish i tf s = .next t) : BusWith o a b t := by
  simp only [Machine.finish] at he
  split at he
  · cases he
    exact h.of_kept rfl rfl
  · refine (h.of_kept ?_ ?_ : BusWith o a b s.endPrefixes).boundary he
    all_goals
      unfold State.endPrefixes
      split <;> rfl

/-- An instruction leaves it so. -/
theorem BusWith.runInstr {i : Instr} {n : Nat} (he : runInstr i n s = .next t) : BusWith o a b t := by
  simp only [Machine.runInstr] at he
  split at he
  · cases he
  · obtain ⟨u, hu, ht⟩ := andThen_next he
    have h1 : BusWith o a b ({ s.note [] (takeOps n) with queue := padQueue maxBytes s.queue } : State).tick := h
    have h2 : BusWith o a b u := by
      rcases runBus_next hu with hc | ⟨v, r, m, hv, hk, hr, -⟩
      · exact absurd hc h1.not_cutOff
      · exact ((h1.onBus hv).of_kept (t := { r with mem := m }) hk.kept.2.1 hk.kept.1).onBus hr
    rcases unlessCut_next ht with rfl | ht
    · exact h2
    · exact (h2.of_kept (t := settleQueue _ u) rfl rfl).finish ht

theorem BusWith.instruction (he : instruction s = .next t) : BusWith o a b t := by
  simp only [Machine.instruction] at he
  split at he
  · exact (h.of_kept (t := { s with ip := s.ip + 1, cont := none }) rfl rfl).runInstr he
  · split at he
    · cases he
    · refine BusWith.runInstr ?_ he
      exact h.of_kept rfl rfl

end

/-- A step in which the CPU has the bus ends with the bus as arbitration has left it. -/
theorem step_unheld {s t : State} {a b : Bool} (h : s.takeInput.input.reset = false)
    (ha : s.takeInput.input.resetAfter = none) (hr : s.run ≠ .heldInReset)
    (harb : s.arbitrating.arbitrate = s.arbitrating.withBus .cpu a b) (hs : step s = .next t) :
    t.bus.owner = .cpu ∧ t.bus.rq0 = a ∧ t.bus.rq1 = b := by
  obtain ⟨q, e⟩ := s.arbitrating_eq
  have hb : BusWith .cpu a b (s.arbitrating.withBus .cpu a b) := ⟨rfl, rfl, rfl, by rw [e]; exact ha⟩
  have hheld : (s.arbitrating.withBus .cpu a b).held = false := rfl
  rw [step_awake h hr, harb, if_neg (by rw [hheld]; exact Bool.false_ne_true)] at hs
  obtain ⟨u, hu, ht⟩ := andThen_next hs
  have hbu : BusWith .cpu a b u := by
    split at hu
    · simp only [haltedStep] at hu
      split at hu
      · exact (hb.onBus (State.note_onBus _ _ _)).boundary hu
      · exact hb.boundary hu
    · split at hu
      · exact (hb.of_kept (t := { s.arbitrating.withBus .cpu a b with run := .running }) rfl rfl).boundary hu
      · exact hb.instruction hu
  obtain ⟨h1, h2, h3, h4⟩ := hbu
  rw [State.closeStep_of_none h4] at ht
  cases ht
  exact ⟨h1, h2, h3⟩

/-! ## The EU in hold acknowledge -/

/-- A step of hold acknowledge of the minimum mode in which the EU goes on. -/
theorem step_euGoes {s : State} (h : s.takeInput.input.reset = false) (hr : s.run = .running)
    (hs : s.par.strap = .minimum) (ho : s.bus.owner = .hold) (hh : s.takeInput.input.hold = true)
    (hg : s.takeInput.input.euGoes = true) (hw : s.takeInput.input.busWrites = []) :
    step s = andThen (heldInstruction (s.begun.withBus .hold false false)) fun t => .next t.closeStep := by
  have e := s.begun_eq
  have hsys : s.arbitrating = s.begun := by
    have hgap : s.begun.systemGap none = false := by rw [e]; simp [State.systemGap, hs]
    simp [State.arbitrating, systemStep, hgap]
  have hheld : s.begun.held = true := by rw [e]; simp [State.held, ho]
  have harb : s.begun.arbitrate = s.begun.withBus .hold false false :=
    arbitrate_hold (by rw [e]; exact hs) (by rw [e]; exact hh) (.inl hheld)
  have hheld' : (s.begun.withBus .hold false false).held = true := rfl
  have hin : (s.begun.withBus .hold false false).input = s.takeInput.input := by rw [e]; rfl
  have hex : (s.begun.withBus .hold false false).executes = true := by rw [e]; simp [State.executes, State.withBus, hr]
  rw [step_awake h (by rw [hr]; decide), hsys, harb, if_pos hheld', grantStep, if_pos hheld, holdStep, hin, hw, hg]
  simp only [masterWrites, hex, Bool.and_self, if_true]

theorem knownBytes_map (l : List Byte) : knownBytes (l.map some) = l := by
  induction l with
  | nil => rfl
  | cons b r ih => rw [List.map_cons, knownBytes, ih]

/-- A queue of known bytes comes back from its full length. -/
theorem trimQueue_padQueue (n : Nat) (l : List Byte) (h : l.length ≤ n) :
    trimQueue (padQueue n (l.map some)) = l.map some := by
  induction n generalizing l with
  | zero => rw [List.length_eq_zero_iff.1 (Nat.le_zero.1 h)]; rfl
  | succ n ih =>
    cases l with
    | nil =>
      have hn : trimQueue (padQueue n []) = [] := ih [] (Nat.zero_le n)
      simp only [List.map_nil, padQueue, trimQueue, hn]
    | cons b r =>
      have hr := ih r (by simpa using h)
      simp only [List.map_cons, padQueue, trimQueue, hr]

/-- The EU executes an instruction that needs no bus. -/
theorem runHeld_of_free {i : Instr} {n : Nat} {s stay r : State}
    (hrep : (s.pfx.rep.isSome && !isStringPrimitive i && !isPrefixByte i) = false)
    (hx : exec i { s with queue := padQueue maxBytes s.queue }.tick = .next r)
    (hb : needsNoBus i s.flags.tf s r = true) :
    runHeld i n s stay =
      finish i s.flags.tf ({ r with queue := trimQueue r.queue }.note [] (takeOps n ++ emptyOps r)) := by
  simp only [runHeld, hrep, Bool.false_eq_true, if_false, hx, hb, if_true]

theorem endPrefixes_of_none {s : State} (h : s.pfx = Pfx.none) : s.endPrefixes = s := by
  unfold State.endPrefixes
  split
  · rfl
  · rw [← h]

/-- The machine behind MOV of an immediate to a register that was taken from the queue. -/
def State.withImmediate (s : State) (r : RegField) (v : Word) (l : List Byte) : State :=
  { s.writeReg .word r v with ip := s.ip + 3, queue := l.map some, draws := s.draws + 1 }

section
variable {s : State} (hc : s.cont = none) (hp : s.pfx = Pfx.none)
include hc hp

/-- A load needs the bus, so it waits in hold acknowledge. -/
theorem heldInstruction_load {r : RegField} {m : MemOp} {l : List Byte}
    (hd : decode (knownBytes s.queue) = .ok (.movRmReg .toReg .word r (.mem m), l)) :
    heldInstruction s = .next (s.latch s.input.nmiLate) := by
  have hrep : s.pfx.rep = none := by rw [hp]; rfl
  have hbus : ∀ (u v : State) (tf : Bool), needsNoBus (.movRmReg .toReg .word r (.mem m)) tf u v = false := by
    intro u v tf
    have hne : (u.allAccesses (.movRmReg .toReg .word r (.mem m))).isEmpty = false := by
      simp only [State.allAccesses, State.accesses, State.rmRead, State.rmAccesses, State.memoryAccesses,
        operandAccesses, State.pendingEntry, List.append_nil]
      split <;> rfl
    rw [needsNoBus, hne, Bool.false_and]
  simp only [heldInstruction, hc, hd, runHeld, hrep, Option.isSome_none, Bool.false_and, Bool.false_eq_true, if_false,
    exec, execMovRmReg, hbus]

/-- MOV of an immediate to a register needs no bus, so it is executed in hold acknowledge. -/
theorem heldInstruction_immediate {r : RegField} {v : Word} {l : List Byte}
    (hq : s.queue = (encode (.movRegImm .word r v) ++ l).map some) (hlen : s.queue.length ≤ 6) (hi : s.inhibit = false)
    (hn : s.nmi = false) (hl : s.input.nmiLate = false) (hin : s.input.intr = false) (htf : s.flags.tf = false)
    (hcut : s.input.resetAfter = none) :
    ∃ c q, heldInstruction s = .next ((s.withImmediate r v l).putOut c q) := by
  have hrep : s.pfx.rep = none := by rw [hp]; rfl
  have hk : knownBytes s.queue = encode (.movRegImm .word r v) ++ l := by rw [hq, knownBytes_map]
  have hd : decode (knownBytes s.queue) = .ok (.movRegImm .word r v, l) := by
    rw [hk]
    exact decodeOfEncode _ l rfl
  have h3 : (encode (.movRegImm .word r v)).length = 3 := rfl
  have hlen3 : (knownBytes s.queue).length - l.length = 3 := by rw [hk, List.length_append, h3]; omega
  have hdrop : s.queue.drop 3 = l.map some := by
    rw [hq, List.map_append]
    exact List.drop_left' (by rw [List.length_map, h3])
  have hl6 : l.length ≤ maxBytes := by
    rw [hq, List.length_map, List.length_append, h3] at hlen
    show l.length ≤ 6
    omega
  have hbus : ∀ u w : State, w.inhibit = false → w.nmi = false → w.input.nmiLate = false → w.input.intr = false →
      needsNoBus (.movRegImm .word r v) false u w = true := by
    intro u w h1 h2 h3 h4
    simp [needsNoBus, State.allAccesses, State.accesses, State.pendingEntry, h1, h2, h3, h4]
  have hheld : heldInstruction s = runHeld (.movRegImm .word r v) 3 { s with ip := s.ip + 3, queue := l.map some }
      (s.latch s.input.nmiLate) := by
    simp only [heldInstruction, hc, hd, hlen3, hdrop]
    rfl
  have hx : exec (.movRegImm .word r v)
      ({ s with ip := s.ip + 3, queue := padQueue maxBytes (l.map some) } : State).tick =
        .next { s.withImmediate r v l with queue := padQueue maxBytes (l.map some) } := rfl
  have hfree : needsNoBus (.movRegImm .word r v) s.flags.tf { s with ip := s.ip + 3, queue := l.map some }
      { s.withImmediate r v l with queue := padQueue maxBytes (l.map some) } = true := by
    rw [htf]
    exact hbus _ _ hi hn hl hin
  have hrun := runHeld_of_free (n := 3) (stay := s.latch s.input.nmiLate) (by rw [hrep]; rfl) hx hfree
  rw [trimQueue_padQueue _ _ hl6] at hrun
  have hfin : ∀ c q, finish (.movRegImm .word r v) s.flags.tf ((s.withImmediate r v l).putOut c q) =
      .next ((s.withImmediate r v l).putOut c q) := fun c q => by
    have h := finish_idle (i := .movRegImm .word r v) (tf := s.flags.tf) (s := (s.withImmediate r v l).putOut c q) rfl
      (State.cut_of_none hcut) (by rw [htf]; rfl) hi hl hn hin
    rw [endPrefixes_of_none (s := (s.withImmediate r v l).putOut c q) hp] at h
    exact h
  exact ⟨_, _, hheld.trans (hrun.trans (hfin (s.bus.cycles ++ []) _))⟩

end

/-! ## A write of another master between two cycles -/

/-- The inputs of the step with other gaps. -/
def State.withGaps (s : State) (l : List Gap) : State := { s with input := { s.input with gaps := l } }

theorem State.passGap_cons {s : State} {g : Gap} {l : List Gap} (h : s.input.gaps = g :: l) (prev : Option Access) :
    s.passGap prev = (masterWrites (s.gapWrites prev g) s).withGaps l := by
  have e : (masterWrites (s.gapWrites prev g) s).input = s.input := by rw [masterWrites_eq]
  rw [State.passGap, h, State.withGaps, e]

theorem gapWrites_none (s : State) (prev : Option Access) :
    s.gapWrites prev { localWrites := [], systemWrites := [] } = [] := by
  simp [State.gapWrites]

/-- The local bus is free behind a cycle that is not tied to the next one, but not under LOCK. -/
theorem gapWrites_local (s : State) {a : Access} (h : a.tied = false) (l : List MasterWrite) :
    s.gapWrites (some a) { localWrites := l, systemWrites := [] } = if s.pfx.lock then [] else l := by
  cases hl : s.pfx.lock <;> simp [State.gapWrites, State.localGap, h, hl]

/-- The next cycle is made when no RESET cuts it off. -/
theorem replay_next {cur next : State} {s r v : State} {a : Access} {prev : Option Access} (l : List Access)
    (hc : cur.input.resetAfter = none) (hn : a.perform r (cur.passGap prev) = next)
    (hin : next.input.resetAfter = none) :
    replay s r v (a :: l) prev cur = replay s r v l (some a) (next.note [a.cycle s r v] []) := by
  simp only [replay, State.cut_of_none hc, Bool.false_eq_true, if_false]
  rw [hn, State.countCycle_of_none (s := next.note [a.cycle s r v] []) hin]

theorem State.lookDone_of_ram {s : State} (h : s.par.memMap = []) (a : PhysAddr) : s.lookDone a = s := by
  simp [State.lookDone, State.region_of_ram h]

/-- The machine with one gap to come, in which another master of the local bus writes a byte. -/
def State.beforeWrite (s : State) (x : PhysAddr) (b : Byte) : State :=
  s.withGaps [{ localWrites := [.memory x b], systemWrites := [] }]

/-- The machine behind that gap: the byte is written, but not under LOCK. -/
def State.behindWrite (s : State) (x : PhysAddr) (b : Byte) : State :=
  (if s.pfx.lock then s else s.writeByte x b).withGaps []

section
variable {s : State} {x a : PhysAddr} {b : Byte}

/-- Behind a first gap in which nothing is written. -/
theorem passGap_first (hg : s.input.gaps =
      [{ localWrites := [], systemWrites := [] }, { localWrites := [.memory x b], systemWrites := [] }])
    (prev : Option Access) : s.passGap prev = s.beforeWrite x b := by
  rw [State.passGap_cons hg, gapWrites_none]
  rfl

variable (hm : s.par.memMap = [])
include hm

/-- Behind the gap in which a byte is written. -/
theorem passGap_second {p : Access} (hp : p.tied = false) (c : List BusCycle) (q : List QueueOp) :
    ((s.beforeWrite x b).note c q).passGap (some p) =
      (s.behindWrite x b).putOut (s.bus.cycles ++ c) (s.bus.queueOps ++ q) := by
  have hlock : ((s.beforeWrite x b).note c q).pfx.lock = s.pfx.lock := rfl
  rw [State.passGap_cons (s := (s.beforeWrite x b).note c q) rfl, gapWrites_local _ hp, State.behindWrite, hlock]
  cases s.pfx.lock with
  | true => rfl
  | false =>
    have hw : ((s.beforeWrite x b).note c q).foreignWrite x b = ((s.beforeWrite x b).note c q).writeByte x b :=
      State.foreignWrite_of_ram (s := (s.beforeWrite x b).note c q) hm x b
    simp only [Bool.false_eq_true, if_false, masterWrites, State.masterWrite, hw]
    rfl

theorem State.behindWrite_ram : (s.behindWrite x b).par.memMap = [] := by
  unfold State.behindWrite
  split <;> exact hm

/-- The read of a byte of RAM that is read and then written. -/
theorem view_modify {v : Byte} (hg : s.input.gaps =
      [{ localWrites := [], systemWrites := [] }, { localWrites := [.memory x b], systemWrites := [] }])
    (hv : s.cell a = some v) (sr : Option SReg) (a' : PhysAddr) (u : State) :
    (view (operandAccesses .readMemory sr .byte a a' ++ operandAccesses .writeMemory sr .byte a a') none s u).2 =
      u.writeByte a v := by
  have hram : (s.beforeWrite x b).region a = .ram := State.region_of_ram (s := s.beforeWrite x b) hm a
  have hcell : (s.beforeWrite x b).cell a = some v := hv
  have hlook : (s.beforeWrite x b).look u a = u.writeByte a v := by
    simp only [State.look, hram, hcell]
  simp only [operandAccesses, List.cons_append, List.nil_append, view, passGap_first hg, Access.look, Access.bytes,
    Bool.false_eq_true, if_false, lookBytes, hlook]

/-- Between the read and the write of an operand another master writes, but not under LOCK. -/
theorem replay_modify (hr : s.input.resetAfter = none) (hg : s.input.gaps =
      [{ localWrites := [], systemWrites := [] }, { localWrites := [.memory x b], systemWrites := [] }])
    (sr : Option SReg) (a' : PhysAddr) (s0 r v : State) :
    ∃ cur, replay s0 r v
        (operandAccesses .readMemory sr .byte a a' ++ operandAccesses .writeMemory sr .byte a a') none s = cur ∧
      cur.cut = false ∧ cur.mem = ((s.behindWrite x b).writeByte a (r.readByte a)).mem := by
  have hread : Access.perform { kind := .readMemory, addr := a, wide := false, seg := sr, part := 0, tied := false } r
      (s.passGap none) = s.beforeWrite x b := by
    rw [passGap_first hg]
    exact State.lookDone_of_ram (s := s.beforeWrite x b) hm a
  have hr' : (s.behindWrite x b).input.resetAfter = none := by
    unfold State.behindWrite
    split <;> exact hr
  have hwrite : ∀ c q p, p.tied = false →
      Access.perform { kind := .writeMemory, addr := a, wide := false, seg := sr, part := 0, tied := false } r
        (((s.beforeWrite x b).note c q).passGap (some p)) =
          ((s.behindWrite x b).writeByte a (r.readByte a)).putOut (s.bus.cycles ++ c) (s.bus.queueOps ++ q) :=
    fun c q p hp => by
      rw [passGap_second hm hp]
      exact State.busWrite_of_ram (s := (s.behindWrite x b).putOut (s.bus.cycles ++ c) (s.bus.queueOps ++ q))
        (State.behindWrite_ram hm) a (r.readByte a)
  simp only [operandAccesses, List.cons_append, List.nil_append]
  rw [replay_next _ hr hread hr, replay_next (cur := (s.beforeWrite x b).note _ []) [] hr (hwrite _ _ _ rfl) hr']
  exact ⟨_, rfl, State.cut_of_none hr', rfl⟩

end

theorem exec_incByte {f : State} {rm : RM} {v : Byte} (h : f.readRM .byte rm = v) :
    exec (.incRm .byte rm) f =
      .next (({ f with flags := (f.flags.ofAdd v 1 false).keepCf f.flags } : State).writeRM .byte rm (v + 1)) := by
  have hadd : addResult v 1 false = v + 1 := by simp [addResult]
  rw [← hadd, ← h]
  rfl

/-- INC of a byte of RAM, another master writing between its read and its write. -/
theorem runBus_incInterleaved {s : State} {m : MemOp} {x : PhysAddr} {b v : Byte}
    (hx : x ≠ phys (s.memSeg m) (s.ea m)) (hv : s.cell (phys (s.memSeg m) (s.ea m)) = some v) (hm : s.par.memMap = [])
    (hr : s.input.resetAfter = none) (hg : s.input.gaps =
      [{ localWrites := [], systemWrites := [] }, { localWrites := [.memory x b], systemWrites := [] }]) :
    ∃ t, runBus (.incRm .byte (.mem m)) s = .next t ∧ t.cell (phys (s.memSeg m) (s.ea m)) = some (v + 1) ∧
      t.cell x = if s.pfx.lock then s.cell x else some b := by
  have hcalm : s.calm = false := by simp [State.calm, hg]
  have hrun : ∀ i, runBus i s = runByCycles i s := fun i => by simp [runBus, hcalm]
  have hview : (view (s.accesses (.incRm .byte (.mem m))) none s { s with ioIn := [] }).2 =
      ({ s with ioIn := [] } : State).lwrite .byte (s.memSeg m) (s.ea m) v :=
    view_modify hm hg hv (some (s.segReg (MemOp.segment m))) (phys (s.memSeg m) (s.ea m + 1)) { s with ioIn := [] }
  have hread : (({ s with ioIn := [] } : State).lwrite .byte (s.memSeg m) (s.ea m) v).readRM .byte (.mem m) = v := by
    rw [State.readRM, State.lwrite_ea, State.lwrite_memSeg]
    exact State.lread_lwrite _ _ _ _ _
  have hx' := exec_incByte hread
  generalize hf : ({ s with ioIn := [] } : State).lwrite .byte (s.memSeg m) (s.ea m) v = f at hview hx'
  have hseg : f.memSeg m = s.memSeg m := by rw [← hf]; exact State.lwrite_memSeg _ _ _ _ _ _
  have hea : f.ea m = s.ea m := by rw [← hf]; exact State.lwrite_ea _ _ _ _ _ _
  generalize hr' :
    ({ f with flags := (f.flags.ofAdd v 1 false).keepCf f.flags } : State).writeRM .byte (.mem m) (v + 1) = r at hx'
  have hbyte : r.readByte (phys (s.memSeg m) (s.ea m)) = v + 1 := by
    rw [← hr', ← hseg, ← hea]
    exact State.readByte_of_cell (State.cell_writeByte_same _ _ _)
  obtain ⟨cur, hcur, hcut, hmem⟩ := replay_modify (a := phys (s.memSeg m) (s.ea m)) hm hr hg
    (some (s.segReg (MemOp.segment m))) (phys (s.memSeg m) (s.ea m + 1)) s r f
  rw [hbyte] at hmem
  rw [hrun, runByCycles_of_uncut (i := .incRm .byte (.mem m)) nofun hview rfl hx' hcur hcut]
  refine ⟨_, rfl, ?_, ?_⟩
  · show Memory.get cur.mem _ = _
    rw [hmem]
    exact State.cell_writeByte_same _ _ _
  · show Memory.get cur.mem _ = _
    rw [hmem]
    refine (State.cell_writeByte_other _ _ hx).trans ?_
    rw [State.behindWrite]
    cases s.pfx.lock with
    | true => rfl
    | false => exact s.cell_writeByte_same x b

/-! ## Settling BusRequests -/

/-- What arbitration looks at is the state's and the step's. -/
theorem State.arbitrating_bus (s : State) :
    s.arbitrating.bus.owner = s.bus.owner ∧ s.arbitrating.bus.rq0 = s.bus.rq0 ∧ s.arbitrating.bus.rq1 = s.bus.rq1 ∧
      s.arbitrating.input = s.takeInput.input ∧ s.arbitrating.pfx = s.pfx ∧ s.arbitrating.par = s.par := by
  obtain ⟨q, e⟩ := s.arbitrating_eq
  rw [e]
  exact ⟨rfl, rfl, rfl, rfl, rfl, rfl⟩

/-- The master that a request is granted to, in either mode. -/
def State.grantee (s : State) : BusOwner :=
  if s.par.strap = .minimum then .hold else if s.bus.rq0 || s.takeInput.input.rq0 then .rq0 else .rq1

/-- A request is granted, and one of the other master of the maximum mode stays recorded. -/
theorem arbitrating_grants {s : State} (hc : s.bus.owner = .cpu) (hl : s.pfx.lock = false)
    (h : s.par.strap = .minimum ∧ s.takeInput.input.hold = true ∨ s.par.strap = .maximum ∧
      (s.bus.rq0 = true ∨ s.takeInput.input.rq0 = true ∨ s.bus.rq1 = true ∨ s.takeInput.input.rq1 = true)) :
    s.arbitrating.arbitrate = s.arbitrating.withBus s.grantee false
      (decide (s.par.strap = .maximum) && (s.bus.rq0 || s.takeInput.input.rq0) &&
        (s.bus.rq1 || s.takeInput.input.rq1)) := by
  obtain ⟨k1, k2, k3, k4, k5, k6⟩ := s.arbitrating_bus
  rcases h with ⟨hs, hh⟩ | ⟨hs, hreq⟩
  · rw [arbitrate_hold (by rw [k6]; exact hs) (by rw [k4]; exact hh) (.inr (by rw [k5]; exact hl))]
    simp [State.grantee, hs]
  · rw [arbitrate_pulse (by rw [k6]; exact hs) (by rw [k1]; exact hc) (by rw [k5]; exact hl)
      (by rw [k2, k3, k4]; exact hreq), k2, k3, k4]
    simp [State.grantee, hs]

/-- Settles O57. -/
theorem busRequests : Obligations.BusRequests := by
  refine ⟨fun s e he h ha hr hc hl hg hreq => ?_, fun s t e he h ha hr hc hl hst => ?_,
    fun s t e he h ha hr hs ho hp h0 h1 hp1 hst => ?_,
    fun s e r v m l he h ha hr hs ho hh hg hw hc hp hi hn hed hla hin htf hq => ?_,
    fun s m a x b v ha hx hv hm hr hg => ?_⟩
  · subst he
    have hgr : s.grantee ≠ .cpu := by
      unfold State.grantee
      split
      · nofun
      · split <;> nofun
    obtain ⟨t, hst, hu, h1, h2, h3, ⟨hmem, hport⟩, hcell, hpcell⟩ :=
      granted_outcome h ha hr hc hg (arbitrating_grants hc hl hreq) hgr
    exact ⟨t, hst, hu, h1, h2, h3, hmem, fun a b hm _ hb => hcell a b hm hb, hport, fun p b hp _ hb => hpcell p b hp hb⟩
  · subst he
    obtain ⟨k1, k2, k3, k4, k5, k6⟩ := s.arbitrating_bus
    have harb := arbitrate_locked (s := s.arbitrating) (by rw [k1]; exact hc) (by rw [k5]; exact hl)
    rw [k2, k3, k4, k6] at harb
    cases hs : s.par.strap with
    | minimum =>
      rw [hs] at harb
      obtain ⟨h1, h2, h3⟩ := step_unheld h ha hr harb hst
      exact ⟨h1, fun _ => ⟨h2, h3⟩, nofun⟩
    | maximum =>
      rw [hs] at harb
      obtain ⟨h1, h2, h3⟩ := step_unheld h ha hr harb hst
      exact ⟨h1, nofun, fun _ => ⟨h2, h3⟩⟩
  · subst he
    obtain ⟨k1, k2, k3, k4, k5, k6⟩ := s.arbitrating_bus
    have harb := arbitrate_giveBack (s := s.arbitrating) (by rw [k6]; exact hs) (by rw [k1]; exact ho)
      (by rw [k4]; exact hp) (by rw [k2]; exact h0) (by rw [k3]; exact h1) (by rw [k4]; exact hp1)
    exact (step_unheld h ha hr harb hst).1
  · subst he
    have e := s.begun_eq
    have hstep := step_euGoes h hr hs ho hh hg hw
    have hc' : (s.begun.withBus .hold false false).cont = none := by rw [e]; exact hc
    have hp' : (s.begun.withBus .hold false false).pfx = Pfx.none := by rw [e]; exact hp
    have hq' : (s.begun.withBus .hold false false).queue = s.queue := by rw [e]; rfl
    have hin' : (s.begun.withBus .hold false false).input = s.takeInput.input := by rw [e]; rfl
    have hn' : (s.begun.withBus .hold false false).nmi = false := by rw [e, hn, hed]; rfl
    have hi' : (s.begun.withBus .hold false false).inhibit = false := by rw [e]; exact hi
    have htf' : (s.begun.withBus .hold false false).flags.tf = false := by rw [e]; exact htf
    refine ⟨fun hqe => ?_, fun hd => ?_⟩
    · obtain ⟨c, q, hx⟩ := heldInstruction_immediate hc' hp' (hq'.trans hqe) (by rw [hq']; exact hq) hi' hn'
        (by rw [hin']; exact hla) (by rw [hin']; exact hin) htf' (by rw [hin']; exact ha)
      rw [hx, andThen_of_next, State.closeStep_of_none (by exact ha)] at hstep
      refine ⟨_, hstep, rfl, ?_, rfl, ?_, ?_⟩
      · rw [e]; rfl
      · have hw := State.writeReg_regWritten (s.begun.withBus .hold false false) .word r v
        rw [e] at hw ⊢
        exact hw
      · rw [e]; rfl
    · have hx := heldInstruction_load hc' hp' (by rw [hq']; exact hd)
      rw [hx, andThen_of_next, State.closeStep_of_none (by exact ha)] at hstep
      refine ⟨_, hstep, rfl, ?_, ?_, ?_⟩
      all_goals rw [e]
      · exact .refl s
      · rfl
      · rfl
  · subst ha
    exact runBus_incInterleaved hx hv hm hr hg

end Sys2Proof.Machine
end
